-- ==== Sys2Proof/Word.lean ====
section
/-! DEFINITION. The two word types of the block: a register word (R7: 32-bit unsigned) and a byte of
the SPI bus or of a memory. -/

namespace Sys2Proof

/-- A register value (R7: "All register values are 32-bit unsigned words"). -/
abbrev Word := BitVec 32

/-- A byte: one transfer of the SPI bus (R7 `Xfer`), one byte of DRAM. -/
abbrev Byte := BitVec 8

/-- One MiB, `2^20` bytes (R7). -/
abbrev MiB : Nat := 0x100000

end Sys2Proof
end

