-- ==== Sys2Proof/Config.lean ====
section
/-! DEFINITION. What is fixed for one block: the Variant Descriptor (R4), the chip-select slots, the
binding of the flash-side space (R59), and the free values, uninterpreted constants for everything the
spec leaves to the environment (R7, D11). -/

namespace Sys2Proof

/-- The chip-select slots `0 .. MAX_CS-1` (R6: `MAX_CS = 5`). -/
inductive Cs where
  | cs0 | cs1 | cs2 | cs3 | cs4
  deriving DecidableEq, Repr, Inhabited

/-- The number of a chip-select. -/
def Cs.toNat : Cs → Nat
  | .cs0 => 0
  | .cs1 => 1
  | .cs2 => 2
  | .cs3 => 3
  | .cs4 => 4

/-- All slots in ascending order. -/
def Cs.all : List Cs := [.cs0, .cs1, .cs2, .cs3, .cs4]

/-- One value per chip-select slot. -/
structure Slots (α : Type) where
  s0 : α
  s1 : α
  s2 : α
  s3 : α
  s4 : α
  deriving DecidableEq, Repr

/-- The value in a slot. -/
def Slots.get {α : Type} (x : Slots α) : Cs → α
  | .cs0 => x.s0
  | .cs1 => x.s1
  | .cs2 => x.s2
  | .cs3 => x.s3
  | .cs4 => x.s4

/-- The slots with one value replaced. -/
def Slots.set {α : Type} (x : Slots α) (cs : Cs) (v : α) : Slots α :=
  match cs with
  | .cs0 => { x with s0 := v }
  | .cs1 => { x with s1 := v }
  | .cs2 => { x with s2 := v }
  | .cs3 => { x with s3 := v }
  | .cs4 => { x with s4 := v }

/-- The slots filled from a function. -/
def Slots.ofFn {α : Type} (f : Cs → α) : Slots α :=
  ⟨f .cs0, f .cs1, f .cs2, f .cs3, f .cs4⟩

/-- A segment `(start, size)` (R120). Both are integers: `decode` may give a size below zero. -/
structure Segment where
  start : Int
  size : Int
  deriving DecidableEq, Repr

/-- One past the segment's last byte (R120). -/
def Segment.stop (g : Segment) : Int := g.start + g.size

/-- The encode and decode strategy pair (R4 `V.seg_enc`, R120). -/
inductive SegEnc where
  | legacy8M
  | new1M
  deriving DecidableEq, Repr

/-- The Variant Descriptor (R4), "selected at construction, never mutated". -/
structure Variant where
  name : String
  rConf : Nat
  rCeCtrl : Nat
  rCtrl0 : Nat
  rTimings : Nat
  numCs : Nat
  segDefault : Slots Segment
  winBase : Nat
  winSize : Nat
  hasDma : Bool
  dmaFlashMask : Word
  dmaDramMask : Word
  segEnc : SegEnc
  fixedEnd : Slots (Option Nat)
  injectFailure : Bool
  deriving DecidableEq, Repr

/-- The variant has this chip-select (`cs < V.num_cs`). -/
def Variant.has (v : Variant) (cs : Cs) : Bool := decide (cs.toNat < v.numCs)

/-- The chip-selects of the variant, ascending. -/
def Variant.slots (v : Variant) : List Cs := Cs.all.filter v.has

/-- What the DMA engine's flash-side space is bound to (R59): the reference integration serves it by
the framer; otherwise it is an external space and its answers are the environment's. -/
inductive FlashBinding where
  | framer
  | external
  deriving DecidableEq, Repr

/-- How the DRAM side answers one access (R7: "with an explicit failure result"; R59: content and
`Fail` are the environment's). -/
inductive DramReply where
  /-- The access fails. -/
  | fail
  /-- The access succeeds; a read gives what the system memory holds. -/
  | plain
  /-- A read succeeds and gives this word, whatever the block wrote there before. -/
  | word (w : Word)
  deriving DecidableEq, Repr, Inhabited

/-- FREE VALUE (log 6): the byte the flash side answers to a transfer when the input list `miso` gives
none. Nothing constrains it (R7: "The returned byte is chosen by the environment"). -/
opaque Config.freeMiso : Nat → Byte

/-- FREE VALUE (log 7): how the DRAM side answers when the input list `dramReplies` gives nothing. -/
opaque Config.freeDramReply : Nat → DramReply

/-- FREE VALUE (log 8): how an external flash-side space answers when `flashReplies` gives nothing
(`none` is `Fail`). -/
opaque Config.freeFlashReply : Nat → Option Word

/-- FREE VALUE (log 9): `OVERLAP_WINNER` (R131, D11), an uninterpreted function of the list of the
chip-selects that cover an address; the mapper takes its value modulo the length of the list. -/
opaque Config.overlapWinner : List Cs → Nat

end Sys2Proof
end

