-- ==== Sys2Proof/Syntax.lean ====
section
/-! DEFINITION. The operations of the block: one constructor per row of spec/opcode_table.json, with
the operands the spec gives it (R61 REG, R63 FLASH, R64 DMACTL, R65 SNOOP). -/

namespace Sys2Proof

/-- The width of an access in bytes (R48: 1 to 4). -/
inductive Width where
  | w1 | w2 | w3 | w4
  deriving DecidableEq, Repr

/-- The number of bytes. -/
def Width.bytes : Width → Nat
  | .w1 => 1
  | .w2 => 2
  | .w3 => 3
  | .w4 => 4

/-- The direction of an access (R60: 0 read or load, 1 write or store). -/
inductive Dir where
  | read
  | write
  deriving DecidableEq, Repr

/-- The four values of the MODE field (R13). -/
inductive Mode where
  | read
  | fastRead
  | write
  | user
  deriving DecidableEq, Repr

/-- The four operation formats (R60). -/
inductive Format where
  | reg
  | flash
  | dmactl
  | snoop
  deriving DecidableEq, Repr

/-- The registers of the register map (R62). -/
inductive Reg where
  | conf
  | ceCtrl
  | intrCtrl
  | ctrl (cs : Cs)
  | segAddr (cs : Cs)
  | dummyData
  | dmaCtrl
  | dmaFlashAddr
  | dmaDramAddr
  | dmaLen
  | dmaChecksum
  | timings
  deriving DecidableEq, Repr

/-- The operations: 42 REG rows, 8 FLASH rows, 5 DMACTL rows, 19 SNOOP rows (R76).

A REG row carries the access width and, for a write, the data word as the guest presents it. A FLASH
row carries the chip-select and the offset inside its segment that the routing gives (R63, R130). A
DMACTL row carries the bits of the written value that its selector leaves open. A SNOOP row is the
one-byte user-mode store of its byte and carries that store's chip-select and offset. -/
inductive Instr where
  | rdConf (w : Width)
  | wrConf (w : Width) (data : Word)
  | rdCeCtrl (w : Width)
  | wrCeCtrl (w : Width) (data : Word)
  | rdIntrCtrl (w : Width)
  | wrIntrCtrl (w : Width) (data : Word)
  | rdCtrl0 (w : Width)
  | wrCtrl0 (w : Width) (data : Word)
  | rdCtrl1 (w : Width)
  | wrCtrl1 (w : Width) (data : Word)
  | rdCtrl2 (w : Width)
  | wrCtrl2 (w : Width) (data : Word)
  | rdCtrl3 (w : Width)
  | wrCtrl3 (w : Width) (data : Word)
  | rdCtrl4 (w : Width)
  | wrCtrl4 (w : Width) (data : Word)
  | rdSegAddr0 (w : Width)
  | wrSegAddr0 (w : Width) (data : Word)
  | rdSegAddr1 (w : Width)
  | wrSegAddr1 (w : Width) (data : Word)
  | rdSegAddr2 (w : Width)
  | wrSegAddr2 (w : Width) (data : Word)
  | rdSegAddr3 (w : Width)
  | wrSegAddr3 (w : Width) (data : Word)
  | rdSegAddr4 (w : Width)
  | wrSegAddr4 (w : Width) (data : Word)
  | rdDummyData (w : Width)
  | wrDummyData (w : Width) (data : Word)
  | rdDmaCtrl (w : Width)
  | wrDmaCtrl (w : Width) (data : Word)
  | rdDmaFlashAddr (w : Width)
  | wrDmaFlashAddr (w : Width) (data : Word)
  | rdDmaDramAddr (w : Width)
  | wrDmaDramAddr (w : Width) (data : Word)
  | rdDmaLen (w : Width)
  | wrDmaLen (w : Width) (data : Word)
  | rdDmaChecksum (w : Width)
  | wrDmaChecksum (w : Width) (data : Word)
  | rdTimings (w : Width)
  | wrTimings (w : Width) (data : Word)
  | rdUnrecognised (off : Byte) (w : Width)
  | wrUnrecognised (off : Byte) (w : Width) (data : Word)
  | fldRead (cs : Cs) (addr : Word) (w : Width)
  | fldFread (cs : Cs) (addr : Word) (w : Width)
  | fldWrite (cs : Cs) (addr : Word) (w : Width)
  | fldUser (cs : Cs) (addr : Word) (w : Width)
  | fstRead (cs : Cs) (addr : Word) (w : Width) (data : Word)
  | fstFread (cs : Cs) (addr : Word) (w : Width) (data : Word)
  | fstWrite (cs : Cs) (addr : Word) (w : Width) (data : Word)
  | fstUser (cs : Cs) (addr : Word) (w : Width) (data : Word)
  | dmaStop (upper : BitVec 31)
  | dmaCksum (wr : Bool) (upper : BitVec 28)
  | dmaCksumCal (wr : Bool) (upper : BitVec 28)
  | dmaRd (calib : Bool) (upper : BitVec 28)
  | dmaWr (calib : Bool) (upper : BitVec 28)
  | snoopPlainRead (cs : Cs) (addr : Word)
  | snoopPlainRead4 (cs : Cs) (addr : Word)
  | snoopPlainPp (cs : Cs) (addr : Word)
  | snoopPlainPp4 (cs : Cs) (addr : Word)
  | snoopPlainDpp (cs : Cs) (addr : Word)
  | snoopPlainQpp (cs : Cs) (addr : Word)
  | snoopPlainQpp4 (cs : Cs) (addr : Word)
  | snoopPlainPp44 (cs : Cs) (addr : Word)
  | snoopFastFastRead (cs : Cs) (addr : Word)
  | snoopFastFastRead4 (cs : Cs) (addr : Word)
  | snoopFastDor (cs : Cs) (addr : Word)
  | snoopFastDor4 (cs : Cs) (addr : Word)
  | snoopFastQor (cs : Cs) (addr : Word)
  | snoopFastQor4 (cs : Cs) (addr : Word)
  | snoopDualDior (cs : Cs) (addr : Word)
  | snoopDualDior4 (cs : Cs) (addr : Word)
  | snoopQuadQior (cs : Cs) (addr : Word)
  | snoopQuadQior4 (cs : Cs) (addr : Word)
  | snoopUnknown (cs : Cs) (addr : Word) (b : Byte)
  deriving DecidableEq, Repr

end Sys2Proof
end

