-- ==== Sys2Proof/Machine/Tables.lean ====
section
/-! DEFINITION. The spec's constants (R6), the register map (R62), the lookup tables (R70, R71, R72) and
the reference Variant Descriptors (D2). -/

namespace Sys2Proof.Machine

/-- `REG_SPACE_BYTES` (R6). -/
def regSpaceBytes : Nat := 0x100

/-- `DMA_LEN_MASK` (R6, R24). -/
def dmaLenMask : Word := 0x01FFFFFC#32

/-- `CALIB_TUNABLE_RATIOS` (R6, R180). -/
def calibTunableRatios : Nat := 4

/-- `INJECT_SENTINEL` (R6, R188). -/
def injectSentinel : Word := 0x0BADC0DE#32

/-- `READ_OPCODE` (R6, R143). -/
def readOpcode : Byte := 0x03#8

/-- `READ_FILL` (R6, R147). -/
def readFill : Byte := 0x00#8

/-- The registers in the order of the register map (R62). -/
def regMap : List Reg :=
  [.conf, .ceCtrl, .intrCtrl,
    .ctrl .cs0, .ctrl .cs1, .ctrl .cs2, .ctrl .cs3, .ctrl .cs4,
    .segAddr .cs0, .segAddr .cs1, .segAddr .cs2, .segAddr .cs3, .segAddr .cs4,
    .dummyData, .dmaCtrl, .dmaFlashAddr, .dmaDramAddr, .dmaLen, .dmaChecksum, .timings]

/-- The byte offset of a register (R62, column "byte offset"). -/
def regOffset (v : Variant) : Reg → Nat
  | .conf => v.rConf
  | .ceCtrl => v.rCeCtrl
  | .intrCtrl => 0x08
  | .ctrl cs => v.rCtrl0 + 4 * cs.toNat
  | .segAddr cs => 0x30 + 4 * cs.toNat
  | .dummyData => 0x54
  | .dmaCtrl => 0x80
  | .dmaFlashAddr => 0x84
  | .dmaDramAddr => 0x88
  | .dmaLen => 0x8C
  | .dmaChecksum => 0x90
  | .timings => v.rTimings

/-- Whether the variant has the register (R62, column "recognised when"). -/
def regRecognised (v : Variant) : Reg → Bool
  | .conf => true
  | .ceCtrl => true
  | .intrCtrl => true
  | .ctrl cs => v.has cs
  | .segAddr cs => v.has cs
  | .dummyData => true
  | .dmaCtrl => v.hasDma
  | .dmaFlashAddr => v.hasDma
  | .dmaDramAddr => v.hasDma
  | .dmaLen => v.hasDma
  | .dmaChecksum => v.hasDma
  | .timings => true

/-- The register at a byte offset, if the variant recognises one there (R62, R106 step 2). -/
def regAt (v : Variant) (off : Nat) : Option Reg :=
  regMap.find? fun r => regRecognised v r && decide (regOffset v r = off)

/-- The snoop opcode table (R70): the dummy count of a listed byte, `none` for a byte not listed. -/
def snoopTable (b : Byte) : Option Nat :=
  match b.toNat with
  | 0x03 => some 0
  | 0x13 => some 0
  | 0x02 => some 0
  | 0x12 => some 0
  | 0xA2 => some 0
  | 0x32 => some 0
  | 0x34 => some 0
  | 0x3E => some 0
  | 0x0B => some 1
  | 0x0C => some 1
  | 0x3B => some 1
  | 0x3C => some 1
  | 0x6B => some 1
  | 0x6C => some 1
  | 0xBB => some 2
  | 0xBC => some 2
  | 0xEB => some 4
  | 0xEC => some 4
  | _ => none

/-- `ndummies(b)` (R70): "any other byte" counts 0. -/
def ndummies (b : Byte) : Nat := (snoopTable b).getD 0

/-- The clock-ratio table (R71). -/
def ratio (freq : BitVec 4) : Nat :=
  match freq.toNat with
  | 15 => 1
  | 7 => 2
  | 14 => 3
  | 6 => 4
  | 13 => 5
  | 5 => 6
  | 12 => 7
  | 4 => 8
  | 11 => 9
  | 3 => 10
  | 10 => 11
  | 2 => 12
  | 9 => 13
  | 1 => 14
  | 8 => 15
  | _ => 16

/-- The failure-injection table (R72): the low three bits of `delay` decide. -/
def unreliable (r : Nat) (delay : BitVec 4) : Bool :=
  match r with
  | 1 => true
  | 2 => decide (delay.toNat % 8 < 2)
  | 3 => decide (delay.toNat % 8 < 1)
  | _ => false

/-- Reference variant REF_A (D2). -/
def refA : Variant where
  name := "REF_A"
  rConf := 0x00
  rCeCtrl := 0x04
  rCtrl0 := 0x10
  rTimings := 0x94
  numCs := 3
  segDefault := ⟨⟨0x20000000, 0x08000000⟩, ⟨0x28000000, 0x02000000⟩, ⟨0x2A000000, 0x02000000⟩, ⟨0, 0⟩, ⟨0, 0⟩⟩
  winBase := 0x20000000
  winSize := 0x10000000
  hasDma := true
  dmaFlashMask := 0x0FFFFFFC#32
  dmaDramMask := 0x3FFFFFFC#32
  segEnc := .legacy8M
  fixedEnd := ⟨none, none, none, none, none⟩
  injectFailure := false

/-- Reference variant REF_B (D2). It has no DMA engine, so its two address masks are never used. -/
def refB : Variant where
  name := "REF_B"
  rConf := 0x00
  rCeCtrl := 0x04
  rCtrl0 := 0x10
  rTimings := 0x94
  numCs := 2
  segDefault := ⟨⟨0x30000000, 0x02000000⟩, ⟨0x32000000, 0x06000000⟩, ⟨0, 0⟩, ⟨0, 0⟩, ⟨0, 0⟩⟩
  winBase := 0x30000000
  winSize := 0x08000000
  hasDma := false
  dmaFlashMask := 0#32
  dmaDramMask := 0#32
  segEnc := .legacy8M
  fixedEnd := ⟨none, some 0x38000000, none, none, none⟩
  injectFailure := false

/-- Reference variant REF_C (D2). -/
def refC : Variant where
  name := "REF_C"
  rConf := 0x00
  rCeCtrl := 0x04
  rCtrl0 := 0x10
  rTimings := 0x94
  numCs := 3
  segDefault := ⟨⟨0x20000000, 0x08000000⟩, ⟨0x28000000, 0x08000000⟩, ⟨0x20000000, 0⟩, ⟨0, 0⟩, ⟨0, 0⟩⟩
  winBase := 0x20000000
  winSize := 0x10000000
  hasDma := true
  dmaFlashMask := 0x0FFFFFFC#32
  dmaDramMask := 0x3FFFFFFC#32
  segEnc := .new1M
  fixedEnd := ⟨none, none, none, none, none⟩
  injectFailure := false

/-- The descriptor the opcode table is written for (R61): the reference offsets with every chip-select
slot and the DMA registers present, so that each row's "when" holds. It only numbers the table's rows. -/
def tableVariant : Variant := { refA with name := "TABLE", numCs := 5 }

end Sys2Proof.Machine
end

