-- ==== Sys2Proof/Machine/SegmentCodec.lean ====
section
/-! DEFINITION. The two segment layouts (R66, R67) and the strategy pair `decode`, `encode` (R120). All
arithmetic is over the integers (R7). DESIGN CHOICE (log 28): `div` of a negative numerator rounds towards
minus infinity, and `mod` goes with it; R7 does not say. -/

namespace Sys2Proof.Machine

/-- `UNIT(V)` (R120). -/
def unit (v : Variant) : Nat :=
  match v.segEnc with
  | .legacy8M => 8 * MiB
  | .new1M => MiB

/-- `decode_legacy` (R66): START in 23:16, END in 31:24, absolute addresses in 8 MiB units. -/
def decodeLegacy (r : Word) : Segment :=
  let start : Int := (r.extractLsb' 16 8).toNat * (8 * MiB)
  ⟨start, (r.extractLsb' 24 8).toNat * (8 * MiB) - start⟩

/-- `encode_legacy` (R66): END ‖ START ‖ sixteen zero bits. -/
def encodeLegacy (g : Segment) : Word :=
  BitVec.ofInt 8 (g.stop / (8 * MiB)) ++ BitVec.ofInt 8 (g.start / (8 * MiB)) ++ 0#16

/-- `decode_new` (R67): START_MB in 11:4, END_MB (inclusive) in 27:20, relative to the window base; the
all-zero word is the disabled segment. -/
def decodeNew (v : Variant) (r : Word) : Segment :=
  if r = 0#32 then ⟨v.winBase, 0⟩
  else
    let off : Int := (r.extractLsb' 4 8).toNat * MiB
    ⟨v.winBase + off, ((r.extractLsb' 20 8).toNat + 1) * MiB - off⟩

/-- `encode_new` (R67): size 0 encodes to the all-zero word. The numerator of END_MB is negative only for a
segment that ends at or below the window base and is not empty; the rounding there is a DESIGN CHOICE
(log 28). -/
def encodeNew (v : Variant) (g : Segment) : Word :=
  if g.size = 0 then 0#32
  else
    0#4 ++ BitVec.ofInt 8 ((g.start - v.winBase + g.size - 1) / MiB) ++ 0#8
      ++ BitVec.ofInt 8 ((g.start - v.winBase) / MiB) ++ 0#4

/-- `decode` of the variant's strategy pair (R120). -/
def decodeSegment (v : Variant) (r : Word) : Segment :=
  match v.segEnc with
  | .legacy8M => decodeLegacy r
  | .new1M => decodeNew v r

/-- `encode` of the variant's strategy pair (R120). -/
def encodeSegment (v : Variant) (g : Segment) : Word :=
  match v.segEnc with
  | .legacy8M => encodeLegacy g
  | .new1M => encodeNew v g

/-- The segment lies within the flash window (R128). -/
def inWindow (v : Variant) (g : Segment) : Bool :=
  decide ((v.winBase : Int) ≤ g.start ∧ g.stop ≤ (v.winBase : Int) + v.winSize)

end Sys2Proof.Machine
end

