-- ==== Sys2Proof/WellFormed.lean ====
section
/-! DEFINITION. Well-formed Variant Descriptors (R5) and well-formed operations of a variant (the rows'
"when" conditions, R76, and the ranges of their operands). -/

namespace Sys2Proof

open Sys2Proof.Machine

/-- The registers the variant recognises (R62). -/
def Variant.registers (v : Variant) : List Reg := regMap.filter (regRecognised v)

/-- R5(a): `1 <= V.num_cs <= MAX_CS`. -/
def Variant.wfCount (v : Variant) : Bool := decide (1 ≤ v.numCs ∧ v.numCs ≤ 5)

/-- R5(b): the recognised offsets are multiples of 4, below `REG_SPACE_BYTES`, pairwise distinct. -/
def Variant.wfOffsets (v : Variant) : Bool :=
  v.registers.all (fun r => decide (regOffset v r % 4 = 0 ∧ regOffset v r < regSpaceBytes))
    && decide ((v.registers.map (regOffset v)).Nodup)

/-- R5(c): the window's base and size. -/
def Variant.wfWindow (v : Variant) : Bool :=
  decide (v.winBase % unit v = 0 ∧ v.winSize % unit v = 0 ∧ 0 < v.winSize
    ∧ v.winBase + v.winSize ≤ 2 ^ 32)

/-- R5(d) for one chip-select: unit multiples, not below zero, within the window unless empty, and the
default segment round-trips. -/
def Variant.wfDefault (v : Variant) (cs : Cs) : Bool :=
  let g := v.segDefault.get cs
  decide (g.start % (unit v : Int) = 0 ∧ g.size % (unit v : Int) = 0 ∧ 0 ≤ g.start ∧ 0 ≤ g.size
    ∧ (g.size ≠ 0 → inWindow v g = true) ∧ decodeSegment v (encodeSegment v g) = g)

/-- R5(e): chip-select 0 starts at the window base. -/
def Variant.wfBase (v : Variant) : Bool :=
  decide ((v.segDefault.get .cs0).start = (v.winBase : Int))

/-- R5(f) for one chip-select: a fixed end is the default segment's end. -/
def Variant.wfFixedEnd (v : Variant) (cs : Cs) : Bool :=
  match v.fixedEnd.get cs with
  | none => true
  | some e => decide ((e : Int) = (v.segDefault.get cs).stop)

/-- R5(h): the ranges the encodings can express. -/
def Variant.wfRange (v : Variant) : Bool :=
  match v.segEnc with
  | .legacy8M => decide (v.winBase + v.winSize ≤ 0x7F800000)
  | .new1M => decide (v.winSize ≤ 256 * MiB)

/-- R5 items (a) to (f) and (h). Item (g) needs the DRAM space: `Machine.construct` checks it. -/
def Variant.wf (v : Variant) : Bool :=
  v.wfCount && v.wfOffsets && v.wfWindow && v.slots.all v.wfDefault && v.wfBase
    && v.slots.all v.wfFixedEnd && v.wfRange

/-- A raw offset of an unrecognised-offset row: a multiple of 4 where the map has no register (R104). -/
def offsetUnrecognised (v : Variant) (off : Byte) : Bool :=
  decide (off.toNat % 4 = 0) && (regAt v off.toNat).isNone

/-- The operation is one the variant has: its row's "when" condition holds and its operands are in
range (R61, R63, R64, R65, R76). -/
def Instr.wf (v : Variant) : Instr → Bool
  | .rdConf _ => true
  | .wrConf _ _ => true
  | .rdCeCtrl _ => true
  | .wrCeCtrl _ _ => true
  | .rdIntrCtrl _ => true
  | .wrIntrCtrl _ _ => true
  | .rdCtrl0 _ => v.has .cs0
  | .wrCtrl0 _ _ => v.has .cs0
  | .rdCtrl1 _ => v.has .cs1
  | .wrCtrl1 _ _ => v.has .cs1
  | .rdCtrl2 _ => v.has .cs2
  | .wrCtrl2 _ _ => v.has .cs2
  | .rdCtrl3 _ => v.has .cs3
  | .wrCtrl3 _ _ => v.has .cs3
  | .rdCtrl4 _ => v.has .cs4
  | .wrCtrl4 _ _ => v.has .cs4
  | .rdSegAddr0 _ => v.has .cs0
  | .wrSegAddr0 _ _ => v.has .cs0
  | .rdSegAddr1 _ => v.has .cs1
  | .wrSegAddr1 _ _ => v.has .cs1
  | .rdSegAddr2 _ => v.has .cs2
  | .wrSegAddr2 _ _ => v.has .cs2
  | .rdSegAddr3 _ => v.has .cs3
  | .wrSegAddr3 _ _ => v.has .cs3
  | .rdSegAddr4 _ => v.has .cs4
  | .wrSegAddr4 _ _ => v.has .cs4
  | .rdDummyData _ => true
  | .wrDummyData _ _ => true
  | .rdDmaCtrl _ => v.hasDma
  | .wrDmaCtrl _ _ => v.hasDma
  | .rdDmaFlashAddr _ => v.hasDma
  | .wrDmaFlashAddr _ _ => v.hasDma
  | .rdDmaDramAddr _ => v.hasDma
  | .wrDmaDramAddr _ _ => v.hasDma
  | .rdDmaLen _ => v.hasDma
  | .wrDmaLen _ _ => v.hasDma
  | .rdDmaChecksum _ => v.hasDma
  | .wrDmaChecksum _ _ => v.hasDma
  | .rdTimings _ => true
  | .wrTimings _ _ => true
  | .rdUnrecognised off _ => offsetUnrecognised v off
  | .wrUnrecognised off _ _ => offsetUnrecognised v off
  | .fldRead cs _ _ => v.has cs
  | .fldFread cs _ _ => v.has cs
  | .fldWrite cs _ _ => v.has cs
  | .fldUser cs _ _ => v.has cs
  | .fstRead cs _ _ _ => v.has cs
  | .fstFread cs _ _ _ => v.has cs
  | .fstWrite cs _ _ _ => v.has cs
  | .fstUser cs _ _ _ => v.has cs
  | .dmaStop _ => v.hasDma
  | .dmaCksum _ _ => v.hasDma
  | .dmaCksumCal _ _ => v.hasDma
  | .dmaRd _ _ => v.hasDma
  | .dmaWr _ _ => v.hasDma
  | .snoopPlainRead cs _ => v.has cs
  | .snoopPlainRead4 cs _ => v.has cs
  | .snoopPlainPp cs _ => v.has cs
  | .snoopPlainPp4 cs _ => v.has cs
  | .snoopPlainDpp cs _ => v.has cs
  | .snoopPlainQpp cs _ => v.has cs
  | .snoopPlainQpp4 cs _ => v.has cs
  | .snoopPlainPp44 cs _ => v.has cs
  | .snoopFastFastRead cs _ => v.has cs
  | .snoopFastFastRead4 cs _ => v.has cs
  | .snoopFastDor cs _ => v.has cs
  | .snoopFastDor4 cs _ => v.has cs
  | .snoopFastQor cs _ => v.has cs
  | .snoopFastQor4 cs _ => v.has cs
  | .snoopDualDior cs _ => v.has cs
  | .snoopDualDior4 cs _ => v.has cs
  | .snoopQuadQior cs _ => v.has cs
  | .snoopQuadQior4 cs _ => v.has cs
  | .snoopUnknown cs _ b => v.has cs && (snoopTable b).isNone

end Sys2Proof
end

