-- ==== Sys2Proof/Decode.lean ====
section
/-! DEFINITION. Decoding and encoding of operations. The selector of each format is the spec's (R60 to
R65); the frame that carries it together with the operands, nine bytes, is the model's own (log 3):

* REG: byte 0 the offset; byte 1 bit 0 the direction, bits 2:1 the width code; bytes 2 to 5 the data.
* FLASH: byte 0 bits 2:0 the selector `dir ‖ MODE`, bits 4:3 the width code, bits 7:5 the chip-select;
  bytes 1 to 4 the offset inside the segment; bytes 5 to 8 the data.
* DMACTL: bytes 0 to 3 the value written to DMA_CTRL.
* SNOOP: byte 0 the stored byte; byte 1 the chip-select; bytes 2 to 5 the offset inside the segment.

Words are little-endian, unused bytes are zero, and the width code is the width modulo 4. -/

namespace Sys2Proof

open Sys2Proof.Machine

/-- Why a frame is no operation of the variant. -/
inductive Reject where
  /-- The frame does not have nine bytes. -/
  | badLength
  /-- A bit that no operand uses is 1. -/
  | reservedBits
  /-- A register offset that is no multiple of 4 (R45). -/
  | misalignedOffset
  /-- A chip-select the variant does not have (R63). -/
  | noSuchChipSelect
  /-- A DMA operation on a variant without DMA (R64, R76). -/
  | noDmaEngine
  deriving DecidableEq, Repr

/-- Four bytes, lowest first, as a word. -/
def wordOfBytes (d0 d1 d2 d3 : Byte) : Word := d3 ++ d2 ++ d1 ++ d0

/-- Byte `i` of a word, counted from the low end (R43, R44). -/
def byteOf (v : Word) (i : Nat) : Byte := v.extractLsb' (8 * i) 8

/-- The width of a width code. -/
def widthOfCode (c : BitVec 2) : Width :=
  match c.toNat with
  | 1 => .w1
  | 2 => .w2
  | 3 => .w3
  | _ => .w4

/-- The width code of a width. -/
def codeOfWidth : Width → BitVec 2
  | .w1 => 1#2
  | .w2 => 2#2
  | .w3 => 3#2
  | .w4 => 0#2

/-- The chip-select of a number. -/
def csOfNat : Nat → Option Cs
  | 0 => some .cs0
  | 1 => some .cs1
  | 2 => some .cs2
  | 3 => some .cs3
  | 4 => some .cs4
  | _ => none

/-- The mode of the MODE field (R13). -/
def modeOfBits (m : BitVec 2) : Mode :=
  match m.toNat with
  | 0 => .read
  | 1 => .fastRead
  | 2 => .write
  | _ => .user

/-- The MODE field of a mode (R13). -/
def bitsOfMode : Mode → BitVec 2
  | .read => 0#2
  | .fastRead => 1#2
  | .write => 2#2
  | .user => 3#2

/-- The read row of what stands at an offset (R62, column "read rule"). -/
def readRow (off : Byte) (w : Width) : Option Reg → Instr
  | some .conf => .rdConf w
  | some .ceCtrl => .rdCeCtrl w
  | some .intrCtrl => .rdIntrCtrl w
  | some (.ctrl .cs0) => .rdCtrl0 w
  | some (.ctrl .cs1) => .rdCtrl1 w
  | some (.ctrl .cs2) => .rdCtrl2 w
  | some (.ctrl .cs3) => .rdCtrl3 w
  | some (.ctrl .cs4) => .rdCtrl4 w
  | some (.segAddr .cs0) => .rdSegAddr0 w
  | some (.segAddr .cs1) => .rdSegAddr1 w
  | some (.segAddr .cs2) => .rdSegAddr2 w
  | some (.segAddr .cs3) => .rdSegAddr3 w
  | some (.segAddr .cs4) => .rdSegAddr4 w
  | some .dummyData => .rdDummyData w
  | some .dmaCtrl => .rdDmaCtrl w
  | some .dmaFlashAddr => .rdDmaFlashAddr w
  | some .dmaDramAddr => .rdDmaDramAddr w
  | some .dmaLen => .rdDmaLen w
  | some .dmaChecksum => .rdDmaChecksum w
  | some .timings => .rdTimings w
  | none => .rdUnrecognised off w

/-- The write row of what stands at an offset (R62, column "write rule"). -/
def writeRow (off : Byte) (w : Width) (data : Word) : Option Reg → Instr
  | some .conf => .wrConf w data
  | some .ceCtrl => .wrCeCtrl w data
  | some .intrCtrl => .wrIntrCtrl w data
  | some (.ctrl .cs0) => .wrCtrl0 w data
  | some (.ctrl .cs1) => .wrCtrl1 w data
  | some (.ctrl .cs2) => .wrCtrl2 w data
  | some (.ctrl .cs3) => .wrCtrl3 w data
  | some (.ctrl .cs4) => .wrCtrl4 w data
  | some (.segAddr .cs0) => .wrSegAddr0 w data
  | some (.segAddr .cs1) => .wrSegAddr1 w data
  | some (.segAddr .cs2) => .wrSegAddr2 w data
  | some (.segAddr .cs3) => .wrSegAddr3 w data
  | some (.segAddr .cs4) => .wrSegAddr4 w data
  | some .dummyData => .wrDummyData w data
  | some .dmaCtrl => .wrDmaCtrl w data
  | some .dmaFlashAddr => .wrDmaFlashAddr w data
  | some .dmaDramAddr => .wrDmaDramAddr w data
  | some .dmaLen => .wrDmaLen w data
  | some .dmaChecksum => .wrDmaChecksum w data
  | some .timings => .wrTimings w data
  | none => .wrUnrecognised off w data

/-- A REG frame (R61, R62): the offset selects the register, the direction the rule. -/
def decodeReg (v : Variant) (off sel : Byte) (data : Word) : Except Reject Instr :=
  let w := widthOfCode (sel.extractLsb' 1 2)
  if sel.extractLsb' 3 5 ≠ 0#5 then .error .reservedBits
  else if off.toNat % 4 ≠ 0 then .error .misalignedOffset
  else if sel.getLsbD 0 then .ok (writeRow off w data (regAt v off.toNat))
  else if data ≠ 0#32 then .error .reservedBits
  else .ok (readRow off w (regAt v off.toNat))

/-- The load row of a mode (R63). -/
def loadRow (m : Mode) (cs : Cs) (addr : Word) (w : Width) : Instr :=
  match m with
  | .read => .fldRead cs addr w
  | .fastRead => .fldFread cs addr w
  | .write => .fldWrite cs addr w
  | .user => .fldUser cs addr w

/-- The store row of a mode (R63). -/
def storeRow (m : Mode) (cs : Cs) (addr : Word) (w : Width) (data : Word) : Instr :=
  match m with
  | .read => .fstRead cs addr w data
  | .fastRead => .fstFread cs addr w data
  | .write => .fstWrite cs addr w data
  | .user => .fstUser cs addr w data

/-- A FLASH frame (R63). -/
def decodeFlash (v : Variant) (sel : Byte) (addr data : Word) : Except Reject Instr :=
  let w := widthOfCode (sel.extractLsb' 3 2)
  let m := modeOfBits (sel.extractLsb' 0 2)
  match csOfNat (sel.extractLsb' 5 3).toNat with
  | none => .error .noSuchChipSelect
  | some cs =>
    if v.has cs = false then .error .noSuchChipSelect
    else if sel.getLsbD 2 then .ok (storeRow m cs addr w data)
    else if data ≠ 0#32 then .error .reservedBits
    else .ok (loadRow m cs addr w)

/-- The DMACTL row of a value written to DMA_CTRL (R64). -/
def dmactlRow (value : Word) : Instr :=
  if value.getLsbD 0 = false then .dmaStop (value.extractLsb' 1 31)
  else if value.getLsbD 2 then
    if value.getLsbD 3 then .dmaCksumCal (value.getLsbD 1) (value.extractLsb' 4 28)
    else .dmaCksum (value.getLsbD 1) (value.extractLsb' 4 28)
  else
    if value.getLsbD 1 then .dmaWr (value.getLsbD 3) (value.extractLsb' 4 28)
    else .dmaRd (value.getLsbD 3) (value.extractLsb' 4 28)

/-- A DMACTL frame (R64). -/
def decodeDmactl (v : Variant) (value : Word) : Except Reject Instr :=
  if v.hasDma then .ok (dmactlRow value) else .error .noDmaEngine

/-- The SNOOP row of a byte (R65, R70). -/
def snoopRow (cs : Cs) (a : Word) (b : Byte) : Instr :=
  match b.toNat with
  | 0x03 => .snoopPlainRead cs a
  | 0x13 => .snoopPlainRead4 cs a
  | 0x02 => .snoopPlainPp cs a
  | 0x12 => .snoopPlainPp4 cs a
  | 0xA2 => .snoopPlainDpp cs a
  | 0x32 => .snoopPlainQpp cs a
  | 0x34 => .snoopPlainQpp4 cs a
  | 0x3E => .snoopPlainPp44 cs a
  | 0x0B => .snoopFastFastRead cs a
  | 0x0C => .snoopFastFastRead4 cs a
  | 0x3B => .snoopFastDor cs a
  | 0x3C => .snoopFastDor4 cs a
  | 0x6B => .snoopFastQor cs a
  | 0x6C => .snoopFastQor4 cs a
  | 0xBB => .snoopDualDior cs a
  | 0xBC => .snoopDualDior4 cs a
  | 0xEB => .snoopQuadQior cs a
  | 0xEC => .snoopQuadQior4 cs a
  | _ => .snoopUnknown cs a b

/-- A SNOOP frame (R65). -/
def decodeSnoop (v : Variant) (b csByte : Byte) (a : Word) : Except Reject Instr :=
  match csOfNat csByte.toNat with
  | none => .error .noSuchChipSelect
  | some cs => if v.has cs then .ok (snoopRow cs a b) else .error .noSuchChipSelect

/-- The decoder: total on any bytes, rejecting by name. -/
def decode (v : Variant) (fmt : Format) : List Byte → Except Reject Instr
  | [b0, b1, b2, b3, b4, b5, b6, b7, b8] =>
    match fmt with
    | .reg =>
      if b6 = 0#8 ∧ b7 = 0#8 ∧ b8 = 0#8 then decodeReg v b0 b1 (wordOfBytes b2 b3 b4 b5)
      else .error .reservedBits
    | .flash => decodeFlash v b0 (wordOfBytes b1 b2 b3 b4) (wordOfBytes b5 b6 b7 b8)
    | .dmactl =>
      if b4 = 0#8 ∧ b5 = 0#8 ∧ b6 = 0#8 ∧ b7 = 0#8 ∧ b8 = 0#8 then
        decodeDmactl v (wordOfBytes b0 b1 b2 b3)
      else .error .reservedBits
    | .snoop =>
      if b6 = 0#8 ∧ b7 = 0#8 ∧ b8 = 0#8 then decodeSnoop v b0 b1 (wordOfBytes b2 b3 b4 b5)
      else .error .reservedBits
  | _ => .error .badLength

/-- A REG frame from its parts. -/
def regFrame (off : Byte) (dir : Dir) (w : Width) (data : Word) : List Byte :=
  let d : BitVec 1 := match dir with
    | .read => 0#1
    | .write => 1#1
  [off, 0#5 ++ codeOfWidth w ++ d,
    byteOf data 0, byteOf data 1, byteOf data 2, byteOf data 3, 0#8, 0#8, 0#8]

/-- A FLASH frame from its parts. -/
def flashFrame (dir : Dir) (m : Mode) (cs : Cs) (addr : Word) (w : Width) (data : Word) : List Byte :=
  let d : BitVec 1 := match dir with
    | .read => 0#1
    | .write => 1#1
  [BitVec.ofNat 3 cs.toNat ++ codeOfWidth w ++ d ++ bitsOfMode m,
    byteOf addr 0, byteOf addr 1, byteOf addr 2, byteOf addr 3,
    byteOf data 0, byteOf data 1, byteOf data 2, byteOf data 3]

/-- A DMACTL frame of a value. -/
def dmactlFrame (value : Word) : List Byte :=
  [byteOf value 0, byteOf value 1, byteOf value 2, byteOf value 3, 0#8, 0#8, 0#8, 0#8, 0#8]

/-- A SNOOP frame of a byte stored at an offset of a chip-select. -/
def snoopFrame (cs : Cs) (a : Word) (b : Byte) : List Byte :=
  [b, BitVec.ofNat 8 cs.toNat, byteOf a 0, byteOf a 1, byteOf a 2, byteOf a 3, 0#8, 0#8, 0#8]

/-- The frame of a read of a register of the map. -/
def regReadFrame (v : Variant) (r : Reg) (w : Width) : Format × List Byte :=
  (.reg, regFrame (BitVec.ofNat 8 (regOffset v r)) .read w 0#32)

/-- The frame of a write of a register of the map. -/
def regWriteFrame (v : Variant) (r : Reg) (w : Width) (data : Word) : Format × List Byte :=
  (.reg, regFrame (BitVec.ofNat 8 (regOffset v r)) .write w data)

/-- The value of a `DMA.STOP` (R64: ENABLE = 0). -/
def dmaStopValue (upper : BitVec 31) : Word := upper ++ 0#1

/-- The value with the given CALIB, CKSUM, WRITE bits and ENABLE = 1 (R64, R21). -/
def dmaStartValue (calib cksum wr : Bool) (upper : BitVec 28) : Word :=
  upper ++ BitVec.ofBool calib ++ BitVec.ofBool cksum ++ BitVec.ofBool wr ++ 1#1

/-- The encoder: the format and the frame of an operation, from the same tables. -/
def encode (v : Variant) : Instr → Format × List Byte
  | .rdConf w => regReadFrame v .conf w
  | .wrConf w d => regWriteFrame v .conf w d
  | .rdCeCtrl w => regReadFrame v .ceCtrl w
  | .wrCeCtrl w d => regWriteFrame v .ceCtrl w d
  | .rdIntrCtrl w => regReadFrame v .intrCtrl w
  | .wrIntrCtrl w d => regWriteFrame v .intrCtrl w d
  | .rdCtrl0 w => regReadFrame v (.ctrl .cs0) w
  | .wrCtrl0 w d => regWriteFrame v (.ctrl .cs0) w d
  | .rdCtrl1 w => regReadFrame v (.ctrl .cs1) w
  | .wrCtrl1 w d => regWriteFrame v (.ctrl .cs1) w d
  | .rdCtrl2 w => regReadFrame v (.ctrl .cs2) w
  | .wrCtrl2 w d => regWriteFrame v (.ctrl .cs2) w d
  | .rdCtrl3 w => regReadFrame v (.ctrl .cs3) w
  | .wrCtrl3 w d => regWriteFrame v (.ctrl .cs3) w d
  | .rdCtrl4 w => regReadFrame v (.ctrl .cs4) w
  | .wrCtrl4 w d => regWriteFrame v (.ctrl .cs4) w d
  | .rdSegAddr0 w => regReadFrame v (.segAddr .cs0) w
  | .wrSegAddr0 w d => regWriteFrame v (.segAddr .cs0) w d
  | .rdSegAddr1 w => regReadFrame v (.segAddr .cs1) w
  | .wrSegAddr1 w d => regWriteFrame v (.segAddr .cs1) w d
  | .rdSegAddr2 w => regReadFrame v (.segAddr .cs2) w
  | .wrSegAddr2 w d => regWriteFrame v (.segAddr .cs2) w d
  | .rdSegAddr3 w => regReadFrame v (.segAddr .cs3) w
  | .wrSegAddr3 w d => regWriteFrame v (.segAddr .cs3) w d
  | .rdSegAddr4 w => regReadFrame v (.segAddr .cs4) w
  | .wrSegAddr4 w d => regWriteFrame v (.segAddr .cs4) w d
  | .rdDummyData w => regReadFrame v .dummyData w
  | .wrDummyData w d => regWriteFrame v .dummyData w d
  | .rdDmaCtrl w => regReadFrame v .dmaCtrl w
  | .wrDmaCtrl w d => regWriteFrame v .dmaCtrl w d
  | .rdDmaFlashAddr w => regReadFrame v .dmaFlashAddr w
  | .wrDmaFlashAddr w d => regWriteFrame v .dmaFlashAddr w d
  | .rdDmaDramAddr w => regReadFrame v .dmaDramAddr w
  | .wrDmaDramAddr w d => regWriteFrame v .dmaDramAddr w d
  | .rdDmaLen w => regReadFrame v .dmaLen w
  | .wrDmaLen w d => regWriteFrame v .dmaLen w d
  | .rdDmaChecksum w => regReadFrame v .dmaChecksum w
  | .wrDmaChecksum w d => regWriteFrame v .dmaChecksum w d
  | .rdTimings w => regReadFrame v .timings w
  | .wrTimings w d => regWriteFrame v .timings w d
  | .rdUnrecognised off w => (.reg, regFrame off .read w 0#32)
  | .wrUnrecognised off w d => (.reg, regFrame off .write w d)
  | .fldRead cs a w => (.flash, flashFrame .read .read cs a w 0#32)
  | .fldFread cs a w => (.flash, flashFrame .read .fastRead cs a w 0#32)
  | .fldWrite cs a w => (.flash, flashFrame .read .write cs a w 0#32)
  | .fldUser cs a w => (.flash, flashFrame .read .user cs a w 0#32)
  | .fstRead cs a w d => (.flash, flashFrame .write .read cs a w d)
  | .fstFread cs a w d => (.flash, flashFrame .write .fastRead cs a w d)
  | .fstWrite cs a w d => (.flash, flashFrame .write .write cs a w d)
  | .fstUser cs a w d => (.flash, flashFrame .write .user cs a w d)
  | .dmaStop up => (.dmactl, dmactlFrame (dmaStopValue up))
  | .dmaCksum wr up => (.dmactl, dmactlFrame (dmaStartValue false true wr up))
  | .dmaCksumCal wr up => (.dmactl, dmactlFrame (dmaStartValue true true wr up))
  | .dmaRd calib up => (.dmactl, dmactlFrame (dmaStartValue calib false false up))
  | .dmaWr calib up => (.dmactl, dmactlFrame (dmaStartValue calib false true up))
  | .snoopPlainRead cs a => (.snoop, snoopFrame cs a 0x03#8)
  | .snoopPlainRead4 cs a => (.snoop, snoopFrame cs a 0x13#8)
  | .snoopPlainPp cs a => (.snoop, snoopFrame cs a 0x02#8)
  | .snoopPlainPp4 cs a => (.snoop, snoopFrame cs a 0x12#8)
  | .snoopPlainDpp cs a => (.snoop, snoopFrame cs a 0xA2#8)
  | .snoopPlainQpp cs a => (.snoop, snoopFrame cs a 0x32#8)
  | .snoopPlainQpp4 cs a => (.snoop, snoopFrame cs a 0x34#8)
  | .snoopPlainPp44 cs a => (.snoop, snoopFrame cs a 0x3E#8)
  | .snoopFastFastRead cs a => (.snoop, snoopFrame cs a 0x0B#8)
  | .snoopFastFastRead4 cs a => (.snoop, snoopFrame cs a 0x0C#8)
  | .snoopFastDor cs a => (.snoop, snoopFrame cs a 0x3B#8)
  | .snoopFastDor4 cs a => (.snoop, snoopFrame cs a 0x3C#8)
  | .snoopFastQor cs a => (.snoop, snoopFrame cs a 0x6B#8)
  | .snoopFastQor4 cs a => (.snoop, snoopFrame cs a 0x6C#8)
  | .snoopDualDior cs a => (.snoop, snoopFrame cs a 0xBB#8)
  | .snoopDualDior4 cs a => (.snoop, snoopFrame cs a 0xBC#8)
  | .snoopQuadQior cs a => (.snoop, snoopFrame cs a 0xEB#8)
  | .snoopQuadQior4 cs a => (.snoop, snoopFrame cs a 0xEC#8)
  | .snoopUnknown cs a b => (.snoop, snoopFrame cs a b)

/-- The format of a word of the opcode table (log 4). A row of two bytes is a REG row. The one-byte rows
of FLASH, DMACTL and SNOOP share their words; the choice here is FLASH for the selectors 0 to 7, then
SNOOP for a listed byte, then DMACTL for what still fits four bits, then SNOOP. -/
def tableFormat (nbits w : Nat) : Format :=
  if 8 < nbits then .reg
  else if w < 8 then .flash
  else if (snoopTable (BitVec.ofNat 8 w)).isSome then .snoop
  else if w < 16 then .dmactl
  else .snoop

/-- The frame of a word of the opcode table: its bytes, lowest first, and zeros above. -/
def tableFrame (w : Nat) : List Byte :=
  [BitVec.ofNat 8 w, BitVec.ofNat 8 (w / 256), BitVec.ofNat 8 (w / 65536),
    BitVec.ofNat 8 (w / 16777216), 0#8, 0#8, 0#8, 0#8, 0#8]

/-- The operation the decoder reads from a word of the opcode table (R61: the table is written for the
reference offsets; R76: its rows' "when" conditions are taken as holding). -/
def decodeTableWord (nbits w : Nat) : Option Instr :=
  match decode tableVariant (tableFormat nbits w) (tableFrame w) with
  | .ok i => some i
  | .error _ => none

end Sys2Proof
end

