-- ==== Sys2Proof/Machine/Memory.lean ====
section
/-! DEFINITION. The DRAM-side system memory (R40, R59): a list of address and byte in one canonical form,
addresses strictly rising and no entry equal to what an unlisted address reads as (zero, log 7). Words
are little-endian (R44). -/

namespace Sys2Proof.Machine

/-- The cells listed, lowest address first. -/
abbrev Memory := List Host.Cell

/-- What an address that is not listed reads as (log 7, DESIGN CHOICE). -/
def unlistedByte : Byte := 0#8

/-- The byte at an address. -/
def Memory.readByte : Memory → Nat → Byte
  | [], _ => unlistedByte
  | (k, b) :: m, a => if k = a then b else Memory.readByte m a

/-- The memory with one byte put into its place; the canonical form stays. -/
def Memory.writeByte : Memory → Nat → Byte → Memory
  | [], a, b => if b = unlistedByte then [] else [(a, b)]
  | (k, c) :: m, a, b =>
    if a < k then (if b = unlistedByte then (k, c) :: m else (a, b) :: (k, c) :: m)
    else if a = k then (if b = unlistedByte then m else (a, b) :: m)
    else (k, c) :: Memory.writeByte m a b

/-- The canonical form: every entry is above `lo`, the entries rise, and none is an unlisted byte. -/
def Memory.wfAbove : Option Nat → Memory → Bool
  | _, [] => true
  | lo, (k, b) :: m =>
    decide (b ≠ unlistedByte) && (match lo with
      | none => true
      | some l => decide (l < k)) && Memory.wfAbove (some k) m

/-- The canonical form. -/
def Memory.wf (m : Memory) : Bool := Memory.wfAbove none m

/-- The little-endian word at an address (R44: the byte at the lowest address is bits 7:0). -/
def Memory.readWord (m : Memory) (a : Nat) : Word :=
  m.readByte (a + 3) ++ m.readByte (a + 2) ++ m.readByte (a + 1) ++ m.readByte a

/-- The memory with a little-endian word stored at an address (R44). -/
def Memory.writeWord (m : Memory) (a : Nat) (w : Word) : Memory :=
  (((m.writeByte a (w.extractLsb' 0 8)).writeByte (a + 1) (w.extractLsb' 8 8)).writeByte
    (a + 2) (w.extractLsb' 16 8)).writeByte (a + 3) (w.extractLsb' 24 8)

end Sys2Proof.Machine
end

