-- ==== Sys2Proof/Machine/State.lean ====
section
/-! DEFINITION. The state of one instance (R10), the parameters it is built from (R4), the environment's
inputs and answers and the record of the outputs, all plain data; the reasons a step stops; the state
after reset (R38, R220). -/

namespace Sys2Proof.Machine

/-- The snoop cursor (R30). -/
inductive SnoopIndex where
  | off
  | start
  | count (k : Nat)
  deriving DecidableEq, Repr

/-- The log events, with the arguments of R201 (log 15). -/
inductive Event where
  | unimplementedRead (off : Byte)
  | unimplementedWrite (off : Byte) (value : Word)
  | segCs0StartFixed (word : Word) (seg : Segment)
  | segEndFixed (cs : Cs) (word : Word) (seg : Segment)
  | segInvalid (cs : Cs) (word : Word) (seg : Segment)
  | segMisaligned (cs : Cs) (seg : Segment)
  | segOverlap (cs other : Cs) (seg otherSeg : Segment)
  | flashNotWritable (cs : Cs) (addr : Word)
  | flashInvalidMode (cs : Cs) (dir : Dir) (mode : Mode)
  | flashAddrClamped (cs : Cs) (addr : Word)
  | noCommand (cs : Cs) (mode : Mode)
  | dmaInProgress (value : Word)
  | dmaFlashReadFail (addr : Word)
  | dmaFlashWriteFail (addr : Word)
  | dmaDramReadFail (addr : Word)
  | dmaDramWriteFail (addr : Word)
  deriving DecidableEq, Repr

/-- One effect outside the block, in order (R58; log 15): a change of a chip-select line, a transfer with
the byte sent and the byte received, an access to the DRAM side, an access to an external flash side. -/
inductive BusEvent where
  | line (cs : Cs) (level : Bool)
  | xfer (sent received : Byte)
  | dramRead (addr : Word) (answer : Option Word)
  | dramWrite (addr : Word) (w : Word) (ok : Bool)
  | flashRead (addr : Word) (answer : Option Word)
  | flashWrite (addr : Word) (w : Word) (ok : Bool)
  deriving DecidableEq, Repr

/-- A snapshot (R225): the register file, the cursor byte and the budget byte under a version number.
`takenOf` is the model's own: the descriptor of the instance it was taken of, which a restore compares
(I13, log 18). -/
structure Snapshot where
  version : Nat
  takenOf : Variant
  conf : Word
  ceCtrl : Word
  intrCtrl : Word
  ctrl : Slots Word
  segAddr : Slots Word
  dummyData : Word
  timings : Word
  dmaCtrl : Word
  dmaFlashAddr : Word
  dmaDramAddr : Word
  dmaLen : Word
  dmaChecksum : Word
  cursor : Byte
  dummies : Byte
  deriving DecidableEq, Repr

/-- One operation waiting to be served (log 2). -/
inductive Request where
  /-- A guest access to the register space: byte offset and width as the bus presents them (R41, R61). -/
  | register (dir : Dir) (off w : Nat) (data : Word)
  /-- A guest access to the flash window at an absolute address (R46, R130). -/
  | window (dir : Dir) (addr w : Nat) (data : Word)
  /-- An operation in one of the four formats (R60), as a frame of bytes. -/
  | frame (fmt : Format) (bytes : List Byte)
  /-- The reset operation of the environment (R220, R221). -/
  | reset
  /-- Save a snapshot (R225). -/
  | save
  /-- Restore a snapshot (R226). -/
  | restore (snap : Snapshot)
  deriving DecidableEq, Repr

/-- The whole state. The fields from `conf` to `log` are the state of the block (R10); `variant` and
`binding` are its parameters (R4, R59); the rest is the environment and the record of the outputs. -/
structure State where
  variant : Variant
  binding : FlashBinding
  conf : Word
  ceCtrl : Word
  intrCtrl : Word
  ctrl : Slots Word
  segAddr : Slots Word
  dummyData : Word
  timings : Word
  dmaCtrl : Word
  dmaFlashAddr : Word
  dmaDramAddr : Word
  dmaLen : Word
  dmaChecksum : Word
  snoopIndex : SnoopIndex
  snoopDummies : Nat
  region : Slots Segment
  csline : Slots Bool
  irq : Bool
  log : List Event
  dram : Memory
  pending : List Request
  miso : List Byte
  dramReplies : List DramReply
  flashReplies : List (Option Word)
  freeCount : Nat
  ret : Option Word
  bus : List BusEvent
  saved : Option Snapshot
  deriving DecidableEq, Repr

/-- The reasons the machine stops with a fault. -/
inductive Fault where
  /-- Raised when a DMA is started with a DMA_LEN that is no multiple of 4. The loop of R178 and R179
  would then step past 0 and not end by itself; R24, R186 and R226 keep DMA_LEN a multiple of 4, so no
  run from reset raises it. Safe: the machine stops (log 14). -/
  | dmaLengthNeverZero
  deriving DecidableEq, Repr

/-- The reasons an operation has no meaning. -/
inductive Refusal where
  /-- Raised by an arm of `exec` whose operation has no meaning yet. Safe. -/
  | notModelled (mnemonic : String)
  /-- Raised by the fetch: a register offset at or beyond `REG_SPACE_BYTES` does not reach the block
  (R40, I8). Safe. -/
  | outsideRegisterSpace
  /-- Raised by the fetch: a register offset that is no multiple of 4 (R45, I8). Safe. -/
  | misalignedOffset
  /-- Raised by the fetch: an access width outside 1 to 4 (R41, I9). Safe. -/
  | badWidth
  /-- Raised by the fetch: a flash-window access that no sub-region takes whole is not delivered to the
  block (R131(a), I5). Safe. -/
  | notDelivered
  /-- Raised by the fetch: the frame is no operation of the variant. Safe. -/
  | undecoded (why : Reject)
  /-- Raised by FLASH and SNOOP meanings: the chip-select is not one of the variant's (R63). The decoder
  gives no such operation. Safe (log 12). -/
  | noSuchChipSelect
  /-- Raised by FLASH and SNOOP meanings: the selector contradicts the MODE field of the chip-select, so
  no access has this selector in this state (R63, R140). Safe (log 12). -/
  | selectorMismatch
  /-- Raised by a restore: the snapshot is of another layout version (R226, I13). Safe. -/
  | snapshotVersion
  /-- Raised by a restore: the snapshot is of an instance with another descriptor (R226, I13). Safe. -/
  | snapshotDescriptor
  deriving DecidableEq, Repr

/-- The outcome of an operation. -/
abbrev Result := Host.Outcome State Fault Refusal

/-- A newly constructed instance of a variant (R38, R220): the register file zeroed but for the segment
registers, each chip-select at its default segment, lines low, log empty, nothing pending. Slots the
variant does not have stand at zero (log 17). -/
def State.ofVariant (v : Variant) (b : FlashBinding) (dram : Memory) : State where
  variant := v
  binding := b
  conf := 0#32
  ceCtrl := 0#32
  intrCtrl := 0#32
  ctrl := Slots.ofFn fun _ => 0#32
  segAddr := Slots.ofFn fun cs => if v.has cs then encodeSegment v (v.segDefault.get cs) else 0#32
  dummyData := 0#32
  timings := 0#32
  dmaCtrl := 0#32
  dmaFlashAddr := 0#32
  dmaDramAddr := 0#32
  dmaLen := 0#32
  dmaChecksum := 0#32
  snoopIndex := .off
  snoopDummies := 0
  region := Slots.ofFn fun cs => if v.has cs then v.segDefault.get cs else ⟨0, 0⟩
  csline := Slots.ofFn fun _ => false
  irq := false
  log := []
  dram := dram
  pending := []
  miso := []
  dramReplies := []
  flashReplies := []
  freeCount := 0
  ret := none
  bus := []
  saved := none

/-- The machine right after reset: the reference variant REF_A (log 1) in the reference integration
(log 8), with a system memory that lists nothing (log 7). -/
def State.reset : State := State.ofVariant refA .framer []

end Sys2Proof.Machine
end

