-- ==== Sys2Proof/Machine/Operands.lean ====
section
/-! DEFINITION. How operands are put together (R68) and the fields of the registers that the rules read
(R17, R21). -/

namespace Sys2Proof.Machine

/-- The low `w` bytes of a word, zero-extended: `zext_32(v[8w-1:0])`. A narrow write presents this to the
register's write rule and a narrow read returns this of its result (R42). -/
def lowBytes (w : Width) (v : Word) : Word :=
  match w with
  | .w1 => (v.extractLsb' 0 8).setWidth 32
  | .w2 => (v.extractLsb' 0 16).setWidth 32
  | .w3 => (v.extractLsb' 0 24).setWidth 32
  | .w4 => v

/-- The payload bytes of a store, least significant first (R43, R68(f)). -/
def payload (w : Width) (data : Word) : List Byte := (List.range w.bytes).map (byteOf data)

/-- The value of the collected bytes, the first the least significant (R43, R147). -/
def collect : List Byte → Word
  | [] => 0#32
  | b :: bs => b.setWidth 32 ||| (collect bs <<< 8)

/-- The address bytes of a framed access, most significant first (R68(b), R144). -/
def addressBytes (ext4 : Bool) (a : Word) : List Byte :=
  if ext4 then [byteOf a 3, byteOf a 2, byteOf a 1, byteOf a 0]
  else [byteOf a 2, byteOf a 1, byteOf a 0]

/-- CTRLcs.OPCODE (R17). -/
def opcodeField (ctrl : Word) : Byte := ctrl.extractLsb' 16 8

/-- The framer's dummy-byte count, `4 * DUMMY_HI + DUMMY_LO` (R68(c), R145). -/
def dummyField (ctrl : Word) : Nat := 4 * (ctrl.extractLsb' 14 1).toNat + (ctrl.extractLsb' 6 2).toNat

/-- DMA_CTRL.DELAY (R21, R181). -/
def delayField (dmaCtrl : Word) : BitVec 4 := dmaCtrl.extractLsb' 8 4

/-- DMA_CTRL.FREQ (R21, R181). -/
def freqField (dmaCtrl : Word) : BitVec 4 := dmaCtrl.extractLsb' 4 4

/-- TIMINGS with the delay field of ratio `r` replaced (R182). -/
def setDelay (timings : Word) (r : Nat) (delay : BitVec 4) : Word :=
  (timings &&& ~~~(0xF#32 <<< (4 * (r - 1)))) ||| (delay.setWidth 32 <<< (4 * (r - 1)))

/-- CTRL0 with its CLK_FREQ field replaced by the low four bits of the ratio (R183). -/
def setClkFreq (ctrl0 : Word) (r : Nat) : Word :=
  (ctrl0 &&& ~~~0x00000F00#32) ||| (BitVec.ofNat 32 (r % 16) <<< 8)

/-- The saved byte of a snoop cursor (R30, R225). -/
def cursorByte : SnoopIndex → Byte
  | .off => 0xFF#8
  | .start => 0#8
  | .count k => BitVec.ofNat 8 k

/-- The snoop cursor of a saved byte (R226). -/
def cursorOfByte (b : Byte) : SnoopIndex :=
  if b = 0xFF#8 then .off else if b = 0#8 then .start else .count b.toNat

end Sys2Proof.Machine
end

