-- ==== Sys2Proof/Machine/Flags.lean ====
section
/-! DEFINITION. The derived predicates (R13), each a function of the register file, and the status bit of
INTR_CTRL (R16). The block has no condition codes. -/

namespace Sys2Proof.Machine

/-- `mode(cs)` of a CTRLcs word (R13). -/
def modeField (ctrl : Word) : Mode := modeOfBits (ctrl.extractLsb' 0 2)

/-- `asserted(cs)` of a CTRLcs word: user mode and CE_STOP = 0 (R13). -/
def assertedField (ctrl : Word) : Bool := decide (modeField ctrl = .user) && !ctrl.getLsbD 2

/-- `mode(cs)` (R13). -/
def State.mode (s : State) (cs : Cs) : Mode := modeField (s.ctrl.get cs)

/-- `writable(cs)` (R13). -/
def State.writable (s : State) (cs : Cs) : Bool := s.conf.getLsbD (16 + cs.toNat)

/-- `ext4(cs)` (R13). -/
def State.ext4 (s : State) (cs : Cs) : Bool := s.ceCtrl.getLsbD cs.toNat

/-- `stop(cs)` (R13). -/
def State.stop (s : State) (cs : Cs) : Bool := (s.ctrl.get cs).getLsbD 2

/-- `asserted(cs)` (R13). -/
def State.asserted (s : State) (cs : Cs) : Bool := assertedField (s.ctrl.get cs)

/-- `dma_in_progress` (R13): ENABLE set and DMA_STATUS clear. -/
def State.dmaInProgress (s : State) : Bool := s.dmaCtrl.getLsbD 0 && !s.intrCtrl.getLsbD 11

/-- INTR_CTRL with DMA_STATUS set (R190). -/
def setDmaStatus (intr : Word) : Word := intr ||| 0x800#32

/-- INTR_CTRL with DMA_STATUS cleared (R176). -/
def clearDmaStatus (intr : Word) : Word := intr &&& ~~~0x800#32

/-- INTR_CTRL.DMA_EN (R16). -/
def dmaEnField (intr : Word) : Bool := intr.getLsbD 3

/-- `addrWidth(cs)` in bytes (R163). -/
def State.addrWidth (s : State) (cs : Cs) : Nat := if s.ext4 cs then 4 else 3

/-- `dummyCount(cs)` (R145). -/
def State.dummyCount (s : State) (cs : Cs) : Nat := dummyField (s.ctrl.get cs)

/-- The dummy byte `reg[DUMMY_DATA][7:0]` (R19). -/
def State.dummyByte (s : State) : Byte := s.dummyData.extractLsb' 0 8

end Sys2Proof.Machine
end

