-- ==== Sys2Proof/Machine/Ops.lean ====
section
/-! DEFINITION. The operations every part of the block is built from: the log (R35), the value returned
to the guest, the chip-select lines (R33), the transfer `Xfer` (R7), the DRAM side and an external flash
side (R7, R59). The block takes no exception and returns from none (R200, R209), so there is no exception
entry here; what it has in that place is the log and the completion of a DMA (Machine/Dma.lean). -/

namespace Sys2Proof.Machine

/-- `log E(info)` (R7, R35): append events. -/
def addLog (es : List Event) (s : State) : State := { s with log := s.log ++ es }

/-- Append effects to the record of the outputs (log 15). -/
def addBus (es : List BusEvent) (s : State) : State := { s with bus := s.bus ++ es }

/-- A read or load returns a value, truncated to the access width (R42). -/
def returnValue (w : Width) (v : Word) (s : State) : State := { s with ret := some (lowBytes w v) }

/-- A write or store returns nothing. -/
def returnNone (s : State) : State := { s with ret := none }

/-- `csline[cs] <- level` (R7, R33); the record keeps the changes (log 16). -/
def driveLine (cs : Cs) (level : Bool) (s : State) : State :=
  if s.csline.get cs = level then s
  else addBus [.line cs level] { s with csline := s.csline.set cs level }

/-- `Xfer(b) -> r` (R7): the received byte is the environment's, the next of `miso` or a free value
(log 6). -/
def xfer (b : Byte) (s : State) : Byte × State :=
  match s.miso with
  | r :: rest => (r, addBus [.xfer b r] { s with miso := rest })
  | [] =>
    (Config.freeMiso s.freeCount,
      addBus [.xfer b (Config.freeMiso s.freeCount)] { s with freeCount := s.freeCount + 1 })

/-- Transfers whose received bytes are discarded. -/
def sendBytes : List Byte → State → State
  | [], s => s
  | b :: bs, s => sendBytes bs (xfer b s).2

/-- `n` transfers of `READ_FILL`; the received bytes, the first first (R147, R148). -/
def receiveBytes : Nat → State → List Byte × State
  | 0, s => ([], s)
  | n + 1, s =>
    let r := xfer readFill s
    let rest := receiveBytes n r.2
    (r.1 :: rest.1, rest.2)

/-- The next answer of the DRAM side: an input or a free value (log 7). -/
def nextDramReply (s : State) : DramReply × State :=
  match s.dramReplies with
  | r :: rest => (r, { s with dramReplies := rest })
  | [] => (Config.freeDramReply s.freeCount, { s with freeCount := s.freeCount + 1 })

/-- The next answer of an external flash side: an input or a free value (log 8). -/
def nextFlashReply (s : State) : Option Word × State :=
  match s.flashReplies with
  | r :: rest => (r, { s with flashReplies := rest })
  | [] => (Config.freeFlashReply s.freeCount, { s with freeCount := s.freeCount + 1 })

/-- `DramRead32(a)` (R7, R59); a misaligned address is answered `Fail` (R47). -/
def dramRead32 (a : Word) (s : State) : Option Word × State :=
  if a.toNat % 4 ≠ 0 then (none, addBus [.dramRead a none] s)
  else
    let r := nextDramReply s
    match r.1 with
    | .fail => (none, addBus [.dramRead a none] r.2)
    | .plain => (some (s.dram.readWord a.toNat), addBus [.dramRead a (some (s.dram.readWord a.toNat))] r.2)
    | .word w => (some w, addBus [.dramRead a (some w)] r.2)

/-- `DramWrite32(a, w)` (R7, R59): the answer, and the word in the system memory if it is `Ok`. -/
def dramWrite32 (a w : Word) (s : State) : Bool × State :=
  if a.toNat % 4 ≠ 0 then (false, addBus [.dramWrite a w false] s)
  else
    let r := nextDramReply s
    match r.1 with
    | .fail => (false, addBus [.dramWrite a w false] r.2)
    | .plain => (true, addBus [.dramWrite a w true] { r.2 with dram := s.dram.writeWord a.toNat w })
    | .word _ => (true, addBus [.dramWrite a w true] { r.2 with dram := s.dram.writeWord a.toNat w })

/-- `FlashRead32(a)` of an external flash side (R7, I7). -/
def externalFlashRead32 (a : Word) (s : State) : Option Word × State :=
  if a.toNat % 4 ≠ 0 then (none, addBus [.flashRead a none] s)
  else
    let r := nextFlashReply s
    (r.1, addBus [.flashRead a r.1] r.2)

/-- `FlashWrite32(a, w)` of an external flash side (R7, I7). -/
def externalFlashWrite32 (a w : Word) (s : State) : Bool × State :=
  if a.toNat % 4 ≠ 0 then (false, addBus [.flashWrite a w false] s)
  else
    let r := nextFlashReply s
    (r.1.isSome, addBus [.flashWrite a w r.1.isSome] r.2)

end Sys2Proof.Machine
end

