-- ==== Sys2Proof/Machine/Mapper.lean ====
section
/-! DEFINITION. The segment mapper: `setSegment` (R126 to R129) and the routing of a flash-window access
(R130, R131). -/

namespace Sys2Proof.Machine

/-- A segment on its way through `setSegment`: the segment, the word to store and what was logged. -/
structure Candidate where
  seg : Segment
  word : Word
  events : List Event
  deriving DecidableEq, Repr

/-- Step 1 of R126: decode the written word. -/
def candidateOf (v : Variant) (word : Word) : Candidate := ⟨decodeSegment v word, word, []⟩

/-- Step 2 of R126 (R127): chip-select 0 starts at the window base; the end is kept. -/
def clampStart (v : Variant) (cs : Cs) (c : Candidate) : Candidate :=
  if cs = .cs0 ∧ c.seg.start ≠ v.winBase then
    let seg : Segment := ⟨v.winBase, c.seg.stop - v.winBase⟩
    ⟨seg, encodeSegment v seg, c.events ++ [.segCs0StartFixed c.word c.seg]⟩
  else c

/-- Step 3 of R126 (R127): a fixed end; the start is kept. -/
def clampEnd (v : Variant) (cs : Cs) (c : Candidate) : Candidate :=
  match v.fixedEnd.get cs with
  | none => c
  | some e =>
    if c.seg.stop ≠ e then
      let seg : Segment := ⟨c.seg.start, e - c.seg.start⟩
      ⟨seg, encodeSegment v seg, c.events ++ [.segEndFixed cs c.word c.seg]⟩
    else c

/-- The candidate that steps 1 to 3 of R126 make of a written word. -/
def clamped (v : Variant) (cs : Cs) (word : Word) : Candidate :=
  clampEnd v cs (clampStart v cs (candidateOf v word))

/-- Step 4 of R126 (R128): a negative size, or a non-empty segment outside the window. -/
def rejected (v : Variant) (g : Segment) : Bool :=
  decide (g.size < 0) || (decide (0 < g.size) && !inWindow v g)

/-- Step 5 of R126 (R129): the start is no multiple of the size. -/
def misaligned (g : Segment) : Bool := decide (0 < g.size ∧ g.start % g.size ≠ 0)

/-- Step 5 of R126 (R129): two non-empty segments share an address. -/
def overlaps (g o : Segment) : Bool :=
  decide (0 < g.size ∧ 0 < o.size ∧ o.start < g.stop ∧ g.start < o.stop)

/-- The overlap events of step 5, one per other chip-select in ascending order (R126, R129). -/
def overlapEvents (s : State) (cs : Cs) (g : Segment) : List Event :=
  (s.variant.slots.filter fun i => decide (i ≠ cs)
      && overlaps g (decodeSegment s.variant (s.segAddr.get i))).map
    fun i => .segOverlap cs i g (decodeSegment s.variant (s.segAddr.get i))

/-- The events of step 5 (R129): misalignment first, then the overlaps. -/
def adviceEvents (s : State) (cs : Cs) (g : Segment) : List Event :=
  (if misaligned g then [.segMisaligned cs g] else []) ++ overlapEvents s cs g

/-- Step 6 of R126: the sub-region and the register take the segment and its word. -/
def applySegment (cs : Cs) (g : Segment) (word : Word) (s : State) : State :=
  { s with region := s.region.set cs g, segAddr := s.segAddr.set cs word }

/-- `setSegment(cs, new)` (R126), its six steps in order. -/
def setSegment (cs : Cs) (word : Word) (s : State) : State :=
  let c := clamped s.variant cs word
  if rejected s.variant c.seg then addLog (c.events ++ [.segInvalid cs c.word c.seg]) s
  else applySegment cs c.seg c.word (addLog (c.events ++ adviceEvents s cs c.seg) s)

/-- The sub-region takes the whole access of `w` bytes at absolute address `a` (R130). -/
def covers (g : Segment) (a w : Nat) : Bool := decide (g.start ≤ a ∧ (a : Int) + w ≤ g.stop)

/-- The chip-selects whose sub-regions take the access, ascending. DESIGN CHOICE (log 26): only a sub-region
that takes the whole access counts (R46, R130), also where another one holds its first address and ends
inside it, a case that R131(a) and D11 can be read to refuse or to leave to `OVERLAP_WINNER`. -/
def covering (s : State) (a w : Nat) : List Cs :=
  s.variant.slots.filter fun cs => covers (s.region.get cs) a w

/-- `OVERLAP_WINNER` (R131(b)): one of the covering chip-selects, which one is the environment's choice
(log 9). -/
def winner (l : List Cs) : Option Cs :=
  match l with
  | [] => none
  | [cs] => some cs
  | _ => l[Config.overlapWinner l % l.length]?

/-- The access lies in the flash window (R130). -/
def inFlashWindow (v : Variant) (a w : Nat) : Bool :=
  decide (v.winBase ≤ a ∧ a + w ≤ v.winBase + v.winSize)

/-- Routing (R130, R131): the chip-select and the offset inside its segment, `none` for an access that is
not delivered. -/
def route (s : State) (a w : Nat) : Option (Cs × Word) :=
  if inFlashWindow s.variant a w then
    match winner (covering s a w) with
    | none => none
    | some cs => some (cs, BitVec.ofInt 32 ((a : Int) - (s.region.get cs).start))
  else none

end Sys2Proof.Machine
end

