-- ==== Sys2Proof/Machine/Snoop.lean ====
section
/-! DEFINITION. The command-snoop dummy-cycle emulator (R160 to R171) and the SNOOP rows: each is the
one-byte user-mode store of the row's byte (R65, log 12, log 21). -/

namespace Sys2Proof.Machine

/-- State START (R161): the byte is an opcode. -/
def snoopOpcode (b : Byte) (s : State) : Bool × State :=
  if ndummies b = 0 then (false, { s with snoopIndex := .off })
  else (false, { s with snoopDummies := ndummies b, snoopIndex := .count 1 })

/-- State COUNT k below the address width plus one (R164): an address byte. -/
def snoopAddress (k : Nat) (s : State) : Bool × State := (false, { s with snoopIndex := .count (k + 1) })

/-- State COUNT k from the address width plus one on (R165): a dummy byte. -/
def snoopDummy (k : Nat) (s : State) : Bool × State :=
  if s.snoopDummies = 0 then (false, { s with snoopIndex := .off })
  else
    (true,
      { (xfer s.dummyByte s).2 with
        snoopDummies := s.snoopDummies - 1
        snoopIndex := if s.snoopDummies - 1 = 0 then .off else .count (k + 1) })

/-- `snoopByte(cs, b)` (R162): true when the emulator has made the transfer in the byte's place. -/
def snoopByte (cs : Cs) (b : Byte) (s : State) : Bool × State :=
  match s.snoopIndex with
  | .off => (false, s)
  | .start => snoopOpcode b s
  | .count k => if k < s.addrWidth cs + 1 then snoopAddress k s else snoopDummy k s

/-- One byte of a user-mode store (R151): snooped, and forwarded unless it was replaced. -/
def userByte (cs : Cs) (b : Byte) (s : State) : State :=
  let r := snoopByte cs b s
  if r.1 then r.2 else (xfer b r.2).2

/-- The bytes of a user-mode store, in order (R151). -/
def userBytes (cs : Cs) : List Byte → State → State
  | [], s => s
  | b :: bs, s => userBytes cs bs (userByte cs b s)

/-- A store to a chip-select whose write-enable bit is clear (R141). -/
def rejectStore (cs : Cs) (addr : Word) (s : State) : State := addLog [.flashNotWritable cs addr] s

/-- A user-mode store of these bytes, after the write-enable check (R141, R151). -/
def userStore (cs : Cs) (addr : Word) (bytes : List Byte) (s : State) : State :=
  if s.writable cs then userBytes cs bytes s else rejectStore cs addr s

/-- The operand and mode checks of a FLASH or SNOOP row: the chip-select is the variant's, and its MODE
field is the row's (R63, R140; log 12). -/
def inMode (cs : Cs) (m : Mode) (s : State) (t : State) : Result :=
  if s.variant.has cs = false then .refused .noSuchChipSelect
  else if s.mode cs ≠ m then .refused .selectorMismatch
  else .next t

/-- A SNOOP row (R161, R151): the user-mode store of its byte. -/
def snoopRowStore (cs : Cs) (addr : Word) (b : Byte) (s : State) : Result :=
  inMode cs .user s (returnNone (userStore cs addr [b] s))

/-- SNOOP.PLAIN.READ (R70: 0x03, no dummies). -/
def execSnoopPlainRead (cs : Cs) (addr : Word) (s : State) : Result := snoopRowStore cs addr 0x03#8 s

/-- SNOOP.PLAIN.READ4 (R70: 0x13, no dummies). -/
def execSnoopPlainRead4 (cs : Cs) (addr : Word) (s : State) : Result := snoopRowStore cs addr 0x13#8 s

/-- SNOOP.PLAIN.PP (R70: 0x02, no dummies). -/
def execSnoopPlainPp (cs : Cs) (addr : Word) (s : State) : Result := snoopRowStore cs addr 0x02#8 s

/-- SNOOP.PLAIN.PP4 (R70: 0x12, no dummies). -/
def execSnoopPlainPp4 (cs : Cs) (addr : Word) (s : State) : Result := snoopRowStore cs addr 0x12#8 s

/-- SNOOP.PLAIN.DPP (R70: 0xA2, no dummies). -/
def execSnoopPlainDpp (cs : Cs) (addr : Word) (s : State) : Result := snoopRowStore cs addr 0xA2#8 s

/-- SNOOP.PLAIN.QPP (R70: 0x32, no dummies). -/
def execSnoopPlainQpp (cs : Cs) (addr : Word) (s : State) : Result := snoopRowStore cs addr 0x32#8 s

/-- SNOOP.PLAIN.QPP_4 (R70: 0x34, no dummies). -/
def execSnoopPlainQpp4 (cs : Cs) (addr : Word) (s : State) : Result := snoopRowStore cs addr 0x34#8 s

/-- SNOOP.PLAIN.PP4_4 (R70: 0x3E, no dummies). -/
def execSnoopPlainPp44 (cs : Cs) (addr : Word) (s : State) : Result := snoopRowStore cs addr 0x3E#8 s

/-- SNOOP.FAST.FAST_READ (R70: 0x0B, one dummy). -/
def execSnoopFastFastRead (cs : Cs) (addr : Word) (s : State) : Result := snoopRowStore cs addr 0x0B#8 s

/-- SNOOP.FAST.FAST_READ4 (R70: 0x0C, one dummy). -/
def execSnoopFastFastRead4 (cs : Cs) (addr : Word) (s : State) : Result := snoopRowStore cs addr 0x0C#8 s

/-- SNOOP.FAST.DOR (R70: 0x3B, one dummy). -/
def execSnoopFastDor (cs : Cs) (addr : Word) (s : State) : Result := snoopRowStore cs addr 0x3B#8 s

/-- SNOOP.FAST.DOR4 (R70: 0x3C, one dummy). -/
def execSnoopFastDor4 (cs : Cs) (addr : Word) (s : State) : Result := snoopRowStore cs addr 0x3C#8 s

/-- SNOOP.FAST.QOR (R70: 0x6B, one dummy). -/
def execSnoopFastQor (cs : Cs) (addr : Word) (s : State) : Result := snoopRowStore cs addr 0x6B#8 s

/-- SNOOP.FAST.QOR4 (R70: 0x6C, one dummy). -/
def execSnoopFastQor4 (cs : Cs) (addr : Word) (s : State) : Result := snoopRowStore cs addr 0x6C#8 s

/-- SNOOP.DUAL.DIOR (R70: 0xBB, two dummies). -/
def execSnoopDualDior (cs : Cs) (addr : Word) (s : State) : Result := snoopRowStore cs addr 0xBB#8 s

/-- SNOOP.DUAL.DIOR4 (R70: 0xBC, two dummies). -/
def execSnoopDualDior4 (cs : Cs) (addr : Word) (s : State) : Result := snoopRowStore cs addr 0xBC#8 s

/-- SNOOP.QUAD.QIOR (R70: 0xEB, four dummies). -/
def execSnoopQuadQior (cs : Cs) (addr : Word) (s : State) : Result := snoopRowStore cs addr 0xEB#8 s

/-- SNOOP.QUAD.QIOR4 (R70: 0xEC, four dummies). -/
def execSnoopQuadQior4 (cs : Cs) (addr : Word) (s : State) : Result := snoopRowStore cs addr 0xEC#8 s

/-- SNOOP.UNKNOWN (R70: any other byte, no dummies). -/
def execSnoopUnknown (cs : Cs) (addr : Word) (b : Byte) (s : State) : Result := snoopRowStore cs addr b s

end Sys2Proof.Machine
end

