-- ==== Sys2Proof/Machine/Framer.lean ====
section
/-! DEFINITION. The SPI transaction framer (R140 to R154) and the FLASH rows. -/

namespace Sys2Proof.Machine

/-- `opcode(cs)` (R143), with the `NO_COMMAND` event of a zero OPCODE in FAST_READ and WRITE mode. -/
def opcodeOf (cs : Cs) (s : State) : Byte × State :=
  match s.mode cs with
  | .read => (readOpcode, s)
  | m =>
    let b := opcodeField (s.ctrl.get cs)
    (b, if b = 0#8 then addLog [.noCommand cs m] s else s)

/-- `clampToSegment(cs, a)` (R146). -/
def clampToSegment (cs : Cs) (a : Word) (s : State) : Word × State :=
  let size := (decodeSegment s.variant (s.segAddr.get cs)).size
  if 0 < size ∧ size ≤ (a.toNat : Int) then
    (BitVec.ofInt 32 ((a.toNat : Int) % size), addLog [.flashAddrClamped cs a] s)
  else (a, s)

/-- The dummy bytes of a framed access (R142, R145): only in FAST_READ mode. -/
def frameDummies (cs : Cs) (s : State) : List Byte :=
  if s.mode cs = .fastRead then List.replicate (s.dummyCount cs) s.dummyByte else []

/-- `frame` up to its body (R142): select, clamp, opcode, address bytes, dummy bytes. -/
def frameOpen (cs : Cs) (addr : Word) (s : State) : State :=
  let c := clampToSegment cs addr (driveLine cs true s)
  let o := opcodeOf cs c.2
  sendBytes (o.1 :: addressBytes (s.ext4 cs) c.1 ++ frameDummies cs s) o.2

/-- `frame` after its body (R142): deselect. -/
def frameClose (cs : Cs) (s : State) : State := driveLine cs false s

/-- A framed load (R147). -/
def framedLoad (cs : Cs) (addr : Word) (w : Width) (s : State) : Word × State :=
  let r := receiveBytes w.bytes (frameOpen cs addr s)
  (collect r.1, frameClose cs r.2)

/-- A framed store (R150). -/
def framedStore (cs : Cs) (addr : Word) (w : Width) (data : Word) (s : State) : State :=
  frameClose cs (sendBytes (payload w data) (frameOpen cs addr s))

/-- A user-mode load (R148): no framing, no snooping, no line change. -/
def userLoad (w : Width) (s : State) : Word × State :=
  let r := receiveBytes w.bytes s
  (collect r.1, r.2)

/-- An access in a mode that does not serve its direction (R149, R152). -/
def invalidAccess (cs : Cs) (dir : Dir) (m : Mode) (s : State) : State :=
  addLog [.flashInvalidMode cs dir m] s

/-- A flash-window load, by the MODE field at the time of the access (R140). -/
def flashLoad (cs : Cs) (addr : Word) (w : Width) (s : State) : Word × State :=
  match s.mode cs with
  | .read => framedLoad cs addr w s
  | .fastRead => framedLoad cs addr w s
  | .write => (0#32, invalidAccess cs .read .write s)
  | .user => userLoad w s

/-- A flash-window store: the write-enable check, then by the MODE field (R140, R141). -/
def flashStore (cs : Cs) (addr : Word) (w : Width) (data : Word) (s : State) : State :=
  if s.writable cs then
    match s.mode cs with
    | .read => invalidAccess cs .write .read s
    | .fastRead => invalidAccess cs .write .fastRead s
    | .write => framedStore cs addr w data s
    | .user => userBytes cs (payload w data) s
  else rejectStore cs addr s

/-- A FLASH load row of mode `m` (R63). -/
def loadInMode (m : Mode) (cs : Cs) (addr : Word) (w : Width) (s : State) : Result :=
  let r := flashLoad cs addr w s
  inMode cs m s (returnValue w r.1 r.2)

/-- A FLASH store row of mode `m` (R63). -/
def storeInMode (m : Mode) (cs : Cs) (addr : Word) (w : Width) (data : Word) (s : State) : Result :=
  inMode cs m s (returnNone (flashStore cs addr w data s))

/-- FLD.READ (R147): a framed load with the opcode `READ_OPCODE`. -/
def execFldRead (cs : Cs) (addr : Word) (w : Width) (s : State) : Result := loadInMode .read cs addr w s

/-- FLD.FREAD (R147): a framed load with CTRLcs.OPCODE and dummy bytes. -/
def execFldFread (cs : Cs) (addr : Word) (w : Width) (s : State) : Result := loadInMode .fastRead cs addr w s

/-- FLD.WRITE (R149): logged, returns 0. -/
def execFldWrite (cs : Cs) (addr : Word) (w : Width) (s : State) : Result := loadInMode .write cs addr w s

/-- FLD.USER (R148): a raw load. -/
def execFldUser (cs : Cs) (addr : Word) (w : Width) (s : State) : Result := loadInMode .user cs addr w s

/-- FST.READ (R152): logged. -/
def execFstRead (cs : Cs) (addr : Word) (w : Width) (data : Word) (s : State) : Result :=
  storeInMode .read cs addr w data s

/-- FST.FREAD (R152): logged. -/
def execFstFread (cs : Cs) (addr : Word) (w : Width) (data : Word) (s : State) : Result :=
  storeInMode .fastRead cs addr w data s

/-- FST.WRITE (R150): a framed store. -/
def execFstWrite (cs : Cs) (addr : Word) (w : Width) (data : Word) (s : State) : Result :=
  storeInMode .write cs addr w data s

/-- FST.USER (R151): a raw store through the snoop emulator. -/
def execFstUser (cs : Cs) (addr : Word) (w : Width) (data : Word) (s : State) : Result :=
  storeInMode .user cs addr w data s

end Sys2Proof.Machine
end

