-- ==== Sys2Proof/Machine/RegisterFile.lean ====
section
/-! DEFINITION. The register file and decoder (R80 to R108): the REG rows but for the DMA registers,
which are in Machine/Dma.lean. -/

namespace Sys2Proof.Machine

/-- RD at an unrecognised offset (R104): logged, all ones truncated to the width. -/
def unrecognisedRead (off : Byte) (w : Width) (s : State) : State :=
  returnValue w 0xFFFFFFFF#32 (addLog [.unimplementedRead off] s)

/-- WR at an unrecognised offset (R105): logged, no other effect. -/
def unrecognisedWrite (off : Byte) (value : Word) (s : State) : State :=
  returnNone (addLog [.unimplementedWrite off value] s)

/-- The byte offset of a register of the map, as the bus carries it (R62). -/
def busOffset (s : State) (r : Reg) : Byte := BitVec.ofNat 8 (regOffset s.variant r)

/-- A REG row that applies only when the variant has its register (R76): the row's read, or the
unrecognised-offset row in its place. -/
def readIf (r : Reg) (w : Width) (v : Word) (s : State) : Result :=
  .next (if regRecognised s.variant r then returnValue w v s else unrecognisedRead (busOffset s r) w s)

/-- The same for a write: `t` is the state after the row's write rule. -/
def writeIf (r : Reg) (value : Word) (s t : State) : Result :=
  .next (if regRecognised s.variant r then returnNone t else unrecognisedWrite (busOffset s r) value s)

/-- The change of `asserted(cs)` reported to the snoop emulator and the line (R87, R160, R167). -/
def propagateAsserted (cs : Cs) (was now : Bool) (s : State) : State :=
  if now = was then s
  else if now then driveLine cs true { s with snoopIndex := .start }
  else driveLine cs false { s with snoopIndex := .off }

/-- WR CTRLcs (R87). -/
def writeCtrl (cs : Cs) (value : Word) (s : State) : State :=
  propagateAsserted cs (s.asserted cs) (assertedField value) { s with ctrl := s.ctrl.set cs value }

/-- WR SEG_ADDRcs (R89): forwarded to the mapper only when the word changes. -/
def writeSeg (cs : Cs) (value : Word) (s : State) : State :=
  if value = s.segAddr.get cs then s else setSegment cs value s

/-- RD CTRLcs (R86). -/
def readCtrlRow (cs : Cs) (w : Width) (s : State) : Result := readIf (.ctrl cs) w (s.ctrl.get cs) s

/-- WR CTRLcs (R87, R42). -/
def writeCtrlRow (cs : Cs) (w : Width) (data : Word) (s : State) : Result :=
  writeIf (.ctrl cs) (lowBytes w data) s (writeCtrl cs (lowBytes w data) s)

/-- RD SEG_ADDRcs (R88). -/
def readSegRow (cs : Cs) (w : Width) (s : State) : Result := readIf (.segAddr cs) w (s.segAddr.get cs) s

/-- WR SEG_ADDRcs (R89, R42). -/
def writeSegRow (cs : Cs) (w : Width) (data : Word) (s : State) : Result :=
  writeIf (.segAddr cs) (lowBytes w data) s (writeSeg cs (lowBytes w data) s)

/-- RD CONF (R80). -/
def execRdConf (w : Width) (s : State) : Result := readIf .conf w s.conf s

/-- WR CONF (R81). -/
def execWrConf (w : Width) (data : Word) (s : State) : Result :=
  writeIf .conf (lowBytes w data) s { s with conf := lowBytes w data }

/-- RD CE_CTRL (R82). -/
def execRdCeCtrl (w : Width) (s : State) : Result := readIf .ceCtrl w s.ceCtrl s

/-- WR CE_CTRL (R83). -/
def execWrCeCtrl (w : Width) (data : Word) (s : State) : Result :=
  writeIf .ceCtrl (lowBytes w data) s { s with ceCtrl := lowBytes w data }

/-- RD INTR_CTRL (R84): no bit is cleared. -/
def execRdIntrCtrl (w : Width) (s : State) : Result := readIf .intrCtrl w s.intrCtrl s

/-- WR INTR_CTRL (R85): all bits, status bits included; `irq` does not move. -/
def execWrIntrCtrl (w : Width) (data : Word) (s : State) : Result :=
  writeIf .intrCtrl (lowBytes w data) s { s with intrCtrl := lowBytes w data }

/-- RD CTRL0 (R86). -/
def execRdCtrl0 (w : Width) (s : State) : Result := readCtrlRow .cs0 w s

/-- WR CTRL0 (R87). -/
def execWrCtrl0 (w : Width) (data : Word) (s : State) : Result := writeCtrlRow .cs0 w data s

/-- RD CTRL1 (R86). -/
def execRdCtrl1 (w : Width) (s : State) : Result := readCtrlRow .cs1 w s

/-- WR CTRL1 (R87). -/
def execWrCtrl1 (w : Width) (data : Word) (s : State) : Result := writeCtrlRow .cs1 w data s

/-- RD CTRL2 (R86). -/
def execRdCtrl2 (w : Width) (s : State) : Result := readCtrlRow .cs2 w s

/-- WR CTRL2 (R87). -/
def execWrCtrl2 (w : Width) (data : Word) (s : State) : Result := writeCtrlRow .cs2 w data s

/-- RD CTRL3 (R86). -/
def execRdCtrl3 (w : Width) (s : State) : Result := readCtrlRow .cs3 w s

/-- WR CTRL3 (R87). -/
def execWrCtrl3 (w : Width) (data : Word) (s : State) : Result := writeCtrlRow .cs3 w data s

/-- RD CTRL4 (R86). -/
def execRdCtrl4 (w : Width) (s : State) : Result := readCtrlRow .cs4 w s

/-- WR CTRL4 (R87). -/
def execWrCtrl4 (w : Width) (data : Word) (s : State) : Result := writeCtrlRow .cs4 w data s

/-- RD SEG_ADDR0 (R88). -/
def execRdSegAddr0 (w : Width) (s : State) : Result := readSegRow .cs0 w s

/-- WR SEG_ADDR0 (R89). -/
def execWrSegAddr0 (w : Width) (data : Word) (s : State) : Result := writeSegRow .cs0 w data s

/-- RD SEG_ADDR1 (R88). -/
def execRdSegAddr1 (w : Width) (s : State) : Result := readSegRow .cs1 w s

/-- WR SEG_ADDR1 (R89). -/
def execWrSegAddr1 (w : Width) (data : Word) (s : State) : Result := writeSegRow .cs1 w data s

/-- RD SEG_ADDR2 (R88). -/
def execRdSegAddr2 (w : Width) (s : State) : Result := readSegRow .cs2 w s

/-- WR SEG_ADDR2 (R89). -/
def execWrSegAddr2 (w : Width) (data : Word) (s : State) : Result := writeSegRow .cs2 w data s

/-- RD SEG_ADDR3 (R88). -/
def execRdSegAddr3 (w : Width) (s : State) : Result := readSegRow .cs3 w s

/-- WR SEG_ADDR3 (R89). -/
def execWrSegAddr3 (w : Width) (data : Word) (s : State) : Result := writeSegRow .cs3 w data s

/-- RD SEG_ADDR4 (R88). -/
def execRdSegAddr4 (w : Width) (s : State) : Result := readSegRow .cs4 w s

/-- WR SEG_ADDR4 (R89). -/
def execWrSegAddr4 (w : Width) (data : Word) (s : State) : Result := writeSegRow .cs4 w data s

/-- RD DUMMY_DATA (R90). -/
def execRdDummyData (w : Width) (s : State) : Result := readIf .dummyData w s.dummyData s

/-- WR DUMMY_DATA (R91): bits 7:0 only. -/
def execWrDummyData (w : Width) (data : Word) (s : State) : Result :=
  writeIf .dummyData (lowBytes w data) s { s with dummyData := ((lowBytes w data).extractLsb' 0 8).setWidth 32 }

/-- RD TIMINGS (R92). -/
def execRdTimings (w : Width) (s : State) : Result := readIf .timings w s.timings s

/-- WR TIMINGS (R93). -/
def execWrTimings (w : Width) (data : Word) (s : State) : Result :=
  writeIf .timings (lowBytes w data) s { s with timings := lowBytes w data }

/-- RD at an unrecognised offset (R104). -/
def execRdUnrecognised (off : Byte) (w : Width) (s : State) : Result := .next (unrecognisedRead off w s)

/-- WR at an unrecognised offset (R105). -/
def execWrUnrecognised (off : Byte) (w : Width) (data : Word) (s : State) : Result :=
  .next (unrecognisedWrite off (lowBytes w data) s)

end Sys2Proof.Machine
end

