-- ==== Sys2Proof/Machine/Dma.lean ====
section
/-! DEFINITION. The DMA engine (R175 to R193), the REG rows of its registers (R94 to R103) and the DMACTL
rows (R64). -/

namespace Sys2Proof.Machine

/-- `FlashRead32(x)` (R59): in the reference integration a 4-byte flash-window load at
`V.win_base + x`, executed by the framer's rules; otherwise the external space's answer. -/
def flashRead32 (x : Word) (s : State) : Option Word × State :=
  match s.binding with
  | .external => externalFlashRead32 x s
  | .framer =>
    if x.toNat % 4 ≠ 0 then (none, s)
    else
      match route s (s.variant.winBase + x.toNat) 4 with
      | none => (none, s)
      | some (cs, addr) =>
        let r := flashLoad cs addr .w4 s
        (some r.1, r.2)

/-- `FlashWrite32(x, w)` (R59): in the reference integration a 4-byte flash-window store, `Ok` also when
the framer rejects it. -/
def flashWrite32 (x w : Word) (s : State) : Bool × State :=
  match s.binding with
  | .external => externalFlashWrite32 x w s
  | .framer =>
    if x.toNat % 4 ≠ 0 then (false, s)
    else
      match route s (s.variant.winBase + x.toNat) 4 with
      | none => (false, s)
      | some (cs, addr) => (true, flashStore cs addr .w4 w s)

/-- The register updates of a checksum step (R178). -/
def checksumAdvance (w : Word) (s : State) : State :=
  { s with
    dmaChecksum := s.dmaChecksum + w
    dmaFlashAddr := s.dmaFlashAddr + 4#32
    dmaLen := s.dmaLen - 4#32 }

/-- The register updates of a transfer step, `step(w)` (R179). -/
def transferAdvance (w : Word) (s : State) : State :=
  { s with
    dmaFlashAddr := s.dmaFlashAddr + 4#32
    dmaDramAddr := s.dmaDramAddr + 4#32
    dmaLen := s.dmaLen - 4#32
    dmaChecksum := s.dmaChecksum + w }

/-- One step of the checksum loop (R178): true when it was done, false on an early stop (R187). -/
def checksumStep (s : State) : Bool × State :=
  let r := flashRead32 s.dmaFlashAddr s
  match r.1 with
  | none => (false, addLog [.dmaFlashReadFail s.dmaFlashAddr] r.2)
  | some w => (true, checksumAdvance w r.2)

/-- One step of a transfer from flash to DRAM (R179, R185, R187). -/
def readStep (s : State) : Bool × State :=
  let r := flashRead32 s.dmaFlashAddr s
  match r.1 with
  | none => (false, addLog [.dmaFlashReadFail s.dmaFlashAddr] r.2)
  | some w =>
    let d := dramWrite32 s.dmaDramAddr w r.2
    if d.1 then (true, transferAdvance w d.2)
    else (false, addLog [.dmaDramWriteFail s.dmaDramAddr] d.2)

/-- One step of a transfer from DRAM to flash (R179, R185, R187). -/
def writeStep (s : State) : Bool × State :=
  let r := dramRead32 s.dmaDramAddr s
  match r.1 with
  | none => (false, addLog [.dmaDramReadFail s.dmaDramAddr] r.2)
  | some w =>
    let d := flashWrite32 s.dmaFlashAddr w r.2
    if d.1 then (true, transferAdvance w d.2)
    else (false, addLog [.dmaFlashWriteFail s.dmaFlashAddr] d.2)

/-- `n` steps of a loop, stopping early at a step that fails (R187). -/
def dmaLoop (body : State → Bool × State) : Nat → State → Bool × State
  | 0, s => (true, s)
  | n + 1, s =>
    let r := body s
    if r.1 then dmaLoop body n r.2 else (false, r.2)

/-- The number of steps that brings DMA_LEN to 0, when it is a multiple of 4 (R186, R189). -/
def dmaSteps (s : State) : Nat := s.dmaLen.toNat / 4

/-- Failure injection (R188). -/
def injectFailure (s : State) : State :=
  if s.variant.injectFailure ∧ unreliable (ratio (freqField s.dmaCtrl)) (delayField s.dmaCtrl) = true then
    { s with dmaChecksum := injectSentinel }
  else s

/-- The checksum loop and, unless it stopped early, failure injection (R178, R187, R188). -/
def checksumRun (s : State) : State :=
  let r := dmaLoop checksumStep (dmaSteps s) s
  if r.1 then injectFailure r.2 else r.2

/-- The transfer loop, its direction from the stored register (R179). -/
def transferRun (s : State) : State :=
  if s.dmaCtrl.getLsbD 1 then (dmaLoop writeStep (dmaSteps s) s).2
  else (dmaLoop readStep (dmaSteps s) s).2

/-- The timing-register write of calibration, for the four fastest ratios (R180, R182). -/
def calibrateTimings (s : State) : State :=
  let r := ratio (freqField s.dmaCtrl)
  if r ≤ calibTunableRatios then { s with timings := setDelay s.timings r (delayField s.dmaCtrl) } else s

/-- The clock-frequency write of calibration, for every ratio (R183). -/
def calibrateClock (s : State) : State :=
  { s with
    ctrl := s.ctrl.set .cs0 (setClkFreq (s.ctrl.get .cs0) (ratio (freqField s.dmaCtrl))) }

/-- Calibration (R180). -/
def calibrate (s : State) : State := calibrateClock (calibrateTimings s)

/-- Completion (R190): the status bit, and the interrupt line if DMA_EN is set now. -/
def complete (s : State) : State :=
  { s with
    intrCtrl := setDmaStatus s.intrCtrl
    irq := s.irq || dmaEnField s.intrCtrl }

/-- DMA.STOP (R176). -/
def stopDma (value : Word) (s : State) : State :=
  { s with
    dmaCtrl := value
    intrCtrl := clearDmaStatus s.intrCtrl
    irq := false
    dmaChecksum := 0#32 }

/-- The in-progress gate (R177): logged, nothing else. -/
def discardStart (value : Word) (s : State) : State := addLog [.dmaInProgress value] s

/-- A start (R175): the gate, the store, the body, completion. A DMA_LEN that is no multiple of 4 has no
end by itself and stops the machine (log 14). -/
def startDma (value : Word) (body : State → State) (s : State) : Result :=
  if s.dmaInProgress then .next (returnNone (discardStart value s))
  else if s.dmaLen.toNat % 4 ≠ 0 then .fault .dmaLengthNeverZero
  else .next (returnNone (complete (body { s with dmaCtrl := value })))

/-- `writeDmaControl(value)` (R175), by the DMACTL selector of the value (R64). -/
def writeDmaControl (value : Word) (s : State) : Result :=
  if value.getLsbD 0 = false then .next (returnNone (stopDma value s))
  else if value.getLsbD 2 then
    if value.getLsbD 3 then startDma value (fun t => checksumRun (calibrate t)) s
    else startDma value checksumRun s
  else startDma value transferRun s

/-- A DMA row on a variant without DMA is the unrecognised-offset row of DMA_CTRL (R76, R95). -/
def ifDma (value : Word) (s : State) (r : Result) : Result :=
  if s.variant.hasDma then r else .next (unrecognisedWrite (busOffset s .dmaCtrl) value s)

/-- RD DMA_CTRL (R94). -/
def execRdDmaCtrl (w : Width) (s : State) : Result := readIf .dmaCtrl w s.dmaCtrl s

/-- WR DMA_CTRL (R95). -/
def execWrDmaCtrl (w : Width) (data : Word) (s : State) : Result :=
  ifDma (lowBytes w data) s (writeDmaControl (lowBytes w data) s)

/-- RD DMA_FLASH_ADDR (R96). -/
def execRdDmaFlashAddr (w : Width) (s : State) : Result := readIf .dmaFlashAddr w s.dmaFlashAddr s

/-- WR DMA_FLASH_ADDR (R97). -/
def execWrDmaFlashAddr (w : Width) (data : Word) (s : State) : Result :=
  writeIf .dmaFlashAddr (lowBytes w data) s
    { s with dmaFlashAddr := lowBytes w data &&& s.variant.dmaFlashMask }

/-- RD DMA_DRAM_ADDR (R98). -/
def execRdDmaDramAddr (w : Width) (s : State) : Result := readIf .dmaDramAddr w s.dmaDramAddr s

/-- WR DMA_DRAM_ADDR (R99). -/
def execWrDmaDramAddr (w : Width) (data : Word) (s : State) : Result :=
  writeIf .dmaDramAddr (lowBytes w data) s
    { s with dmaDramAddr := lowBytes w data &&& s.variant.dmaDramMask }

/-- RD DMA_LEN (R100). -/
def execRdDmaLen (w : Width) (s : State) : Result := readIf .dmaLen w s.dmaLen s

/-- WR DMA_LEN (R101). -/
def execWrDmaLen (w : Width) (data : Word) (s : State) : Result :=
  writeIf .dmaLen (lowBytes w data) s { s with dmaLen := lowBytes w data &&& dmaLenMask }

/-- RD DMA_CHECKSUM (R102). -/
def execRdDmaChecksum (w : Width) (s : State) : Result := readIf .dmaChecksum w s.dmaChecksum s

/-- WR DMA_CHECKSUM (R103): read-only to the guest, logged with its offset. -/
def execWrDmaChecksum (w : Width) (data : Word) (s : State) : Result :=
  writeIf .dmaChecksum (lowBytes w data) s
    (addLog [.unimplementedWrite (busOffset s .dmaChecksum) (lowBytes w data)] s)

/-- DMA.STOP (R176). -/
def execDmaStop (upper : BitVec 31) (s : State) : Result :=
  ifDma (dmaStopValue upper) s (.next (returnNone (stopDma (dmaStopValue upper) s)))

/-- DMA.CKSUM (R178). -/
def execDmaCksum (wr : Bool) (upper : BitVec 28) (s : State) : Result :=
  ifDma (dmaStartValue false true wr upper) s (startDma (dmaStartValue false true wr upper) checksumRun s)

/-- DMA.CKSUM.CAL (R178, R180). -/
def execDmaCksumCal (wr : Bool) (upper : BitVec 28) (s : State) : Result :=
  ifDma (dmaStartValue true true wr upper) s
    (startDma (dmaStartValue true true wr upper) (fun t => checksumRun (calibrate t)) s)

/-- DMA.RD (R179): flash to DRAM. -/
def execDmaRd (calib : Bool) (upper : BitVec 28) (s : State) : Result :=
  ifDma (dmaStartValue calib false false upper) s
    (startDma (dmaStartValue calib false false upper) transferRun s)

/-- DMA.WR (R179): DRAM to flash. -/
def execDmaWr (calib : Bool) (upper : BitVec 28) (s : State) : Result :=
  ifDma (dmaStartValue calib false true upper) s
    (startDma (dmaStartValue calib false true upper) transferRun s)

end Sys2Proof.Machine
end

