-- ==== Sys2Proof/Machine/Platform.lean ====
section
/-! DEFINITION. The operations of the environment: reset (R220), construction (R224), save (R225) and
restore (R226). -/

namespace Sys2Proof.Machine

/-- Drive the lines of the variant's chip-selects to the given levels, in ascending order. -/
def driveLines (level : Cs → Bool) (s : State) : State :=
  s.variant.slots.foldl (fun t cs => driveLine cs (level cs) t) s

/-- A register slot where the variant has it, and the old content where it has not. -/
def presentSlots {α : Type} (v : Variant) (f : Cs → α) (old : Slots α) : Slots α :=
  Slots.ofFn fun cs => if v.has cs then f cs else old.get cs

/-- RESET (R220): it logs nothing, makes no transfer, and keeps the log. -/
def resetBlock (s : State) : State :=
  driveLines (fun _ => false)
    { s with
      conf := 0#32
      ceCtrl := 0#32
      intrCtrl := 0#32
      ctrl := presentSlots s.variant (fun _ => 0#32) s.ctrl
      segAddr := presentSlots s.variant (fun cs => encodeSegment s.variant (s.variant.segDefault.get cs)) s.segAddr
      dummyData := 0#32
      timings := 0#32
      dmaCtrl := 0#32
      dmaFlashAddr := 0#32
      dmaDramAddr := 0#32
      dmaLen := 0#32
      dmaChecksum := 0#32
      snoopIndex := .off
      snoopDummies := 0
      region := presentSlots s.variant (fun cs => s.variant.segDefault.get cs) s.region
      irq := false }

/-- Why construction fails (R224). -/
inductive ConstructError where
  /-- "DMA requested by configuration but no system-memory link supplied" (R204, R224). -/
  | noDramSpace
  /-- The descriptor is not well-formed (R5, R224). -/
  | illFormedDescriptor
  deriving DecidableEq, Repr

/-- Construction (R224): a partial function from a descriptor and an optional DRAM space to the reset
state of R220. DESIGN CHOICE (log 27): where both errors apply the ill-formed descriptor is the one
reported; R224 gives no order. -/
def construct (v : Variant) (b : FlashBinding) (dram : Option Memory) : Except ConstructError State :=
  if v.wf = false then .error .illFormedDescriptor
  else
    match dram with
    | some m => .ok (State.ofVariant v b m)
    | none => if v.hasDma then .error .noDramSpace else .ok (State.ofVariant v b [])

/-- The snapshot a save takes (R225), version 1. -/
def takeSnapshot (s : State) : Snapshot where
  version := 1
  takenOf := s.variant
  conf := s.conf
  ceCtrl := s.ceCtrl
  intrCtrl := s.intrCtrl
  ctrl := s.ctrl
  segAddr := s.segAddr
  dummyData := s.dummyData
  timings := s.timings
  dmaCtrl := s.dmaCtrl
  dmaFlashAddr := s.dmaFlashAddr
  dmaDramAddr := s.dmaDramAddr
  dmaLen := s.dmaLen
  dmaChecksum := s.dmaChecksum
  cursor := cursorByte s.snoopIndex
  dummies := BitVec.ofNat 8 s.snoopDummies

/-- Save (R225): no state of the block changes; the snapshot is an output. -/
def saveBlock (s : State) : State := { s with saved := some (takeSnapshot s) }

/-- A segment with a negative size taken as 0 (R226). -/
def atLeastEmpty (g : Segment) : Segment := if g.size < 0 then ⟨g.start, 0⟩ else g

/-- A DMA register of a snapshot: restored where the variant has it (R226: "every recognised register"). -/
def restoredDma (s : State) (saved old : Word) : Word := if s.variant.hasDma then saved else old

/-- The registers, the cursor and the budget of a snapshot (R226, first half). -/
def restoreRegisters (p : Snapshot) (s : State) : State :=
  { s with
    conf := p.conf
    ceCtrl := p.ceCtrl
    intrCtrl := p.intrCtrl
    ctrl := presentSlots s.variant p.ctrl.get s.ctrl
    segAddr := presentSlots s.variant p.segAddr.get s.segAddr
    dummyData := p.dummyData &&& 0xFF#32
    timings := p.timings
    dmaCtrl := restoredDma s p.dmaCtrl s.dmaCtrl
    dmaFlashAddr := restoredDma s p.dmaFlashAddr s.dmaFlashAddr
    dmaDramAddr := restoredDma s p.dmaDramAddr s.dmaDramAddr
    dmaLen := restoredDma s (p.dmaLen &&& dmaLenMask) s.dmaLen
    dmaChecksum := restoredDma s p.dmaChecksum s.dmaChecksum
    snoopIndex := cursorOfByte p.cursor
    snoopDummies := p.dummies.toNat }

/-- What a restore rebuilds from the registers (R226, second half): sub-regions, lines, `irq`. -/
def rebuildOutputs (s : State) : State :=
  driveLines s.asserted
    { s with
      region := presentSlots s.variant
        (fun cs => atLeastEmpty (decodeSegment s.variant (s.segAddr.get cs))) s.region
      irq := s.variant.hasDma && s.intrCtrl.getLsbD 11 && dmaEnField s.intrCtrl }

/-- Restore (R226); a snapshot of another version or of an instance with another descriptor is refused
(I13). -/
def restoreBlock (p : Snapshot) (s : State) : Result :=
  if p.version ≠ 1 then .refused .snapshotVersion
  else if p.takenOf ≠ s.variant then .refused .snapshotDescriptor
  else .next (rebuildOutputs (restoreRegisters p s))

end Sys2Proof.Machine
end

