-- ==== Sys2Proof/Machine/Dispatch.lean ====
section
/-! DEFINITION. The dispatch of the operations to their meanings, one arm per row of
spec/opcode_table.json. -/

namespace Sys2Proof.Machine

/-- The meaning of an operation. -/
def exec (i : Instr) (s : State) : Host.Outcome State Fault Refusal :=
  match i with
  | .rdConf w => Sys2Proof.Machine.execRdConf w s
  | .wrConf w data => Sys2Proof.Machine.execWrConf w data s
  | .rdCeCtrl w => Sys2Proof.Machine.execRdCeCtrl w s
  | .wrCeCtrl w data => Sys2Proof.Machine.execWrCeCtrl w data s
  | .rdIntrCtrl w => Sys2Proof.Machine.execRdIntrCtrl w s
  | .wrIntrCtrl w data => Sys2Proof.Machine.execWrIntrCtrl w data s
  | .rdCtrl0 w => Sys2Proof.Machine.execRdCtrl0 w s
  | .wrCtrl0 w data => Sys2Proof.Machine.execWrCtrl0 w data s
  | .rdCtrl1 w => Sys2Proof.Machine.execRdCtrl1 w s
  | .wrCtrl1 w data => Sys2Proof.Machine.execWrCtrl1 w data s
  | .rdCtrl2 w => Sys2Proof.Machine.execRdCtrl2 w s
  | .wrCtrl2 w data => Sys2Proof.Machine.execWrCtrl2 w data s
  | .rdCtrl3 w => Sys2Proof.Machine.execRdCtrl3 w s
  | .wrCtrl3 w data => Sys2Proof.Machine.execWrCtrl3 w data s
  | .rdCtrl4 w => Sys2Proof.Machine.execRdCtrl4 w s
  | .wrCtrl4 w data => Sys2Proof.Machine.execWrCtrl4 w data s
  | .rdSegAddr0 w => Sys2Proof.Machine.execRdSegAddr0 w s
  | .wrSegAddr0 w data => Sys2Proof.Machine.execWrSegAddr0 w data s
  | .rdSegAddr1 w => Sys2Proof.Machine.execRdSegAddr1 w s
  | .wrSegAddr1 w data => Sys2Proof.Machine.execWrSegAddr1 w data s
  | .rdSegAddr2 w => Sys2Proof.Machine.execRdSegAddr2 w s
  | .wrSegAddr2 w data => Sys2Proof.Machine.execWrSegAddr2 w data s
  | .rdSegAddr3 w => Sys2Proof.Machine.execRdSegAddr3 w s
  | .wrSegAddr3 w data => Sys2Proof.Machine.execWrSegAddr3 w data s
  | .rdSegAddr4 w => Sys2Proof.Machine.execRdSegAddr4 w s
  | .wrSegAddr4 w data => Sys2Proof.Machine.execWrSegAddr4 w data s
  | .rdDummyData w => Sys2Proof.Machine.execRdDummyData w s
  | .wrDummyData w data => Sys2Proof.Machine.execWrDummyData w data s
  | .rdDmaCtrl w => Sys2Proof.Machine.execRdDmaCtrl w s
  | .wrDmaCtrl w data => Sys2Proof.Machine.execWrDmaCtrl w data s
  | .rdDmaFlashAddr w => Sys2Proof.Machine.execRdDmaFlashAddr w s
  | .wrDmaFlashAddr w data => Sys2Proof.Machine.execWrDmaFlashAddr w data s
  | .rdDmaDramAddr w => Sys2Proof.Machine.execRdDmaDramAddr w s
  | .wrDmaDramAddr w data => Sys2Proof.Machine.execWrDmaDramAddr w data s
  | .rdDmaLen w => Sys2Proof.Machine.execRdDmaLen w s
  | .wrDmaLen w data => Sys2Proof.Machine.execWrDmaLen w data s
  | .rdDmaChecksum w => Sys2Proof.Machine.execRdDmaChecksum w s
  | .wrDmaChecksum w data => Sys2Proof.Machine.execWrDmaChecksum w data s
  | .rdTimings w => Sys2Proof.Machine.execRdTimings w s
  | .wrTimings w data => Sys2Proof.Machine.execWrTimings w data s
  | .rdUnrecognised off w => Sys2Proof.Machine.execRdUnrecognised off w s
  | .wrUnrecognised off w data => Sys2Proof.Machine.execWrUnrecognised off w data s
  | .fldRead cs addr w => Sys2Proof.Machine.execFldRead cs addr w s
  | .fldFread cs addr w => Sys2Proof.Machine.execFldFread cs addr w s
  | .fldWrite cs addr w => Sys2Proof.Machine.execFldWrite cs addr w s
  | .fldUser cs addr w => Sys2Proof.Machine.execFldUser cs addr w s
  | .fstRead cs addr w data => Sys2Proof.Machine.execFstRead cs addr w data s
  | .fstFread cs addr w data => Sys2Proof.Machine.execFstFread cs addr w data s
  | .fstWrite cs addr w data => Sys2Proof.Machine.execFstWrite cs addr w data s
  | .fstUser cs addr w data => Sys2Proof.Machine.execFstUser cs addr w data s
  | .dmaStop upper => Sys2Proof.Machine.execDmaStop upper s
  | .dmaCksum wr upper => Sys2Proof.Machine.execDmaCksum wr upper s
  | .dmaCksumCal wr upper => Sys2Proof.Machine.execDmaCksumCal wr upper s
  | .dmaRd calib upper => Sys2Proof.Machine.execDmaRd calib upper s
  | .dmaWr calib upper => Sys2Proof.Machine.execDmaWr calib upper s
  | .snoopPlainRead cs addr => Sys2Proof.Machine.execSnoopPlainRead cs addr s
  | .snoopPlainRead4 cs addr => Sys2Proof.Machine.execSnoopPlainRead4 cs addr s
  | .snoopPlainPp cs addr => Sys2Proof.Machine.execSnoopPlainPp cs addr s
  | .snoopPlainPp4 cs addr => Sys2Proof.Machine.execSnoopPlainPp4 cs addr s
  | .snoopPlainDpp cs addr => Sys2Proof.Machine.execSnoopPlainDpp cs addr s
  | .snoopPlainQpp cs addr => Sys2Proof.Machine.execSnoopPlainQpp cs addr s
  | .snoopPlainQpp4 cs addr => Sys2Proof.Machine.execSnoopPlainQpp4 cs addr s
  | .snoopPlainPp44 cs addr => Sys2Proof.Machine.execSnoopPlainPp44 cs addr s
  | .snoopFastFastRead cs addr => Sys2Proof.Machine.execSnoopFastFastRead cs addr s
  | .snoopFastFastRead4 cs addr => Sys2Proof.Machine.execSnoopFastFastRead4 cs addr s
  | .snoopFastDor cs addr => Sys2Proof.Machine.execSnoopFastDor cs addr s
  | .snoopFastDor4 cs addr => Sys2Proof.Machine.execSnoopFastDor4 cs addr s
  | .snoopFastQor cs addr => Sys2Proof.Machine.execSnoopFastQor cs addr s
  | .snoopFastQor4 cs addr => Sys2Proof.Machine.execSnoopFastQor4 cs addr s
  | .snoopDualDior cs addr => Sys2Proof.Machine.execSnoopDualDior cs addr s
  | .snoopDualDior4 cs addr => Sys2Proof.Machine.execSnoopDualDior4 cs addr s
  | .snoopQuadQior cs addr => Sys2Proof.Machine.execSnoopQuadQior cs addr s
  | .snoopQuadQior4 cs addr => Sys2Proof.Machine.execSnoopQuadQior4 cs addr s
  | .snoopUnknown cs addr b => Sys2Proof.Machine.execSnoopUnknown cs addr b s

end Sys2Proof.Machine
end

