-- ==== Sys2Proof/Machine/Fetch.lean ====
section
/-! DEFINITION. How a waiting request becomes an operation: the contract checks of a register access
(R106), the routing of a flash-window access (R130, R140), the decoding of a frame; and how a word of the
opcode table is placed for the next step (log 5). -/

namespace Sys2Proof.Machine

/-- What a request turns into. -/
inductive Fetched where
  /-- An operation of the opcode table. -/
  | operation (i : Instr)
  /-- RESET. -/
  | reset
  /-- Save. -/
  | save
  /-- Restore. -/
  | restore (p : Snapshot)
  /-- No operation. -/
  | refused (r : Refusal)
  deriving DecidableEq, Repr

/-- The width of an access (R41, R46: 1 to 4 bytes). -/
def widthOfNat : Nat → Option Width
  | 1 => some .w1
  | 2 => some .w2
  | 3 => some .w3
  | 4 => some .w4
  | _ => none

/-- The operation a frame decodes to. -/
def fetchFrame (v : Variant) (fmt : Format) (bytes : List Byte) : Fetched :=
  match decode v fmt bytes with
  | .ok i => .operation i
  | .error e => .refused (.undecoded e)

/-- The data a REG or FLASH frame carries: a read or load carries none. -/
def frameData (dir : Dir) (data : Word) : Word :=
  match dir with
  | .read => 0#32
  | .write => data

/-- A guest register access (R106): the contract, then the REG selector `dir ‖ offset`. -/
def fetchRegister (v : Variant) (dir : Dir) (off w : Nat) (data : Word) : Fetched :=
  match widthOfNat w with
  | none => .refused .badWidth
  | some width =>
    if regSpaceBytes ≤ off then .refused .outsideRegisterSpace
    else if off % 4 ≠ 0 then .refused .misalignedOffset
    else fetchFrame v .reg (regFrame (BitVec.ofNat 8 off) dir width (frameData dir data))

/-- A guest flash-window access: routing (R130), then the FLASH selector `dir ‖ reg[CTRLcs][1:0]` read at
the time of the access (R63, R140). -/
def fetchWindow (s : State) (dir : Dir) (addr w : Nat) (data : Word) : Fetched :=
  match widthOfNat w with
  | none => .refused .badWidth
  | some width =>
    match route s addr w with
    | none => .refused .notDelivered
    | some (cs, off) =>
      fetchFrame s.variant .flash (flashFrame dir (s.mode cs) cs off width (frameData dir data))

/-- What a request turns into in a state. -/
def fetch (r : Request) (s : State) : Fetched :=
  match r with
  | .register dir off w data => fetchRegister s.variant dir off w data
  | .window dir addr w data => fetchWindow s dir addr w data
  | .frame fmt bytes => fetchFrame s.variant fmt bytes
  | .reset => .reset
  | .save => .save
  | .restore p => .restore p

/-- CTRLcs with its MODE field replaced. -/
def setMode (ctrl : Word) (m : Mode) : Word := ctrl.extractLsb' 2 30 ++ bitsOfMode m

/-- The state in which chip-select 0 is in a mode. -/
def withMode (m : Mode) (s : State) : State :=
  { s with ctrl := s.ctrl.set .cs0 (setMode (s.ctrl.get .cs0) m) }

/-- What a word of the opcode table needs besides its frame (log 5): a FLASH selector holds the MODE
field, so chip-select 0 is put into that mode; a SNOOP byte is the first byte of a user-mode store, so
chip-select 0 is writable and in user mode and the cursor is START. -/
def prepared (fmt : Format) (w : Nat) (s : State) : State :=
  match fmt with
  | .reg => s
  | .dmactl => s
  | .flash => withMode (modeOfBits (BitVec.ofNat 2 w)) s
  | .snoop => withMode .user { s with conf := s.conf ||| 0x00010000#32, snoopIndex := .start }

end Sys2Proof.Machine
end

