-- ==== Sys2Proof/Machine/Step.lean ====
section
/-! DEFINITION. One step: the oldest waiting request is taken off the list and served to its end (R8,
R53). With nothing waiting the block does nothing (log 2). -/

namespace Sys2Proof.Machine

/-- Serve what a request turned into. -/
def serve (f : Fetched) (s : State) : Host.Outcome State Fault Refusal :=
  match f with
  | .operation i => exec i s
  | .reset => .next (resetBlock s)
  | .save => .next (saveBlock s)
  | .restore p => restoreBlock p s
  | .refused r => .refused r

/-- The state with its oldest request taken off. -/
def State.popRequest (s : State) : State := { s with pending := s.pending.tail }

/-- One step of the machine. -/
def step (s : State) : Host.Outcome State Fault Refusal :=
  match s.pending with
  | [] => .next s
  | r :: _ => serve (fetch r s) s.popRequest

/-- The state whose next step runs the operation of a word of the opcode table (log 5). -/
def State.withFetchWord (s : State) (nbits w : Nat) : State :=
  let t := prepared (tableFormat nbits w) w s
  { t with pending := .frame (tableFormat nbits w) (tableFrame w) :: t.pending }

end Sys2Proof.Machine
end

