-- ==== Sys2Proof/Safety.lean ====
section
/-! DEFINITION. What holds after reset and after every operation, and what a safe run is. -/

namespace Sys2Proof.Machine

/-- Two segments are the same sub-region: equal, or both empty (R32, R132(a)). -/
def sameSegment (g h : Segment) : Prop := g = h ∨ (g.size = 0 ∧ h.size = 0)

/-- The one state the spec's rules reach in which R132(a) does not hold (log 19): under `NEW_1M` a write
to SEG_ADDR0 that the start clamp turns into the first MiB of the window stores the all-zero word. -/
def firstMiBClamped (s : State) (cs : Cs) : Prop :=
  s.variant.segEnc = .new1M ∧ cs = .cs0 ∧ s.segAddr.get cs = 0#32
    ∧ s.region.get cs = ⟨s.variant.winBase, MiB⟩

/-- R132(a), with the exception of log 19. -/
def RegionDecodes (s : State) (cs : Cs) : Prop :=
  sameSegment (s.region.get cs) (decodeSegment s.variant (s.segAddr.get cs)) ∨ firstMiBClamped s cs

/-- R132(d): no negative size, and a non-empty sub-region lies within the window. -/
def RegionInside (s : State) (cs : Cs) : Prop :=
  0 ≤ (s.region.get cs).size ∧ (0 < (s.region.get cs).size → inWindow s.variant (s.region.get cs) = true)

/-- R132(c). -/
def FixedEndKept (s : State) (cs : Cs) : Prop :=
  ∀ e, s.variant.fixedEnd.get cs = some e → (s.region.get cs).stop = (e : Int)

/-- R165, R168: while counting, the budget is 1 to 4 and the counter stays within 8; the budget is never
above 4. -/
def SnoopBounded (s : State) : Prop :=
  s.snoopDummies ≤ 4 ∧
    match s.snoopIndex with
    | .off => True
    | .start => True
    | .count k => 1 ≤ k ∧ 1 ≤ s.snoopDummies ∧ k + s.snoopDummies ≤ 9

/-- What every operation keeps: a well-formed descriptor (R5), the mapper's invariants (R132), the line
that follows `asserted` (R33), the bounds of the registers (R19, R192), the bounds of the snoop cursor
(R168), the canonical form of the system memory. -/
structure Invariant (s : State) : Prop where
  descriptor : s.variant.wf = true
  decodes : ∀ cs, s.variant.has cs = true → RegionDecodes s cs
  base : (s.region.get .cs0).start = (s.variant.winBase : Int)
  baseWord : (decodeSegment s.variant (s.segAddr.get .cs0)).start = (s.variant.winBase : Int)
  fixedEnd : ∀ cs, s.variant.has cs = true → FixedEndKept s cs
  inside : ∀ cs, s.variant.has cs = true → RegionInside s cs
  lines : ∀ cs, s.variant.has cs = true → s.csline.get cs = s.asserted cs
  lenMasked : s.dmaLen &&& ~~~dmaLenMask = 0#32
  dummyMasked : s.dummyData &&& ~~~0xFF#32 = 0#32
  snoop : SnoopBounded s
  memory : s.dram.wf = true

/-- A step is safe when it gives a next state or refuses what the spec says is not the block's: it does
not fault (R107, R200). -/
def SafeStep (s : State) : Prop := ∀ f, step s ≠ .fault f

end Sys2Proof.Machine
end

