-- ==== Sys2Proof/Certificates/Slice0/Obligations.lean ====
section
/-! DEFINITION. The statements for the provers, and the few terms they are written in. The terms say what
the rules say in the rules' own arithmetic, not by the functions of the model. -/

namespace Sys2Proof.Claims

open Sys2Proof.Machine

/-- Bits `[8w-1:0]` of a word, zero-extended (R42). -/
def low (w : Width) (v : Word) : Word := BitVec.ofNat 32 (v.toNat % 2 ^ (8 * w.bytes))

/-- A request put in front of the waiting ones, and served by one step. -/
def serveNext (r : Request) (s : State) : Result := step { s with pending := r :: s.pending }

/-- The next operation after one that gave a next state. -/
def andThen (r : Result) (f : State → Result) : Result :=
  match r with
  | .next s => f s
  | .fault e => .fault e
  | .refused e => .refused e

/-- A read row: in every state of a variant that has the register the row answers the register's value,
truncated, and changes nothing else; a guest read at the register's offset is that row. -/
def ReadRow (row : Width → Instr) (off : Variant → Nat) (present : Variant → Bool) (value : State → Word) :
    Prop :=
  ∀ (s : State) (w : Width), present s.variant = true →
    exec (row w) s = .next { s with ret := some (low w (value s)) } ∧
    (s.variant.wf = true → ∀ data,
      serveNext (.register .read (off s.variant) w.bytes data) s = exec (row w) s)

/-- A write row: in every state of a variant that has the register the row has the effect given, and
nothing else; a guest write at the register's offset is that row. -/
def WriteRow (row : Width → Word → Instr) (off : Variant → Nat) (present : Variant → Bool)
    (effect : Word → State → State) : Prop :=
  ∀ (s : State) (w : Width) (data : Word), present s.variant = true →
    exec (row w data) s = .next { effect (low w data) s with ret := none } ∧
    (s.variant.wf = true →
      serveNext (.register .write (off s.variant) w.bytes data) s = exec (row w data) s)

/-- Every variant has the register. -/
def always (_ : Variant) : Bool := true

/-- `asserted` of a CTRLcs word (R13): MODE = 3 and CE_STOP = 0, the low three bits `011`. -/
def assertedWord (ctrl : Word) : Bool := decide (ctrl.toNat % 8 = 3)

/-- A line driven to a level; the record keeps a change. -/
def lineTo (cs : Cs) (level : Bool) (s : State) : State :=
  { s with
    csline := s.csline.set cs level
    bus := s.bus ++ (if s.csline.get cs = level then [] else [.line cs level]) }

/-- R87: the store, and on a change of `asserted(cs)` the cursor and the line. -/
def ctrlWritten (cs : Cs) (value : Word) (s : State) : State :=
  let was := assertedWord (s.ctrl.get cs)
  let now := assertedWord value
  let t := { s with ctrl := s.ctrl.set cs value }
  if now = was then t
  else if now = true then lineTo cs true { t with snoopIndex := .start }
  else lineTo cs false { t with snoopIndex := .off }

/-- R89: the mapper is called only when the whole word differs. -/
def segWritten (cs : Cs) (value : Word) (s : State) : State :=
  if value = s.segAddr.get cs then s else setSegment cs value s

/-- The segment a written word stands for after both clamps (R127): chip-select 0 starts at the window
base, a fixed end replaces the written one. -/
def clampedSegment (v : Variant) (cs : Cs) (word : Word) : Segment :=
  let g := decodeSegment v word
  let start := if cs = .cs0 then (v.winBase : Int) else g.start
  let stop := match v.fixedEnd.get cs with
    | none => g.start + g.size
    | some e => (e : Int)
  ⟨start, stop - start⟩

/-- The word stored (R126): the written word, or the encoding of a clamped segment. -/
def storedWord (v : Variant) (cs : Cs) (word : Word) : Word :=
  if clampedSegment v cs word = decodeSegment v word then word
  else encodeSegment v (clampedSegment v cs word)

/-- The segment and the word between step 2 and step 3 of R126. -/
def startFixed (v : Variant) (cs : Cs) (word : Word) : Segment × Word :=
  let g := decodeSegment v word
  if cs = .cs0 ∧ g.start ≠ v.winBase then
    (⟨v.winBase, g.start + g.size - v.winBase⟩, encodeSegment v ⟨v.winBase, g.start + g.size - v.winBase⟩)
  else (g, word)

/-- The events of steps 2 and 3 of R126. -/
def clampLog (v : Variant) (cs : Cs) (word : Word) : List Event :=
  let g := decodeSegment v word
  let h := (startFixed v cs word).1
  (if cs = .cs0 ∧ g.start ≠ v.winBase then [.segCs0StartFixed word g] else []) ++
  (match v.fixedEnd.get cs with
    | none => []
    | some e => if h.start + h.size = (e : Int) then [] else [.segEndFixed cs (startFixed v cs word).2 h])

/-- The condition of step 4 of R126. -/
def outsideWindow (v : Variant) (g : Segment) : Prop :=
  g.size < 0 ∨ (0 < g.size ∧ (g.start < v.winBase ∨ (v.winBase : Int) + v.winSize < g.start + g.size))

/-- The event of an overlap with chip-select `i` (R129), if there is one. -/
def overlapWith (s : State) (cs : Cs) (g : Segment) (i : Cs) : List Event :=
  let o := decodeSegment s.variant (s.segAddr.get i)
  if i ≠ cs ∧ s.variant.has i = true ∧ 0 < g.size ∧ 0 < o.size ∧ o.start < g.start + g.size
      ∧ g.start < o.start + o.size then [.segOverlap cs i g o]
  else []

/-- The events of step 5 of R126: misalignment, then the overlaps in ascending order. -/
def adviceLog (s : State) (cs : Cs) (g : Segment) : List Event :=
  (if 0 < g.size ∧ g.start % g.size ≠ 0 then [.segMisaligned cs g] else []) ++
  (overlapWith s cs g .cs0 ++ overlapWith s cs g .cs1 ++ overlapWith s cs g .cs2
    ++ overlapWith s cs g .cs3 ++ overlapWith s cs g .cs4)

/-- MODE of a chip-select as a number (R13). -/
def modeNumber (cs : Cs) (s : State) : Nat := (s.ctrl.get cs).toNat % 4

/-- The write-enable bit of a chip-select (R13). -/
def writeEnabled (cs : Cs) (s : State) : Bool := s.conf.getLsbD (16 + cs.toNat)

/-- The bytes the flash side answers to the next `n` transfers: the inputs, then free values. -/
def received (s : State) (n : Nat) : List Byte :=
  (List.range n).map fun i => s.miso.getD i (Config.freeMiso (s.freeCount + (i - s.miso.length)))

/-- Transfers of the given bytes: inputs consumed, each byte and its answer on the record. -/
def exchange (sent : List Byte) (s : State) : State :=
  { s with
    miso := s.miso.drop sent.length
    freeCount := s.freeCount + (sent.length - s.miso.length)
    bus := s.bus ++ List.zipWith BusEvent.xfer sent (received s sent.length) }

/-- The little-endian number of some bytes (R43). -/
def little (l : List Byte) : Word := BitVec.ofNat 32 (l.foldr (fun b n => b.toNat + 256 * n) 0)

/-- Byte `i` of a word. -/
def byteAt (v : Word) (i : Nat) : Byte := BitVec.ofNat 8 (v.toNat / 2 ^ (8 * i))

/-- The size of the segment in SEG_ADDRcs. -/
def segmentSize (cs : Cs) (s : State) : Int := (decodeSegment s.variant (s.segAddr.get cs)).size

/-- `clampToSegment` (R146). -/
def offsetSent (cs : Cs) (addr : Word) (s : State) : Word :=
  if 0 < segmentSize cs s ∧ segmentSize cs s ≤ addr.toNat then
    BitVec.ofInt 32 ((addr.toNat : Int) % segmentSize cs s)
  else addr

/-- The event of R146. -/
def offsetLog (cs : Cs) (addr : Word) (s : State) : List Event :=
  if 0 < segmentSize cs s ∧ segmentSize cs s ≤ addr.toNat then [.flashAddrClamped cs addr] else []

/-- The address bytes, most significant first, four or three (R144). -/
def addressSent (cs : Cs) (a : Word) (s : State) : List Byte :=
  if s.ceCtrl.getLsbD cs.toNat then [byteAt a 3, byteAt a 2, byteAt a 1, byteAt a 0]
  else [byteAt a 2, byteAt a 1, byteAt a 0]

/-- CTRLcs.OPCODE, bits 23:16 (R143). -/
def opcodeSent (cs : Cs) (s : State) : Byte := byteAt (s.ctrl.get cs) 2

/-- The event of a zero opcode (R143). -/
def opcodeLog (cs : Cs) (m : Mode) (s : State) : List Event :=
  if opcodeSent cs s = 0#8 then [.noCommand cs m] else []

/-- `4 * reg[CTRLcs][14] + reg[CTRLcs][7:6]` (R145). -/
def dummiesSent (cs : Cs) (s : State) : Nat :=
  4 * ((s.ctrl.get cs).toNat / 2 ^ 14 % 2) + (s.ctrl.get cs).toNat / 2 ^ 6 % 4

/-- `reg[DUMMY_DATA][7:0]`. -/
def dummy (s : State) : Byte := byteAt s.dummyData 0

/-- A framed transaction (R142): line active, the events, the bytes, line inactive. -/
def framed (cs : Cs) (events : List Event) (sent : List Byte) (s : State) : State :=
  let t := lineTo cs true s
  lineTo cs false (exchange sent { t with log := t.log ++ events })

/-- The value of the last `n` bytes received in a transaction of `sent` bytes. -/
def loaded (s : State) (sent : List Byte) (n : Nat) : Word :=
  little ((received s sent.length).drop (sent.length - n))

/-- The payload bytes of a store, least significant first (R43). -/
def storedBytes (w : Width) (data : Word) : List Byte := (List.range w.bytes).map (byteAt data)

/-- The listed rows of the snoop opcode table (R70): the byte, its dummy count, its row. -/
def snoopRows : List (Byte × Nat × (Cs → Word → Instr)) :=
  [(0x03#8, 0, .snoopPlainRead), (0x13#8, 0, .snoopPlainRead4), (0x02#8, 0, .snoopPlainPp),
    (0x12#8, 0, .snoopPlainPp4), (0xA2#8, 0, .snoopPlainDpp), (0x32#8, 0, .snoopPlainQpp),
    (0x34#8, 0, .snoopPlainQpp4), (0x3E#8, 0, .snoopPlainPp44), (0x0B#8, 1, .snoopFastFastRead),
    (0x0C#8, 1, .snoopFastFastRead4)] ++
  [(0x3B#8, 1, .snoopFastDor), (0x3C#8, 1, .snoopFastDor4), (0x6B#8, 1, .snoopFastQor),
    (0x6C#8, 1, .snoopFastQor4), (0xBB#8, 2, .snoopDualDior), (0xBC#8, 2, .snoopDualDior4),
    (0xEB#8, 4, .snoopQuadQior), (0xEC#8, 4, .snoopQuadQior4)]

/-- The dummy count of a byte (R70); any other byte counts 0. -/
def dummiesOf (b : Byte) : Nat :=
  if b ∈ [0x0B#8, 0x0C#8, 0x3B#8, 0x3C#8, 0x6B#8, 0x6C#8] then 1
  else if b ∈ [0xBB#8, 0xBC#8] then 2
  else if b ∈ [0xEB#8, 0xEC#8] then 4
  else 0

/-- The number of address bytes the snoop emulator counts (R163). -/
def addressWidth (cs : Cs) (s : State) : Nat := if s.ceCtrl.getLsbD cs.toNat then 4 else 3

/-- The chip-select is the variant's, in user mode and writable. -/
structure UserReady (cs : Cs) (s : State) : Prop where
  has : s.variant.has cs = true
  user : modeNumber cs s = 3
  writable : writeEnabled cs s = true

/-- One-byte user-mode stores in order, each a FST.USER. -/
def userStores (cs : Cs) (addr : Word) (bytes : List Byte) (s : State) : Result :=
  bytes.foldl (fun r b => andThen r (exec (.fstUser cs addr .w1 (b.setWidth 32)))) (.next s)

/-- The sum of some words modulo 2^32. -/
def sumWords : List Word → Word
  | [] => 0#32
  | w :: ws => w + sumWords ws

/-- The accesses of a checksum loop that reads these words from an address on. -/
def readEvents : Word → List Word → List BusEvent
  | _, [] => []
  | a, w :: ws => .flashRead a (some w) :: readEvents (a + 4#32) ws

/-- The accesses of a transfer from flash to DRAM: each step the read, then the write (R185). -/
def toDramEvents : Word → Word → List Word → List BusEvent
  | _, _, [] => []
  | a, d, w :: ws => .flashRead a (some w) :: .dramWrite d w true :: toDramEvents (a + 4#32) (d + 4#32) ws

/-- The accesses of a transfer from DRAM to flash. -/
def toFlashEvents : Word → Word → List Word → List BusEvent
  | _, _, [] => []
  | a, d, w :: ws => .dramRead d (some w) :: .flashWrite a w true :: toFlashEvents (a + 4#32) (d + 4#32) ws

/-- `n` bytes as a word. -/
def inBytes (n : Nat) : Word := BitVec.ofNat 32 (4 * n)

/-- The engine is present and the gate is open (R13, R177). -/
structure DmaOpen (s : State) : Prop where
  present : s.variant.hasDma = true
  gate : s.dmaCtrl.getLsbD 0 = false ∨ s.intrCtrl.getLsbD 11 = true

/-- Completion (R190): DMA_STATUS set; `irq` raised when DMA_EN is set, never lowered. -/
def completed (s : State) : State :=
  { s with
    intrCtrl := s.intrCtrl ||| 0x800#32
    irq := s.irq || s.intrCtrl.getLsbD 3
    ret := none }

/-- The clock ratio of a control value by the formula of R71. -/
def ratioOf (value : Word) : Nat :=
  let freq := value.toNat / 16 % 16
  2 * (7 - freq % 8) + (if 8 ≤ freq then 1 else 2)

/-- DELAY of a control value, bits 11:8 (R181). -/
def delayOf (value : Word) : Nat := value.toNat / 256 % 16

/-- The unreliable settings (R72). -/
def unreliableSetting (value : Word) : Bool :=
  decide (ratioOf value = 1 ∨ (ratioOf value = 2 ∧ delayOf value % 8 < 2)
    ∨ (ratioOf value = 3 ∧ delayOf value % 8 < 1))

/-- The checksum after a loop that ran to the end (R188). -/
def injected (v : Variant) (value sum : Word) : Word :=
  if v.injectFailure = true ∧ unreliableSetting value = true then 0x0BADC0DE#32 else sum

/-- TIMINGS after calibration (R180, R182). -/
def tunedTimings (value timings : Word) : Word :=
  let sh := 4 * (ratioOf value - 1)
  if ratioOf value ≤ 4 then
    (timings &&& ~~~(BitVec.ofNat 32 (15 * 2 ^ sh))) ||| BitVec.ofNat 32 (delayOf value * 2 ^ sh)
  else timings

/-- CTRL0 after calibration (R183). -/
def tunedCtrl0 (value ctrl0 : Word) : Word :=
  (ctrl0 &&& ~~~0x00000F00#32) ||| BitVec.ofNat 32 (ratioOf value % 16 * 256)

/-- The state after a calibration with this control value. -/
def tuned (value : Word) (s : State) : State :=
  { s with
    timings := tunedTimings value s.timings
    ctrl := s.ctrl.set .cs0 (tunedCtrl0 value (s.ctrl.get .cs0)) }

/-- The four DMACTL rows that start a DMA, with the value each stores (R64). -/
inductive StartRow : Instr → Word → Prop where
  | cksum (wr : Bool) (up : BitVec 28) : StartRow (.dmaCksum wr up) (dmaStartValue false true wr up)
  | cksumCal (wr : Bool) (up : BitVec 28) : StartRow (.dmaCksumCal wr up) (dmaStartValue true true wr up)
  | rd (calib : Bool) (up : BitVec 28) : StartRow (.dmaRd calib up) (dmaStartValue calib false false up)
  | wr (calib : Bool) (up : BitVec 28) : StartRow (.dmaWr calib up) (dmaStartValue calib false true up)

/-- The rows by which a write reaches the DMA engine: WR DMA_CTRL and the DMACTL rows. -/
def dmaControl : Instr → Bool
  | .wrDmaCtrl _ _ => true
  | .dmaStop _ => true
  | .dmaCksum _ _ => true
  | .dmaCksumCal _ _ => true
  | .dmaRd _ _ => true
  | .dmaWr _ _ => true
  | _ => false

/-- The cursor byte of a snapshot (R225). -/
def savedCursor : SnoopIndex → Byte
  | .off => 0xFF#8
  | .start => 0x00#8
  | .count k => BitVec.ofNat 8 k

/-- The sent bytes on a record. -/
def sentBytes (bus : List BusEvent) : List Byte :=
  bus.filterMap fun e => match e with
    | .xfer b _ => some b
    | _ => none

end Sys2Proof.Claims

open Sys2Proof Sys2Proof.Machine Sys2Proof.Claims

/-! Decoding, encoding and the step. -/

/-- R61 to R65, R70: frames written out byte by byte and bit by bit decode to the operations they stand
for, in the reference variant REF_A. The frame around the selectors is the model's (log 3). -/
def Obligations.WrittenOutFramesDecode : Prop :=
  decode refA .reg [0x10#8, 0b00000000#8, 0, 0, 0, 0, 0, 0, 0] = .ok (.rdCtrl0 .w4) ∧
  decode refA .reg [0x34#8, 0b00000001#8, 0x00, 0x00, 0x50, 0x58, 0, 0, 0] = .ok (.wrSegAddr1 .w4 0x58500000#32) ∧
  decode refA .reg [0x50#8, 0b00000010#8, 0, 0, 0, 0, 0, 0, 0] = .ok (.rdUnrecognised 0x50#8 .w1) ∧
  decode refA .flash [0b00100111#8, 0x34, 0x12, 0, 0, 0xEF, 0xBE, 0xAD, 0xDE]
    = .ok (.fstUser .cs1 0x1234#32 .w4 0xDEADBEEF#32) ∧
  decode refA .flash [0b01001001#8, 0x10, 0, 0, 0, 0, 0, 0, 0] = .ok (.fldFread .cs2 0x10#32 .w1) ∧
  decode refA .dmactl [0b01101101#8, 0b00000011#8, 0, 0, 0, 0, 0, 0, 0] = .ok (.dmaCksumCal false 0x36#28) ∧
  decode refA .dmactl [0b00000011#8, 0, 0, 0, 0, 0, 0, 0, 0] = .ok (.dmaWr false 0#28) ∧
  decode refA .snoop [0xBB#8, 0, 0, 0, 0, 0, 0, 0, 0] = .ok (.snoopDualDior .cs0 0#32) ∧
  decode refA .snoop [0x9F#8, 0x02, 0, 0, 0, 0, 0, 0, 0] = .ok (.snoopUnknown .cs2 0#32 0x9F#8)

/-- Decoding the encoding of a well-formed operation gives it back, for every well-formed variant and
every operand (R61, R63, R64, R65; the frame is the model's, log 3). -/
def Obligations.DecodeOfEncode : Prop :=
  ∀ (v : Variant) (i : Instr), v.wf = true → i.wf v = true →
    decode v (encode v i).1 (encode v i).2 = .ok i

/-- A frame that decodes is the encoding of what it decodes to, so no two frames mean one operation, and what
it decodes to is an operation the variant has: its row's "when" condition holds (R76; the frame is the
model's, log 3). -/
def Obligations.EncodeOfDecode : Prop :=
  ∀ (v : Variant) (fmt : Format) (bytes : List Byte) (i : Instr),
    decode v fmt bytes = .ok i → encode v i = (fmt, bytes) ∧ i.wf v = true

/-- A step serves the oldest waiting frame: it runs the operation the frame decodes to, and refuses by
name a frame that is no operation; with nothing waiting it changes nothing (log 2, DESIGN CHOICE). -/
def Obligations.StepRunsTheDecodedOperation : Prop :=
  (∀ (s : State) (fmt : Format) (bytes : List Byte) (i : Instr),
    decode s.variant fmt bytes = .ok i → serveNext (.frame fmt bytes) s = exec i s) ∧
  (∀ (s : State) (fmt : Format) (bytes : List Byte) (e : Reject),
    decode s.variant fmt bytes = .error e →
      serveNext (.frame fmt bytes) s = .refused (.undecoded e)) ∧
  (∀ s : State, s.pending = [] → step s = .next s)

/-- R106: a register access in the contract performs the rule of the register whose offset it names and
whose "recognised when" holds, and with no such register the unrecognised-offset rule. -/
def Obligations.RegisterAccessSelectsItsRow : Prop :=
  ∀ (s : State) (off : Nat) (w : Width) (data : Word), s.variant.wf = true → off % 4 = 0 → off < 0x100 →
    (∀ r, regRecognised s.variant r = true → regOffset s.variant r = off →
      serveNext (.register .read off w.bytes data) s = exec (readRow (BitVec.ofNat 8 off) w (some r)) s ∧
      serveNext (.register .write off w.bytes data) s
        = exec (writeRow (BitVec.ofNat 8 off) w data (some r)) s) ∧
    ((∀ r, regRecognised s.variant r = true → regOffset s.variant r ≠ off) →
      serveNext (.register .read off w.bytes data) s = exec (.rdUnrecognised (BitVec.ofNat 8 off) w) s ∧
      serveNext (.register .write off w.bytes data) s
        = exec (.wrUnrecognised (BitVec.ofNat 8 off) w data) s)

/-- R45, R40, R41: a register access outside the contract is refused by name, and only such an access:
a width outside 1 to 4, an offset at or beyond 0x100, an offset that is no multiple of 4. -/
def Obligations.AccessOutsideTheContractIsRefused : Prop :=
  ∀ (s : State) (dir : Dir) (off w : Nat) (data : Word),
    ((w = 0 ∨ 4 < w) → serveNext (.register dir off w data) s = .refused .badWidth) ∧
    (1 ≤ w → w ≤ 4 → 0x100 ≤ off → serveNext (.register dir off w data) s = .refused .outsideRegisterSpace) ∧
    (1 ≤ w → w ≤ 4 → off < 0x100 → off % 4 ≠ 0 →
      serveNext (.register dir off w data) s = .refused .misalignedOffset)

/-- R130: a window access that one sub-region alone takes whole is performed as the FLASH row of the MODE
field, with the chip-select and the offset inside its segment; the offset is in range. Another sub-region
may hold a part of the access and not the rest: that the access is delivered all the same is the model's
choice (log 26). -/
def Obligations.WindowAccessIsRouted : Prop :=
  ∀ (s : State) (cs : Cs) (a : Nat) (w : Width) (data : Word),
    let g := s.region.get cs
    Invariant s → s.variant.has cs = true →
    s.variant.winBase ≤ a → a + w.bytes ≤ s.variant.winBase + s.variant.winSize →
    g.start ≤ a → (a : Int) + w.bytes ≤ g.start + g.size →
    (∀ o, s.variant.has o = true → o ≠ cs →
      ¬ ((s.region.get o).start ≤ a
        ∧ (a : Int) + w.bytes ≤ (s.region.get o).start + (s.region.get o).size)) →
    let addr := BitVec.ofInt 32 ((a : Int) - g.start)
    (addr.toNat : Int) = a - g.start ∧ (addr.toNat : Int) + w.bytes ≤ g.size ∧
    serveNext (.window .read a w.bytes data) s = exec (loadRow (modeOfBits ((s.ctrl.get cs).extractLsb' 0 2)) cs addr w) s ∧
    serveNext (.window .write a w.bytes data) s
      = exec (storeRow (modeOfBits ((s.ctrl.get cs).extractLsb' 0 2)) cs addr w data) s

/-- R131: a window access that no sub-region takes whole is refused, and one that several take is
performed at one of them. Which one is the free choice of log 9; that only sub-regions which take the
access whole count, not every one that holds its address, is the model's choice (log 26). -/
def Obligations.UnsettledWindowAccess : Prop :=
  ∀ (s : State) (a : Nat) (w : Width) (data : Word),
    s.variant.winBase ≤ a → a + w.bytes ≤ s.variant.winBase + s.variant.winSize →
    let takes := fun cs => s.variant.has cs = true ∧ (s.region.get cs).start ≤ a
      ∧ (a : Int) + w.bytes ≤ (s.region.get cs).start + (s.region.get cs).size
    ((∀ cs, ¬ takes cs) → ∀ dir, serveNext (.window dir a w.bytes data) s = .refused .notDelivered) ∧
    ((∃ cs, takes cs) → ∃ cs, takes cs ∧
      serveNext (.window .read a w.bytes data) s
        = exec (loadRow (s.mode cs) cs (BitVec.ofInt 32 ((a : Int) - (s.region.get cs).start)) w) s ∧
      serveNext (.window .write a w.bytes data) s
        = exec (storeRow (s.mode cs) cs (BitVec.ofInt 32 ((a : Int) - (s.region.get cs).start)) w data) s)

/-! Registers. -/

/-- R80, R82, R84, R86, R88, R90, R92, R94, R96, R98, R100, R102: every register is read as it stands;
nothing is cleared and nothing logged; DUMMY_DATA has bits 31:8 zero in every state that meets the
invariant. -/
def Obligations.RegisterReads : Prop :=
  ReadRow .rdConf (·.rConf) always (·.conf) ∧
  ReadRow .rdCeCtrl (·.rCeCtrl) always (·.ceCtrl) ∧
  ReadRow .rdIntrCtrl (fun _ => 0x08) always (·.intrCtrl) ∧
  ReadRow .rdDummyData (fun _ => 0x54) always (·.dummyData) ∧
  ReadRow .rdTimings (·.rTimings) always (·.timings) ∧
  ReadRow .rdCtrl0 (·.rCtrl0) (·.has .cs0) (·.ctrl.s0) ∧
  ReadRow .rdCtrl1 (·.rCtrl0 + 4) (·.has .cs1) (·.ctrl.s1) ∧
  ReadRow .rdCtrl2 (·.rCtrl0 + 8) (·.has .cs2) (·.ctrl.s2) ∧
  ReadRow .rdCtrl3 (·.rCtrl0 + 12) (·.has .cs3) (·.ctrl.s3) ∧
  ReadRow .rdCtrl4 (·.rCtrl0 + 16) (·.has .cs4) (·.ctrl.s4) ∧
  ReadRow .rdSegAddr0 (fun _ => 0x30) (·.has .cs0) (·.segAddr.s0) ∧
  ReadRow .rdSegAddr1 (fun _ => 0x34) (·.has .cs1) (·.segAddr.s1) ∧
  ReadRow .rdSegAddr2 (fun _ => 0x38) (·.has .cs2) (·.segAddr.s2) ∧
  ReadRow .rdSegAddr3 (fun _ => 0x3C) (·.has .cs3) (·.segAddr.s3) ∧
  ReadRow .rdSegAddr4 (fun _ => 0x40) (·.has .cs4) (·.segAddr.s4) ∧
  ReadRow .rdDmaCtrl (fun _ => 0x80) (·.hasDma) (·.dmaCtrl) ∧
  ReadRow .rdDmaFlashAddr (fun _ => 0x84) (·.hasDma) (·.dmaFlashAddr) ∧
  ReadRow .rdDmaDramAddr (fun _ => 0x88) (·.hasDma) (·.dmaDramAddr) ∧
  ReadRow .rdDmaLen (fun _ => 0x8C) (·.hasDma) (·.dmaLen) ∧
  ReadRow .rdDmaChecksum (fun _ => 0x90) (·.hasDma) (·.dmaChecksum) ∧
  (∀ s, Invariant s → s.dummyData.toNat < 256)

/-- R104: a read at an unrecognised offset is logged and answers all ones, truncated. A row whose register
the variant has not is this row (R76). -/
def Obligations.UnrecognisedReads : Prop :=
  (∀ (s : State) (off : Byte) (w : Width),
    exec (.rdUnrecognised off w) s =
      .next { s with log := s.log ++ [.unimplementedRead off], ret := some (low w 0xFFFFFFFF#32) }) ∧
  (∀ (s : State) (w : Width),
    (∀ cs row, (cs, row) ∈ [(Cs.cs0, Instr.rdCtrl0 w), (.cs1, .rdCtrl1 w), (.cs2, .rdCtrl2 w),
        (.cs3, .rdCtrl3 w), (.cs4, .rdCtrl4 w)] → s.variant.has cs = false →
      exec row s = exec (.rdUnrecognised (BitVec.ofNat 8 (s.variant.rCtrl0 + 4 * cs.toNat)) w) s) ∧
    (∀ cs row, (cs, row) ∈ [(Cs.cs0, Instr.rdSegAddr0 w), (.cs1, .rdSegAddr1 w), (.cs2, .rdSegAddr2 w),
        (.cs3, .rdSegAddr3 w), (.cs4, .rdSegAddr4 w)] → s.variant.has cs = false →
      exec row s = exec (.rdUnrecognised (BitVec.ofNat 8 (0x30 + 4 * cs.toNat)) w) s) ∧
    (∀ off row, (off, row) ∈ [(0x80#8, Instr.rdDmaCtrl w), (0x84#8, .rdDmaFlashAddr w),
        (0x88#8, .rdDmaDramAddr w), (0x8C#8, .rdDmaLen w), (0x90#8, .rdDmaChecksum w)] →
      s.variant.hasDma = false → exec row s = exec (.rdUnrecognised off w) s))

/-- R105: a write at an unrecognised offset is logged with its value and does nothing else. A row whose
register the variant has not is this row (R76). -/
def Obligations.UnrecognisedWrites : Prop :=
  (∀ (s : State) (off : Byte) (w : Width) (data : Word),
    exec (.wrUnrecognised off w data) s =
      .next { s with log := s.log ++ [.unimplementedWrite off (low w data)], ret := none }) ∧
  (∀ (s : State) (w : Width) (data : Word),
    (∀ cs row, (cs, row) ∈ [(Cs.cs0, Instr.wrCtrl0 w data), (.cs1, .wrCtrl1 w data), (.cs2, .wrCtrl2 w data),
        (.cs3, .wrCtrl3 w data), (.cs4, .wrCtrl4 w data)] → s.variant.has cs = false →
      exec row s = exec (.wrUnrecognised (BitVec.ofNat 8 (s.variant.rCtrl0 + 4 * cs.toNat)) w data) s) ∧
    (∀ cs row, (cs, row) ∈ [(Cs.cs0, Instr.wrSegAddr0 w data), (.cs1, .wrSegAddr1 w data),
        (.cs2, .wrSegAddr2 w data), (.cs3, .wrSegAddr3 w data), (.cs4, .wrSegAddr4 w data)] →
      s.variant.has cs = false →
      exec row s = exec (.wrUnrecognised (BitVec.ofNat 8 (0x30 + 4 * cs.toNat)) w data) s) ∧
    (∀ off row, (off, row) ∈ [(0x80#8, Instr.wrDmaCtrl w data), (0x84#8, .wrDmaFlashAddr w data),
        (0x88#8, .wrDmaDramAddr w data), (0x8C#8, .wrDmaLen w data), (0x90#8, .wrDmaChecksum w data)] →
      s.variant.hasDma = false → exec row s = exec (.wrUnrecognised off w data) s))

/-- R42: a narrow write presents its bytes zero-extended, and a narrow read answers the low bytes of the
whole register's value, at every offset in the contract. -/
def Obligations.NarrowAccessesMergeWithZero : Prop :=
  ∀ (s : State) (off : Nat) (w : Width) (data : Word), off % 4 = 0 → off < 0x100 →
    serveNext (.register .write off w.bytes data) s
      = serveNext (.register .write off 4 (BitVec.ofNat 32 (data.toNat % 2 ^ (8 * w.bytes)))) s ∧
    ∃ t v, serveNext (.register .read off 4 data) s = .next t ∧ t.ret = some v ∧
      serveNext (.register .read off w.bytes data) s
        = .next { t with ret := some (BitVec.ofNat 32 (v.toNat % 2 ^ (8 * w.bytes))) }

/-- R81, R83, R85, R91, R93, R97, R99, R101, R103: the plain stores, the predicates that follow them, and
the masks; `irq` does not move with INTR_CTRL, DUMMY_DATA keeps bits 7:0 only, DMA_LEN is cut to a multiple
of 4 below 32 MiB, and a write of DMA_CHECKSUM is only logged. -/
def Obligations.PlainRegisterWrites : Prop :=
  WriteRow .wrConf (·.rConf) always (fun v s => { s with conf := v }) ∧
  (∀ (s : State) (v : Word) (cs : Cs), ({ s with conf := v } : State).writable cs = v.getLsbD (16 + cs.toNat)) ∧
  WriteRow .wrCeCtrl (·.rCeCtrl) always (fun v s => { s with ceCtrl := v }) ∧
  (∀ (s : State) (v : Word) (cs : Cs), ({ s with ceCtrl := v } : State).ext4 cs = v.getLsbD cs.toNat) ∧
  WriteRow .wrIntrCtrl (fun _ => 0x08) always (fun v s => { s with intrCtrl := v }) ∧
  (∀ (s : State) (v : Word),
    ({ s with intrCtrl := v } : State).dmaInProgress = (s.dmaCtrl.getLsbD 0 && !v.getLsbD 11)) ∧
  WriteRow .wrDummyData (fun _ => 0x54) always (fun v s => { s with dummyData := BitVec.ofNat 32 (v.toNat % 256) }) ∧
  WriteRow .wrTimings (·.rTimings) always (fun v s => { s with timings := v }) ∧
  WriteRow .wrDmaFlashAddr (fun _ => 0x84) (·.hasDma)
    (fun v s => { s with dmaFlashAddr := v &&& s.variant.dmaFlashMask }) ∧
  WriteRow .wrDmaDramAddr (fun _ => 0x88) (·.hasDma)
    (fun v s => { s with dmaDramAddr := v &&& s.variant.dmaDramMask }) ∧
  WriteRow .wrDmaLen (fun _ => 0x8C) (·.hasDma)
    (fun v s => { s with dmaLen := BitVec.ofNat 32 (v.toNat % 0x02000000 / 4 * 4) }) ∧
  WriteRow .wrDmaChecksum (fun _ => 0x90) (·.hasDma)
    (fun v s => { s with log := s.log ++ [.unimplementedWrite 0x90#8 v] })

/-- R87: a CTRLcs write stores all 32 bits, and only when `asserted(cs)` changes do the snoop cursor and the
line follow. R89: a SEG_ADDRcs write reaches the mapper only when the word differs from the register. -/
def Obligations.ChipSelectRegisterWrites : Prop :=
  WriteRow .wrCtrl0 (·.rCtrl0) (·.has .cs0) (ctrlWritten .cs0) ∧
  WriteRow .wrCtrl1 (·.rCtrl0 + 4) (·.has .cs1) (ctrlWritten .cs1) ∧
  WriteRow .wrCtrl2 (·.rCtrl0 + 8) (·.has .cs2) (ctrlWritten .cs2) ∧
  WriteRow .wrCtrl3 (·.rCtrl0 + 12) (·.has .cs3) (ctrlWritten .cs3) ∧
  WriteRow .wrCtrl4 (·.rCtrl0 + 16) (·.has .cs4) (ctrlWritten .cs4) ∧
  WriteRow .wrSegAddr0 (fun _ => 0x30) (·.has .cs0) (segWritten .cs0) ∧
  WriteRow .wrSegAddr1 (fun _ => 0x34) (·.has .cs1) (segWritten .cs1) ∧
  WriteRow .wrSegAddr2 (fun _ => 0x38) (·.has .cs2) (segWritten .cs2) ∧
  WriteRow .wrSegAddr3 (fun _ => 0x3C) (·.has .cs3) (segWritten .cs3) ∧
  WriteRow .wrSegAddr4 (fun _ => 0x40) (·.has .cs4) (segWritten .cs4)

/-- R107, R108: in every state that meets the invariant a register access in the contract completes, and
a read changes nothing but the returned value and the log. -/
def Obligations.RegisterAccessesComplete : Prop :=
  ∀ (s : State) (off : Nat) (w : Width) (data : Word), Invariant s → off % 4 = 0 → off < 0x100 →
    (∃ v es, serveNext (.register .read off w.bytes data) s
      = .next { s with ret := some v, log := s.log ++ es }) ∧
    (∃ t, serveNext (.register .write off w.bytes data) s = .next t)

/-! The segment mapper. -/

/-- R126, R128, R129: the six steps of `setSegment`: clamp, reject, log, apply, in this order. The words are
written by `encodeSegment`, whatever it gives for a segment of a negative size (log 28). -/
def Obligations.SetSegmentInSixSteps : Prop :=
  ∀ (s : State) (cs : Cs) (word : Word),
    let g := clampedSegment s.variant cs word
    let stored := storedWord s.variant cs word
    (outsideWindow s.variant g →
      setSegment cs word s
        = { s with log := s.log ++ clampLog s.variant cs word ++ [.segInvalid cs stored g] }) ∧
    (¬ outsideWindow s.variant g →
      setSegment cs word s
        = { s with
            region := s.region.set cs g
            segAddr := s.segAddr.set cs stored
            log := s.log ++ clampLog s.variant cs word ++ adviceLog s cs g })

/-- R127, RQ section 8 property 5: where no fixed end applies, a write of SEG_ADDR0 that the mapper accepts
and that names another start stores the window base as its start, the written END field, and zero in the
bits outside the two fields. -/
def Obligations.StartClampKeepsTheWrittenEnd : Prop :=
  ∀ (s : State) (word : Word), s.variant.wf = true → s.variant.fixedEnd.s0 = none →
    (decodeSegment s.variant word).start ≠ s.variant.winBase →
    ¬ outsideWindow s.variant (clampedSegment s.variant .cs0 word) →
    let t := setSegment .cs0 word s
    (s.variant.segEnc = .legacy8M →
      t.segAddr.s0.toNat = word.toNat / 2 ^ 24 * 2 ^ 24 + s.variant.winBase / 2 ^ 23 * 2 ^ 16) ∧
    (s.variant.segEnc = .new1M → t.segAddr.s0.toNat = word.toNat / 2 ^ 20 % 2 ^ 8 * 2 ^ 20) ∧
    t.region.s0.start = s.variant.winBase ∧
    t.region.s0.stop = (decodeSegment s.variant word).stop

/-- R89 corner case (a), RQ section 8 property 7: a word written again, once the register holds it, does
nothing; and whatever the first write did, the second moves no segment. -/
def Obligations.SegmentWritesAreIdempotent : Prop :=
  ∀ (s t u : State) (cs : Cs) (row : Word → Instr) (word : Word),
    (cs, row) ∈ [(Cs.cs0, Instr.wrSegAddr0 .w4), (.cs1, .wrSegAddr1 .w4), (.cs2, .wrSegAddr2 .w4),
      (.cs3, .wrSegAddr3 .w4), (.cs4, .wrSegAddr4 .w4)] →
    s.variant.has cs = true → exec (row word) s = .next t → exec (row word) t = .next u →
    (t.segAddr.get cs = word → u = t) ∧ u = { t with log := u.log }

/-- R66, R67, R120: the two decoders and the two encoders, field by field. -/
def Obligations.SegmentLayouts : Prop :=
  ∀ (v : Variant) (r : Word),
    (v.segEnc = .legacy8M →
      (decodeSegment v r).start = (r.toNat / 2 ^ 16 % 2 ^ 8 * 2 ^ 23 : Nat) ∧
      (decodeSegment v r).stop = (r.toNat / 2 ^ 24 * 2 ^ 23 : Nat) ∧
      ∀ g : Segment, 0 ≤ g.start → 0 ≤ g.start + g.size →
        (encodeSegment v g).toNat
          = (g.start + g.size).toNat / 2 ^ 23 % 2 ^ 8 * 2 ^ 24 + g.start.toNat / 2 ^ 23 % 2 ^ 8 * 2 ^ 16) ∧
    (v.segEnc = .new1M →
      (r = 0#32 → decodeSegment v r = ⟨v.winBase, 0⟩) ∧
      (r ≠ 0#32 →
        (decodeSegment v r).start = v.winBase + (r.toNat / 2 ^ 4 % 2 ^ 8 * 2 ^ 20 : Nat) ∧
        (decodeSegment v r).stop = v.winBase + ((r.toNat / 2 ^ 20 % 2 ^ 8 + 1) * 2 ^ 20 : Nat)) ∧
      ∀ g : Segment, (v.winBase : Int) ≤ g.start → 0 ≤ g.size →
        (encodeSegment v g).toNat
          = if g.size = 0 then 0
            else (g.start - v.winBase + g.size - 1).toNat / 2 ^ 20 % 2 ^ 8 * 2 ^ 20
              + (g.start - v.winBase).toNat / 2 ^ 20 % 2 ^ 8 * 2 ^ 4)

/-- The round trips of R123, with the exceptions at which the spec's own definitions break them said as they
come out (log 19). The first two clauses are exceptions of the first half: under `NEW_1M` the first MiB of
the window encodes to the all-zero word and so decodes to the disabled segment; under `LEGACY_8M` an empty
segment at 2^31 loses its address bit 31. The third is the first half without them. The fourth and the
fifth are the second half: `LEGACY_8M` keeps both fields of every word; `NEW_1M` keeps both fields of a word
that decodes to a positive size, and the exception is a word that decodes to size 0, which becomes the
all-zero word (a word that decodes to a negative size is never stored, R128). -/
def Obligations.SegmentRoundTrip : Prop :=
  (∀ v : Variant, v.segEnc = .new1M →
    decodeSegment v (encodeSegment v ⟨v.winBase, 0x100000⟩) = ⟨v.winBase, 0⟩) ∧
  (∀ v : Variant, v.segEnc = .legacy8M →
    decodeSegment v (encodeSegment v ⟨0x80000000, 0⟩) = ⟨0, 0⟩) ∧
  (∀ (v : Variant) (g : Segment), v.wf = true →
    g.start % (unit v : Int) = 0 → g.size % (unit v : Int) = 0 → 0 ≤ g.size →
    (((v.winBase : Int) ≤ g.start ∧ g.start + g.size ≤ (v.winBase : Int) + v.winSize) ∨
      (g.size = 0 ∧ v.segEnc = .legacy8M ∧ 0 ≤ g.start ∧ g.start < 0x80000000)) →
    (v.segEnc = .new1M → g.size = 0 → g.start = v.winBase) →
    ¬ (v.segEnc = .new1M ∧ g = ⟨v.winBase, 0x100000⟩) →
    decodeSegment v (encodeSegment v g) = g) ∧
  (∀ (v : Variant) (r : Word), v.segEnc = .legacy8M →
    (encodeSegment v (decodeSegment v r)).toNat = r.toNat / 2 ^ 16 * 2 ^ 16) ∧
  (∀ (v : Variant) (r : Word), v.segEnc = .new1M →
    (0 < (decodeSegment v r).size →
      (encodeSegment v (decodeSegment v r)).toNat
        = r.toNat / 2 ^ 20 % 2 ^ 8 * 2 ^ 20 + r.toNat / 2 ^ 4 % 2 ^ 8 * 2 ^ 4) ∧
    ((decodeSegment v r).size = 0 → encodeSegment v (decodeSegment v r) = 0#32))

/-! The framer. -/

/-- R142 to R147: FLD.READ and FLD.FREAD. The line is pulsed around the opcode, the address bytes, in
FAST_READ the dummy bytes, and the payload transfers; the answer is little-endian; nothing else changes. -/
def Obligations.FramedLoads : Prop :=
  ∀ (s : State) (cs : Cs) (addr : Word) (w : Width), s.variant.has cs = true →
    let head := addressSent cs (offsetSent cs addr s) s
    let fill := List.replicate w.bytes 0x00#8
    (modeNumber cs s = 0 →
      let sent := 0x03#8 :: head ++ fill
      exec (.fldRead cs addr w) s =
        .next { framed cs (offsetLog cs addr s) sent s with ret := some (loaded s sent w.bytes) }) ∧
    (modeNumber cs s = 1 →
      let sent := opcodeSent cs s :: head ++ List.replicate (dummiesSent cs s) (dummy s) ++ fill
      exec (.fldFread cs addr w) s =
        .next { framed cs (offsetLog cs addr s ++ opcodeLog cs .fastRead s) sent s with
          ret := some (loaded s sent w.bytes) })

/-- R150, R142: FST.WRITE, a framed store: no dummy bytes, payload least significant byte first. -/
def Obligations.FramedStores : Prop :=
  ∀ (s : State) (cs : Cs) (addr : Word) (w : Width) (data : Word), s.variant.has cs = true →
    modeNumber cs s = 2 → writeEnabled cs s = true →
    let sent := opcodeSent cs s :: addressSent cs (offsetSent cs addr s) s ++ storedBytes w data
    exec (.fstWrite cs addr w data) s =
      .next { framed cs (offsetLog cs addr s ++ opcodeLog cs .write s) sent s with ret := none }

/-- R148: FLD.USER, raw transfers of 0x00 with no line change and no snooping, asserted or not. -/
def Obligations.UserLoads : Prop :=
  ∀ (s : State) (cs : Cs) (addr : Word) (w : Width), s.variant.has cs = true → modeNumber cs s = 3 →
    exec (.fldUser cs addr w) s =
      .next { exchange (List.replicate w.bytes 0x00#8) s with
        ret := some (little (received s w.bytes)) }

/-- R149, R152: an access in a mode that does not serve its direction is logged and does nothing else; a
load answers 0. -/
def Obligations.InvalidModeAccesses : Prop :=
  ∀ (s : State) (cs : Cs) (addr : Word) (w : Width) (data : Word), s.variant.has cs = true →
    (modeNumber cs s = 2 →
      exec (.fldWrite cs addr w) s =
        .next { s with log := s.log ++ [.flashInvalidMode cs .read .write], ret := some 0#32 }) ∧
    (writeEnabled cs s = true → modeNumber cs s = 0 →
      exec (.fstRead cs addr w data) s =
        .next { s with log := s.log ++ [.flashInvalidMode cs .write .read], ret := none }) ∧
    (writeEnabled cs s = true → modeNumber cs s = 1 →
      exec (.fstFread cs addr w data) s =
        .next { s with log := s.log ++ [.flashInvalidMode cs .write .fastRead], ret := none })

/-- R141: a store to a chip-select whose write-enable bit is clear is logged before anything else, in every
mode, and leaves bus, lines and snoop cursor alone. -/
def Obligations.StoresNeedWriteEnable : Prop :=
  ∀ (s : State) (cs : Cs) (addr : Word) (w : Width) (data : Word), s.variant.has cs = true →
    writeEnabled cs s = false →
    let dropped : Result := .next { s with log := s.log ++ [.flashNotWritable cs addr], ret := none }
    (modeNumber cs s = 0 → exec (.fstRead cs addr w data) s = dropped) ∧
    (modeNumber cs s = 1 → exec (.fstFread cs addr w data) s = dropped) ∧
    (modeNumber cs s = 2 → exec (.fstWrite cs addr w data) s = dropped) ∧
    (modeNumber cs s = 3 → exec (.fstUser cs addr w data) s = dropped)

/-- A FLASH or SNOOP row of a chip-select the variant has not, or of another mode than the chip-select's,
is refused by name (log 12, DESIGN CHOICE): no access has that selector in that state. -/
def Obligations.ContradictedSelectorsAreRefused : Prop :=
  ∀ (s : State) (cs : Cs) (addr : Word) (w : Width) (data : Word) (m : Mode) (b : Byte),
    (s.variant.has cs = false →
      exec (loadRow m cs addr w) s = .refused .noSuchChipSelect ∧
      exec (storeRow m cs addr w data) s = .refused .noSuchChipSelect ∧
      exec (snoopRow cs addr b) s = .refused .noSuchChipSelect) ∧
    (s.variant.has cs = true → modeOfBits ((s.ctrl.get cs).extractLsb' 0 2) ≠ m →
      exec (loadRow m cs addr w) s = .refused .selectorMismatch ∧
      exec (storeRow m cs addr w data) s = .refused .selectorMismatch) ∧
    (s.variant.has cs = true → modeNumber cs s ≠ 3 →
      exec (snoopRow cs addr b) s = .refused .selectorMismatch)

/-- R146: `clampToSegment` is the identity without a log event below the segment's size, the remainder
with one above it; and no window access that the routing delivers logs `FLASH_ADDR_CLAMPED`. -/
def Obligations.RoutedOffsetsAreNeverClamped : Prop :=
  (∀ (s : State) (cs : Cs) (addr : Word),
    clampToSegment cs addr s = (offsetSent cs addr s, { s with log := s.log ++ offsetLog cs addr s })) ∧
  (∀ (s t : State) (dir : Dir) (a w : Nat) (data : Word), Invariant s →
    serveNext (.window dir a w data) s = .next t →
    ∃ es, t.log = s.log ++ es ∧ ∀ cs addr, Event.flashAddrClamped cs addr ∉ es)

/-- R154: only user-mode stores consult the snoop emulator; every other FLASH row, and every rejected
store, leaves the cursor and the budget as they were. -/
def Obligations.OnlyUserStoresSnoop : Prop :=
  ∀ (s t : State) (cs : Cs) (addr : Word) (w : Width) (data : Word) (i : Instr),
    (i ∈ [Instr.fldRead cs addr w, .fldFread cs addr w, .fldWrite cs addr w, .fldUser cs addr w,
        .fstRead cs addr w data, .fstFread cs addr w data, .fstWrite cs addr w data] ∨
      (i = .fstUser cs addr w data ∧ writeEnabled cs s = false)) →
    exec i s = .next t → t.snoopIndex = s.snoopIndex ∧ t.snoopDummies = s.snoopDummies

/-! The snoop emulator. -/

/-- R161 to R166: what one byte of a user-mode store does in each state of the cursor: what goes out on the
bus, the new cursor and the new budget; nothing else changes. -/
def Obligations.UserStoreOfOneByte : Prop :=
  ∀ (s : State) (cs : Cs) (addr data : Word), UserReady cs s →
    let b := byteAt data 0
    let aw := addressWidth cs s
    let store := exec (.fstUser cs addr .w1 data) s
    (s.snoopIndex = .off → store = .next { exchange [b] s with ret := none }) ∧
    (s.snoopIndex = .start → dummiesOf b = 0 →
      store = .next { exchange [b] s with snoopIndex := .off, ret := none }) ∧
    (s.snoopIndex = .start → 0 < dummiesOf b →
      store = .next { exchange [b] s with
        snoopIndex := .count 1, snoopDummies := dummiesOf b, ret := none }) ∧
    (∀ k, s.snoopIndex = .count k → k < aw + 1 →
      store = .next { exchange [b] s with snoopIndex := .count (k + 1), ret := none }) ∧
    (∀ k, s.snoopIndex = .count k → aw + 1 ≤ k → s.snoopDummies = 0 →
      store = .next { exchange [b] s with snoopIndex := .off, ret := none }) ∧
    (∀ k, s.snoopIndex = .count k → aw + 1 ≤ k → s.snoopDummies = 1 →
      store = .next { exchange [dummy s] s with snoopIndex := .off, snoopDummies := 0, ret := none }) ∧
    (∀ k, s.snoopIndex = .count k → aw + 1 ≤ k → 1 < s.snoopDummies →
      store = .next { exchange [dummy s] s with
        snoopIndex := .count (k + 1), snoopDummies := s.snoopDummies - 1, ret := none })

/-- R151, R43: a wider user-mode store is its bytes stored one by one, least significant first, each
through the snoop emulator on its own; it completes at every width, with one transfer for each byte, and
besides the transfers only the snoop state changes. -/
def Obligations.UserStoresGoByteByByte : Prop :=
  ∀ (s : State) (cs : Cs) (addr : Word) (w : Width) (data : Word), UserReady cs s →
    exec (.fstUser cs addr w data) s = userStores cs addr (storedBytes w data) s ∧
    ∃ (sent : List Byte) (i : SnoopIndex) (n : Nat), sent.length = w.bytes ∧
      exec (.fstUser cs addr w data) s =
        .next { exchange sent s with snoopIndex := i, snoopDummies := n, ret := none }

/-- R70, R161: every SNOOP row forwards its byte, and in state START takes its dummy count from the table:
no dummies turns the cursor off, dummies start the count; any byte not listed counts 0. In every other
state a SNOOP row is the one-byte user-mode store of its byte (log 12, log 21), so it has the write-enable
check in front: without the write-enable bit it is only logged (R141 of that store; that the row includes
the check is log 21). -/
def Obligations.SnoopRows : Prop :=
  (∀ (s : State) (cs : Cs) (addr : Word),
    (∀ r ∈ snoopRows, exec (r.2.2 cs addr) s = exec (.fstUser cs addr .w1 (r.1.setWidth 32)) s) ∧
    (∀ b, exec (.snoopUnknown cs addr b) s = exec (.fstUser cs addr .w1 (b.setWidth 32)) s)) ∧
  (∀ (s : State) (cs : Cs) (addr : Word), s.variant.has cs = true → modeNumber cs s = 3 →
    writeEnabled cs s = false →
    let dropped : Result := .next { s with log := s.log ++ [.flashNotWritable cs addr], ret := none }
    (∀ r ∈ snoopRows, exec (r.2.2 cs addr) s = dropped) ∧
    ∀ b, exec (.snoopUnknown cs addr b) s = dropped) ∧
  ∀ (s : State) (cs : Cs) (addr : Word), UserReady cs s → s.snoopIndex = .start →
    (∀ r ∈ snoopRows,
      exec (r.2.2 cs addr) s =
        .next { exchange [r.1] s with
          snoopIndex := if r.2.1 = 0 then .off else .count 1
          snoopDummies := if r.2.1 = 0 then s.snoopDummies else r.2.1
          ret := none }) ∧
    (∀ b, (∀ r ∈ snoopRows, r.1 ≠ b) →
      exec (.snoopUnknown cs addr b) s = .next { exchange [b] s with snoopIndex := .off, ret := none })

/-- R169, RQ section 8 property 6, for every command: after the opcode and the address bytes exactly as
many guest bytes as the table says are replaced by the dummy byte, and the rest is forwarded; a command
without dummies is forwarded whole. The record and the cursor are those of the whole run. -/
def Obligations.CommandsGetTheirDummyBytes : Prop :=
  ∀ (s : State) (cs : Cs) (addr : Word) (op : Byte) (address rest : List Byte), UserReady cs s →
    s.snoopIndex = .start →
    let n := dummiesOf op
    (0 < n → address.length = addressWidth cs s →
      userStores cs addr (op :: address ++ rest) s =
        .next { exchange (op :: address ++ List.replicate (min n rest.length) (dummy s) ++ rest.drop n) s with
          snoopIndex := if n ≤ rest.length then .off else .count (addressWidth cs s + 1 + rest.length)
          snoopDummies := n - rest.length
          ret := none }) ∧
    (n = 0 →
      userStores cs addr (op :: rest) s =
        .next { exchange (op :: rest) s with snoopIndex := .off, ret := none })

/-! The DMA engine. -/

/-- R71, R72: the clock-ratio table is the formula, and one to one onto 1 to 16; the unreliable settings. -/
def Obligations.RatioTables : Prop :=
  (∀ f : BitVec 4, ratio f = 2 * (7 - f.toNat % 8) + (if 8 ≤ f.toNat then 1 else 2)) ∧
  (∀ k, 1 ≤ k → k ≤ 16 → ∃ f : BitVec 4, ratio f = k ∧ ∀ g, ratio g = k → g = f) ∧
  (∀ (r : Nat) (d : BitVec 4), 1 ≤ r → r ≤ 16 →
    unreliable r d = decide (r = 1 ∨ (r = 2 ∧ d.toNat % 8 < 2) ∨ (r = 3 ∧ d.toNat % 8 < 1)))

/-- R64, R175: a write of DMA_CTRL is the DMACTL row that bits 3:0 of the value select: ENABLE first,
then CKSUM over WRITE, then CALIB; the write completes, with the value stored, unless the gate is closed. -/
def Obligations.DmaControlWritesSelectTheirRow : Prop :=
  ∀ (s : State) (w : Width) (data : Word), s.variant.hasDma = true →
    let v := low w data
    let up := v.extractLsb' 4 28
    let written := exec (.wrDmaCtrl w data) s
    (v.getLsbD 0 = false → written = exec (.dmaStop (v.extractLsb' 1 31)) s) ∧
    (v.getLsbD 0 = true → v.getLsbD 2 = true → v.getLsbD 3 = false →
      written = exec (.dmaCksum (v.getLsbD 1) up) s) ∧
    (v.getLsbD 0 = true → v.getLsbD 2 = true → v.getLsbD 3 = true →
      written = exec (.dmaCksumCal (v.getLsbD 1) up) s) ∧
    (v.getLsbD 0 = true → v.getLsbD 2 = false → v.getLsbD 1 = false →
      written = exec (.dmaRd (v.getLsbD 3) up) s) ∧
    (v.getLsbD 0 = true → v.getLsbD 2 = false → v.getLsbD 1 = true →
      written = exec (.dmaWr (v.getLsbD 3) up) s) ∧
    (s.variant.wf = true → serveNext (.register .write 0x80 w.bytes data) s = written) ∧
    (s.dmaLen.toNat % 4 = 0 → (v.getLsbD 0 = false ∨ s.dmaCtrl.getLsbD 0 = false ∨ s.intrCtrl.getLsbD 11 = true) →
      ∃ t, written = .next t ∧ t.dmaCtrl = v ∧ t.ret = none)

/-- R176: DMA.STOP stores the value, clears DMA_STATUS, lowers `irq`, zeroes the checksum, and changes
nothing else. -/
def Obligations.DmaStop : Prop :=
  ∀ (s : State) (up : BitVec 31), s.variant.hasDma = true →
    exec (.dmaStop up) s =
      .next { s with
        dmaCtrl := BitVec.ofNat 32 (2 * up.toNat)
        intrCtrl := s.intrCtrl &&& 0xFFFFF7FF#32
        irq := false
        dmaChecksum := 0#32
        ret := none }

/-- R177: a start while ENABLE is set and DMA_STATUS is clear is logged with its value and does nothing
else, whatever DMA_LEN holds. -/
def Obligations.DmaStartWhileInProgress : Prop :=
  ∀ (s : State) (i : Instr) (value : Word), StartRow i value → s.variant.hasDma = true →
    s.dmaCtrl.getLsbD 0 = true → s.intrCtrl.getLsbD 11 = false →
    exec i s = .next { s with log := s.log ++ [.dmaInProgress value], ret := none }

/-- R190: every start that passes the gate completes: the value stored, DMA_STATUS set, `irq` raised if
DMA_EN is set and never lowered, the gate open again; the registers no DMA writes stand, and without
calibration TIMINGS and the CTRL registers too. -/
def Obligations.DmaStartsComplete : Prop :=
  ∀ (s : State) (i : Instr) (value : Word), StartRow i value → DmaOpen s → s.dmaLen.toNat % 4 = 0 →
    ∃ t, exec i s = .next t ∧ t.dmaCtrl = value ∧ t.intrCtrl = s.intrCtrl ||| 0x800#32 ∧
      t.irq = (s.irq || s.intrCtrl.getLsbD 3) ∧ t.ret = none ∧ t.dmaInProgress = false ∧
      t.conf = s.conf ∧ t.ceCtrl = s.ceCtrl ∧ t.segAddr = s.segAddr ∧ t.region = s.region ∧
      t.dummyData = s.dummyData ∧ t.variant = s.variant ∧ t.binding = s.binding ∧
      t.pending = s.pending ∧ t.saved = s.saved ∧
      (value.getLsbD 2 = false ∨ value.getLsbD 3 = false → t.timings = s.timings ∧ t.ctrl = s.ctrl)

/-- A start with a DMA_LEN that is no multiple of 4 stops with the fault of log 14 (DESIGN CHOICE); no
state that meets the invariant has such a length. -/
def Obligations.DmaLengthFault : Prop :=
  (∀ (s : State) (i : Instr) (value : Word), StartRow i value → DmaOpen s → s.dmaLen.toNat % 4 ≠ 0 →
    exec i s = .fault .dmaLengthNeverZero) ∧
  (∀ s, Invariant s → s.dmaLen.toNat % 4 = 0)

/-- R12, R186, R189: in every DMA the flash cursor, and in a transfer the DRAM cursor, move by what DMA_LEN
loses, modulo 2^32; DMA_LEN never grows and stays a multiple of 4. -/
def Obligations.DmaCursorsMoveInStep : Prop :=
  ∀ (s t : State) (i : Instr) (value : Word), StartRow i value → DmaOpen s → exec i s = .next t →
    t.dmaLen.toNat ≤ s.dmaLen.toNat ∧ t.dmaLen.toNat % 4 = 0 ∧
    t.dmaFlashAddr = s.dmaFlashAddr + (s.dmaLen - t.dmaLen) ∧
    t.dmaDramAddr = (if value.getLsbD 2 then s.dmaDramAddr else s.dmaDramAddr + (s.dmaLen - t.dmaLen))

/-- R184: a start with DMA_LEN zero touches no space: only the control value, calibration, injection and
completion. -/
def Obligations.DmaOfZeroLength : Prop :=
  ∀ (s : State) (wr calib : Bool) (up : BitVec 28), DmaOpen s → s.dmaLen = 0#32 →
    let plain := dmaStartValue false true wr up
    let cal := dmaStartValue true true wr up
    exec (.dmaCksum wr up) s =
      .next (completed { s with dmaCtrl := plain, dmaChecksum := injected s.variant plain s.dmaChecksum }) ∧
    exec (.dmaCksumCal wr up) s =
      .next (completed { tuned cal s with dmaCtrl := cal, dmaChecksum := injected s.variant cal s.dmaChecksum }) ∧
    exec (.dmaRd calib up) s = .next (completed { s with dmaCtrl := dmaStartValue calib false false up }) ∧
    exec (.dmaWr calib up) s = .next (completed { s with dmaCtrl := dmaStartValue calib false true up })

/-- R178, R188, R190, R44: with an external flash side that answers every read, a checksum DMA of any length
adds all the words to the checksum, moves the flash cursor past them and ends with DMA_LEN zero; the DRAM
side is not touched. -/
def Obligations.ChecksumDmaSumsTheWords : Prop :=
  ∀ (s : State) (wr : Bool) (up : BitVec 28) (ws : List Word) (more : List (Option Word)), DmaOpen s →
    s.binding = .external → s.dmaFlashAddr.toNat % 4 = 0 → s.dmaLen.toNat = 4 * ws.length →
    s.flashReplies = ws.map some ++ more →
    let value := dmaStartValue false true wr up
    exec (.dmaCksum wr up) s =
      .next (completed { s with
        dmaCtrl := value
        dmaChecksum := injected s.variant value (s.dmaChecksum + sumWords ws)
        dmaFlashAddr := s.dmaFlashAddr + s.dmaLen
        dmaLen := 0#32
        flashReplies := more
        bus := s.bus ++ readEvents s.dmaFlashAddr ws })

/-- R187, R203: a checksum DMA whose read fails after some words stops there: cursor, length and checksum
are those of the words read, the failure is logged with the cursor, no injection, completion still runs. -/
def Obligations.ChecksumDmaStopsEarly : Prop :=
  ∀ (s : State) (wr : Bool) (up : BitVec 28) (ws : List Word) (more : List (Option Word)), DmaOpen s →
    s.binding = .external → s.dmaFlashAddr.toNat % 4 = 0 → s.dmaLen.toNat % 4 = 0 →
    4 * ws.length < s.dmaLen.toNat → s.flashReplies = ws.map some ++ none :: more →
    let at_ := s.dmaFlashAddr + inBytes ws.length
    exec (.dmaCksum wr up) s =
      .next (completed { s with
        dmaCtrl := dmaStartValue false true wr up
        dmaChecksum := s.dmaChecksum + sumWords ws
        dmaFlashAddr := at_
        dmaLen := s.dmaLen - inBytes ws.length
        flashReplies := more
        log := s.log ++ [.dmaFlashReadFail at_]
        bus := s.bus ++ readEvents s.dmaFlashAddr ws ++ [.flashRead at_ none] })

/-- R180, R182, R183: a checksum DMA with CALIB is the one without it, and besides writes the delay field
of TIMINGS for the four fastest ratios and CLK_FREQ of CTRL0 for every ratio. -/
def Obligations.CalibrationOnlyTunes : Prop :=
  ∀ (s : State) (wr : Bool) (up : BitVec 28), DmaOpen s → s.dmaLen.toNat % 4 = 0 →
    let value := dmaStartValue true true wr up
    ∃ t, exec (.dmaCksum wr up) s = .next t ∧ t.timings = s.timings ∧ t.ctrl = s.ctrl ∧
      exec (.dmaCksumCal wr up) s = .next { tuned value t with dmaCtrl := value }

/-- R188: with failure injection on, a checksum DMA that ran to DMA_LEN zero at an unreliable setting ends
with the sentinel in DMA_CHECKSUM, under either binding of the flash side. -/
def Obligations.UnreliableSettingsReadTheSentinel : Prop :=
  ∀ (s t : State) (wr calib : Bool) (up : BitVec 28), DmaOpen s → s.variant.injectFailure = true →
    let value := dmaStartValue calib true wr up
    unreliableSetting value = true →
    exec (if calib then .dmaCksumCal wr up else .dmaCksum wr up) s = .next t → t.dmaLen = 0#32 →
    t.dmaChecksum = 0x0BADC0DE#32

/-- R179, R185, R44: a transfer from flash to DRAM of any length: each word stored little-endian at its
place, every other byte of the memory as before, both cursors past the words, the checksum their sum, the
accesses in the order read, write, read, write. -/
def Obligations.DmaFromFlashToDram : Prop :=
  ∀ (s : State) (calib : Bool) (up : BitVec 28) (ws : List Word) (more : List (Option Word))
    (moreDram : List DramReply), DmaOpen s → s.binding = .external → s.dram.wf = true →
    s.dmaFlashAddr.toNat % 4 = 0 → s.dmaDramAddr.toNat % 4 = 0 → s.dmaLen.toNat = 4 * ws.length →
    s.dmaDramAddr.toNat + s.dmaLen.toNat ≤ 2 ^ 32 →
    s.flashReplies = ws.map some ++ more →
    s.dramReplies = List.replicate ws.length .plain ++ moreDram →
    ∃ m : Memory,
      (∀ k (hk : k < ws.length), m.readWord (s.dmaDramAddr.toNat + 4 * k) = ws[k]) ∧
      (∀ x, x < s.dmaDramAddr.toNat ∨ s.dmaDramAddr.toNat + 4 * ws.length ≤ x →
        m.readByte x = s.dram.readByte x) ∧
      exec (.dmaRd calib up) s =
        .next (completed { s with
          dmaCtrl := dmaStartValue calib false false up
          dmaChecksum := s.dmaChecksum + sumWords ws
          dmaFlashAddr := s.dmaFlashAddr + s.dmaLen
          dmaDramAddr := s.dmaDramAddr + s.dmaLen
          dmaLen := 0#32
          dram := m
          flashReplies := more
          dramReplies := moreDram
          bus := s.bus ++ toDramEvents s.dmaFlashAddr s.dmaDramAddr ws })

/-- R179, R185, R44: a transfer from DRAM to flash of any length writes the memory's words in order,
leaves the memory alone, and sums the words. -/
def Obligations.DmaFromDramToFlash : Prop :=
  ∀ (s : State) (calib : Bool) (up : BitVec 28) (n : Nat) (acks more : List (Option Word))
    (moreDram : List DramReply), DmaOpen s → s.binding = .external →
    s.dmaFlashAddr.toNat % 4 = 0 → s.dmaDramAddr.toNat % 4 = 0 → s.dmaLen.toNat = 4 * n →
    s.dmaDramAddr.toNat + s.dmaLen.toNat ≤ 2 ^ 32 →
    s.flashReplies = acks ++ more → acks.length = n → (∀ a ∈ acks, a ≠ none) →
    s.dramReplies = List.replicate n .plain ++ moreDram →
    let ws := (List.range n).map fun k => s.dram.readWord (s.dmaDramAddr.toNat + 4 * k)
    exec (.dmaWr calib up) s =
      .next (completed { s with
        dmaCtrl := dmaStartValue calib false true up
        dmaChecksum := s.dmaChecksum + sumWords ws
        dmaFlashAddr := s.dmaFlashAddr + s.dmaLen
        dmaDramAddr := s.dmaDramAddr + s.dmaLen
        dmaLen := 0#32
        flashReplies := more
        dramReplies := moreDram
        bus := s.bus ++ toFlashEvents s.dmaFlashAddr s.dmaDramAddr ws })

/-- R187, R47: each of the four failures of a transfer, at its first word: the event with the cursor, no
register of the step updated, the word read is dropped, completion still runs. -/
def Obligations.DmaTransfersStopEarly : Prop :=
  ∀ (s : State) (calib : Bool) (up : BitVec 28) (w : Word)
    (more : List (Option Word)) (moreDram : List DramReply), DmaOpen s → s.binding = .external →
    s.dmaLen.toNat % 4 = 0 → s.dmaLen ≠ 0#32 →
    let a := s.dmaFlashAddr
    let d := s.dmaDramAddr
    let rd := dmaStartValue calib false false up
    let wr := dmaStartValue calib false true up
    (a.toNat % 4 = 0 → s.flashReplies = none :: more →
      exec (.dmaRd calib up) s = .next (completed { s with
        dmaCtrl := rd, flashReplies := more, log := s.log ++ [.dmaFlashReadFail a]
        bus := s.bus ++ [.flashRead a none] })) ∧
    (a.toNat % 4 ≠ 0 →
      exec (.dmaRd calib up) s = .next (completed { s with
        dmaCtrl := rd, log := s.log ++ [.dmaFlashReadFail a], bus := s.bus ++ [.flashRead a none] })) ∧
    (a.toNat % 4 = 0 → d.toNat % 4 = 0 → s.flashReplies = some w :: more → s.dramReplies = .fail :: moreDram →
      exec (.dmaRd calib up) s = .next (completed { s with
        dmaCtrl := rd, flashReplies := more, dramReplies := moreDram, log := s.log ++ [.dmaDramWriteFail d]
        bus := s.bus ++ [.flashRead a (some w), .dramWrite d w false] })) ∧
    (d.toNat % 4 = 0 → s.dramReplies = .fail :: moreDram →
      exec (.dmaWr calib up) s = .next (completed { s with
        dmaCtrl := wr, dramReplies := moreDram, log := s.log ++ [.dmaDramReadFail d]
        bus := s.bus ++ [.dramRead d none] })) ∧
    (a.toNat % 4 = 0 → d.toNat % 4 = 0 → s.dramReplies = .word w :: moreDram → s.flashReplies = none :: more →
      exec (.dmaWr calib up) s = .next (completed { s with
        dmaCtrl := wr, flashReplies := more, dramReplies := moreDram, log := s.log ++ [.dmaFlashWriteFail a]
        bus := s.bus ++ [.dramRead d (some w), .flashWrite a w false] }))

/-- R59, the reference integration: one word of a DMA on the flash side is the 4-byte window access at the
window base plus the cursor, by the framer's rules; an access that is not aligned, or that no sub-region
takes whole, fails. -/
def Obligations.FramerServesTheFlashSide : Prop :=
  ∀ (s : State) (wr calib : Bool) (up : BitVec 28), DmaOpen s → s.binding = .framer → s.dmaLen = 4#32 →
    let a := s.variant.winBase + s.dmaFlashAddr.toNat
    let cksum := dmaStartValue false true wr up
    let toFlash := dmaStartValue calib false true up
    (∀ u v, s.variant.injectFailure = false → s.dmaFlashAddr.toNat % 4 = 0 →
      serveNext (.window .read a 4 0#32) s = .next u → u.ret = some v →
      exec (.dmaCksum wr up) s = .next (completed { u with
        dmaCtrl := cksum
        dmaChecksum := s.dmaChecksum + v
        dmaFlashAddr := s.dmaFlashAddr + 4#32
        dmaLen := 0#32 })) ∧
    (∀ u v more, s.dmaFlashAddr.toNat % 4 = 0 → s.dmaDramAddr.toNat % 4 = 0 →
      s.dramReplies = .word v :: more →
      serveNext (.window .write a 4 v)
        { s with dramReplies := more, bus := s.bus ++ [.dramRead s.dmaDramAddr (some v)] } = .next u →
      exec (.dmaWr calib up) s = .next (completed { u with
        dmaCtrl := toFlash
        dmaChecksum := s.dmaChecksum + v
        dmaFlashAddr := s.dmaFlashAddr + 4#32
        dmaDramAddr := s.dmaDramAddr + 4#32
        dmaLen := 0#32 })) ∧
    ((s.dmaFlashAddr.toNat % 4 ≠ 0 ∨ serveNext (.window .read a 4 0#32) s = .refused .notDelivered) →
      exec (.dmaCksum wr up) s = .next (completed { s with
        dmaCtrl := cksum
        log := s.log ++ [.dmaFlashReadFail s.dmaFlashAddr] }))

/-- R231: once INTR_CTRL is written with bit 11 clear while ENABLE is set, every start is discarded, until
DMA_CTRL is written with ENABLE clear; after that the next start runs. -/
def Obligations.StuckGateOpensByStop : Prop :=
  ∀ (s t : State) (v : Word) (i : Instr) (value : Word) (up : BitVec 31), StartRow i value →
    s.variant.hasDma = true → s.dmaCtrl.getLsbD 0 = true → v.getLsbD 11 = false → s.dmaLen.toNat % 4 = 0 →
    exec (.wrIntrCtrl .w4 v) s = .next t →
    exec i t = .next { t with log := t.log ++ [.dmaInProgress value] } ∧
    ∃ u x, exec (.dmaStop up) t = .next u ∧ exec i u = .next x ∧ x.dmaCtrl = value ∧
      x.intrCtrl.getLsbD 11 = true

/-! Memory, lines, log, the whole machine. -/

/-- R205: an operation writes the system memory only by a transfer from flash to DRAM, and that one only
the bytes from its DRAM cursor on, as many as DMA_LEN says. -/
def Obligations.OnlyTheBufferIsWritten : Prop :=
  (∀ (s t : State) (i : Instr), (∀ w d, i ≠ .wrDmaCtrl w d) → (∀ c u, i ≠ .dmaRd c u) →
    exec i s = .next t → ∀ x, t.dram.readByte x = s.dram.readByte x) ∧
  (∀ (s t : State) (calib : Bool) (up : BitVec 28), s.dram.wf = true →
    s.dmaDramAddr.toNat + s.dmaLen.toNat ≤ 2 ^ 32 → exec (.dmaRd calib up) s = .next t →
    ∀ x, (x < s.dmaDramAddr.toNat ∨ s.dmaDramAddr.toNat + s.dmaLen.toNat ≤ x) →
      t.dram.readByte x = s.dram.readByte x)

/-- R34, R85, R206: `irq` moves only with a write of DMA control: it rises only when a DMA ends with DMA_EN
set, and falls only with a write of ENABLE clear. -/
def Obligations.IrqMovesOnlyWithDmaControl : Prop :=
  ∀ (s t : State) (i : Instr), exec i s = .next t →
    (dmaControl i = false → t.irq = s.irq) ∧
    (s.irq = false → t.irq = true →
      s.intrCtrl.getLsbD 3 = true ∧ t.intrCtrl.getLsbD 11 = true ∧ t.dmaCtrl.getLsbD 0 = true) ∧
    (s.irq = true → t.irq = false → t.dmaCtrl.getLsbD 0 = false)

/-- R35: the log is append-only and no operation reads it: with another log in its place every operation
does the same and appends the same events. -/
def Obligations.NothingReadsTheLog : Prop :=
  ∀ (i : Instr) (s t : State), exec i s = .next t →
    ∃ es, t.log = s.log ++ es ∧ ∀ l, exec i { s with log := l } = .next { t with log := l ++ es }

/-- R4, R222: the descriptor never changes, and the log only grows, at every step. -/
def Obligations.DescriptorIsNeverChanged : Prop :=
  ∀ s t : State, step s = .next t →
    t.variant = s.variant ∧ t.binding = s.binding ∧ ∃ es, t.log = s.log ++ es

/-- R220, R38: reset zeroes the registers, restores the default segments, drops the lines and `irq`, turns
the snoop cursor off; it logs nothing, transfers nothing, and keeps the log, the memory and the inputs. -/
def Obligations.ResetRestoresTheDefaults : Prop :=
  ∀ s : State, ∃ t, serveNext .reset s = .next t ∧
    (∀ cs, s.variant.has cs = true → t.ctrl.get cs = 0#32 ∧
      t.segAddr.get cs = encodeSegment s.variant (s.variant.segDefault.get cs) ∧
      t.region.get cs = s.variant.segDefault.get cs ∧ t.csline.get cs = false) ∧
    sentBytes t.bus = sentBytes s.bus ∧
    t = { s with
      conf := 0#32, ceCtrl := 0#32, intrCtrl := 0#32, dummyData := 0#32, timings := 0#32
      dmaCtrl := 0#32, dmaFlashAddr := 0#32, dmaDramAddr := 0#32, dmaLen := 0#32, dmaChecksum := 0#32
      snoopIndex := .off, snoopDummies := 0, irq := false
      ctrl := t.ctrl, segAddr := t.segAddr, region := t.region, csline := t.csline, bus := t.bus }

/-- R224, R204: construction gives the reset state, fails on an ill-formed descriptor, and fails when a
DMA variant is given no system memory. That an ill-formed descriptor is the error reported where both
conditions hold is the model's choice (log 27). -/
def Obligations.Construction : Prop :=
  ∀ (v : Variant) (b : FlashBinding) (dram : Option Memory),
    (v.wf = false → construct v b dram = .error .illFormedDescriptor) ∧
    (v.wf = true → v.hasDma = true → dram = none → construct v b dram = .error .noDramSpace) ∧
    (v.wf = true → (v.hasDma = true → dram ≠ none) →
      construct v b dram = .ok (State.ofVariant v b (dram.getD [])) ∧
      ∃ l, serveNext .reset (State.ofVariant v b (dram.getD []))
        = .next { State.ofVariant v b (dram.getD []) with bus := l })

/-- R225, R39: a save changes no state of the block; the snapshot holds version 1, the registers, the
cursor as one byte and the budget as one byte. -/
def Obligations.SaveChangesNothing : Prop :=
  ∀ s : State, ∃ p, serveNext .save s = .next { s with saved := some p } ∧ p.version = 1 ∧
    p.takenOf = s.variant ∧ p.conf = s.conf ∧ p.ceCtrl = s.ceCtrl ∧ p.intrCtrl = s.intrCtrl ∧
    p.ctrl = s.ctrl ∧ p.segAddr = s.segAddr ∧ p.dummyData = s.dummyData ∧ p.timings = s.timings ∧
    p.dmaCtrl = s.dmaCtrl ∧ p.dmaFlashAddr = s.dmaFlashAddr ∧ p.dmaDramAddr = s.dmaDramAddr ∧
    p.dmaLen = s.dmaLen ∧ p.dmaChecksum = s.dmaChecksum ∧ p.cursor = savedCursor s.snoopIndex ∧
    p.dummies = BitVec.ofNat 8 s.snoopDummies

/-- R226: a restore loads the registers with the two masks, decodes the cursor, and rebuilds the
sub-regions, the lines and `irq` from the registers; it logs nothing and transfers nothing. A snapshot of
another version or of another descriptor is refused by name (log 18). -/
def Obligations.RestoreRebuildsTheOutputs : Prop :=
  ∀ (s : State) (p : Snapshot),
    (p.version ≠ 1 → serveNext (.restore p) s = .refused .snapshotVersion) ∧
    (p.version = 1 → p.takenOf ≠ s.variant → serveNext (.restore p) s = .refused .snapshotDescriptor) ∧
    (p.version = 1 → p.takenOf = s.variant → ∃ t, serveNext (.restore p) s = .next t ∧
      t.conf = p.conf ∧ t.ceCtrl = p.ceCtrl ∧ t.intrCtrl = p.intrCtrl ∧ t.timings = p.timings ∧
      t.dummyData.toNat = p.dummyData.toNat % 256 ∧
      (s.variant.hasDma = true → t.dmaCtrl = p.dmaCtrl ∧ t.dmaFlashAddr = p.dmaFlashAddr ∧
        t.dmaDramAddr = p.dmaDramAddr ∧ t.dmaLen = p.dmaLen &&& 0x01FFFFFC#32 ∧
        t.dmaChecksum = p.dmaChecksum) ∧
      t.snoopDummies = p.dummies.toNat ∧
      (p.cursor = 0xFF#8 → t.snoopIndex = .off) ∧ (p.cursor = 0x00#8 → t.snoopIndex = .start) ∧
      (p.cursor ≠ 0xFF#8 → p.cursor ≠ 0x00#8 → t.snoopIndex = .count p.cursor.toNat) ∧
      (∀ cs, s.variant.has cs = true → t.ctrl.get cs = p.ctrl.get cs ∧ t.segAddr.get cs = p.segAddr.get cs ∧
        t.region.get cs = ⟨(decodeSegment s.variant (p.segAddr.get cs)).start,
          max 0 (decodeSegment s.variant (p.segAddr.get cs)).size⟩ ∧
        t.csline.get cs = assertedWord (p.ctrl.get cs)) ∧
      t.irq = (s.variant.hasDma && p.intrCtrl.getLsbD 11 && p.intrCtrl.getLsbD 3) ∧
      t.log = s.log ∧ t.dram = s.dram ∧ sentBytes t.bus = sentBytes s.bus)

/-- A snapshot of a state that meets the invariant, restored in any such state of the same variant, brings
back the register file, the snoop cursor, the budget and the lines (R225, R226). The sub-regions come back
too, empty ones counting as equal (R132(a), C8), but for the first MiB of log 19, and every sub-region
with a fixed end ends there or is empty. The restore keeps the invariant, fixed ends of empty sub-regions
included, where every chip-select with a fixed end has a word of a positive size or of that end (under `NEW_1M` an
empty segment at the fixed end is stored as the all-zero word, and the spec's own R226 then breaks R132(c),
log 19). -/
def Obligations.RestoreUndoesSave : Prop :=
  ∀ (s u : State) (p : Snapshot), Invariant s → Invariant u → u.variant = s.variant →
    s.variant.hasDma = true → serveNext .save s = .next { s with saved := some p } →
    ∃ t, serveNext (.restore p) u = .next t ∧
      t.conf = s.conf ∧ t.ceCtrl = s.ceCtrl ∧ t.intrCtrl = s.intrCtrl ∧ t.dummyData = s.dummyData ∧
      t.timings = s.timings ∧ t.dmaCtrl = s.dmaCtrl ∧ t.dmaFlashAddr = s.dmaFlashAddr ∧
      t.dmaDramAddr = s.dmaDramAddr ∧ t.dmaLen = s.dmaLen ∧ t.dmaChecksum = s.dmaChecksum ∧
      t.snoopIndex = s.snoopIndex ∧ t.snoopDummies = s.snoopDummies ∧
      (∀ cs, s.variant.has cs = true → t.ctrl.get cs = s.ctrl.get cs ∧ t.segAddr.get cs = s.segAddr.get cs ∧
        t.csline.get cs = s.csline.get cs) ∧
      (∀ cs, s.variant.has cs = true →
        firstMiBClamped s cs ∨ t.region.get cs = s.region.get cs ∨
          ((t.region.get cs).size = 0 ∧ (s.region.get cs).size = 0)) ∧
      (∀ cs e, s.variant.has cs = true → s.variant.fixedEnd.get cs = some e →
        (t.region.get cs).stop = (e : Int) ∨ (t.region.get cs).size = 0) ∧
      ((∀ cs e, s.variant.has cs = true → s.variant.fixedEnd.get cs = some e →
          0 < (decodeSegment s.variant (s.segAddr.get cs)).size ∨
            (decodeSegment s.variant (s.segAddr.get cs)).stop = (e : Int)) → Invariant t)

/-- The invariant holds of the machine after reset, and of every newly constructed instance of a
well-formed variant with a canonical memory. -/
def Obligations.InvariantAtReset : Prop :=
  Invariant State.reset ∧
  ∀ (v : Variant) (b : FlashBinding) (m : Memory), v.wf = true → m.wf = true →
    Invariant (State.ofVariant v b m)

/-- Every step keeps the invariant: the mapper's invariants (R132, with the exception of log 19), the line
that follows `asserted` (R33), the masks of DMA_LEN and DUMMY_DATA (R192, R19), the bounds of the snoop
cursor (R168), the canonical form of the memory. A step that restores a snapshot is stated apart. -/
def Obligations.EveryStepKeepsTheInvariant : Prop :=
  ∀ s t : State, Invariant s → (∀ p rest, s.pending ≠ .restore p :: rest) → step s = .next t → Invariant t
end

