-- ==== Sys2Proof/Laws/State.lean ====
section
/-! SUPPORT. The small lemmas of the chip-select slots, and one lemma per field per record update, each
true by rfl. -/

namespace Sys2Proof

@[simp] theorem Slots.get_set_same {α : Type} (x : Slots α) (cs : Cs) (a : α) : (x.set cs a).get cs = a := by
  cases cs <;> rfl

theorem Slots.get_set_ne {α : Type} (x : Slots α) {cs other : Cs} (a : α) (h : other ≠ cs) :
    (x.set cs a).get other = x.get other := by
  cases cs <;> cases other <;> first | rfl | exact absurd rfl h

theorem Slots.get_set {α : Type} (x : Slots α) (cs other : Cs) (a : α) :
    (x.set cs a).get other = if other = cs then a else x.get other := by
  cases cs <;> cases other <;> rfl

@[simp] theorem Slots.get_ofFn {α : Type} (f : Cs → α) (cs : Cs) : (Slots.ofFn f).get cs = f cs := by
  cases cs <;> rfl

@[simp] theorem Slots.set_get {α : Type} (x : Slots α) (cs : Cs) : x.set cs (x.get cs) = x := by
  cases cs <;> rfl

@[simp] theorem Slots.set_set {α : Type} (x : Slots α) (cs : Cs) (a b : α) :
    (x.set cs a).set cs b = x.set cs b := by
  cases cs <;> rfl

theorem Slots.ext_get {α : Type} {x y : Slots α} (h : ∀ cs, x.get cs = y.get cs) : x = y := by
  cases x
  cases y
  have h0 := h .cs0
  have h1 := h .cs1
  have h2 := h .cs2
  have h3 := h .cs3
  have h4 := h .cs4
  simp only [Slots.get] at h0 h1 h2 h3 h4
  subst h0 h1 h2 h3 h4
  rfl

theorem Cs.mem_all (cs : Cs) : cs ∈ Cs.all := by cases cs <;> decide

theorem Variant.mem_slots (v : Variant) (cs : Cs) : cs ∈ v.slots ↔ v.has cs = true := by
  simp [Variant.slots, Cs.mem_all]

namespace Machine

section
variable (es : List Event) (s : State)

@[simp] theorem addLog_variant : (addLog es s).variant = s.variant := rfl
@[simp] theorem addLog_binding : (addLog es s).binding = s.binding := rfl
@[simp] theorem addLog_conf : (addLog es s).conf = s.conf := rfl
@[simp] theorem addLog_ceCtrl : (addLog es s).ceCtrl = s.ceCtrl := rfl
@[simp] theorem addLog_intrCtrl : (addLog es s).intrCtrl = s.intrCtrl := rfl
@[simp] theorem addLog_ctrl : (addLog es s).ctrl = s.ctrl := rfl
@[simp] theorem addLog_segAddr : (addLog es s).segAddr = s.segAddr := rfl
@[simp] theorem addLog_dummyData : (addLog es s).dummyData = s.dummyData := rfl
@[simp] theorem addLog_timings : (addLog es s).timings = s.timings := rfl
@[simp] theorem addLog_dmaCtrl : (addLog es s).dmaCtrl = s.dmaCtrl := rfl
@[simp] theorem addLog_dmaFlashAddr : (addLog es s).dmaFlashAddr = s.dmaFlashAddr := rfl
@[simp] theorem addLog_dmaDramAddr : (addLog es s).dmaDramAddr = s.dmaDramAddr := rfl
@[simp] theorem addLog_dmaLen : (addLog es s).dmaLen = s.dmaLen := rfl
@[simp] theorem addLog_dmaChecksum : (addLog es s).dmaChecksum = s.dmaChecksum := rfl
@[simp] theorem addLog_snoopIndex : (addLog es s).snoopIndex = s.snoopIndex := rfl
@[simp] theorem addLog_snoopDummies : (addLog es s).snoopDummies = s.snoopDummies := rfl
@[simp] theorem addLog_region : (addLog es s).region = s.region := rfl
@[simp] theorem addLog_csline : (addLog es s).csline = s.csline := rfl
@[simp] theorem addLog_irq : (addLog es s).irq = s.irq := rfl
@[simp] theorem addLog_log : (addLog es s).log = s.log ++ es := rfl
@[simp] theorem addLog_dram : (addLog es s).dram = s.dram := rfl
@[simp] theorem addLog_pending : (addLog es s).pending = s.pending := rfl
@[simp] theorem addLog_miso : (addLog es s).miso = s.miso := rfl
@[simp] theorem addLog_dramReplies : (addLog es s).dramReplies = s.dramReplies := rfl
@[simp] theorem addLog_flashReplies : (addLog es s).flashReplies = s.flashReplies := rfl
@[simp] theorem addLog_freeCount : (addLog es s).freeCount = s.freeCount := rfl
@[simp] theorem addLog_ret : (addLog es s).ret = s.ret := rfl
@[simp] theorem addLog_bus : (addLog es s).bus = s.bus := rfl
@[simp] theorem addLog_saved : (addLog es s).saved = s.saved := rfl

end

section
variable (es : List BusEvent) (s : State)

@[simp] theorem addBus_variant : (addBus es s).variant = s.variant := rfl
@[simp] theorem addBus_binding : (addBus es s).binding = s.binding := rfl
@[simp] theorem addBus_conf : (addBus es s).conf = s.conf := rfl
@[simp] theorem addBus_ceCtrl : (addBus es s).ceCtrl = s.ceCtrl := rfl
@[simp] theorem addBus_intrCtrl : (addBus es s).intrCtrl = s.intrCtrl := rfl
@[simp] theorem addBus_ctrl : (addBus es s).ctrl = s.ctrl := rfl
@[simp] theorem addBus_segAddr : (addBus es s).segAddr = s.segAddr := rfl
@[simp] theorem addBus_dummyData : (addBus es s).dummyData = s.dummyData := rfl
@[simp] theorem addBus_timings : (addBus es s).timings = s.timings := rfl
@[simp] theorem addBus_dmaCtrl : (addBus es s).dmaCtrl = s.dmaCtrl := rfl
@[simp] theorem addBus_dmaFlashAddr : (addBus es s).dmaFlashAddr = s.dmaFlashAddr := rfl
@[simp] theorem addBus_dmaDramAddr : (addBus es s).dmaDramAddr = s.dmaDramAddr := rfl
@[simp] theorem addBus_dmaLen : (addBus es s).dmaLen = s.dmaLen := rfl
@[simp] theorem addBus_dmaChecksum : (addBus es s).dmaChecksum = s.dmaChecksum := rfl
@[simp] theorem addBus_snoopIndex : (addBus es s).snoopIndex = s.snoopIndex := rfl
@[simp] theorem addBus_snoopDummies : (addBus es s).snoopDummies = s.snoopDummies := rfl
@[simp] theorem addBus_region : (addBus es s).region = s.region := rfl
@[simp] theorem addBus_csline : (addBus es s).csline = s.csline := rfl
@[simp] theorem addBus_irq : (addBus es s).irq = s.irq := rfl
@[simp] theorem addBus_log : (addBus es s).log = s.log := rfl
@[simp] theorem addBus_dram : (addBus es s).dram = s.dram := rfl
@[simp] theorem addBus_pending : (addBus es s).pending = s.pending := rfl
@[simp] theorem addBus_miso : (addBus es s).miso = s.miso := rfl
@[simp] theorem addBus_dramReplies : (addBus es s).dramReplies = s.dramReplies := rfl
@[simp] theorem addBus_flashReplies : (addBus es s).flashReplies = s.flashReplies := rfl
@[simp] theorem addBus_freeCount : (addBus es s).freeCount = s.freeCount := rfl
@[simp] theorem addBus_ret : (addBus es s).ret = s.ret := rfl
@[simp] theorem addBus_bus : (addBus es s).bus = s.bus ++ es := rfl
@[simp] theorem addBus_saved : (addBus es s).saved = s.saved := rfl

end

section
variable (w : Width) (x : Word) (s : State)

@[simp] theorem returnValue_variant : (returnValue w x s).variant = s.variant := rfl
@[simp] theorem returnValue_binding : (returnValue w x s).binding = s.binding := rfl
@[simp] theorem returnValue_conf : (returnValue w x s).conf = s.conf := rfl
@[simp] theorem returnValue_ceCtrl : (returnValue w x s).ceCtrl = s.ceCtrl := rfl
@[simp] theorem returnValue_intrCtrl : (returnValue w x s).intrCtrl = s.intrCtrl := rfl
@[simp] theorem returnValue_ctrl : (returnValue w x s).ctrl = s.ctrl := rfl
@[simp] theorem returnValue_segAddr : (returnValue w x s).segAddr = s.segAddr := rfl
@[simp] theorem returnValue_dummyData : (returnValue w x s).dummyData = s.dummyData := rfl
@[simp] theorem returnValue_timings : (returnValue w x s).timings = s.timings := rfl
@[simp] theorem returnValue_dmaCtrl : (returnValue w x s).dmaCtrl = s.dmaCtrl := rfl
@[simp] theorem returnValue_dmaFlashAddr : (returnValue w x s).dmaFlashAddr = s.dmaFlashAddr := rfl
@[simp] theorem returnValue_dmaDramAddr : (returnValue w x s).dmaDramAddr = s.dmaDramAddr := rfl
@[simp] theorem returnValue_dmaLen : (returnValue w x s).dmaLen = s.dmaLen := rfl
@[simp] theorem returnValue_dmaChecksum : (returnValue w x s).dmaChecksum = s.dmaChecksum := rfl
@[simp] theorem returnValue_snoopIndex : (returnValue w x s).snoopIndex = s.snoopIndex := rfl
@[simp] theorem returnValue_snoopDummies : (returnValue w x s).snoopDummies = s.snoopDummies := rfl
@[simp] theorem returnValue_region : (returnValue w x s).region = s.region := rfl
@[simp] theorem returnValue_csline : (returnValue w x s).csline = s.csline := rfl
@[simp] theorem returnValue_irq : (returnValue w x s).irq = s.irq := rfl
@[simp] theorem returnValue_log : (returnValue w x s).log = s.log := rfl
@[simp] theorem returnValue_dram : (returnValue w x s).dram = s.dram := rfl
@[simp] theorem returnValue_pending : (returnValue w x s).pending = s.pending := rfl
@[simp] theorem returnValue_miso : (returnValue w x s).miso = s.miso := rfl
@[simp] theorem returnValue_dramReplies : (returnValue w x s).dramReplies = s.dramReplies := rfl
@[simp] theorem returnValue_flashReplies : (returnValue w x s).flashReplies = s.flashReplies := rfl
@[simp] theorem returnValue_freeCount : (returnValue w x s).freeCount = s.freeCount := rfl
@[simp] theorem returnValue_ret : (returnValue w x s).ret = some (lowBytes w x) := rfl
@[simp] theorem returnValue_bus : (returnValue w x s).bus = s.bus := rfl
@[simp] theorem returnValue_saved : (returnValue w x s).saved = s.saved := rfl

end

section
variable (s : State)

@[simp] theorem returnNone_variant : (returnNone s).variant = s.variant := rfl
@[simp] theorem returnNone_binding : (returnNone s).binding = s.binding := rfl
@[simp] theorem returnNone_conf : (returnNone s).conf = s.conf := rfl
@[simp] theorem returnNone_ceCtrl : (returnNone s).ceCtrl = s.ceCtrl := rfl
@[simp] theorem returnNone_intrCtrl : (returnNone s).intrCtrl = s.intrCtrl := rfl
@[simp] theorem returnNone_ctrl : (returnNone s).ctrl = s.ctrl := rfl
@[simp] theorem returnNone_segAddr : (returnNone s).segAddr = s.segAddr := rfl
@[simp] theorem returnNone_dummyData : (returnNone s).dummyData = s.dummyData := rfl
@[simp] theorem returnNone_timings : (returnNone s).timings = s.timings := rfl
@[simp] theorem returnNone_dmaCtrl : (returnNone s).dmaCtrl = s.dmaCtrl := rfl
@[simp] theorem returnNone_dmaFlashAddr : (returnNone s).dmaFlashAddr = s.dmaFlashAddr := rfl
@[simp] theorem returnNone_dmaDramAddr : (returnNone s).dmaDramAddr = s.dmaDramAddr := rfl
@[simp] theorem returnNone_dmaLen : (returnNone s).dmaLen = s.dmaLen := rfl
@[simp] theorem returnNone_dmaChecksum : (returnNone s).dmaChecksum = s.dmaChecksum := rfl
@[simp] theorem returnNone_snoopIndex : (returnNone s).snoopIndex = s.snoopIndex := rfl
@[simp] theorem returnNone_snoopDummies : (returnNone s).snoopDummies = s.snoopDummies := rfl
@[simp] theorem returnNone_region : (returnNone s).region = s.region := rfl
@[simp] theorem returnNone_csline : (returnNone s).csline = s.csline := rfl
@[simp] theorem returnNone_irq : (returnNone s).irq = s.irq := rfl
@[simp] theorem returnNone_log : (returnNone s).log = s.log := rfl
@[simp] theorem returnNone_dram : (returnNone s).dram = s.dram := rfl
@[simp] theorem returnNone_pending : (returnNone s).pending = s.pending := rfl
@[simp] theorem returnNone_miso : (returnNone s).miso = s.miso := rfl
@[simp] theorem returnNone_dramReplies : (returnNone s).dramReplies = s.dramReplies := rfl
@[simp] theorem returnNone_flashReplies : (returnNone s).flashReplies = s.flashReplies := rfl
@[simp] theorem returnNone_freeCount : (returnNone s).freeCount = s.freeCount := rfl
@[simp] theorem returnNone_ret : (returnNone s).ret = none := rfl
@[simp] theorem returnNone_bus : (returnNone s).bus = s.bus := rfl
@[simp] theorem returnNone_saved : (returnNone s).saved = s.saved := rfl

end

section
variable (s : State)

@[simp] theorem popRequest_variant : (s.popRequest).variant = s.variant := rfl
@[simp] theorem popRequest_binding : (s.popRequest).binding = s.binding := rfl
@[simp] theorem popRequest_conf : (s.popRequest).conf = s.conf := rfl
@[simp] theorem popRequest_ceCtrl : (s.popRequest).ceCtrl = s.ceCtrl := rfl
@[simp] theorem popRequest_intrCtrl : (s.popRequest).intrCtrl = s.intrCtrl := rfl
@[simp] theorem popRequest_ctrl : (s.popRequest).ctrl = s.ctrl := rfl
@[simp] theorem popRequest_segAddr : (s.popRequest).segAddr = s.segAddr := rfl
@[simp] theorem popRequest_dummyData : (s.popRequest).dummyData = s.dummyData := rfl
@[simp] theorem popRequest_timings : (s.popRequest).timings = s.timings := rfl
@[simp] theorem popRequest_dmaCtrl : (s.popRequest).dmaCtrl = s.dmaCtrl := rfl
@[simp] theorem popRequest_dmaFlashAddr : (s.popRequest).dmaFlashAddr = s.dmaFlashAddr := rfl
@[simp] theorem popRequest_dmaDramAddr : (s.popRequest).dmaDramAddr = s.dmaDramAddr := rfl
@[simp] theorem popRequest_dmaLen : (s.popRequest).dmaLen = s.dmaLen := rfl
@[simp] theorem popRequest_dmaChecksum : (s.popRequest).dmaChecksum = s.dmaChecksum := rfl
@[simp] theorem popRequest_snoopIndex : (s.popRequest).snoopIndex = s.snoopIndex := rfl
@[simp] theorem popRequest_snoopDummies : (s.popRequest).snoopDummies = s.snoopDummies := rfl
@[simp] theorem popRequest_region : (s.popRequest).region = s.region := rfl
@[simp] theorem popRequest_csline : (s.popRequest).csline = s.csline := rfl
@[simp] theorem popRequest_irq : (s.popRequest).irq = s.irq := rfl
@[simp] theorem popRequest_log : (s.popRequest).log = s.log := rfl
@[simp] theorem popRequest_dram : (s.popRequest).dram = s.dram := rfl
@[simp] theorem popRequest_pending : (s.popRequest).pending = s.pending.tail := rfl
@[simp] theorem popRequest_miso : (s.popRequest).miso = s.miso := rfl
@[simp] theorem popRequest_dramReplies : (s.popRequest).dramReplies = s.dramReplies := rfl
@[simp] theorem popRequest_flashReplies : (s.popRequest).flashReplies = s.flashReplies := rfl
@[simp] theorem popRequest_freeCount : (s.popRequest).freeCount = s.freeCount := rfl
@[simp] theorem popRequest_ret : (s.popRequest).ret = s.ret := rfl
@[simp] theorem popRequest_bus : (s.popRequest).bus = s.bus := rfl
@[simp] theorem popRequest_saved : (s.popRequest).saved = s.saved := rfl

end

section
variable (s : State)

@[simp] theorem saveBlock_variant : (saveBlock s).variant = s.variant := rfl
@[simp] theorem saveBlock_binding : (saveBlock s).binding = s.binding := rfl
@[simp] theorem saveBlock_conf : (saveBlock s).conf = s.conf := rfl
@[simp] theorem saveBlock_ceCtrl : (saveBlock s).ceCtrl = s.ceCtrl := rfl
@[simp] theorem saveBlock_intrCtrl : (saveBlock s).intrCtrl = s.intrCtrl := rfl
@[simp] theorem saveBlock_ctrl : (saveBlock s).ctrl = s.ctrl := rfl
@[simp] theorem saveBlock_segAddr : (saveBlock s).segAddr = s.segAddr := rfl
@[simp] theorem saveBlock_dummyData : (saveBlock s).dummyData = s.dummyData := rfl
@[simp] theorem saveBlock_timings : (saveBlock s).timings = s.timings := rfl
@[simp] theorem saveBlock_dmaCtrl : (saveBlock s).dmaCtrl = s.dmaCtrl := rfl
@[simp] theorem saveBlock_dmaFlashAddr : (saveBlock s).dmaFlashAddr = s.dmaFlashAddr := rfl
@[simp] theorem saveBlock_dmaDramAddr : (saveBlock s).dmaDramAddr = s.dmaDramAddr := rfl
@[simp] theorem saveBlock_dmaLen : (saveBlock s).dmaLen = s.dmaLen := rfl
@[simp] theorem saveBlock_dmaChecksum : (saveBlock s).dmaChecksum = s.dmaChecksum := rfl
@[simp] theorem saveBlock_snoopIndex : (saveBlock s).snoopIndex = s.snoopIndex := rfl
@[simp] theorem saveBlock_snoopDummies : (saveBlock s).snoopDummies = s.snoopDummies := rfl
@[simp] theorem saveBlock_region : (saveBlock s).region = s.region := rfl
@[simp] theorem saveBlock_csline : (saveBlock s).csline = s.csline := rfl
@[simp] theorem saveBlock_irq : (saveBlock s).irq = s.irq := rfl
@[simp] theorem saveBlock_log : (saveBlock s).log = s.log := rfl
@[simp] theorem saveBlock_dram : (saveBlock s).dram = s.dram := rfl
@[simp] theorem saveBlock_pending : (saveBlock s).pending = s.pending := rfl
@[simp] theorem saveBlock_miso : (saveBlock s).miso = s.miso := rfl
@[simp] theorem saveBlock_dramReplies : (saveBlock s).dramReplies = s.dramReplies := rfl
@[simp] theorem saveBlock_flashReplies : (saveBlock s).flashReplies = s.flashReplies := rfl
@[simp] theorem saveBlock_freeCount : (saveBlock s).freeCount = s.freeCount := rfl
@[simp] theorem saveBlock_ret : (saveBlock s).ret = s.ret := rfl
@[simp] theorem saveBlock_bus : (saveBlock s).bus = s.bus := rfl
@[simp] theorem saveBlock_saved : (saveBlock s).saved = some (takeSnapshot s) := rfl

end

section
variable (cs : Cs) (g : Segment) (word : Word) (s : State)

@[simp] theorem applySegment_variant : (applySegment cs g word s).variant = s.variant := rfl
@[simp] theorem applySegment_binding : (applySegment cs g word s).binding = s.binding := rfl
@[simp] theorem applySegment_conf : (applySegment cs g word s).conf = s.conf := rfl
@[simp] theorem applySegment_ceCtrl : (applySegment cs g word s).ceCtrl = s.ceCtrl := rfl
@[simp] theorem applySegment_intrCtrl : (applySegment cs g word s).intrCtrl = s.intrCtrl := rfl
@[simp] theorem applySegment_ctrl : (applySegment cs g word s).ctrl = s.ctrl := rfl
@[simp] theorem applySegment_segAddr : (applySegment cs g word s).segAddr = s.segAddr.set cs word := rfl
@[simp] theorem applySegment_dummyData : (applySegment cs g word s).dummyData = s.dummyData := rfl
@[simp] theorem applySegment_timings : (applySegment cs g word s).timings = s.timings := rfl
@[simp] theorem applySegment_dmaCtrl : (applySegment cs g word s).dmaCtrl = s.dmaCtrl := rfl
@[simp] theorem applySegment_dmaFlashAddr : (applySegment cs g word s).dmaFlashAddr = s.dmaFlashAddr := rfl
@[simp] theorem applySegment_dmaDramAddr : (applySegment cs g word s).dmaDramAddr = s.dmaDramAddr := rfl
@[simp] theorem applySegment_dmaLen : (applySegment cs g word s).dmaLen = s.dmaLen := rfl
@[simp] theorem applySegment_dmaChecksum : (applySegment cs g word s).dmaChecksum = s.dmaChecksum := rfl
@[simp] theorem applySegment_snoopIndex : (applySegment cs g word s).snoopIndex = s.snoopIndex := rfl
@[simp] theorem applySegment_snoopDummies : (applySegment cs g word s).snoopDummies = s.snoopDummies := rfl
@[simp] theorem applySegment_region : (applySegment cs g word s).region = s.region.set cs g := rfl
@[simp] theorem applySegment_csline : (applySegment cs g word s).csline = s.csline := rfl
@[simp] theorem applySegment_irq : (applySegment cs g word s).irq = s.irq := rfl
@[simp] theorem applySegment_log : (applySegment cs g word s).log = s.log := rfl
@[simp] theorem applySegment_dram : (applySegment cs g word s).dram = s.dram := rfl
@[simp] theorem applySegment_pending : (applySegment cs g word s).pending = s.pending := rfl
@[simp] theorem applySegment_miso : (applySegment cs g word s).miso = s.miso := rfl
@[simp] theorem applySegment_dramReplies : (applySegment cs g word s).dramReplies = s.dramReplies := rfl
@[simp] theorem applySegment_flashReplies : (applySegment cs g word s).flashReplies = s.flashReplies := rfl
@[simp] theorem applySegment_freeCount : (applySegment cs g word s).freeCount = s.freeCount := rfl
@[simp] theorem applySegment_ret : (applySegment cs g word s).ret = s.ret := rfl
@[simp] theorem applySegment_bus : (applySegment cs g word s).bus = s.bus := rfl
@[simp] theorem applySegment_saved : (applySegment cs g word s).saved = s.saved := rfl

end

section
variable (w : Word) (s : State)

@[simp] theorem checksumAdvance_variant : (checksumAdvance w s).variant = s.variant := rfl
@[simp] theorem checksumAdvance_binding : (checksumAdvance w s).binding = s.binding := rfl
@[simp] theorem checksumAdvance_conf : (checksumAdvance w s).conf = s.conf := rfl
@[simp] theorem checksumAdvance_ceCtrl : (checksumAdvance w s).ceCtrl = s.ceCtrl := rfl
@[simp] theorem checksumAdvance_intrCtrl : (checksumAdvance w s).intrCtrl = s.intrCtrl := rfl
@[simp] theorem checksumAdvance_ctrl : (checksumAdvance w s).ctrl = s.ctrl := rfl
@[simp] theorem checksumAdvance_segAddr : (checksumAdvance w s).segAddr = s.segAddr := rfl
@[simp] theorem checksumAdvance_dummyData : (checksumAdvance w s).dummyData = s.dummyData := rfl
@[simp] theorem checksumAdvance_timings : (checksumAdvance w s).timings = s.timings := rfl
@[simp] theorem checksumAdvance_dmaCtrl : (checksumAdvance w s).dmaCtrl = s.dmaCtrl := rfl
@[simp] theorem checksumAdvance_dmaFlashAddr : (checksumAdvance w s).dmaFlashAddr = s.dmaFlashAddr + 4#32 := rfl
@[simp] theorem checksumAdvance_dmaDramAddr : (checksumAdvance w s).dmaDramAddr = s.dmaDramAddr := rfl
@[simp] theorem checksumAdvance_dmaLen : (checksumAdvance w s).dmaLen = s.dmaLen - 4#32 := rfl
@[simp] theorem checksumAdvance_dmaChecksum : (checksumAdvance w s).dmaChecksum = s.dmaChecksum + w := rfl
@[simp] theorem checksumAdvance_snoopIndex : (checksumAdvance w s).snoopIndex = s.snoopIndex := rfl
@[simp] theorem checksumAdvance_snoopDummies : (checksumAdvance w s).snoopDummies = s.snoopDummies := rfl
@[simp] theorem checksumAdvance_region : (checksumAdvance w s).region = s.region := rfl
@[simp] theorem checksumAdvance_csline : (checksumAdvance w s).csline = s.csline := rfl
@[simp] theorem checksumAdvance_irq : (checksumAdvance w s).irq = s.irq := rfl
@[simp] theorem checksumAdvance_log : (checksumAdvance w s).log = s.log := rfl
@[simp] theorem checksumAdvance_dram : (checksumAdvance w s).dram = s.dram := rfl
@[simp] theorem checksumAdvance_pending : (checksumAdvance w s).pending = s.pending := rfl
@[simp] theorem checksumAdvance_miso : (checksumAdvance w s).miso = s.miso := rfl
@[simp] theorem checksumAdvance_dramReplies : (checksumAdvance w s).dramReplies = s.dramReplies := rfl
@[simp] theorem checksumAdvance_flashReplies : (checksumAdvance w s).flashReplies = s.flashReplies := rfl
@[simp] theorem checksumAdvance_freeCount : (checksumAdvance w s).freeCount = s.freeCount := rfl
@[simp] theorem checksumAdvance_ret : (checksumAdvance w s).ret = s.ret := rfl
@[simp] theorem checksumAdvance_bus : (checksumAdvance w s).bus = s.bus := rfl
@[simp] theorem checksumAdvance_saved : (checksumAdvance w s).saved = s.saved := rfl

end

section
variable (w : Word) (s : State)

@[simp] theorem transferAdvance_variant : (transferAdvance w s).variant = s.variant := rfl
@[simp] theorem transferAdvance_binding : (transferAdvance w s).binding = s.binding := rfl
@[simp] theorem transferAdvance_conf : (transferAdvance w s).conf = s.conf := rfl
@[simp] theorem transferAdvance_ceCtrl : (transferAdvance w s).ceCtrl = s.ceCtrl := rfl
@[simp] theorem transferAdvance_intrCtrl : (transferAdvance w s).intrCtrl = s.intrCtrl := rfl
@[simp] theorem transferAdvance_ctrl : (transferAdvance w s).ctrl = s.ctrl := rfl
@[simp] theorem transferAdvance_segAddr : (transferAdvance w s).segAddr = s.segAddr := rfl
@[simp] theorem transferAdvance_dummyData : (transferAdvance w s).dummyData = s.dummyData := rfl
@[simp] theorem transferAdvance_timings : (transferAdvance w s).timings = s.timings := rfl
@[simp] theorem transferAdvance_dmaCtrl : (transferAdvance w s).dmaCtrl = s.dmaCtrl := rfl
@[simp] theorem transferAdvance_dmaFlashAddr : (transferAdvance w s).dmaFlashAddr = s.dmaFlashAddr + 4#32 := rfl
@[simp] theorem transferAdvance_dmaDramAddr : (transferAdvance w s).dmaDramAddr = s.dmaDramAddr + 4#32 := rfl
@[simp] theorem transferAdvance_dmaLen : (transferAdvance w s).dmaLen = s.dmaLen - 4#32 := rfl
@[simp] theorem transferAdvance_dmaChecksum : (transferAdvance w s).dmaChecksum = s.dmaChecksum + w := rfl
@[simp] theorem transferAdvance_snoopIndex : (transferAdvance w s).snoopIndex = s.snoopIndex := rfl
@[simp] theorem transferAdvance_snoopDummies : (transferAdvance w s).snoopDummies = s.snoopDummies := rfl
@[simp] theorem transferAdvance_region : (transferAdvance w s).region = s.region := rfl
@[simp] theorem transferAdvance_csline : (transferAdvance w s).csline = s.csline := rfl
@[simp] theorem transferAdvance_irq : (transferAdvance w s).irq = s.irq := rfl
@[simp] theorem transferAdvance_log : (transferAdvance w s).log = s.log := rfl
@[simp] theorem transferAdvance_dram : (transferAdvance w s).dram = s.dram := rfl
@[simp] theorem transferAdvance_pending : (transferAdvance w s).pending = s.pending := rfl
@[simp] theorem transferAdvance_miso : (transferAdvance w s).miso = s.miso := rfl
@[simp] theorem transferAdvance_dramReplies : (transferAdvance w s).dramReplies = s.dramReplies := rfl
@[simp] theorem transferAdvance_flashReplies : (transferAdvance w s).flashReplies = s.flashReplies := rfl
@[simp] theorem transferAdvance_freeCount : (transferAdvance w s).freeCount = s.freeCount := rfl
@[simp] theorem transferAdvance_ret : (transferAdvance w s).ret = s.ret := rfl
@[simp] theorem transferAdvance_bus : (transferAdvance w s).bus = s.bus := rfl
@[simp] theorem transferAdvance_saved : (transferAdvance w s).saved = s.saved := rfl

end

section
variable (s : State)

@[simp] theorem calibrateClock_variant : (calibrateClock s).variant = s.variant := rfl
@[simp] theorem calibrateClock_binding : (calibrateClock s).binding = s.binding := rfl
@[simp] theorem calibrateClock_conf : (calibrateClock s).conf = s.conf := rfl
@[simp] theorem calibrateClock_ceCtrl : (calibrateClock s).ceCtrl = s.ceCtrl := rfl
@[simp] theorem calibrateClock_intrCtrl : (calibrateClock s).intrCtrl = s.intrCtrl := rfl
@[simp] theorem calibrateClock_ctrl : (calibrateClock s).ctrl = s.ctrl.set .cs0 (setClkFreq (s.ctrl.get .cs0) (ratio (freqField s.dmaCtrl))) := rfl
@[simp] theorem calibrateClock_segAddr : (calibrateClock s).segAddr = s.segAddr := rfl
@[simp] theorem calibrateClock_dummyData : (calibrateClock s).dummyData = s.dummyData := rfl
@[simp] theorem calibrateClock_timings : (calibrateClock s).timings = s.timings := rfl
@[simp] theorem calibrateClock_dmaCtrl : (calibrateClock s).dmaCtrl = s.dmaCtrl := rfl
@[simp] theorem calibrateClock_dmaFlashAddr : (calibrateClock s).dmaFlashAddr = s.dmaFlashAddr := rfl
@[simp] theorem calibrateClock_dmaDramAddr : (calibrateClock s).dmaDramAddr = s.dmaDramAddr := rfl
@[simp] theorem calibrateClock_dmaLen : (calibrateClock s).dmaLen = s.dmaLen := rfl
@[simp] theorem calibrateClock_dmaChecksum : (calibrateClock s).dmaChecksum = s.dmaChecksum := rfl
@[simp] theorem calibrateClock_snoopIndex : (calibrateClock s).snoopIndex = s.snoopIndex := rfl
@[simp] theorem calibrateClock_snoopDummies : (calibrateClock s).snoopDummies = s.snoopDummies := rfl
@[simp] theorem calibrateClock_region : (calibrateClock s).region = s.region := rfl
@[simp] theorem calibrateClock_csline : (calibrateClock s).csline = s.csline := rfl
@[simp] theorem calibrateClock_irq : (calibrateClock s).irq = s.irq := rfl
@[simp] theorem calibrateClock_log : (calibrateClock s).log = s.log := rfl
@[simp] theorem calibrateClock_dram : (calibrateClock s).dram = s.dram := rfl
@[simp] theorem calibrateClock_pending : (calibrateClock s).pending = s.pending := rfl
@[simp] theorem calibrateClock_miso : (calibrateClock s).miso = s.miso := rfl
@[simp] theorem calibrateClock_dramReplies : (calibrateClock s).dramReplies = s.dramReplies := rfl
@[simp] theorem calibrateClock_flashReplies : (calibrateClock s).flashReplies = s.flashReplies := rfl
@[simp] theorem calibrateClock_freeCount : (calibrateClock s).freeCount = s.freeCount := rfl
@[simp] theorem calibrateClock_ret : (calibrateClock s).ret = s.ret := rfl
@[simp] theorem calibrateClock_bus : (calibrateClock s).bus = s.bus := rfl
@[simp] theorem calibrateClock_saved : (calibrateClock s).saved = s.saved := rfl

end

section
variable (s : State)

@[simp] theorem complete_variant : (complete s).variant = s.variant := rfl
@[simp] theorem complete_binding : (complete s).binding = s.binding := rfl
@[simp] theorem complete_conf : (complete s).conf = s.conf := rfl
@[simp] theorem complete_ceCtrl : (complete s).ceCtrl = s.ceCtrl := rfl
@[simp] theorem complete_intrCtrl : (complete s).intrCtrl = setDmaStatus s.intrCtrl := rfl
@[simp] theorem complete_ctrl : (complete s).ctrl = s.ctrl := rfl
@[simp] theorem complete_segAddr : (complete s).segAddr = s.segAddr := rfl
@[simp] theorem complete_dummyData : (complete s).dummyData = s.dummyData := rfl
@[simp] theorem complete_timings : (complete s).timings = s.timings := rfl
@[simp] theorem complete_dmaCtrl : (complete s).dmaCtrl = s.dmaCtrl := rfl
@[simp] theorem complete_dmaFlashAddr : (complete s).dmaFlashAddr = s.dmaFlashAddr := rfl
@[simp] theorem complete_dmaDramAddr : (complete s).dmaDramAddr = s.dmaDramAddr := rfl
@[simp] theorem complete_dmaLen : (complete s).dmaLen = s.dmaLen := rfl
@[simp] theorem complete_dmaChecksum : (complete s).dmaChecksum = s.dmaChecksum := rfl
@[simp] theorem complete_snoopIndex : (complete s).snoopIndex = s.snoopIndex := rfl
@[simp] theorem complete_snoopDummies : (complete s).snoopDummies = s.snoopDummies := rfl
@[simp] theorem complete_region : (complete s).region = s.region := rfl
@[simp] theorem complete_csline : (complete s).csline = s.csline := rfl
@[simp] theorem complete_irq : (complete s).irq = (s.irq || dmaEnField s.intrCtrl) := rfl
@[simp] theorem complete_log : (complete s).log = s.log := rfl
@[simp] theorem complete_dram : (complete s).dram = s.dram := rfl
@[simp] theorem complete_pending : (complete s).pending = s.pending := rfl
@[simp] theorem complete_miso : (complete s).miso = s.miso := rfl
@[simp] theorem complete_dramReplies : (complete s).dramReplies = s.dramReplies := rfl
@[simp] theorem complete_flashReplies : (complete s).flashReplies = s.flashReplies := rfl
@[simp] theorem complete_freeCount : (complete s).freeCount = s.freeCount := rfl
@[simp] theorem complete_ret : (complete s).ret = s.ret := rfl
@[simp] theorem complete_bus : (complete s).bus = s.bus := rfl
@[simp] theorem complete_saved : (complete s).saved = s.saved := rfl

end

section
variable (x : Word) (s : State)

@[simp] theorem stopDma_variant : (stopDma x s).variant = s.variant := rfl
@[simp] theorem stopDma_binding : (stopDma x s).binding = s.binding := rfl
@[simp] theorem stopDma_conf : (stopDma x s).conf = s.conf := rfl
@[simp] theorem stopDma_ceCtrl : (stopDma x s).ceCtrl = s.ceCtrl := rfl
@[simp] theorem stopDma_intrCtrl : (stopDma x s).intrCtrl = clearDmaStatus s.intrCtrl := rfl
@[simp] theorem stopDma_ctrl : (stopDma x s).ctrl = s.ctrl := rfl
@[simp] theorem stopDma_segAddr : (stopDma x s).segAddr = s.segAddr := rfl
@[simp] theorem stopDma_dummyData : (stopDma x s).dummyData = s.dummyData := rfl
@[simp] theorem stopDma_timings : (stopDma x s).timings = s.timings := rfl
@[simp] theorem stopDma_dmaCtrl : (stopDma x s).dmaCtrl = x := rfl
@[simp] theorem stopDma_dmaFlashAddr : (stopDma x s).dmaFlashAddr = s.dmaFlashAddr := rfl
@[simp] theorem stopDma_dmaDramAddr : (stopDma x s).dmaDramAddr = s.dmaDramAddr := rfl
@[simp] theorem stopDma_dmaLen : (stopDma x s).dmaLen = s.dmaLen := rfl
@[simp] theorem stopDma_dmaChecksum : (stopDma x s).dmaChecksum = 0#32 := rfl
@[simp] theorem stopDma_snoopIndex : (stopDma x s).snoopIndex = s.snoopIndex := rfl
@[simp] theorem stopDma_snoopDummies : (stopDma x s).snoopDummies = s.snoopDummies := rfl
@[simp] theorem stopDma_region : (stopDma x s).region = s.region := rfl
@[simp] theorem stopDma_csline : (stopDma x s).csline = s.csline := rfl
@[simp] theorem stopDma_irq : (stopDma x s).irq = false := rfl
@[simp] theorem stopDma_log : (stopDma x s).log = s.log := rfl
@[simp] theorem stopDma_dram : (stopDma x s).dram = s.dram := rfl
@[simp] theorem stopDma_pending : (stopDma x s).pending = s.pending := rfl
@[simp] theorem stopDma_miso : (stopDma x s).miso = s.miso := rfl
@[simp] theorem stopDma_dramReplies : (stopDma x s).dramReplies = s.dramReplies := rfl
@[simp] theorem stopDma_flashReplies : (stopDma x s).flashReplies = s.flashReplies := rfl
@[simp] theorem stopDma_freeCount : (stopDma x s).freeCount = s.freeCount := rfl
@[simp] theorem stopDma_ret : (stopDma x s).ret = s.ret := rfl
@[simp] theorem stopDma_bus : (stopDma x s).bus = s.bus := rfl
@[simp] theorem stopDma_saved : (stopDma x s).saved = s.saved := rfl

end

end Machine

end Sys2Proof
end

