-- ==== Sys2Proof/Laws/Decode.lean ====
section
/-! SUPPORT. The frames taken apart: the parts of a word put together again, the width codes, the register
map read back at a register's own offset. -/

namespace Sys2Proof

open Sys2Proof.Machine

@[simp] theorem wordOfBytes_byteOf (v : Word) :
    wordOfBytes (byteOf v 0) (byteOf v 1) (byteOf v 2) (byteOf v 3) = v := by
  unfold wordOfBytes byteOf
  ext i hi
  simp only [BitVec.getElem_append, BitVec.getElem_extractLsb']
  split
  · simp [BitVec.getLsbD_eq_getElem hi]
  · split
    · rw [← BitVec.getLsbD_eq_getElem hi]
      congr 1
      omega
    · split <;> (rw [← BitVec.getLsbD_eq_getElem hi]; congr 1; omega)

/-- The bits of a value that starts a DMA (R64). -/
theorem getLsbD_dmaStartValue (calib cksum wr : Bool) (up : BitVec 28) (i : Nat) :
    (dmaStartValue calib cksum wr up).getLsbD i =
      if i < 1 then true else if i < 2 then wr else if i < 3 then cksum else if i < 4 then calib
      else up.getLsbD (i - 4) := by
  unfold dmaStartValue
  simp only [BitVec.getLsbD_append]
  rcases i with _ | _ | _ | _ | i <;> simp
  congr 1

/-- The bits above the four mode bits are the operand's, whatever the mode bits are (R64). -/
theorem getLsbD_dmaStartValue_upper (calib cksum wr : Bool) (up : BitVec 28) {i : Nat} (h : 4 ≤ i) :
    (dmaStartValue calib cksum wr up).getLsbD i = up.getLsbD (i - 4) := by
  rw [getLsbD_dmaStartValue]
  split_ifs <;> first | rfl | omega

/-- The bits of a value that stops the engine (R64). -/
theorem getLsbD_dmaStopValue (up : BitVec 31) (i : Nat) :
    (dmaStopValue up).getLsbD i = if i < 1 then false else up.getLsbD (i - 1) := by
  unfold dmaStopValue
  simp only [BitVec.getLsbD_append]
  rcases i with _ | i <;> simp

@[simp] theorem dmaStartValue_upper (calib cksum wr : Bool) (up : BitVec 28) :
    (dmaStartValue calib cksum wr up).extractLsb' 4 28 = up := by
  ext i hi
  rw [BitVec.getElem_extractLsb', getLsbD_dmaStartValue_upper _ _ _ _ (Nat.le_add_right 4 i),
    Nat.add_sub_cancel_left, BitVec.getLsbD_eq_getElem hi]

@[simp] theorem dmaStopValue_upper (up : BitVec 31) : (dmaStopValue up).extractLsb' 1 31 = up := by
  ext i hi
  simp only [BitVec.getElem_extractLsb', getLsbD_dmaStopValue]
  rw [if_neg (by omega), Nat.add_sub_cancel_left, BitVec.getLsbD_eq_getElem hi]

/-- The bits of a word put together from its bytes. -/
theorem getLsbD_wordOfBytes (a b c d : Byte) (i : Nat) :
    (wordOfBytes a b c d).getLsbD i =
      if i < 8 then a.getLsbD i else if i < 16 then b.getLsbD (i - 8)
      else if i < 24 then c.getLsbD (i - 16) else d.getLsbD (i - 24) := by
  unfold wordOfBytes
  simp only [BitVec.getLsbD_append]
  by_cases h : i < 8
  · simp [h]
  · by_cases h2 : i < 16
    · have h3 : i - 8 < 8 := by omega
      simp [h, h2, h3]
    · by_cases h3 : i < 24
      · have h4 : ¬ i - 8 < 8 := by omega
        have h5 : i - 8 - 8 < 8 := by omega
        simp [h, h2, h3, h4, h5]
        congr 1
      · have h4 : ¬ i - 8 < 8 := by omega
        have h5 : ¬ i - 8 - 8 < 8 := by omega
        simp [h, h2, h3, h4, h5]
        congr 1

/-- The bytes of a word put together from its bytes. -/
theorem byteOf_wordOfBytes (a b c d : Byte) :
    byteOf (wordOfBytes a b c d) 0 = a ∧ byteOf (wordOfBytes a b c d) 1 = b ∧
      byteOf (wordOfBytes a b c d) 2 = c ∧ byteOf (wordOfBytes a b c d) 3 = d := by
  refine ⟨?_, ?_, ?_, ?_⟩ <;>
    (ext i hi; simp only [byteOf, BitVec.getElem_extractLsb', getLsbD_wordOfBytes])
  · rw [if_pos (by omega), ← BitVec.getLsbD_eq_getElem hi]
    congr 1
    omega
  · rw [if_neg (by omega), if_pos (by omega), ← BitVec.getLsbD_eq_getElem hi]
    congr 1
    omega
  · rw [if_neg (by omega), if_neg (by omega), if_pos (by omega), ← BitVec.getLsbD_eq_getElem hi]
    congr 1
    omega
  · rw [if_neg (by omega), if_neg (by omega), if_neg (by omega), ← BitVec.getLsbD_eq_getElem hi]
    congr 1
    omega

@[simp] theorem widthOfCode_codeOfWidth (w : Width) : widthOfCode (codeOfWidth w) = w := by
  cases w <;> rfl

@[simp] theorem codeOfWidth_widthOfCode (c : BitVec 2) : codeOfWidth (widthOfCode c) = c := by
  revert c
  decide

@[simp] theorem modeOfBits_bitsOfMode (m : Mode) : modeOfBits (bitsOfMode m) = m := by
  cases m <;> rfl

@[simp] theorem bitsOfMode_modeOfBits (c : BitVec 2) : bitsOfMode (modeOfBits c) = c := by
  revert c
  decide

@[simp] theorem csOfNat_toNat (cs : Cs) : csOfNat cs.toNat = some cs := by
  cases cs <;> rfl

theorem toNat_of_csOfNat {n : Nat} {cs : Cs} (h : csOfNat n = some cs) : cs.toNat = n := by
  unfold csOfNat at h
  split at h <;> simp_all <;> subst h <;> rfl

/-- The selector byte of a REG frame, taken apart. -/
theorem regSelector_parts (c : BitVec 2) (d : BitVec 1) :
    (0#5 ++ c ++ d : Byte).extractLsb' 3 5 = 0#5 ∧ (0#5 ++ c ++ d : Byte).extractLsb' 1 2 = c ∧
      (0#5 ++ c ++ d : Byte).getLsbD 0 = d.getLsbD 0 := by
  revert c d
  decide

/-- The selector byte of a FLASH frame, taken apart. -/
theorem flashSelector_parts (n : BitVec 3) (c : BitVec 2) (d : BitVec 1) (m : BitVec 2) :
    (n ++ c ++ d ++ m : Byte).extractLsb' 5 3 = n ∧ (n ++ c ++ d ++ m : Byte).extractLsb' 3 2 = c ∧
      (n ++ c ++ d ++ m : Byte).extractLsb' 0 2 = m ∧ (n ++ c ++ d ++ m : Byte).getLsbD 2 = d.getLsbD 0 := by
  revert n c d m
  decide

/-- Every register is in the map. -/
theorem mem_regMap (r : Reg) : r ∈ regMap := by
  cases r with
  | ctrl cs => cases cs <;> simp [regMap]
  | segAddr cs => cases cs <;> simp [regMap]
  | _ => simp [regMap]

/-- What a well-formed descriptor says of a recognised register's offset (R5(b)). -/
theorem Variant.wf_offset {v : Variant} (h : v.wf = true) {r : Reg} (hr : regRecognised v r = true) :
    regOffset v r % 4 = 0 ∧ regOffset v r < regSpaceBytes := by
  simp only [Variant.wf, Variant.wfOffsets, Variant.registers, Bool.and_eq_true, List.all_eq_true,
    List.mem_filter, decide_eq_true_eq] at h
  exact h.1.1.1.1.1.2.1 r ⟨mem_regMap r, hr⟩

/-- Two recognised registers of a well-formed descriptor stand at different offsets (R5(b)). -/
theorem Variant.wf_offset_injective {v : Variant} (h : v.wf = true) {r q : Reg}
    (hr : regRecognised v r = true) (hq : regRecognised v q = true)
    (he : regOffset v r = regOffset v q) : r = q := by
  simp only [Variant.wf, Variant.wfOffsets, Variant.registers, Bool.and_eq_true] at h
  have hn : ((regMap.filter (regRecognised v)).map (regOffset v)).Nodup := of_decide_eq_true h.1.1.1.1.1.2.2
  exact List.inj_on_of_nodup_map hn (List.mem_filter.mpr ⟨mem_regMap r, hr⟩)
    (List.mem_filter.mpr ⟨mem_regMap q, hq⟩) he

/-- The register map read at a recognised register's offset gives that register (R106 step 2). -/
theorem regAt_regOffset {v : Variant} (h : v.wf = true) {r : Reg} (hr : regRecognised v r = true) :
    regAt v (regOffset v r) = some r := by
  unfold regAt
  cases hf : regMap.find? (fun q => regRecognised v q && decide (regOffset v q = regOffset v r)) with
  | none =>
    have := List.find?_eq_none.mp hf r (mem_regMap r)
    simp [hr] at this
  | some q =>
    have hq := List.find?_some hf
    simp only [Bool.and_eq_true, decide_eq_true_eq] at hq
    rw [Variant.wf_offset_injective h hq.1 hr hq.2]

/-- Nothing stands at an offset that no recognised register has. -/
theorem regAt_eq_none {v : Variant} {off : Nat}
    (h : ∀ r, regRecognised v r = true → regOffset v r ≠ off) : regAt v off = none := by
  unfold regAt
  refine List.find?_eq_none.mpr fun r _ hr => ?_
  simp only [Bool.and_eq_true, decide_eq_true_eq] at hr
  exact h r hr.1 hr.2

/-- What stands at an offset is recognised, and at that offset. -/
theorem regAt_some {v : Variant} {off : Nat} {r : Reg} (h : regAt v off = some r) :
    regRecognised v r = true ∧ regOffset v r = off := by
  have := List.find?_some h
  simpa using this

/-- A REG read frame decodes to the read row of what stands at its offset. -/
theorem decode_regRead (v : Variant) (off : Byte) (w : Width) (h : off.toNat % 4 = 0) :
    decode v .reg (regFrame off .read w 0#32) = .ok (readRow off w (regAt v off.toNat)) := by
  obtain ⟨h1, h2, h3⟩ := regSelector_parts (codeOfWidth w) 0#1
  simp only [decode, regFrame, decodeReg, h1, h2, h3, wordOfBytes_byteOf]
  simp [h]

/-- A REG write frame decodes to the write row of what stands at its offset. -/
theorem decode_regWrite (v : Variant) (off : Byte) (w : Width) (data : Word) (h : off.toNat % 4 = 0) :
    decode v .reg (regFrame off .write w data) = .ok (writeRow off w data (regAt v off.toNat)) := by
  obtain ⟨h1, h2, h3⟩ := regSelector_parts (codeOfWidth w) 1#1
  simp only [decode, regFrame, decodeReg, h1, h2, h3, wordOfBytes_byteOf]
  simp [h]

/-- A FLASH load frame decodes to the load row of its mode. -/
theorem decode_flashLoad (v : Variant) (m : Mode) (cs : Cs) (addr : Word) (w : Width)
    (h : v.has cs = true) :
    decode v .flash (flashFrame .read m cs addr w 0#32) = .ok (loadRow m cs addr w) := by
  obtain ⟨h1, h2, h3, h4⟩ :=
    flashSelector_parts (BitVec.ofNat 3 cs.toNat) (codeOfWidth w) 0#1 (bitsOfMode m)
  have hc : csOfNat (BitVec.ofNat 3 cs.toNat).toNat = some cs := by cases cs <;> rfl
  simp only [decode, flashFrame, decodeFlash, h1, h2, h3, h4, hc, wordOfBytes_byteOf]
  simp [h]

/-- A FLASH store frame decodes to the store row of its mode. -/
theorem decode_flashStore (v : Variant) (m : Mode) (cs : Cs) (addr : Word) (w : Width) (data : Word)
    (h : v.has cs = true) :
    decode v .flash (flashFrame .write m cs addr w data) = .ok (storeRow m cs addr w data) := by
  obtain ⟨h1, h2, h3, h4⟩ :=
    flashSelector_parts (BitVec.ofNat 3 cs.toNat) (codeOfWidth w) 1#1 (bitsOfMode m)
  have hc : csOfNat (BitVec.ofNat 3 cs.toNat).toNat = some cs := by cases cs <;> rfl
  simp only [decode, flashFrame, decodeFlash, h1, h2, h3, h4, hc, wordOfBytes_byteOf]
  simp [h]

/-- A DMACTL frame decodes to the row of its value. -/
theorem decode_dmactl (v : Variant) (value : Word) (h : v.hasDma = true) :
    decode v .dmactl (dmactlFrame value) = .ok (dmactlRow value) := by
  simp [decode, dmactlFrame, decodeDmactl, h]

/-- A SNOOP frame decodes to the row of its byte. -/
theorem decode_snoop (v : Variant) (cs : Cs) (a : Word) (b : Byte) (h : v.has cs = true) :
    decode v .snoop (snoopFrame cs a b) = .ok (snoopRow cs a b) := by
  have hc : csOfNat (BitVec.ofNat 8 cs.toNat).toNat = some cs := by cases cs <;> rfl
  rw [BitVec.toNat_ofNat] at hc
  simp [decode, snoopFrame, decodeSnoop, hc, h]

/-! The other direction: what a row encodes to. -/

theorem encode_snoopRow (v : Variant) (cs : Cs) (a : Word) (b : Byte) : encode v (snoopRow cs a b) = (.snoop, snoopFrame cs a b) := by
  unfold snoopRow
  split <;> (try rfl) <;> simp only [encode] <;> (rename_i h; congr 2; apply BitVec.eq_of_toNat_eq; rw [h]; rfl)

theorem regSelector_of (b : Byte) (h : b.extractLsb' 3 5 = 0#5) (d : Bool) (hd : b.getLsbD 0 = d) : 
   (0#5 ++ (b.extractLsb' 1 2) ++ BitVec.ofBool d : Byte) = b := by
  revert b; revert d; decide +kernel

theorem flashSelector_of (b : Byte) (d : Bool) (hd : b.getLsbD 2 = d) : 
   (b.extractLsb' 5 3 ++ (b.extractLsb' 3 2) ++ BitVec.ofBool d ++ b.extractLsb' 0 2 : Byte) = b := by
  revert b; revert d; decide +kernel

theorem dmaStartValue_of (x : Word) (h : x.getLsbD 0 = true) : dmaStartValue (x.getLsbD 3) (x.getLsbD 2) (x.getLsbD 1) (x.extractLsb' 4 28) = x := by
  apply BitVec.eq_of_getLsbD_eq
  intro i hi
  rw [getLsbD_dmaStartValue]
  split
  · have : i = 0 := by omega
    rw [this, h]
  split
  · have : i = 1 := by omega
    rw [this]
  split
  · have : i = 2 := by omega
    rw [this]
  split
  · have : i = 3 := by omega
    rw [this]
  · rw [BitVec.getLsbD_extractLsb']
    have : i - 4 < 28 := by omega
    simp only [this, decide_true, Bool.true_and]
    congr 1; omega
theorem dmaStopValue_of (x : Word) (h : x.getLsbD 0 = false) : dmaStopValue (x.extractLsb' 1 31) = x := by
  apply BitVec.eq_of_getLsbD_eq
  intro i hi
  rw [getLsbD_dmaStopValue]
  split
  · have : i = 0 := by omega
    rw [this, h]
  · rw [BitVec.getLsbD_extractLsb']
    have : i - 1 < 31 := by omega
    simp only [this, decide_true, Bool.true_and]
    congr 1; omega
theorem encode_dmactlRow (v : Variant) (x : Word) : encode v (dmactlRow x) = (.dmactl, dmactlFrame x) := by
  unfold dmactlRow
  split
  · rename_i h; simp only [encode]; rw [dmaStopValue_of x h]
  · rename_i h
    have h' : x.getLsbD 0 = true := by simpa using h
    have := dmaStartValue_of x h'
    split <;> split <;> (simp only [encode]; rename_i h2 h3; simp_all)
theorem encode_readRow (v : Variant) (off : Byte) (w : Width) : encode v (readRow off w (regAt v off.toNat)) = (.reg, regFrame off .read w 0#32) := by
  have key : ∀ r, regAt v off.toNat = some r → BitVec.ofNat 8 (regOffset v r) = off := by
    intro r h
    rw [(regAt_some h).2]; simp
  rcases h : regAt v off.toNat with _ | r
  · rfl
  · have := key r h
    rcases r with _|_|_|cs|cs|_|_|_|_|_|_|_ <;> (try cases cs) <;> simp [readRow, encode, regReadFrame, this]

theorem encode_writeRow (v : Variant) (off : Byte) (w : Width) (d : Word) : encode v (writeRow off w d (regAt v off.toNat)) = (.reg, regFrame off .write w d) := by
  have key : ∀ r, regAt v off.toNat = some r → BitVec.ofNat 8 (regOffset v r) = off := by
    intro r h
    rw [(regAt_some h).2]; simp
  rcases h : regAt v off.toNat with _ | r
  · rfl
  · have := key r h
    rcases r with _|_|_|cs|cs|_|_|_|_|_|_|_ <;> (try cases cs) <;> simp [writeRow, encode, regWriteFrame, this]

end Sys2Proof
end

