-- ==== Sys2Proof/Laws/Transfer.lean ====
section
/-! SUPPORT. What transfers do, said once: a list of transfers in closed form, the line drives, the DRAM
accesses. -/

namespace Sys2Proof.Machine

/-- The bytes the flash side answers to the next `n` transfers: the inputs first, then free values. -/
def answers : List Byte → Nat → Nat → List Byte
  | _, _, 0 => []
  | [], c, n + 1 => Config.freeMiso c :: answers [] (c + 1) n
  | r :: m, c, n + 1 => r :: answers m c n

@[simp] theorem answers_zero (m : List Byte) (c : Nat) : answers m c 0 = [] := by cases m <;> rfl

@[simp] theorem answers_length (m : List Byte) (c n : Nat) : (answers m c n).length = n := by
  induction n generalizing m c with
  | zero => simp
  | succ n ih => cases m <;> simp [answers, ih]

/-- The state after transfers that send `l`, the received bytes discarded. -/
def transferred (l : List Byte) (s : State) : State :=
  { s with
    miso := s.miso.drop l.length
    freeCount := s.freeCount + (l.length - s.miso.length)
    bus := s.bus ++ List.zipWith BusEvent.xfer l (answers s.miso s.freeCount l.length) }

theorem xfer_fst (b : Byte) (s : State) : [(xfer b s).1] = answers s.miso s.freeCount 1 := by
  unfold xfer
  split <;> simp_all [answers]

theorem xfer_snd (b : Byte) (s : State) : (xfer b s).2 = transferred [b] s := by
  unfold xfer transferred
  split <;> simp_all [answers, addBus]

@[simp] theorem transferred_nil (s : State) : transferred [] s = s := by
  simp [transferred]

theorem answers_tail (m : List Byte) (c n : Nat) :
    answers m c (n + 1) = answers m c 1 ++ answers (m.drop 1) (c + (1 - m.length)) n := by
  cases m <;> simp [answers]

theorem transferred_cons (b : Byte) (l : List Byte) (s : State) :
    transferred (b :: l) s = transferred l (transferred [b] s) := by
  cases hm : s.miso with
  | nil =>
    simp [transferred, hm, answers]
    omega
  | cons r m => simp [transferred, hm, answers]

theorem transferred_append (l k : List Byte) (s : State) :
    transferred (l ++ k) s = transferred k (transferred l s) := by
  induction l generalizing s with
  | nil => simp
  | cons b l ih => rw [List.cons_append, transferred_cons, ih, ← transferred_cons]

/-- Transfers in closed form. -/
theorem sendBytes_eq (l : List Byte) (s : State) : sendBytes l s = transferred l s := by
  induction l generalizing s with
  | nil => simp [sendBytes]
  | cons b l ih => rw [sendBytes, ih, xfer_snd, ← transferred_cons]

/-- Receiving in closed form. -/
theorem receiveBytes_eq (n : Nat) (s : State) :
    receiveBytes n s = (answers s.miso s.freeCount n, transferred (List.replicate n readFill) s) := by
  induction n generalizing s with
  | zero => simp [receiveBytes]
  | succ n ih =>
    have h : (xfer readFill s).1 :: answers (s.miso.drop 1) (s.freeCount + (1 - s.miso.length)) n
        = answers s.miso s.freeCount (n + 1) := by
      rw [answers_tail, ← xfer_fst readFill s]
      rfl
    rw [List.replicate_succ, transferred_cons, ← h]
    simp only [receiveBytes, ih, xfer_snd]
    rfl

section
variable (l : List Byte) (s : State)

@[simp] theorem transferred_variant : (transferred l s).variant = s.variant := rfl
@[simp] theorem transferred_binding : (transferred l s).binding = s.binding := rfl
@[simp] theorem transferred_conf : (transferred l s).conf = s.conf := rfl
@[simp] theorem transferred_ceCtrl : (transferred l s).ceCtrl = s.ceCtrl := rfl
@[simp] theorem transferred_intrCtrl : (transferred l s).intrCtrl = s.intrCtrl := rfl
@[simp] theorem transferred_ctrl : (transferred l s).ctrl = s.ctrl := rfl
@[simp] theorem transferred_segAddr : (transferred l s).segAddr = s.segAddr := rfl
@[simp] theorem transferred_dummyData : (transferred l s).dummyData = s.dummyData := rfl
@[simp] theorem transferred_timings : (transferred l s).timings = s.timings := rfl
@[simp] theorem transferred_dmaCtrl : (transferred l s).dmaCtrl = s.dmaCtrl := rfl
@[simp] theorem transferred_dmaFlashAddr : (transferred l s).dmaFlashAddr = s.dmaFlashAddr := rfl
@[simp] theorem transferred_dmaDramAddr : (transferred l s).dmaDramAddr = s.dmaDramAddr := rfl
@[simp] theorem transferred_dmaLen : (transferred l s).dmaLen = s.dmaLen := rfl
@[simp] theorem transferred_dmaChecksum : (transferred l s).dmaChecksum = s.dmaChecksum := rfl
@[simp] theorem transferred_snoopIndex : (transferred l s).snoopIndex = s.snoopIndex := rfl
@[simp] theorem transferred_snoopDummies : (transferred l s).snoopDummies = s.snoopDummies := rfl
@[simp] theorem transferred_region : (transferred l s).region = s.region := rfl
@[simp] theorem transferred_csline : (transferred l s).csline = s.csline := rfl
@[simp] theorem transferred_irq : (transferred l s).irq = s.irq := rfl
@[simp] theorem transferred_log : (transferred l s).log = s.log := rfl
@[simp] theorem transferred_dram : (transferred l s).dram = s.dram := rfl
@[simp] theorem transferred_pending : (transferred l s).pending = s.pending := rfl
@[simp] theorem transferred_dramReplies : (transferred l s).dramReplies = s.dramReplies := rfl
@[simp] theorem transferred_flashReplies : (transferred l s).flashReplies = s.flashReplies := rfl
@[simp] theorem transferred_ret : (transferred l s).ret = s.ret := rfl
@[simp] theorem transferred_saved : (transferred l s).saved = s.saved := rfl

end

/-- The level of a line after it is driven. -/
@[simp] theorem driveLine_csline (cs : Cs) (b : Bool) (s : State) :
    (driveLine cs b s).csline = s.csline.set cs b := by
  unfold driveLine
  split
  · next h => rw [← h, Slots.set_get]
  · rfl

/-- The record of a driven line: a change, or nothing. -/
theorem driveLine_bus (cs : Cs) (b : Bool) (s : State) :
    (driveLine cs b s).bus = s.bus ++ (if s.csline.get cs = b then [] else [.line cs b]) := by
  unfold driveLine
  split <;> simp

/-- A driven line in closed form. -/
theorem driveLine_eq (cs : Cs) (b : Bool) (s : State) :
    driveLine cs b s =
      { s with
        csline := s.csline.set cs b
        bus := s.bus ++ (if s.csline.get cs = b then [] else [.line cs b]) } := by
  unfold driveLine
  split
  · next h =>
    subst h
    simp
  · rfl

section
variable (cs : Cs) (b : Bool) (s : State)

@[simp] theorem driveLine_variant : (driveLine cs b s).variant = s.variant := by rw [driveLine_eq]
@[simp] theorem driveLine_binding : (driveLine cs b s).binding = s.binding := by rw [driveLine_eq]
@[simp] theorem driveLine_conf : (driveLine cs b s).conf = s.conf := by rw [driveLine_eq]
@[simp] theorem driveLine_ceCtrl : (driveLine cs b s).ceCtrl = s.ceCtrl := by rw [driveLine_eq]
@[simp] theorem driveLine_intrCtrl : (driveLine cs b s).intrCtrl = s.intrCtrl := by rw [driveLine_eq]
@[simp] theorem driveLine_ctrl : (driveLine cs b s).ctrl = s.ctrl := by rw [driveLine_eq]
@[simp] theorem driveLine_segAddr : (driveLine cs b s).segAddr = s.segAddr := by rw [driveLine_eq]
@[simp] theorem driveLine_dummyData : (driveLine cs b s).dummyData = s.dummyData := by rw [driveLine_eq]
@[simp] theorem driveLine_timings : (driveLine cs b s).timings = s.timings := by rw [driveLine_eq]
@[simp] theorem driveLine_dmaCtrl : (driveLine cs b s).dmaCtrl = s.dmaCtrl := by rw [driveLine_eq]
@[simp] theorem driveLine_dmaFlashAddr : (driveLine cs b s).dmaFlashAddr = s.dmaFlashAddr := by rw [driveLine_eq]
@[simp] theorem driveLine_dmaDramAddr : (driveLine cs b s).dmaDramAddr = s.dmaDramAddr := by rw [driveLine_eq]
@[simp] theorem driveLine_dmaLen : (driveLine cs b s).dmaLen = s.dmaLen := by rw [driveLine_eq]
@[simp] theorem driveLine_dmaChecksum : (driveLine cs b s).dmaChecksum = s.dmaChecksum := by rw [driveLine_eq]
@[simp] theorem driveLine_snoopIndex : (driveLine cs b s).snoopIndex = s.snoopIndex := by rw [driveLine_eq]
@[simp] theorem driveLine_snoopDummies : (driveLine cs b s).snoopDummies = s.snoopDummies := by rw [driveLine_eq]
@[simp] theorem driveLine_region : (driveLine cs b s).region = s.region := by rw [driveLine_eq]
@[simp] theorem driveLine_irq : (driveLine cs b s).irq = s.irq := by rw [driveLine_eq]
@[simp] theorem driveLine_log : (driveLine cs b s).log = s.log := by rw [driveLine_eq]
@[simp] theorem driveLine_dram : (driveLine cs b s).dram = s.dram := by rw [driveLine_eq]
@[simp] theorem driveLine_pending : (driveLine cs b s).pending = s.pending := by rw [driveLine_eq]
@[simp] theorem driveLine_miso : (driveLine cs b s).miso = s.miso := by rw [driveLine_eq]
@[simp] theorem driveLine_dramReplies : (driveLine cs b s).dramReplies = s.dramReplies := by rw [driveLine_eq]
@[simp] theorem driveLine_flashReplies : (driveLine cs b s).flashReplies = s.flashReplies := by rw [driveLine_eq]
@[simp] theorem driveLine_freeCount : (driveLine cs b s).freeCount = s.freeCount := by rw [driveLine_eq]
@[simp] theorem driveLine_ret : (driveLine cs b s).ret = s.ret := by rw [driveLine_eq]
@[simp] theorem driveLine_saved : (driveLine cs b s).saved = s.saved := by rw [driveLine_eq]

end

end Sys2Proof.Machine
end

