-- ==== Sys2Proof/Laws/Snoop.lean ====
section
/-! SUPPORT. The snoop emulator said once: one byte of a user-mode store is one transfer, of the byte or of
the dummy byte, and a move of the cursor and the budget. -/

namespace Sys2Proof.Machine

/-- The byte is replaced by the dummy byte (R165). -/
def snoopReplaces (aw : Nat) (c : SnoopIndex) (d : Nat) : Bool :=
  match c with
  | .off => false
  | .start => false
  | .count k => decide (aw + 1 ≤ k) && decide (d ≠ 0)

/-- The cursor after a byte (R161, R164, R165, R166). -/
def snoopNextIndex (aw : Nat) (b : Byte) (c : SnoopIndex) (d : Nat) : SnoopIndex :=
  match c with
  | .off => .off
  | .start => if ndummies b = 0 then .off else .count 1
  | .count k =>
    if k < aw + 1 then .count (k + 1) else if d ≤ 1 then .off else .count (k + 1)

/-- The budget after a byte (R161, R165). -/
def snoopNextDummies (aw : Nat) (b : Byte) (c : SnoopIndex) (d : Nat) : Nat :=
  match c with
  | .off => d
  | .start => if ndummies b = 0 then d else ndummies b
  | .count k => if k < aw + 1 then d else d - 1

/-- The byte that goes out for a byte of a user-mode store. -/
def snoopSends (cs : Cs) (b : Byte) (s : State) : Byte :=
  if snoopReplaces (s.addrWidth cs) s.snoopIndex s.snoopDummies then s.dummyByte else b

/-- One byte of a user-mode store in closed form (R151, R162). -/
theorem userByte_eq (cs : Cs) (b : Byte) (s : State) :
    userByte cs b s =
      { transferred [snoopSends cs b s] s with
        snoopIndex := snoopNextIndex (s.addrWidth cs) b s.snoopIndex s.snoopDummies
        snoopDummies := snoopNextDummies (s.addrWidth cs) b s.snoopIndex s.snoopDummies } := by
  unfold userByte snoopByte snoopSends
  cases hc : s.snoopIndex with
  | off => simp [snoopReplaces, snoopNextIndex, snoopNextDummies, xfer_snd, transferred, ← hc]
  | start =>
    by_cases h : ndummies b = 0 <;>
      simp [snoopOpcode, h, snoopReplaces, snoopNextIndex, snoopNextDummies, xfer_snd, transferred]
  | count k =>
    by_cases hk : k < s.addrWidth cs + 1
    · have : ¬ s.addrWidth cs + 1 ≤ k := by omega
      simp [snoopAddress, hk, this, snoopReplaces, snoopNextIndex, snoopNextDummies, xfer_snd, transferred]
    · have hk' : s.addrWidth cs + 1 ≤ k := by omega
      by_cases hd : s.snoopDummies = 0
      · simp [snoopDummy, hk, hd, snoopReplaces, snoopNextIndex, snoopNextDummies, xfer_snd, transferred]
      · have h1 : (s.snoopDummies - 1 = 0) = (s.snoopDummies ≤ 1) := by
          apply propext
          omega
        simp [snoopDummy, hk, hk', hd, h1, snoopReplaces, snoopNextIndex, snoopNextDummies, xfer_snd,
          transferred]

section
variable (cs : Cs) (b : Byte) (s : State)

@[simp] theorem userByte_variant : (userByte cs b s).variant = s.variant := by rw [userByte_eq]; rfl
@[simp] theorem userByte_binding : (userByte cs b s).binding = s.binding := by rw [userByte_eq]; rfl
@[simp] theorem userByte_conf : (userByte cs b s).conf = s.conf := by rw [userByte_eq]; rfl
@[simp] theorem userByte_ceCtrl : (userByte cs b s).ceCtrl = s.ceCtrl := by rw [userByte_eq]; rfl
@[simp] theorem userByte_intrCtrl : (userByte cs b s).intrCtrl = s.intrCtrl := by rw [userByte_eq]; rfl
@[simp] theorem userByte_ctrl : (userByte cs b s).ctrl = s.ctrl := by rw [userByte_eq]; rfl
@[simp] theorem userByte_segAddr : (userByte cs b s).segAddr = s.segAddr := by rw [userByte_eq]; rfl
@[simp] theorem userByte_dummyData : (userByte cs b s).dummyData = s.dummyData := by rw [userByte_eq]; rfl
@[simp] theorem userByte_timings : (userByte cs b s).timings = s.timings := by rw [userByte_eq]; rfl
@[simp] theorem userByte_dmaCtrl : (userByte cs b s).dmaCtrl = s.dmaCtrl := by rw [userByte_eq]; rfl
@[simp] theorem userByte_dmaFlashAddr : (userByte cs b s).dmaFlashAddr = s.dmaFlashAddr := by rw [userByte_eq]; rfl
@[simp] theorem userByte_dmaDramAddr : (userByte cs b s).dmaDramAddr = s.dmaDramAddr := by rw [userByte_eq]; rfl
@[simp] theorem userByte_dmaLen : (userByte cs b s).dmaLen = s.dmaLen := by rw [userByte_eq]; rfl
@[simp] theorem userByte_dmaChecksum : (userByte cs b s).dmaChecksum = s.dmaChecksum := by rw [userByte_eq]; rfl
@[simp] theorem userByte_region : (userByte cs b s).region = s.region := by rw [userByte_eq]; rfl
@[simp] theorem userByte_csline : (userByte cs b s).csline = s.csline := by rw [userByte_eq]; rfl
@[simp] theorem userByte_irq : (userByte cs b s).irq = s.irq := by rw [userByte_eq]; rfl
@[simp] theorem userByte_log : (userByte cs b s).log = s.log := by rw [userByte_eq]; rfl
@[simp] theorem userByte_dram : (userByte cs b s).dram = s.dram := by rw [userByte_eq]; rfl
@[simp] theorem userByte_pending : (userByte cs b s).pending = s.pending := by rw [userByte_eq]; rfl
@[simp] theorem userByte_dramReplies : (userByte cs b s).dramReplies = s.dramReplies := by rw [userByte_eq]; rfl
@[simp] theorem userByte_flashReplies : (userByte cs b s).flashReplies = s.flashReplies := by rw [userByte_eq]; rfl
@[simp] theorem userByte_ret : (userByte cs b s).ret = s.ret := by rw [userByte_eq]; rfl
@[simp] theorem userByte_saved : (userByte cs b s).saved = s.saved := by rw [userByte_eq]; rfl

end

section
variable (cs : Cs) (l : List Byte) (s : State)

@[simp] theorem userBytes_variant : (userBytes cs l s).variant = s.variant := by
  induction l generalizing s <;> simp_all [userBytes]

@[simp] theorem userBytes_binding : (userBytes cs l s).binding = s.binding := by
  induction l generalizing s <;> simp_all [userBytes]

@[simp] theorem userBytes_conf : (userBytes cs l s).conf = s.conf := by
  induction l generalizing s <;> simp_all [userBytes]

@[simp] theorem userBytes_ceCtrl : (userBytes cs l s).ceCtrl = s.ceCtrl := by
  induction l generalizing s <;> simp_all [userBytes]

@[simp] theorem userBytes_intrCtrl : (userBytes cs l s).intrCtrl = s.intrCtrl := by
  induction l generalizing s <;> simp_all [userBytes]

@[simp] theorem userBytes_ctrl : (userBytes cs l s).ctrl = s.ctrl := by
  induction l generalizing s <;> simp_all [userBytes]

@[simp] theorem userBytes_segAddr : (userBytes cs l s).segAddr = s.segAddr := by
  induction l generalizing s <;> simp_all [userBytes]

@[simp] theorem userBytes_dummyData : (userBytes cs l s).dummyData = s.dummyData := by
  induction l generalizing s <;> simp_all [userBytes]

@[simp] theorem userBytes_timings : (userBytes cs l s).timings = s.timings := by
  induction l generalizing s <;> simp_all [userBytes]

@[simp] theorem userBytes_dmaCtrl : (userBytes cs l s).dmaCtrl = s.dmaCtrl := by
  induction l generalizing s <;> simp_all [userBytes]

@[simp] theorem userBytes_dmaFlashAddr : (userBytes cs l s).dmaFlashAddr = s.dmaFlashAddr := by
  induction l generalizing s <;> simp_all [userBytes]

@[simp] theorem userBytes_dmaDramAddr : (userBytes cs l s).dmaDramAddr = s.dmaDramAddr := by
  induction l generalizing s <;> simp_all [userBytes]

@[simp] theorem userBytes_dmaLen : (userBytes cs l s).dmaLen = s.dmaLen := by
  induction l generalizing s <;> simp_all [userBytes]

@[simp] theorem userBytes_dmaChecksum : (userBytes cs l s).dmaChecksum = s.dmaChecksum := by
  induction l generalizing s <;> simp_all [userBytes]

@[simp] theorem userBytes_region : (userBytes cs l s).region = s.region := by
  induction l generalizing s <;> simp_all [userBytes]

@[simp] theorem userBytes_csline : (userBytes cs l s).csline = s.csline := by
  induction l generalizing s <;> simp_all [userBytes]

@[simp] theorem userBytes_irq : (userBytes cs l s).irq = s.irq := by
  induction l generalizing s <;> simp_all [userBytes]

@[simp] theorem userBytes_log : (userBytes cs l s).log = s.log := by
  induction l generalizing s <;> simp_all [userBytes]

@[simp] theorem userBytes_dram : (userBytes cs l s).dram = s.dram := by
  induction l generalizing s <;> simp_all [userBytes]

@[simp] theorem userBytes_pending : (userBytes cs l s).pending = s.pending := by
  induction l generalizing s <;> simp_all [userBytes]

@[simp] theorem userBytes_dramReplies : (userBytes cs l s).dramReplies = s.dramReplies := by
  induction l generalizing s <;> simp_all [userBytes]

@[simp] theorem userBytes_flashReplies : (userBytes cs l s).flashReplies = s.flashReplies := by
  induction l generalizing s <;> simp_all [userBytes]

@[simp] theorem userBytes_ret : (userBytes cs l s).ret = s.ret := by
  induction l generalizing s <;> simp_all [userBytes]

@[simp] theorem userBytes_saved : (userBytes cs l s).saved = s.saved := by
  induction l generalizing s <;> simp_all [userBytes]

end

/-- A user-mode store is one transfer for each of its bytes and a move of the cursor and the budget. -/
theorem userBytes_transfers (cs : Cs) (l : List Byte) (s : State) :
    ∃ (sent : List Byte) (i : SnoopIndex) (n : Nat), sent.length = l.length ∧
      userBytes cs l s = { transferred sent s with snoopIndex := i, snoopDummies := n } := by
  induction l generalizing s with
  | nil => exact ⟨[], s.snoopIndex, s.snoopDummies, rfl, by simp [userBytes]⟩
  | cons b l ih =>
    obtain ⟨sent, i, n, hlen, h⟩ := ih (userByte cs b s)
    refine ⟨snoopSends cs b s :: sent, i, n, by simp [hlen], ?_⟩
    simp only [userBytes, h]
    rw [transferred_cons, userByte_eq]
    rfl

/-- The state with another snoop cursor and budget. -/
def withCursor (c : SnoopIndex) (d : Nat) (s : State) : State := { s with snoopIndex := c, snoopDummies := d }

theorem userByte_withCursor (cs : Cs) (b : Byte) (c : SnoopIndex) (d : Nat) (s : State) : userByte cs b (withCursor c d s) = 
   withCursor (snoopNextIndex (s.addrWidth cs) b c d) (snoopNextDummies (s.addrWidth cs) b c d) (transferred [if snoopReplaces (s.addrWidth cs) c d then s.dummyByte else b] s) := by
  rw [userByte_eq]; rfl

/-- With the cursor off every byte is forwarded (R166). -/
theorem userBytes_off (cs : Cs) (l : List Byte) (d : Nat) (s : State) : userBytes cs l (withCursor .off d s) = withCursor .off d (transferred l s) := by
  induction l generalizing s with
  | nil => 
    have : transferred [] s = s := transferred_nil s
    rw [this]; rfl
  | cons b l ih =>
    rw [userBytes, userByte_withCursor]
    simp only [snoopNextIndex, snoopNextDummies, snoopReplaces, Bool.false_eq_true, if_false]
    rw [ih, ← transferred_append]; rfl

/-- Address bytes are forwarded and counted (R164). -/
theorem userBytes_address (cs : Cs) (l : List Byte) (k d : Nat) (s : State) (h : k + l.length ≤ s.addrWidth cs + 1) : userBytes cs l (withCursor (.count k) d s) = withCursor (.count (k + l.length)) d (transferred l s) := by
  induction l generalizing s k with
  | nil => 
    have : transferred [] s = s := transferred_nil s
    rw [this]; rfl
  | cons b l ih =>
    simp only [List.length_cons] at h
    have h1 : k < s.addrWidth cs + 1 := by omega
    have h2 : ¬ s.addrWidth cs + 1 ≤ k := by omega
    rw [userBytes, userByte_withCursor]
    simp only [snoopNextIndex, snoopNextDummies, snoopReplaces, h1, h2, decide_false, Bool.false_and, Bool.false_eq_true, if_false, if_true]
    rw [ih (k + 1) _ (by show k + 1 + l.length ≤ s.addrWidth cs + 1; omega), ← transferred_append]
    rw [List.length_cons, show k + 1 + l.length = k + (l.length + 1) by omega]; rfl

/-- Past the address as many bytes are replaced as the budget holds, and the rest is forwarded (R165, R166). -/
theorem userBytes_dummies (cs : Cs) (l : List Byte) (k d : Nat) (s : State) (hd : 0 < d) (h : s.addrWidth cs + 1 ≤ k) : userBytes cs l (withCursor (.count k) d s) = 
    withCursor (if d ≤ l.length then .off else .count (k + l.length)) (d - l.length) (transferred (List.replicate (min d l.length) (s.dummyByte) ++ l.drop d) s) := by
  induction l generalizing s k d with
  | nil =>
    have : transferred [] s = s := transferred_nil s
    have hd' : ¬ d = 0 := by omega
    simp [this, userBytes, hd', withCursor]
  | cons b l ih =>
    rw [userBytes, userByte_withCursor]
    have h1 : ¬ k < s.addrWidth cs + 1 := by omega
    have hd0 : d ≠ 0 := by omega
    simp only [snoopNextIndex, snoopNextDummies, snoopReplaces, h1, h, hd0, decide_true, Bool.true_and, ne_eq, not_false_eq_true, if_false, if_true]
    by_cases h1d : d ≤ 1
    · have : d = 1 := by omega
      subst this
      simp only [le_refl, if_true]
      rw [userBytes_off, ← transferred_append]
      simp
    · obtain ⟨e, rfl⟩ : ∃ e, d = e + 1 := ⟨d - 1, by omega⟩
      rw [if_neg h1d, Nat.add_sub_cancel, ih (k + 1) e _ (by omega) (by show s.addrWidth cs + 1 ≤ k + 1; omega), ← transferred_append]
      have e1 : (e ≤ l.length) = (e + 1 ≤ (b :: l).length) := by simp
      have e2 : k + 1 + l.length = k + (b :: l).length := by simp; omega
      have e3 : e - l.length = e + 1 - (b :: l).length := by simp
      have e4 : [s.dummyByte] ++ (List.replicate (min e l.length) (s.dummyByte) ++ l.drop e) = List.replicate (min (e + 1) (b :: l).length) (s.dummyByte) ++ (b :: l).drop (e + 1) := by
        rw [List.length_cons, Nat.succ_min_succ, List.replicate_succ]; simp
      have e5 : State.dummyByte (transferred [s.dummyByte] s) = s.dummyByte := rfl
      rw [e5, e4, e2, e3]
      simp only [e1]

end Sys2Proof.Machine
end

