-- ==== Sys2Proof/Laws/Framer.lean ====
section
/-! SUPPORT. The framer said once: what a framed access sends and logs, in closed form. -/

namespace Sys2Proof.Machine

/-- The opcode byte of a framed access (R143). -/
def opcodeByte (cs : Cs) (s : State) : Byte :=
  if s.mode cs = .read then readOpcode else opcodeField (s.ctrl.get cs)

/-- The event of a zero opcode (R143). -/
def opcodeEvents (cs : Cs) (s : State) : List Event :=
  if s.mode cs ≠ .read ∧ opcodeField (s.ctrl.get cs) = 0#8 then [.noCommand cs (s.mode cs)] else []

theorem opcodeOf_eq (cs : Cs) (s : State) :
    opcodeOf cs s = (opcodeByte cs s, addLog (opcodeEvents cs s) s) := by
  unfold opcodeOf opcodeByte opcodeEvents
  cases h : s.mode cs <;> simp [addLog] <;> split <;> simp_all

/-- The events of an address past the segment (R146). -/
def clampEvents (cs : Cs) (a : Word) (s : State) : List Event :=
  if 0 < (decodeSegment s.variant (s.segAddr.get cs)).size
      ∧ (decodeSegment s.variant (s.segAddr.get cs)).size ≤ (a.toNat : Int) then [.flashAddrClamped cs a]
  else []

theorem clampToSegment_snd (cs : Cs) (a : Word) (s : State) :
    (clampToSegment cs a s).2 = addLog (clampEvents cs a s) s := by
  simp only [clampToSegment, clampEvents]
  split <;> simp [addLog]

/-- An address inside the segment is not changed (R146). -/
theorem clampToSegment_inside (cs : Cs) (a : Word) (s : State)
    (h : (a.toNat : Int) < (decodeSegment s.variant (s.segAddr.get cs)).size) :
    clampToSegment cs a s = (a, s) := by
  unfold clampToSegment
  rw [if_neg]
  omega

theorem clampToSegment_congr (cs : Cs) (a : Word) {s t : State} (hv : t.variant = s.variant)
    (hs : t.segAddr = s.segAddr) : (clampToSegment cs a t).1 = (clampToSegment cs a s).1 := by
  simp only [clampToSegment, hv, hs]
  split <;> rfl

/-- The bytes a framed access sends before its payload (R142). -/
def frameHead (cs : Cs) (addr : Word) (s : State) : List Byte :=
  opcodeByte cs s :: addressBytes (s.ext4 cs) (clampToSegment cs addr s).1 ++ frameDummies cs s

/-- The events of a framed access (R143, R146). -/
def frameEvents (cs : Cs) (addr : Word) (s : State) : List Event :=
  clampEvents cs addr s ++ opcodeEvents cs s

/-- A framed access up to its payload, in closed form (R142). -/
theorem frameOpen_eq (cs : Cs) (addr : Word) (s : State) :
    frameOpen cs addr s =
      transferred (frameHead cs addr s) (addLog (frameEvents cs addr s) (driveLine cs true s)) := by
  unfold frameOpen frameHead frameEvents
  simp only [clampToSegment_snd, opcodeOf_eq, sendBytes_eq]
  have hm : ∀ es, (addLog es (driveLine cs true s)).mode cs = s.mode cs := by
    intro es
    simp [State.mode]
  have ho : ∀ es, opcodeByte cs (addLog es (driveLine cs true s)) = opcodeByte cs s := by
    intro es
    simp only [opcodeByte, hm]
    rw [addLog_ctrl, driveLine_ctrl]
  have he : ∀ es, opcodeEvents cs (addLog es (driveLine cs true s)) = opcodeEvents cs s := by
    intro es
    simp only [opcodeEvents, hm]
    rw [addLog_ctrl, driveLine_ctrl]
  have hc : clampEvents cs addr (driveLine cs true s) = clampEvents cs addr s := by
    simp [clampEvents]
  rw [ho, he, hc, clampToSegment_congr cs addr (s := s) (by simp) (by simp)]
  simp [addLog]

/-- A framed load in closed form (R147). -/
theorem framedLoad_snd (cs : Cs) (addr : Word) (w : Width) (s : State) :
    (framedLoad cs addr w s).2 =
      driveLine cs false (transferred (frameHead cs addr s ++ List.replicate w.bytes readFill)
        (addLog (frameEvents cs addr s) (driveLine cs true s))) := by
  simp only [framedLoad, frameClose, receiveBytes_eq, frameOpen_eq, ← transferred_append]

/-- A framed store in closed form (R150). -/
theorem framedStore_eq (cs : Cs) (addr : Word) (w : Width) (data : Word) (s : State) :
    framedStore cs addr w data s =
      driveLine cs false (transferred (frameHead cs addr s ++ payload w data)
        (addLog (frameEvents cs addr s) (driveLine cs true s))) := by
  simp only [framedStore, frameClose, sendBytes_eq, frameOpen_eq, ← transferred_append]

end Sys2Proof.Machine
end

