-- ==== Sys2Proof/Laws/Dma.lean ====
section
/-! SUPPORT. The DMA engine said once: what an access of the flash side or the DRAM side can touch, what
one step of a loop does to the cursors, and what a whole loop can touch. -/

namespace Sys2Proof.Machine

/-- All that an access of the flash window or of the two spaces of the engine can touch. -/
def SideTouches (s t : State) : Prop :=
  t = { s with
    csline := t.csline, log := t.log, dram := t.dram, miso := t.miso, dramReplies := t.dramReplies
    flashReplies := t.flashReplies, freeCount := t.freeCount, bus := t.bus
    snoopIndex := t.snoopIndex, snoopDummies := t.snoopDummies }

theorem SideTouches.refl (s : State) : SideTouches s s := rfl

theorem SideTouches.trans {s t u : State} (h : SideTouches s t) (k : SideTouches t u) :
    SideTouches s u := by
  unfold SideTouches at *
  rw [k, h]

/-- All that a step of the engine can touch. -/
def DmaTouches (s t : State) : Prop :=
  t = { s with
    dmaFlashAddr := t.dmaFlashAddr, dmaDramAddr := t.dmaDramAddr, dmaLen := t.dmaLen
    dmaChecksum := t.dmaChecksum
    csline := t.csline, log := t.log, dram := t.dram, miso := t.miso, dramReplies := t.dramReplies
    flashReplies := t.flashReplies, freeCount := t.freeCount, bus := t.bus
    snoopIndex := t.snoopIndex, snoopDummies := t.snoopDummies }

theorem DmaTouches.refl (s : State) : DmaTouches s s := rfl

theorem DmaTouches.trans {s t u : State} (h : DmaTouches s t) (k : DmaTouches t u) :
    DmaTouches s u := by
  unfold DmaTouches at *
  rw [k, h]

theorem SideTouches.dma {s t : State} (h : SideTouches s t) : DmaTouches s t := by
  unfold SideTouches at h
  unfold DmaTouches
  rw [h]

section
variable {s t : State}

theorem SideTouches.variant (h : SideTouches s t) : t.variant = s.variant := by rw [show t = _ from h]
theorem SideTouches.binding (h : SideTouches s t) : t.binding = s.binding := by rw [show t = _ from h]
theorem SideTouches.conf (h : SideTouches s t) : t.conf = s.conf := by rw [show t = _ from h]
theorem SideTouches.ceCtrl (h : SideTouches s t) : t.ceCtrl = s.ceCtrl := by rw [show t = _ from h]
theorem SideTouches.intrCtrl (h : SideTouches s t) : t.intrCtrl = s.intrCtrl := by rw [show t = _ from h]
theorem SideTouches.ctrl (h : SideTouches s t) : t.ctrl = s.ctrl := by rw [show t = _ from h]
theorem SideTouches.segAddr (h : SideTouches s t) : t.segAddr = s.segAddr := by rw [show t = _ from h]
theorem SideTouches.dummyData (h : SideTouches s t) : t.dummyData = s.dummyData := by rw [show t = _ from h]
theorem SideTouches.timings (h : SideTouches s t) : t.timings = s.timings := by rw [show t = _ from h]
theorem SideTouches.dmaCtrl (h : SideTouches s t) : t.dmaCtrl = s.dmaCtrl := by rw [show t = _ from h]
theorem SideTouches.region (h : SideTouches s t) : t.region = s.region := by rw [show t = _ from h]
theorem SideTouches.irq (h : SideTouches s t) : t.irq = s.irq := by rw [show t = _ from h]
theorem SideTouches.pending (h : SideTouches s t) : t.pending = s.pending := by rw [show t = _ from h]
theorem SideTouches.ret (h : SideTouches s t) : t.ret = s.ret := by rw [show t = _ from h]
theorem SideTouches.saved (h : SideTouches s t) : t.saved = s.saved := by rw [show t = _ from h]
theorem SideTouches.dmaFlashAddr (h : SideTouches s t) : t.dmaFlashAddr = s.dmaFlashAddr := by rw [show t = _ from h]
theorem SideTouches.dmaDramAddr (h : SideTouches s t) : t.dmaDramAddr = s.dmaDramAddr := by rw [show t = _ from h]
theorem SideTouches.dmaLen (h : SideTouches s t) : t.dmaLen = s.dmaLen := by rw [show t = _ from h]
theorem SideTouches.dmaChecksum (h : SideTouches s t) : t.dmaChecksum = s.dmaChecksum := by rw [show t = _ from h]

theorem DmaTouches.variant (h : DmaTouches s t) : t.variant = s.variant := by rw [show t = _ from h]
theorem DmaTouches.binding (h : DmaTouches s t) : t.binding = s.binding := by rw [show t = _ from h]
theorem DmaTouches.conf (h : DmaTouches s t) : t.conf = s.conf := by rw [show t = _ from h]
theorem DmaTouches.ceCtrl (h : DmaTouches s t) : t.ceCtrl = s.ceCtrl := by rw [show t = _ from h]
theorem DmaTouches.intrCtrl (h : DmaTouches s t) : t.intrCtrl = s.intrCtrl := by rw [show t = _ from h]
theorem DmaTouches.ctrl (h : DmaTouches s t) : t.ctrl = s.ctrl := by rw [show t = _ from h]
theorem DmaTouches.segAddr (h : DmaTouches s t) : t.segAddr = s.segAddr := by rw [show t = _ from h]
theorem DmaTouches.dummyData (h : DmaTouches s t) : t.dummyData = s.dummyData := by rw [show t = _ from h]
theorem DmaTouches.timings (h : DmaTouches s t) : t.timings = s.timings := by rw [show t = _ from h]
theorem DmaTouches.dmaCtrl (h : DmaTouches s t) : t.dmaCtrl = s.dmaCtrl := by rw [show t = _ from h]
theorem DmaTouches.region (h : DmaTouches s t) : t.region = s.region := by rw [show t = _ from h]
theorem DmaTouches.irq (h : DmaTouches s t) : t.irq = s.irq := by rw [show t = _ from h]
theorem DmaTouches.pending (h : DmaTouches s t) : t.pending = s.pending := by rw [show t = _ from h]
theorem DmaTouches.ret (h : DmaTouches s t) : t.ret = s.ret := by rw [show t = _ from h]
theorem DmaTouches.saved (h : DmaTouches s t) : t.saved = s.saved := by rw [show t = _ from h]

end

theorem framedLoad_touches (cs : Cs) (addr : Word) (w : Width) (s : State) :
    SideTouches s (framedLoad cs addr w s).2 := by
  rw [framedLoad_snd, driveLine_eq, driveLine_eq]
  rfl

theorem framedStore_touches (cs : Cs) (addr : Word) (w : Width) (data : Word) (s : State) :
    SideTouches s (framedStore cs addr w data s) := by
  rw [framedStore_eq, driveLine_eq, driveLine_eq]
  rfl

theorem userLoad_touches (w : Width) (s : State) : SideTouches s (userLoad w s).2 := by
  show SideTouches s (receiveBytes w.bytes s).2
  rw [receiveBytes_eq]
  rfl

theorem userByte_touches (cs : Cs) (b : Byte) (s : State) : SideTouches s (userByte cs b s) := by
  rw [userByte_eq]
  rfl

theorem userBytes_touches (cs : Cs) (l : List Byte) (s : State) : SideTouches s (userBytes cs l s) := by
  induction l generalizing s with
  | nil => exact SideTouches.refl s
  | cons b l ih => exact (userByte_touches cs b s).trans (ih _)

theorem flashLoad_touches (cs : Cs) (addr : Word) (w : Width) (s : State) :
    SideTouches s (flashLoad cs addr w s).2 := by
  unfold flashLoad
  split
  · exact framedLoad_touches cs addr w s
  · exact framedLoad_touches cs addr w s
  · rfl
  · exact userLoad_touches w s

theorem flashStore_touches (cs : Cs) (addr : Word) (w : Width) (data : Word) (s : State) :
    SideTouches s (flashStore cs addr w data s) := by
  unfold flashStore
  split
  · split
    · rfl
    · rfl
    · exact framedStore_touches cs addr w data s
    · exact userBytes_touches cs _ s
  · rfl

theorem nextDramReply_touches (s : State) : SideTouches s (nextDramReply s).2 := by
  unfold nextDramReply
  split <;> rfl

theorem nextFlashReply_touches (s : State) : SideTouches s (nextFlashReply s).2 := by
  unfold nextFlashReply
  split <;> rfl

theorem addBus_touches (es : List BusEvent) (s : State) : SideTouches s (addBus es s) := rfl

theorem addLog_touches (es : List Event) (s : State) : SideTouches s (addLog es s) := rfl

theorem dramRead32_touches (a : Word) (s : State) : SideTouches s (dramRead32 a s).2 := by
  unfold dramRead32
  split
  · rfl
  · refine (nextDramReply_touches s).trans ?_
    obtain ⟨r, u⟩ := nextDramReply s
    cases r <;> rfl

theorem dramWrite32_touches (a w : Word) (s : State) : SideTouches s (dramWrite32 a w s).2 := by
  unfold dramWrite32
  split
  · rfl
  · refine (nextDramReply_touches s).trans ?_
    obtain ⟨r, u⟩ := nextDramReply s
    cases r <;> rfl

theorem flashRead32_touches (x : Word) (s : State) : SideTouches s (flashRead32 x s).2 := by
  unfold flashRead32
  split
  · unfold externalFlashRead32
    split
    · rfl
    · exact (nextFlashReply_touches s).trans rfl
  · split
    · rfl
    · split
      · rfl
      · exact flashLoad_touches _ _ _ s

theorem flashWrite32_touches (x w : Word) (s : State) : SideTouches s (flashWrite32 x w s).2 := by
  unfold flashWrite32
  split
  · unfold externalFlashWrite32
    split
    · rfl
    · exact (nextFlashReply_touches s).trans rfl
  · split
    · rfl
    · split
      · rfl
      · exact flashStore_touches _ _ _ _ s

/-- With an external flash side its answers are the environment's (R59). -/
theorem flashRead32_external {x : Word} {s : State} (h : s.binding = .external) :
    flashRead32 x s = externalFlashRead32 x s := by
  unfold flashRead32
  rw [h]

theorem flashWrite32_external {x w : Word} {s : State} (h : s.binding = .external) :
    flashWrite32 x w s = externalFlashWrite32 x w s := by
  unfold flashWrite32
  rw [h]

/-- An access of the flash window leaves the system memory alone. -/
theorem flashLoad_dram (cs : Cs) (addr : Word) (w : Width) (s : State) :
    (flashLoad cs addr w s).2.dram = s.dram := by
  unfold flashLoad
  split
  · rw [framedLoad_snd]; simp
  · rw [framedLoad_snd]; simp
  · rfl
  · show (receiveBytes w.bytes s).2.dram = s.dram
    rw [receiveBytes_eq]; rfl

theorem flashStore_dram (cs : Cs) (addr : Word) (w : Width) (data : Word) (s : State) :
    (flashStore cs addr w data s).dram = s.dram := by
  unfold flashStore
  split
  · split
    · rfl
    · rfl
    · rw [framedStore_eq]; simp
    · simp
  · rfl

@[simp] theorem nextDramReply_dram (s : State) : (nextDramReply s).2.dram = s.dram := by
  unfold nextDramReply
  split <;> rfl

@[simp] theorem nextFlashReply_dram (s : State) : (nextFlashReply s).2.dram = s.dram := by
  unfold nextFlashReply
  split <;> rfl

@[simp] theorem flashRead32_dram (x : Word) (s : State) : (flashRead32 x s).2.dram = s.dram := by
  unfold flashRead32
  split
  · unfold externalFlashRead32
    split <;> simp
  · split
    · rfl
    · split
      · rfl
      · exact flashLoad_dram _ _ _ s

@[simp] theorem flashWrite32_dram (x w : Word) (s : State) : (flashWrite32 x w s).2.dram = s.dram := by
  unfold flashWrite32
  split
  · unfold externalFlashWrite32
    split <;> simp
  · split
    · rfl
    · split
      · rfl
      · exact flashStore_dram _ _ _ _ s

@[simp] theorem dramRead32_dram (a : Word) (s : State) : (dramRead32 a s).2.dram = s.dram := by
  unfold dramRead32
  split
  · rfl
  · simp only
    cases (nextDramReply s).1 <;> simp

/-- A write of the DRAM side changes the system memory only by the word stored, when it answers `Ok`. -/
theorem dramWrite32_dram (a w : Word) (s : State) :
    (dramWrite32 a w s).2.dram
      = if (dramWrite32 a w s).1 then s.dram.writeWord a.toNat w else s.dram := by
  unfold dramWrite32
  split
  · rfl
  · have h := nextDramReply_dram s
    rcases hn : nextDramReply s with ⟨r, u⟩
    rw [hn] at h
    cases r with
    | fail => simpa using h
    | plain => simp
    | word _ => simp

/-- A property that every step of a loop keeps holds after the loop. -/
theorem dmaLoop_keeps {body : State → Bool × State} (P : State → Prop)
    (h : ∀ s, P s → P (body s).2) (n : Nat) (s : State) (hs : P s) : P (dmaLoop body n s).2 := by
  induction n generalizing s with
  | zero => exact hs
  | succ n ih =>
    simp only [dmaLoop]
    split
    · exact ih _ (h s hs)
    · exact h s hs

/-- What a step of the checksum loop does: the cursors move together, or not at all (R178, R187). -/
theorem checksumStep_cases (s : State) :
    ((checksumStep s).1 = true ∧ ∃ w, (flashRead32 s.dmaFlashAddr s).1 = some w ∧
      (checksumStep s).2 = checksumAdvance w (flashRead32 s.dmaFlashAddr s).2) ∨
    ((checksumStep s).1 = false ∧ (flashRead32 s.dmaFlashAddr s).1 = none ∧
      (checksumStep s).2 = addLog [.dmaFlashReadFail s.dmaFlashAddr] (flashRead32 s.dmaFlashAddr s).2) := by
  unfold checksumStep
  rcases flashRead32 s.dmaFlashAddr s with ⟨_ | w, u⟩ <;> simp

/-- What a step of a transfer to DRAM does (R179, R187). -/
theorem readStep_cases (s : State) :
    ((readStep s).1 = true ∧ ∃ w, (flashRead32 s.dmaFlashAddr s).1 = some w ∧
      (dramWrite32 s.dmaDramAddr w (flashRead32 s.dmaFlashAddr s).2).1 = true ∧
      (readStep s).2 = transferAdvance w (dramWrite32 s.dmaDramAddr w (flashRead32 s.dmaFlashAddr s).2).2) ∨
    ((readStep s).1 = false ∧ ∃ w, (flashRead32 s.dmaFlashAddr s).1 = some w ∧
      (dramWrite32 s.dmaDramAddr w (flashRead32 s.dmaFlashAddr s).2).1 = false ∧
      (readStep s).2 = addLog [.dmaDramWriteFail s.dmaDramAddr]
        (dramWrite32 s.dmaDramAddr w (flashRead32 s.dmaFlashAddr s).2).2) ∨
    ((readStep s).1 = false ∧ (flashRead32 s.dmaFlashAddr s).1 = none ∧
      (readStep s).2 = addLog [.dmaFlashReadFail s.dmaFlashAddr] (flashRead32 s.dmaFlashAddr s).2) := by
  unfold readStep
  rcases flashRead32 s.dmaFlashAddr s with ⟨_ | w, u⟩
  · simp
  · rcases hd : dramWrite32 s.dmaDramAddr w u with ⟨_ | _, x⟩ <;> simp [hd]

/-- What a step of a transfer to flash does (R179, R187). -/
theorem writeStep_cases (s : State) :
    ((writeStep s).1 = true ∧ ∃ w, (dramRead32 s.dmaDramAddr s).1 = some w ∧
      (flashWrite32 s.dmaFlashAddr w (dramRead32 s.dmaDramAddr s).2).1 = true ∧
      (writeStep s).2 = transferAdvance w (flashWrite32 s.dmaFlashAddr w (dramRead32 s.dmaDramAddr s).2).2) ∨
    ((writeStep s).1 = false ∧ ∃ w, (dramRead32 s.dmaDramAddr s).1 = some w ∧
      (flashWrite32 s.dmaFlashAddr w (dramRead32 s.dmaDramAddr s).2).1 = false ∧
      (writeStep s).2 = addLog [.dmaFlashWriteFail s.dmaFlashAddr]
        (flashWrite32 s.dmaFlashAddr w (dramRead32 s.dmaDramAddr s).2).2) ∨
    ((writeStep s).1 = false ∧ (dramRead32 s.dmaDramAddr s).1 = none ∧
      (writeStep s).2 = addLog [.dmaDramReadFail s.dmaDramAddr] (dramRead32 s.dmaDramAddr s).2) := by
  unfold writeStep
  rcases dramRead32 s.dmaDramAddr s with ⟨_ | w, u⟩
  · simp
  · rcases hd : flashWrite32 s.dmaFlashAddr w u with ⟨_ | _, x⟩ <;> simp [hd]

theorem checksumStep_touches (s : State) : DmaTouches s (checksumStep s).2 := by
  have h := (flashRead32_touches s.dmaFlashAddr s).dma
  rcases checksumStep_cases s with ⟨-, w, -, e⟩ | ⟨-, -, e⟩ <;> rw [e]
  · exact h.trans rfl
  · exact h.trans rfl

theorem readStep_touches (s : State) : DmaTouches s (readStep s).2 := by
  have h := (flashRead32_touches s.dmaFlashAddr s).dma
  rcases readStep_cases s with ⟨-, w, -, -, e⟩ | ⟨-, w, -, -, e⟩ | ⟨-, -, e⟩ <;> rw [e]
  · exact (h.trans (dramWrite32_touches _ w _).dma).trans rfl
  · exact (h.trans (dramWrite32_touches _ w _).dma).trans rfl
  · exact h.trans rfl

theorem writeStep_touches (s : State) : DmaTouches s (writeStep s).2 := by
  have h := (dramRead32_touches s.dmaDramAddr s).dma
  rcases writeStep_cases s with ⟨-, w, -, -, e⟩ | ⟨-, w, -, -, e⟩ | ⟨-, -, e⟩ <;> rw [e]
  · exact (h.trans (flashWrite32_touches _ w _).dma).trans rfl
  · exact (h.trans (flashWrite32_touches _ w _).dma).trans rfl
  · exact h.trans rfl

theorem dmaLoop_touches {body : State → Bool × State} (h : ∀ s, DmaTouches s (body s).2) (n : Nat)
    (s : State) : DmaTouches s (dmaLoop body n s).2 :=
  dmaLoop_keeps (fun t => DmaTouches s t) (fun t ht => ht.trans (h t)) n s (DmaTouches.refl s)

theorem injectFailure_touches (s : State) : DmaTouches s (injectFailure s) := by
  unfold injectFailure
  split <;> rfl

/-- All that a checksum DMA can touch between its store and its completion. -/
theorem checksumRun_touches (s : State) : DmaTouches s (checksumRun s) := by
  unfold checksumRun
  have h := dmaLoop_touches checksumStep_touches (dmaSteps s) s
  simp only
  split
  · exact h.trans (injectFailure_touches _)
  · exact h

/-- All that a transfer can touch between its store and its completion. -/
theorem transferRun_touches (s : State) : DmaTouches s (transferRun s) := by
  unfold transferRun
  split
  · exact dmaLoop_touches writeStep_touches _ s
  · exact dmaLoop_touches readStep_touches _ s

/-- Calibration touches TIMINGS and CTRL0 only (R180). -/
theorem calibrate_eq (s : State) :
    calibrate s =
      { s with
        timings :=
          if ratio (freqField s.dmaCtrl) ≤ calibTunableRatios then
            setDelay s.timings (ratio (freqField s.dmaCtrl)) (delayField s.dmaCtrl)
          else s.timings
        ctrl := s.ctrl.set .cs0 (setClkFreq (s.ctrl.get .cs0) (ratio (freqField s.dmaCtrl))) } := by
  unfold calibrate calibrateClock calibrateTimings
  simp only
  split <;> rfl

/-- After `k` steps: DMA_LEN has lost `4 * k`, the flash cursor has gained it, and the DRAM cursor has
gained `c * k`, with `c` 4 in a transfer and 0 in a checksum DMA (R186). -/
structure Moved (c k : Nat) (s t : State) : Prop where
  len : t.dmaLen = s.dmaLen - BitVec.ofNat 32 (4 * k)
  flash : t.dmaFlashAddr = s.dmaFlashAddr + BitVec.ofNat 32 (4 * k)
  dram : t.dmaDramAddr = s.dmaDramAddr + BitVec.ofNat 32 (c * k)

theorem Moved.refl (c : Nat) (s : State) : Moved c 0 s s := by
  constructor <;> simp

theorem Moved.trans {c k n : Nat} {s t u : State} (h : Moved c k s t) (g : Moved c n t u) :
    Moved c (k + n) s u := by
  obtain ⟨a, b, d⟩ := h
  obtain ⟨a', b', d'⟩ := g
  constructor
  · rw [a', a, Nat.mul_add, BitVec.ofNat_add]
    ring
  · rw [b', b, Nat.mul_add, BitVec.ofNat_add]
    ring
  · rw [d', d, Nat.mul_add, BitVec.ofNat_add]
    ring

/-- An access of one of the two sides moves no cursor. -/
theorem SideTouches.moved {s t : State} (h : SideTouches s t) (c : Nat) : Moved c 0 s t := by
  unfold SideTouches at h
  constructor <;> (rw [h]; simp)

theorem checksumStep_moved (s : State) : Moved 0 (if (checksumStep s).1 then 1 else 0) s (checksumStep s).2 := by
  have h := flashRead32_touches s.dmaFlashAddr s
  rcases checksumStep_cases s with ⟨e1, w, -, e⟩ | ⟨e1, -, e⟩ <;> rw [e1, e]
  · exact (h.moved 0).trans (k := 0) (n := 1) ⟨rfl, rfl, by simp [checksumAdvance]⟩
  · exact (h.trans (addLog_touches _ _)).moved 0

theorem readStep_moved (s : State) : Moved 4 (if (readStep s).1 then 1 else 0) s (readStep s).2 := by
  have h := flashRead32_touches s.dmaFlashAddr s
  rcases readStep_cases s with ⟨e1, w, -, -, e⟩ | ⟨e1, w, -, -, e⟩ | ⟨e1, -, e⟩ <;> rw [e1, e]
  · exact ((h.trans (dramWrite32_touches _ w _)).moved 4).trans (k := 0) (n := 1) ⟨rfl, rfl, rfl⟩
  · exact ((h.trans (dramWrite32_touches _ w _)).trans (addLog_touches _ _)).moved 4
  · exact (h.trans (addLog_touches _ _)).moved 4

theorem writeStep_moved (s : State) : Moved 4 (if (writeStep s).1 then 1 else 0) s (writeStep s).2 := by
  have h := dramRead32_touches s.dmaDramAddr s
  rcases writeStep_cases s with ⟨e1, w, -, -, e⟩ | ⟨e1, w, -, -, e⟩ | ⟨e1, -, e⟩ <;> rw [e1, e]
  · exact ((h.trans (flashWrite32_touches _ w _)).moved 4).trans (k := 0) (n := 1) ⟨rfl, rfl, rfl⟩
  · exact ((h.trans (flashWrite32_touches _ w _)).trans (addLog_touches _ _)).moved 4
  · exact (h.trans (addLog_touches _ _)).moved 4

/-- What a loop does to the cursors: it makes some number of steps, all of them unless it stopped early
(R178, R179, R186, R187). -/
theorem dmaLoop_moved {body : State → Bool × State} {c : Nat}
    (h : ∀ s, Moved c (if (body s).1 then 1 else 0) s (body s).2) (n : Nat) (s : State) :
    ∃ k, k ≤ n ∧ ((dmaLoop body n s).1 = true → k = n) ∧ Moved c k s (dmaLoop body n s).2 := by
  induction n generalizing s with
  | zero => exact ⟨0, le_rfl, fun _ => rfl, Moved.refl c s⟩
  | succ n ih =>
    have hb := h s
    simp only [dmaLoop]
    cases hs : (body s).1
    · rw [hs] at hb
      exact ⟨0, Nat.zero_le _, fun e => absurd e (by simp), hb⟩
    · rw [hs] at hb
      obtain ⟨k, hk, ht, hm⟩ := ih (body s).2
      refine ⟨1 + k, by omega, fun e => ?_, hb.trans hm⟩
      have := ht e
      omega

theorem injectFailure_moved (s : State) (c : Nat) : Moved c 0 s (injectFailure s) := by
  unfold injectFailure
  constructor <;> (split <;> simp)

/-- What a checksum DMA does to the cursors. -/
theorem checksumRun_moved (s : State) : ∃ k, k ≤ dmaSteps s ∧ Moved 0 k s (checksumRun s) := by
  obtain ⟨k, hk, -, hm⟩ := dmaLoop_moved checksumStep_moved (dmaSteps s) s
  refine ⟨k, hk, ?_⟩
  unfold checksumRun
  simp only
  split
  · exact hm.trans (injectFailure_moved _ 0)
  · exact hm

/-- What a transfer does to the cursors. -/
theorem transferRun_moved (s : State) : ∃ k, k ≤ dmaSteps s ∧ Moved 4 k s (transferRun s) := by
  unfold transferRun
  split
  · obtain ⟨k, hk, -, hm⟩ := dmaLoop_moved writeStep_moved (dmaSteps s) s
    exact ⟨k, hk, hm⟩
  · obtain ⟨k, hk, -, hm⟩ := dmaLoop_moved readStep_moved (dmaSteps s) s
    exact ⟨k, hk, hm⟩

/-- A DRAM write that is answered `Ok` (R59). -/
theorem dramWrite32_plain {a w : Word} {s : State} {more : List DramReply} (ha : a.toNat % 4 = 0) (hr : s.dramReplies = .plain :: more) :
  dramWrite32 a w s = (true, { s with dramReplies := more, dram := s.dram.writeWord a.toNat w, bus := s.bus ++ [.dramWrite a w true] }) := by
  simp only [dramWrite32, ha, ne_eq, not_true, if_false, nextDramReply, hr]; rfl
theorem dramRead32_plain {a : Word} {s : State} {more : List DramReply} (ha : a.toNat % 4 = 0) (hr : s.dramReplies = .plain :: more) :
  dramRead32 a s = (some (s.dram.readWord a.toNat), { s with dramReplies := more, bus := s.bus ++ [.dramRead a (some (s.dram.readWord a.toNat))] }) := by
  simp only [dramRead32, ha, ne_eq, not_true, if_false, nextDramReply, hr]; rfl
theorem flashWrite32_external_reply {s : State} {x w : Word} {r : Option Word} {more : List (Option Word)} (hb : s.binding = .external) (ha : x.toNat % 4 = 0) (hr : s.flashReplies = r :: more) :
  flashWrite32 x w s = (r.isSome, { s with flashReplies := more, bus := s.bus ++ [.flashWrite x w r.isSome] }) := by
  rw [flashWrite32_external hb]
  simp only [externalFlashWrite32, ha, ne_eq, not_true, if_false, nextFlashReply, hr]; rfl

end Sys2Proof.Machine
end

