-- ==== Sys2Proof/Laws/Calibration.lean ====
section
/-! SUPPORT. The DMA and the framer do not read what calibration writes: the same run on a state with other
TIMINGS, another CLK_FREQ and another control value of the same setting. -/

namespace Sys2Proof.Machine

/-- A state with the registers that calibration writes, and DMA_CTRL, replaced. -/
def withTuning (c : Slots Word) (x d : Word) (s : State) : State := { s with ctrl := c, timings := x, dmaCtrl := d }

/-- The framer reads the same MODE, OPCODE and dummy count from these control registers. -/
structure SameView (c : Slots Word) (s : State) : Prop where
  m : ∀ cs, modeField (c.get cs) = modeField (s.ctrl.get cs)
  o : ∀ cs, opcodeField (c.get cs) = opcodeField (s.ctrl.get cs)
  d : ∀ cs, dummyField (c.get cs) = dummyField (s.ctrl.get cs)

/-- A framed load does not see the difference. -/
theorem framedLoad_withTuning (c : Slots Word) (x d : Word) (s : State) (h : SameView c s) (cs : Cs) (a : Word) (w : Width) :
   framedLoad cs a w (withTuning c x d s) = ((framedLoad cs a w s).1, withTuning c x d (framedLoad cs a w s).2) := by
  have hm : (withTuning c x d s).mode cs = s.mode cs := h.m cs
  have ho : frameOpen cs a (withTuning c x d s) = withTuning c x d (frameOpen cs a s) := by
    rw [frameOpen_eq, frameOpen_eq]
    have e1 : frameHead cs a (withTuning c x d s) = frameHead cs a s := by
      unfold frameHead opcodeByte frameDummies
      have hc : (clampToSegment cs a (withTuning c x d s)).1 = (clampToSegment cs a s).1 := clampToSegment_congr cs a rfl rfl
      rw [hc]
      have : (withTuning c x d s).dummyCount cs = s.dummyCount cs := h.d cs
      rw [hm, this]
      have : opcodeField ((withTuning c x d s).ctrl.get cs) = opcodeField (s.ctrl.get cs) := h.o cs
      rw [this]; rfl
    have e2 : frameEvents cs a (withTuning c x d s) = frameEvents cs a s := by
      unfold frameEvents opcodeEvents
      rw [hm]
      have : opcodeField ((withTuning c x d s).ctrl.get cs) = opcodeField (s.ctrl.get cs) := h.o cs
      rw [this]; rfl
    rw [e1, e2, driveLine_eq, driveLine_eq]; rfl
  unfold framedLoad frameClose
  rw [ho]
  simp only [receiveBytes_eq, driveLine_eq]; rfl

theorem flashLoad_withTuning (c : Slots Word) (x d : Word) (s : State) (h : SameView c s) (cs : Cs) (a : Word) (w : Width) :
   flashLoad cs a w (withTuning c x d s) = ((flashLoad cs a w s).1, withTuning c x d (flashLoad cs a w s).2) := by
  have hm : (withTuning c x d s).mode cs = s.mode cs := h.m cs
  unfold flashLoad
  rw [hm]
  split
  · exact framedLoad_withTuning c x d s h cs a w
  · exact framedLoad_withTuning c x d s h cs a w
  · rfl
  · unfold userLoad; simp only [receiveBytes_eq]; rfl

theorem nextFlashReply_withTuning (c : Slots Word) (x d : Word) (s : State) : nextFlashReply (withTuning c x d s) = ((nextFlashReply s).1, withTuning c x d (nextFlashReply s).2) := by
  unfold nextFlashReply
  have : (withTuning c x d s).flashReplies = s.flashReplies := rfl
  rw [this]; split <;> rfl

theorem flashRead32_withTuning (c : Slots Word) (x d : Word) (s : State) (h : SameView c s) (a : Word) :
   flashRead32 a (withTuning c x d s) = ((flashRead32 a s).1, withTuning c x d (flashRead32 a s).2) := by
  unfold flashRead32
  have : (withTuning c x d s).binding = s.binding := rfl
  rw [this]
  split
  · unfold externalFlashRead32
    split
    · rfl
    · simp only [nextFlashReply_withTuning]; rfl
  · split
    · rfl
    · have : route (withTuning c x d s) ((withTuning c x d s).variant.winBase + a.toNat) 4 = route s (s.variant.winBase + a.toNat) 4 := rfl
      rw [this]
      split
      · rfl
      · simp only [flashLoad_withTuning c x d s h]

theorem SameView.of_touch {c : Slots Word} {s t : State} (h : SameView c s) (ht : DmaTouches s t) : SameView c t := by
  unfold DmaTouches at ht
  rw [ht]; exact ⟨h.m, h.o, h.d⟩

theorem checksumStep_withTuning (c : Slots Word) (x d : Word) (s : State) (h : SameView c s) : checksumStep (withTuning c x d s) = ((checksumStep s).1, withTuning c x d (checksumStep s).2) := by
  unfold checksumStep
  have : (withTuning c x d s).dmaFlashAddr = s.dmaFlashAddr := rfl
  rw [this, flashRead32_withTuning c x d s h]
  rcases flashRead32 s.dmaFlashAddr s with ⟨_ | w, u⟩ <;> rfl

theorem checksumLoop_withTuning (c : Slots Word) (x d : Word) (n : Nat) (s : State) (h : SameView c s) : dmaLoop checksumStep n (withTuning c x d s) = ((dmaLoop checksumStep n s).1, withTuning c x d (dmaLoop checksumStep n s).2) := by
  induction n generalizing s with
  | zero => rfl
  | succ n ih =>
    simp only [dmaLoop, checksumStep_withTuning c x d s h]
    cases (checksumStep s).1
    · rfl
    · simp only [if_true]; exact ih _ (h.of_touch (checksumStep_touches s))

/-- A checksum run does not see the difference where the setting is the same. -/
theorem checksumRun_withTuning (c : Slots Word) (x d : Word) (s : State) (h : SameView c s) (hf : freqField d = freqField s.dmaCtrl) (hd : delayField d = delayField s.dmaCtrl) : checksumRun (withTuning c x d s) = withTuning c x d (checksumRun s) := by
  unfold checksumRun
  have : dmaSteps (withTuning c x d s) = dmaSteps s := rfl
  rw [this]
  simp only [checksumLoop_withTuning c x d _ s h]
  cases (dmaLoop checksumStep (dmaSteps s) s).1
  · rfl
  · simp only [if_true]
    have ht := dmaLoop_touches checksumStep_touches (dmaSteps s) s
    generalize (dmaLoop checksumStep (dmaSteps s) s).2 = t at *
    have e : t.dmaCtrl = s.dmaCtrl := by rw [ht]
    unfold injectFailure
    have e1 : (withTuning c x d t).variant = t.variant := rfl
    have e2 : (withTuning c x d t).dmaCtrl = d := rfl
    rw [e1, e2, e, hf, hd]
    split <;> rfl

theorem framedStore_withTuning (c : Slots Word) (x d : Word) (s : State) (h : SameView c s) (cs : Cs) (a : Word) (w : Width) (dt : Word) :
   framedStore cs a w dt (withTuning c x d s) = withTuning c x d (framedStore cs a w dt s) := by
  have hm : (withTuning c x d s).mode cs = s.mode cs := h.m cs
  rw [framedStore_eq, framedStore_eq]
  have e1 : frameHead cs a (withTuning c x d s) = frameHead cs a s := by
      unfold frameHead opcodeByte frameDummies
      have hc : (clampToSegment cs a (withTuning c x d s)).1 = (clampToSegment cs a s).1 := clampToSegment_congr cs a rfl rfl
      rw [hc]
      have : (withTuning c x d s).dummyCount cs = s.dummyCount cs := h.d cs
      rw [hm, this]
      have : opcodeField ((withTuning c x d s).ctrl.get cs) = opcodeField (s.ctrl.get cs) := h.o cs
      rw [this]; rfl
  have e2 : frameEvents cs a (withTuning c x d s) = frameEvents cs a s := by
      unfold frameEvents opcodeEvents
      rw [hm]
      have : opcodeField ((withTuning c x d s).ctrl.get cs) = opcodeField (s.ctrl.get cs) := h.o cs
      rw [this]; rfl
  rw [e1, e2]
  simp only [driveLine_eq]; rfl

theorem userByte_withTuning (c : Slots Word) (x d : Word) (s : State) (cs : Cs) (b : Byte) : userByte cs b (withTuning c x d s) = withTuning c x d (userByte cs b s) := by
  rw [userByte_eq, userByte_eq]; rfl
theorem userBytes_withTuning (c : Slots Word) (x d : Word) (s : State) (cs : Cs) (l : List Byte) : userBytes cs l (withTuning c x d s) = withTuning c x d (userBytes cs l s) := by
  induction l generalizing s with
  | nil => rfl
  | cons b l ih => simp only [userBytes]; rw [userByte_withTuning, ih]

theorem flashStore_withTuning (c : Slots Word) (x d : Word) (s : State) (h : SameView c s) (cs : Cs) (a : Word) (w : Width) (dt : Word) :
   flashStore cs a w dt (withTuning c x d s) = withTuning c x d (flashStore cs a w dt s) := by
  have hm : (withTuning c x d s).mode cs = s.mode cs := h.m cs
  have hw : (withTuning c x d s).writable cs = s.writable cs := rfl
  unfold flashStore
  rw [hm, hw]
  split
  · split
    · rfl
    · rfl
    · exact framedStore_withTuning c x d s h cs a w dt
    · exact userBytes_withTuning c x d s cs _
  · rfl

theorem SameView.self (s : State) : SameView s.ctrl s := ⟨fun _ => rfl, fun _ => rfl, fun _ => rfl⟩

/-- The CLK_FREQ field is none of the fields the framer reads (R17, R183). -/
theorem setClkFreq_sameView (s : State) (r : Nat) : SameView (s.ctrl.set .cs0 (setClkFreq (s.ctrl.get .cs0) r)) s := by
  have hb : ∀ (x : Word) (i : Nat), (i < 8 ∨ 12 ≤ i) → (setClkFreq x r).getLsbD i = x.getLsbD i := by
    intro x i hi
    unfold setClkFreq
    simp only [BitVec.getLsbD_or, BitVec.getLsbD_and, BitVec.getLsbD_not, BitVec.getLsbD_shiftLeft, BitVec.getLsbD_ofNat]
    by_cases h32 : i < 32
    · have hm : Nat.testBit 3840 i = false := by
        interval_cases i <;> first | rfl | omega
      rcases hi with hi | hi
      · simp [hm, h32, hi]
      · have : Nat.testBit (r % 16) (i - 8) = false := Nat.testBit_lt_two_pow (lt_of_lt_of_le (Nat.mod_lt r (by norm_num)) (by
            calc 16 = 2 ^ 4 := by norm_num
              _ ≤ 2 ^ (i - 8) := Nat.pow_le_pow_right (by norm_num) (by omega)))
        simp [hm, h32, this]
    · simp [h32]; exact (BitVec.getLsbD_of_ge x i (by omega)).symm ▸ rfl
  have hx : ∀ (x : Word) (i n : Nat), (i + n ≤ 8 ∨ 12 ≤ i) → (setClkFreq x r).extractLsb' i n = x.extractLsb' i n := by
    intro x i n hi
    apply BitVec.eq_of_getLsbD_eq
    intro j hj
    simp only [BitVec.getLsbD_extractLsb', hb _ (i + j) (by omega)]
  have key : ∀ cs, ∀ i n, (i + n ≤ 8 ∨ 12 ≤ i) → ((s.ctrl.set .cs0 (setClkFreq (s.ctrl.get .cs0) r)).get cs).extractLsb' i n = (s.ctrl.get cs).extractLsb' i n := by
    intro cs i n hi
    rw [Slots.get_set]; split
    · next h => rw [h]; exact hx _ _ _ hi
    · rfl
  refine ⟨fun cs => ?_, fun cs => ?_, fun cs => ?_⟩
  · unfold modeField; rw [key _ _ _ (by omega)]
  · unfold opcodeField; rw [key _ _ _ (by omega)]
  · unfold dummyField; rw [key _ _ _ (by omega), key _ _ _ (by omega)]

/-- A field that starts above the four mode bits is a field of the operand (R64). -/
theorem dmaStartValue_field (calib cksum wr : Bool) (up : BitVec 28) (k n : Nat) :
    (dmaStartValue calib cksum wr up).extractLsb' (4 + k) n = up.extractLsb' k n := by
  ext j hj
  rw [BitVec.getElem_extractLsb', BitVec.getElem_extractLsb',
    getLsbD_dmaStartValue_upper _ _ _ _ (show 4 ≤ 4 + k + j by omega), Nat.add_assoc, Nat.add_sub_cancel_left]

/-- FREQ and DELAY come from the upper bits of the value (R181). -/
theorem dmaStartValue_setting (a b c a' b' c' : Bool) (up : BitVec 28) :
    freqField (dmaStartValue a b c up) = freqField (dmaStartValue a' b' c' up) ∧
      delayField (dmaStartValue a b c up) = delayField (dmaStartValue a' b' c' up) :=
  ⟨(dmaStartValue_field a b c up 0 4).trans (dmaStartValue_field a' b' c' up 0 4).symm,
    (dmaStartValue_field a b c up 4 4).trans (dmaStartValue_field a' b' c' up 4 4).symm⟩

end Sys2Proof.Machine
end

