-- ==== Sys2Proof/Laws/Dispatch.lean ====
section
/-! SUPPORT. The rows by their shared operations: which operation a selected row runs, and how a request
reaches it. -/

namespace Sys2Proof.Machine

/-- A load row of a mode (R63). -/
theorem exec_loadRow (m : Mode) (cs : Cs) (addr : Word) (w : Width) (s : State) :
    exec (loadRow m cs addr w) s = loadInMode m cs addr w s := by
  cases m <;> rfl

/-- A store row of a mode (R63). -/
theorem exec_storeRow (m : Mode) (cs : Cs) (addr : Word) (w : Width) (data : Word) (s : State) :
    exec (storeRow m cs addr w data) s = storeInMode m cs addr w data s := by
  cases m <;> rfl

/-- The SNOOP row of a byte stores that byte (R65). -/
theorem exec_snoopRow (cs : Cs) (addr : Word) (b : Byte) (s : State) :
    exec (snoopRow cs addr b) s = snoopRowStore cs addr b s := by
  unfold snoopRow
  split <;>
    first
    | rfl
    | (simp only [exec, execSnoopPlainRead, execSnoopPlainRead4, execSnoopPlainPp, execSnoopPlainPp4,
        execSnoopPlainDpp, execSnoopPlainQpp, execSnoopPlainQpp4, execSnoopPlainPp44, execSnoopFastFastRead,
        execSnoopFastFastRead4, execSnoopFastDor, execSnoopFastDor4, execSnoopFastQor, execSnoopFastQor4,
        execSnoopDualDior, execSnoopDualDior4, execSnoopQuadQior, execSnoopQuadQior4]
       congr 1
       apply BitVec.eq_of_toNat_eq
       rename_i h
       rw [h]
       rfl)

/-- A row whose chip-select and mode are those of the state runs. -/
theorem inMode_next {cs : Cs} {m : Mode} {s : State} (hh : s.variant.has cs = true) (hm : s.mode cs = m)
    (t : State) : inMode cs m s t = .next t := by
  unfold inMode
  rw [if_neg (by simp [hh]), if_neg (by simp [hm])]

/-- A row that runs gives the state its body gives. -/
theorem inMode_of_next {cs : Cs} {m : Mode} {s t u : State} (h : inMode cs m s u = .next t) :
    s.variant.has cs = true ∧ s.mode cs = m ∧ t = u := by
  unfold inMode at h
  split_ifs at h with h1 h2
  injection h with h
  exact ⟨by simpa using h1, by simpa using h2, h.symm⟩

/-- A register row that is the variant's (R76). -/
theorem readIf_present {r : Reg} {s : State} (h : regRecognised s.variant r = true) (w : Width) (x : Word) :
    readIf r w x s = .next (returnValue w x s) := by
  simp [readIf, h]

theorem readIf_absent {r : Reg} {s : State} (h : regRecognised s.variant r = false) (w : Width) (x : Word) :
    readIf r w x s = .next (unrecognisedRead (busOffset s r) w s) := by
  simp [readIf, h]

theorem writeIf_present {r : Reg} {s : State} (h : regRecognised s.variant r = true) (x : Word) (t : State) :
    writeIf r x s t = .next (returnNone t) := by
  simp [writeIf, h]

theorem writeIf_absent {r : Reg} {s : State} (h : regRecognised s.variant r = false) (x : Word) (t : State) :
    writeIf r x s t = .next (unrecognisedWrite (busOffset s r) x s) := by
  simp [writeIf, h]

@[simp] theorem widthOfNat_bytes (w : Width) : widthOfNat w.bytes = some w := by cases w <;> rfl

theorem widthOfNat_some {n : Nat} {w : Width} (h : widthOfNat n = some w) : w.bytes = n := by
  unfold widthOfNat at h
  split at h <;> first
    | (cases h; rfl)
    | cases h

theorem widthOfNat_none {n : Nat} (h : n = 0 ∨ 4 < n) : widthOfNat n = none := by
  unfold widthOfNat
  split <;> first
    | omega
    | rfl

/-- A register access in the contract is the row its offset selects (R106). -/
theorem fetchRegister_read (v : Variant) (off : Nat) (w : Width) (data : Word) (h4 : off % 4 = 0)
    (h : off < 0x100) :
    fetchRegister v .read off w.bytes data
      = .operation (readRow (BitVec.ofNat 8 off) w (regAt v off)) := by
  have ht : (BitVec.ofNat 8 off).toNat = off := by
    simp
    omega
  have hs : ¬ regSpaceBytes ≤ off := by
    unfold regSpaceBytes
    omega
  simp only [fetchRegister, widthOfNat_bytes]
  rw [if_neg hs, if_neg (by simp [h4])]
  simp only [fetchFrame, frameData]
  rw [decode_regRead _ _ _ (by rw [ht]; exact h4), ht]

theorem fetchRegister_write (v : Variant) (off : Nat) (w : Width) (data : Word) (h4 : off % 4 = 0)
    (h : off < 0x100) :
    fetchRegister v .write off w.bytes data
      = .operation (writeRow (BitVec.ofNat 8 off) w data (regAt v off)) := by
  have ht : (BitVec.ofNat 8 off).toNat = off := by
    simp
    omega
  have hs : ¬ regSpaceBytes ≤ off := by
    unfold regSpaceBytes
    omega
  simp only [fetchRegister, widthOfNat_bytes]
  rw [if_neg hs, if_neg (by simp [h4])]
  simp only [fetchFrame, frameData]
  rw [decode_regWrite _ _ _ _ (by rw [ht]; exact h4), ht]

/-- A window access that the routing delivers is the row of the MODE field (R130, R140). -/
theorem fetchWindow_read {s : State} {a : Nat} {w : Width} {cs : Cs} {addr : Word}
    (hr : route s a w.bytes = some (cs, addr)) (hh : s.variant.has cs = true) (data : Word) :
    fetchWindow s .read a w.bytes data = .operation (loadRow (s.mode cs) cs addr w) := by
  simp only [fetchWindow, widthOfNat_bytes, hr, fetchFrame, frameData]
  rw [decode_flashLoad _ _ _ _ _ hh]

theorem fetchWindow_write {s : State} {a : Nat} {w : Width} {cs : Cs} {addr : Word}
    (hr : route s a w.bytes = some (cs, addr)) (hh : s.variant.has cs = true) (data : Word) :
    fetchWindow s .write a w.bytes data = .operation (storeRow (s.mode cs) cs addr w data) := by
  simp only [fetchWindow, widthOfNat_bytes, hr, fetchFrame, frameData]
  rw [decode_flashStore _ _ _ _ _ _ hh]

/-- A window access that the routing does not deliver (R131). -/
theorem fetchWindow_none {s : State} {a : Nat} {w : Width} (hr : route s a w.bytes = none) (dir : Dir)
    (data : Word) : fetchWindow s dir a w.bytes data = .refused .notDelivered := by
  simp only [fetchWindow, widthOfNat_bytes, hr]

/-- The step on a waiting request. -/
theorem step_cons {s : State} {r : Request} {rest : List Request} (h : s.pending = r :: rest) :
    step s = serve (fetch r s) s.popRequest := by
  simp [step, h]

end Sys2Proof.Machine
end

