-- ==== Sys2Proof/Laws/Memory.lean ====
section
/-! SUPPORT. The laws of the system memory: every operation keeps the canonical form, and a read after a
write gives the byte written at its address and the old byte elsewhere. -/

namespace Sys2Proof.Machine

theorem Memory.wfAbove_cons {lo : Option Nat} {k : Nat} {b : Byte} {m : Memory} :
    Memory.wfAbove lo ((k, b) :: m) = true ↔
      b ≠ unlistedByte ∧ (∀ l, lo = some l → l < k) ∧ Memory.wfAbove (some k) m = true := by
  cases lo <;> simp [Memory.wfAbove, and_assoc]

/-- A lower bound may be lowered. -/
theorem Memory.wfAbove_weaken {lo lo' : Option Nat} {m : Memory} (h : Memory.wfAbove lo m = true)
    (hlo : ∀ l', lo' = some l' → ∃ l, lo = some l ∧ l' ≤ l) : Memory.wfAbove lo' m = true := by
  cases m with
  | nil => rfl
  | cons e m =>
    obtain ⟨k, b⟩ := e
    rw [Memory.wfAbove_cons] at h ⊢
    refine ⟨h.1, ?_, h.2.2⟩
    intro l' hl'
    obtain ⟨l, hl, hle⟩ := hlo l' hl'
    exact lt_of_le_of_lt hle (h.2.1 l hl)

/-- Nothing is listed at or below the bound. -/
theorem Memory.readByte_below {m : Memory} {l a : Nat} (h : Memory.wfAbove (some l) m = true)
    (ha : a ≤ l) : m.readByte a = unlistedByte := by
  induction m generalizing l with
  | nil => rfl
  | cons e m ih =>
    obtain ⟨k, b⟩ := e
    rw [Memory.wfAbove_cons] at h
    have hk := h.2.1 l rfl
    have hne : ¬ k = a := by omega
    simp only [Memory.readByte, if_neg hne]
    exact ih h.2.2 (by omega)

/-- A byte write keeps the canonical form. -/
theorem Memory.writeByte_wfAbove {m : Memory} {lo : Option Nat} {a : Nat} {b : Byte}
    (h : Memory.wfAbove lo m = true) (ha : ∀ l, lo = some l → l < a) :
    Memory.wfAbove lo (m.writeByte a b) = true := by
  induction m generalizing lo with
  | nil =>
    by_cases hb : b = unlistedByte
    · simp [Memory.writeByte, hb, Memory.wfAbove]
    · simp only [Memory.writeByte, if_neg hb, Memory.wfAbove_cons]
      exact ⟨hb, ha, rfl⟩
  | cons e m ih =>
    obtain ⟨k, c⟩ := e
    have hc := Memory.wfAbove_cons.mp h
    unfold Memory.writeByte
    split
    · next hlt =>
      split
      · exact h
      · next hb =>
        refine Memory.wfAbove_cons.mpr ⟨hb, ha, Memory.wfAbove_cons.mpr ⟨hc.1, ?_, hc.2.2⟩⟩
        rintro l ⟨⟩
        exact hlt
    · split
      · next heq =>
        subst heq
        split
        · refine Memory.wfAbove_weaken hc.2.2 fun l' hl' => ⟨a, rfl, ?_⟩
          exact le_of_lt (ha l' hl')
        · next hb => exact Memory.wfAbove_cons.mpr ⟨hb, ha, hc.2.2⟩
      · next h1 h2 =>
        refine Memory.wfAbove_cons.mpr ⟨hc.1, hc.2.1, ih hc.2.2 ?_⟩
        rintro l ⟨⟩
        omega

theorem Memory.writeByte_wf {m : Memory} (a : Nat) (b : Byte) (h : m.wf = true) :
    (m.writeByte a b).wf = true :=
  Memory.writeByte_wfAbove h (by simp)

/-- A word write keeps the canonical form. -/
theorem Memory.writeWord_wf {m : Memory} (a : Nat) (w : Word) (h : m.wf = true) :
    (m.writeWord a w).wf = true :=
  Memory.writeByte_wf _ _ (Memory.writeByte_wf _ _ (Memory.writeByte_wf _ _ (Memory.writeByte_wf _ _ h)))

/-- The memory that lists nothing is canonical. -/
theorem Memory.wf_nil : Memory.wf [] = true := rfl

theorem Memory.readByte_writeByte_above {m : Memory} {lo : Option Nat} {a a' : Nat} {b : Byte}
    (h : Memory.wfAbove lo m = true) :
    (m.writeByte a b).readByte a' = if a' = a then b else m.readByte a' := by
  induction m generalizing lo with
  | nil =>
    by_cases hb : b = unlistedByte
    · simp [Memory.writeByte, hb, Memory.readByte]
    · by_cases ha : a' = a
      · simp [Memory.writeByte, hb, Memory.readByte, ha]
      · simp [Memory.writeByte, hb, Memory.readByte, ha, Ne.symm ha]
  | cons e m ih =>
    obtain ⟨k, c⟩ := e
    have hc := Memory.wfAbove_cons.mp h
    unfold Memory.writeByte
    split
    · next hlt =>
      by_cases ha : a' = a
      · have hne : ¬ k = a := by omega
        split
        · next hb =>
          subst ha
          simp only [Memory.readByte, if_neg hne, hb]
          exact Memory.readByte_below hc.2.2 (by omega)
        · simp [Memory.readByte, ha]
      · split
        · simp
        · simp [Memory.readByte, Ne.symm ha]
    · split
      · next heq =>
        subst heq
        by_cases ha : a' = a
        · subst ha
          split
          · next hb =>
            simp only [if_true, hb]
            exact Memory.readByte_below hc.2.2 le_rfl
          · simp [Memory.readByte]
        · split
          · simp [Memory.readByte, Ne.symm ha]
          · simp [Memory.readByte, Ne.symm ha]
      · next h1 h2 =>
        by_cases hk : k = a'
        · have ha : ¬ a' = a := by omega
          simp [Memory.readByte, hk, ha]
        · simp only [Memory.readByte, if_neg hk]
          exact ih hc.2.2

/-- A read after a byte write. -/
theorem Memory.readByte_writeByte {m : Memory} (h : m.wf = true) (a a' : Nat) (b : Byte) :
    (m.writeByte a b).readByte a' = if a' = a then b else m.readByte a' :=
  Memory.readByte_writeByte_above h

/-- A word write leaves every byte outside its four alone. -/
theorem Memory.readByte_writeWord_outside {m : Memory} (h : m.wf = true) (a a' : Nat) (w : Word)
    (ho : a' < a ∨ a + 4 ≤ a') : (m.writeWord a w).readByte a' = m.readByte a' := by
  have h0 := Memory.writeByte_wf a (w.extractLsb' 0 8) h
  have h1 := Memory.writeByte_wf (a + 1) (w.extractLsb' 8 8) h0
  have h2 := Memory.writeByte_wf (a + 2) (w.extractLsb' 16 8) h1
  unfold Memory.writeWord
  rw [Memory.readByte_writeByte h2, Memory.readByte_writeByte h1, Memory.readByte_writeByte h0,
    Memory.readByte_writeByte h, if_neg (by omega), if_neg (by omega), if_neg (by omega),
    if_neg (by omega)]

/-- A word read after a word write at the same address (R44). -/
theorem Memory.readWord_writeWord {m : Memory} (h : m.wf = true) (a : Nat) (w : Word) :
    (m.writeWord a w).readWord a = w := by
  have h0 := Memory.writeByte_wf a (w.extractLsb' 0 8) h
  have h1 := Memory.writeByte_wf (a + 1) (w.extractLsb' 8 8) h0
  have h2 := Memory.writeByte_wf (a + 2) (w.extractLsb' 16 8) h1
  unfold Memory.readWord Memory.writeWord
  have n : ∀ i j : Nat, i ≠ j → ¬ a + i = a + j := by omega
  have z : ∀ i : Nat, i ≠ 0 → ¬ a + i = a := by omega
  have z' : ∀ i : Nat, i ≠ 0 → ¬ a = a + i := by omega
  simp only [Memory.readByte_writeByte h2, Memory.readByte_writeByte h1, Memory.readByte_writeByte h0,
    Memory.readByte_writeByte h, if_true, n _ _ (show (2 : Nat) ≠ 3 by decide),
    n _ _ (show (1 : Nat) ≠ 3 by decide), n _ _ (show (1 : Nat) ≠ 2 by decide),
    z' 3 (by decide), z' 2 (by decide), z' 1 (by decide), if_false]
  ext i hi
  simp only [BitVec.getElem_append, BitVec.getElem_extractLsb']
  split
  · simp [BitVec.getLsbD_eq_getElem hi]
  · split
    · rw [← BitVec.getLsbD_eq_getElem hi]
      congr 1
      omega
    · split <;> (rw [← BitVec.getLsbD_eq_getElem hi]; congr 1; omega)

/-- Words stored one behind the other. -/
def Memory.writeWords : Memory → Nat → List Word → Memory
  | m, _, [] => m
  | m, a, w :: ws => Memory.writeWords (m.writeWord a w) (a + 4) ws

theorem Memory.writeWords_wf (m : Memory) (a : Nat) (ws : List Word) (h : m.wf = true) : (Memory.writeWords m a ws).wf = true := by
  induction ws generalizing m a with
  | nil => exact h
  | cons w ws ih => exact ih _ _ (Memory.writeWord_wf a w h)

theorem Memory.readByte_writeWords_outside (m : Memory) (a : Nat) (ws : List Word) (h : m.wf = true) (x : Nat) (hx : x < a ∨ a + 4 * ws.length ≤ x) : (Memory.writeWords m a ws).readByte x = m.readByte x := by
  induction ws generalizing m a with
  | nil => rfl
  | cons w ws ih =>
    simp only [List.length_cons] at hx
    rw [Memory.writeWords, ih _ _ (Memory.writeWord_wf a w h) (by omega), Memory.readByte_writeWord_outside h _ _ _ (by omega)]

theorem Memory.readWord_congr {m n : Memory} {a : Nat} (h : ∀ i, i < 4 → m.readByte (a + i) = n.readByte (a + i)) : m.readWord a = n.readWord a := by
  unfold Memory.readWord
  have h0 := h 0 (by omega); rw [Nat.add_zero] at h0
  rw [h 1 (by omega), h 2 (by omega), h 3 (by omega), h0]

theorem Memory.readWord_writeWords (m : Memory) (a : Nat) (ws : List Word) (h : m.wf = true) (k : Nat) (hk : k < ws.length) : (Memory.writeWords m a ws).readWord (a + 4 * k) = ws[k] := by
  induction ws generalizing m a k with
  | nil => exact absurd hk (by simp)
  | cons w ws ih =>
    cases k with
    | zero =>
      simp only [Memory.writeWords, Nat.mul_zero, Nat.add_zero, List.getElem_cons_zero]
      rw [Memory.readWord_congr (n := m.writeWord a w) (fun i hi => Memory.readByte_writeWords_outside _ _ _ (Memory.writeWord_wf a w h) _ (by omega)), Memory.readWord_writeWord h _ _]
    | succ k =>
      simp only [List.length_cons] at hk
      have := ih (m.writeWord a w) (a + 4) (Memory.writeWord_wf a w h) k (by omega)
      rw [Memory.writeWords, show a + 4 * (k + 1) = a + 4 + 4 * k by omega, this]; rfl

end Sys2Proof.Machine
end

