-- ==== Sys2Proof/Laws/Mapper.lean ====
section
/-! SUPPORT. The segment layouts as numbers, what a well-formed descriptor gives, and the routing. -/

namespace Sys2Proof

open Sys2Proof.Machine

/-- The number of two bit vectors side by side. -/
theorem toNat_sideBySide {n m : Nat} (x : BitVec n) (y : BitVec m) :
    (x ++ y).toNat = x.toNat * 2 ^ m + y.toNat := by
  rw [BitVec.toNat_append, ← Nat.shiftLeft_add_eq_or_of_lt y.isLt, Nat.shiftLeft_eq]

/-- The number of a field of a word. -/
theorem toNat_field (r : Word) (i n : Nat) : (r.extractLsb' i n).toNat = r.toNat / 2 ^ i % 2 ^ n := by
  simp [Nat.shiftRight_eq_div_pow]

/-- `encode_legacy` as a number (R66). -/
theorem encodeLegacy_toNat (g : Segment) :
    (encodeLegacy g).toNat = (g.stop / 0x800000 % 256).toNat * 2 ^ 24 + (g.start / 0x800000 % 256).toNat * 2 ^ 16 := by
  unfold encodeLegacy
  refine (toNat_sideBySide (BitVec.ofInt 8 (g.stop / (8 * MiB)) ++ BitVec.ofInt 8 (g.start / (8 * MiB))) 0#16).trans ?_
  rw [toNat_sideBySide]
  simp only [BitVec.toNat_ofInt, MiB]
  norm_num
  ring

/-- `encode_new` of a segment that is not empty, as a number (R67). -/
theorem encodeNew_toNat (v : Variant) (g : Segment) (h : g.size ≠ 0) :
    (encodeNew v g).toNat =
      ((g.start - v.winBase + g.size - 1) / 0x100000 % 256).toNat * 2 ^ 20
        + ((g.start - v.winBase) / 0x100000 % 256).toNat * 2 ^ 4 := by
  unfold encodeNew
  rw [if_neg h]
  refine (toNat_sideBySide (0#4 ++ BitVec.ofInt 8 ((g.start - v.winBase + g.size - 1) / MiB) ++ 0#8
    ++ BitVec.ofInt 8 ((g.start - v.winBase) / MiB)) 0#4).trans ?_
  rw [toNat_sideBySide, toNat_sideBySide, toNat_sideBySide]
  simp only [BitVec.toNat_ofInt, MiB]
  norm_num
  ring

/-- `decode_legacy` by its two ends (R66). -/
theorem decodeLegacy_start (r : Word) : (decodeLegacy r).start = (r.toNat / 2 ^ 16 % 2 ^ 8 * 2 ^ 23 : Nat) := by
  simp only [decodeLegacy, toNat_field, MiB]
  norm_num

theorem decodeLegacy_stop (r : Word) : (decodeLegacy r).stop = (r.toNat / 2 ^ 24 * 2 ^ 23 : Nat) := by
  have := r.isLt
  simp only [decodeLegacy, toNat_field, MiB, Segment.stop]
  norm_num
  omega

/-- `decode_new` of a word that is not zero, by its two ends (R67). -/
theorem decodeNew_start (v : Variant) (r : Word) (h : r ≠ 0#32) :
    (decodeNew v r).start = v.winBase + (r.toNat / 2 ^ 4 % 2 ^ 8 * 2 ^ 20 : Nat) := by
  simp only [decodeNew, if_neg h, toNat_field, MiB]
  norm_num

theorem decodeNew_stop (v : Variant) (r : Word) (h : r ≠ 0#32) :
    (decodeNew v r).stop = v.winBase + ((r.toNat / 2 ^ 20 % 2 ^ 8 + 1) * 2 ^ 20 : Nat) := by
  simp only [decodeNew, if_neg h, toNat_field, MiB, Segment.stop]
  norm_num

/-- A segment is its start and its end. -/
theorem Segment.ext_ends {g h : Segment} (h1 : g.start = h.start) (h2 : g.stop = h.stop) : g = h := by
  cases g
  cases h
  simp_all [Segment.stop]

theorem decodeSegment_legacy_start (v : Variant) (hv : v.segEnc = .legacy8M) (r : Word) :
    (decodeSegment v r).start = (r.toNat / 2 ^ 16 % 2 ^ 8 * 2 ^ 23 : Nat) := by
  rw [decodeSegment, hv]
  exact decodeLegacy_start r

theorem decodeSegment_legacy_stop (v : Variant) (hv : v.segEnc = .legacy8M) (r : Word) :
    (decodeSegment v r).stop = (r.toNat / 2 ^ 24 * 2 ^ 23 : Nat) := by
  rw [decodeSegment, hv]
  exact decodeLegacy_stop r

theorem decodeSegment_new_start (v : Variant) (hv : v.segEnc = .new1M) (r : Word) (h : r ≠ 0#32) :
    (decodeSegment v r).start = v.winBase + (r.toNat / 2 ^ 4 % 2 ^ 8 * 2 ^ 20 : Nat) := by
  rw [decodeSegment, hv]
  exact decodeNew_start v r h

theorem decodeSegment_new_stop (v : Variant) (hv : v.segEnc = .new1M) (r : Word) (h : r ≠ 0#32) :
    (decodeSegment v r).stop = v.winBase + ((r.toNat / 2 ^ 20 % 2 ^ 8 + 1) * 2 ^ 20 : Nat) := by
  rw [decodeSegment, hv]
  exact decodeNew_stop v r h

theorem decodeSegment_new_zero (v : Variant) (hv : v.segEnc = .new1M) :
    decodeSegment v 0#32 = ⟨v.winBase, 0⟩ := by
  rw [decodeSegment, hv]
  simp [decodeNew]

theorem decodeSegment_encodeSegment_legacy (v : Variant) (hv : v.segEnc = .legacy8M) (g : Segment) (h0 : 0 ≤ g.start) (h1 : g.start % 0x800000 = 0) (h2 : g.stop % 0x800000 = 0)
   (h3 : g.start ≤ 0x7F800000) (h4 : 0 ≤ g.stop) (h5 : g.stop ≤ 0x7F800000) : decodeSegment v (encodeSegment v g) = g := by
  have ee : encodeSegment v g = encodeLegacy g := by rw [encodeSegment, hv]
  have he := encodeLegacy_toNat g
  rw [← ee] at he
  have d1 := decodeSegment_legacy_start v hv (encodeSegment v g)
  have d2 := decodeSegment_legacy_stop v hv (encodeSegment v g)
  rw [he] at d1 d2
  refine Segment.ext_ends ?_ ?_
  · rw [d1]; push_cast; omega
  · rw [d2]; push_cast; omega

theorem decodeSegment_encodeSegment_new (v : Variant) (hv : v.segEnc = .new1M) (g : Segment) (h0 : (v.winBase : Int) ≤ g.start) (h1 : (g.start - v.winBase) % 0x100000 = 0) (h2 : (g.stop - v.winBase) % 0x100000 = 0)
   (h3 : g.start - v.winBase < 256 * 0x100000) (h4 : 0 < g.size) (h5 : g.stop - v.winBase ≤ 256 * 0x100000) (hne : g ≠ ⟨v.winBase, 0x100000⟩) : decodeSegment v (encodeSegment v g) = g := by
  have ee : encodeSegment v g = encodeNew v g := by rw [encodeSegment, hv]
  have he := encodeNew_toNat v g (by omega)
  rw [← ee] at he
  have hs : g.stop = g.start + g.size := rfl
  have hz : encodeSegment v g ≠ 0#32 := by
    intro h
    rw [h] at he
    apply hne
    have e1 : g.start = v.winBase := by
      simp only [BitVec.toNat_ofNat] at he
      omega
    refine Segment.ext_ends e1 ?_
    simp only [BitVec.toNat_ofNat] at he
    simp only [Segment.stop] at *
    omega
  have d1 := decodeSegment_new_start v hv (encodeSegment v g) hz
  have d2 := decodeSegment_new_stop v hv (encodeSegment v g) hz
  rw [he] at d1 d2
  refine Segment.ext_ends ?_ ?_
  · rw [d1]; push_cast; omega
  · rw [d2]; push_cast; omega

/-- The start after the two clamps (R127). -/
theorem clamped_start (v : Variant) (cs : Cs) (word : Word) :
    (clamped v cs word).seg.start = if cs = .cs0 then (v.winBase : Int) else (decodeSegment v word).start := by
  have h1 : ∀ c : Candidate, (clampEnd v cs c).seg.start = c.seg.start := by
    intro c
    unfold clampEnd
    split
    · rfl
    · split <;> rfl
  unfold clamped
  rw [h1]
  unfold clampStart candidateOf
  by_cases hc : cs = .cs0
  · by_cases hs : (decodeSegment v word).start = v.winBase
    · simp [hc, hs]
    · simp [hc, hs]
  · simp [hc]

/-- The end after the two clamps (R127). -/
theorem clamped_stop (v : Variant) (cs : Cs) (word : Word) :
    (clamped v cs word).seg.stop = match v.fixedEnd.get cs with
      | none => (decodeSegment v word).stop
      | some e => (e : Int) := by
  have h1 : (clampStart v cs (candidateOf v word)).seg.stop = (decodeSegment v word).stop := by
    unfold clampStart candidateOf
    split
    · simp [Segment.stop]
    · rfl
  unfold clamped clampEnd
  cases hf : v.fixedEnd.get cs with
  | none => exact h1
  | some e =>
    simp only
    split
    · simp [Segment.stop]
    · next h => exact not_not.mp h

/-- The word to store: the written one where no clamp changed the segment, and otherwise the encoding of
the clamped segment (R126). -/
theorem clamped_word (v : Variant) (cs : Cs) (word : Word) :
    (clamped v cs word).word =
      if (clamped v cs word).seg = decodeSegment v word then word else encodeSegment v (clamped v cs word).seg := by
  have hA : (clampStart v cs (candidateOf v word) = candidateOf v word ∧
        (cs ≠ .cs0 ∨ (decodeSegment v word).start = v.winBase)) ∨
      ((clampStart v cs (candidateOf v word)).word = encodeSegment v (clampStart v cs (candidateOf v word)).seg ∧
        (clampStart v cs (candidateOf v word)).seg.start = v.winBase ∧ cs = .cs0 ∧
        (decodeSegment v word).start ≠ v.winBase) := by
    unfold clampStart
    by_cases h : cs = .cs0 ∧ (candidateOf v word).seg.start ≠ v.winBase
    · rw [if_pos h]
      exact .inr ⟨rfl, rfl, h.1, h.2⟩
    · rw [if_neg h]
      refine .inl ⟨rfl, ?_⟩
      rcases not_and_or.mp h with h | h
      · exact .inl h
      · exact .inr (not_not.mp h)
  have hB : ∀ c : Candidate, clampEnd v cs c = c ∨
      ((clampEnd v cs c).word = encodeSegment v (clampEnd v cs c).seg ∧ (clampEnd v cs c).seg.stop ≠ c.seg.stop) := by
    intro c
    unfold clampEnd
    split
    · exact .inl rfl
    · split
      · next h => exact .inr ⟨rfl, by simp only [Segment.stop] at h ⊢; omega⟩
      · exact .inl rfl
  have hst := clamped_start v cs word
  unfold clamped at hst ⊢
  have h0 : (clampStart v cs (candidateOf v word)).seg.stop = (decodeSegment v word).stop := by
    unfold clampStart candidateOf
    split
    · simp [Segment.stop]
    · rfl
  rcases hB (clampStart v cs (candidateOf v word)) with hb | ⟨hb, hn⟩
  · rw [hb] at hst ⊢
    rcases hA with ⟨ha, _⟩ | ⟨ha, hs, hc, hne⟩
    · rw [ha]
      simp [candidateOf]
    · rw [if_neg, ha]
      intro h
      rw [h] at hs
      exact hne hs
  · rw [if_neg, hb]
    intro h
    rw [h, h0] at hn
    exact hn rfl

/-- Rejection in the words of R128. -/
theorem rejected_eq (v : Variant) (g : Segment) :
    rejected v g = true ↔
      g.size < 0 ∨ (0 < g.size ∧ (g.start < v.winBase ∨ (v.winBase : Int) + v.winSize < g.stop)) := by
  unfold rejected inWindow
  simp only [Bool.or_eq_true, Bool.and_eq_true, decide_eq_true_eq, Bool.not_eq_true', decide_eq_false_iff_not]
  omega

/-- What R5(c) and R5(h) give. -/
structure Variant.Window (v : Variant) : Prop where
  base : v.winBase % unit v = 0
  size : v.winSize % unit v = 0
  top : v.winBase + v.winSize ≤ 2 ^ 32
  range : match v.segEnc with
    | .legacy8M => v.winBase + v.winSize ≤ 0x7F800000
    | .new1M => v.winSize ≤ 256 * 0x100000
  positive : 0 < v.winSize

theorem Variant.wf_window {v : Variant} (h : v.wf = true) : v.Window := by
  simp only [Variant.wf, Bool.and_eq_true, Variant.wfWindow, Variant.wfRange, decide_eq_true_eq] at h
  obtain ⟨⟨⟨⟨⟨-, ⟨h1, h2, h3, h4⟩⟩, -⟩, -⟩, -⟩, h5⟩ := h
  refine ⟨h1, h2, h4, ?_, h3⟩
  cases hv : v.segEnc <;> simp only [hv, decide_eq_true_eq, MiB] at h5 ⊢ <;> exact h5

theorem Variant.wf_has_cs0 {v : Variant} (h : v.wf = true) : v.has .cs0 = true := by
  simp only [Variant.wf, Bool.and_eq_true, Variant.wfCount, decide_eq_true_eq] at h
  unfold Variant.has Cs.toNat
  simp
  omega

/-- What R5(d) and R5(f) give for a chip-select of the variant. -/
structure Variant.Default (v : Variant) (cs : Cs) : Prop where
  start : (v.segDefault.get cs).start % (unit v : Int) = 0
  size : (v.segDefault.get cs).size % (unit v : Int) = 0
  startNonneg : 0 ≤ (v.segDefault.get cs).start
  sizeNonneg : 0 ≤ (v.segDefault.get cs).size
  inside : (v.segDefault.get cs).size ≠ 0 → inWindow v (v.segDefault.get cs) = true
  roundTrip : decodeSegment v (encodeSegment v (v.segDefault.get cs)) = v.segDefault.get cs
  fixedEnd : ∀ e, v.fixedEnd.get cs = some e → (e : Int) = (v.segDefault.get cs).stop

theorem Variant.wf_default {v : Variant} (h : v.wf = true) {cs : Cs} (hc : v.has cs = true) : v.Default cs := by
  simp only [Variant.wf, Bool.and_eq_true, List.all_eq_true, Variant.mem_slots] at h
  have h1 := h.1.1.1.2 cs hc
  have h2 := h.1.2 cs hc
  simp only [Variant.wfDefault, decide_eq_true_eq] at h1
  obtain ⟨a, b, c, d, e, f⟩ := h1
  refine ⟨a, b, c, d, e, f, fun x hx => ?_⟩
  unfold Variant.wfFixedEnd at h2
  rw [hx] at h2
  simpa using h2

theorem Variant.wf_base {v : Variant} (h : v.wf = true) : (v.segDefault.get .cs0).start = (v.winBase : Int) := by
  simp only [Variant.wf, Bool.and_eq_true, Variant.wfBase, decide_eq_true_eq] at h
  exact h.1.1.2

theorem inWindow_iff (v : Variant) (g : Segment) :
    inWindow v g = true ↔ (v.winBase : Int) ≤ g.start ∧ g.stop ≤ (v.winBase : Int) + v.winSize := by
  simp [inWindow]

/-- A decoded segment stands on units. -/
theorem decodeSegment_aligned {v : Variant} (hw : v.wf = true) (r : Word) :
    (decodeSegment v r).start % (unit v : Int) = 0 ∧ (decodeSegment v r).stop % (unit v : Int) = 0 := by
  have hb := (Variant.wf_window hw).base
  cases hv : v.segEnc
  · simp only [decodeSegment, hv, decodeLegacy_start, decodeLegacy_stop]
    simp only [unit, hv, MiB] at hb ⊢
    omega
  · simp only [decodeSegment, hv]
    simp only [unit, hv, MiB] at hb ⊢
    by_cases hz : r = 0#32
    · subst hz
      simp only [decodeNew, if_true, Segment.stop]
      omega
    · rw [decodeNew_start v r hz, decodeNew_stop v r hz]
      omega

namespace Machine

/-- The chip-selects that take an access (R130). -/
theorem mem_covering (s : State) (a w : Nat) (cs : Cs) :
    cs ∈ covering s a w ↔ s.variant.has cs = true ∧ (s.region.get cs).start ≤ a
      ∧ (a : Int) + w ≤ (s.region.get cs).start + (s.region.get cs).size := by
  simp only [covering, List.mem_filter, Variant.mem_slots, covers, decide_eq_true_eq]
  rfl

theorem covering_nodup (s : State) (a w : Nat) : (covering s a w).Nodup := by
  unfold covering Variant.slots
  exact ((by decide : Cs.all.Nodup).filter _).filter _

/-- The winner is one of the list (R131). -/
theorem winner_mem {l : List Cs} {cs : Cs} (h : winner l = some cs) : cs ∈ l := by
  unfold winner at h
  split at h
  · cases h
  · simpa [eq_comm] using h
  · exact List.mem_of_getElem? h

theorem winner_some {l : List Cs} (h : l ≠ []) : ∃ cs, winner l = some cs := by
  unfold winner
  split
  · exact absurd rfl h
  · exact ⟨_, rfl⟩
  · have hpos : 0 < l.length := List.length_pos_iff.mpr h
    exact ⟨_, List.getElem?_eq_getElem (Nat.mod_lt _ hpos)⟩

/-- With one candidate nothing is left to choose. -/
theorem winner_unique {l : List Cs} {cs : Cs} (hn : l.Nodup) (h : cs ∈ l) (hu : ∀ o ∈ l, o = cs) :
    winner l = some cs := by
  rcases l with _ | ⟨x, _ | ⟨y, l⟩⟩
  · simp at h
  · simp at h
    subst h
    rfl
  · have h1 := hu x (by simp)
    have h2 := hu y (by simp)
    subst h1
    subst h2
    simp at hn

/-- What a delivered access is delivered to (R130). -/
theorem route_some {s : State} {a w : Nat} {cs : Cs} {addr : Word} (h : route s a w = some (cs, addr)) :
    cs ∈ covering s a w ∧ addr = BitVec.ofInt 32 ((a : Int) - (s.region.get cs).start) := by
  unfold route at h
  split at h
  · split at h
    · cases h
    · rename_i c hc
      injection h with h
      injection h with h1 h2
      subst h1
      exact ⟨winner_mem hc, h2.symm⟩
  · cases h

theorem route_has {s : State} {a w : Nat} {cs : Cs} {addr : Word} (h : route s a w = some (cs, addr)) :
    s.variant.has cs = true := ((mem_covering s a w cs).mp (route_some h).1).1

/-- What a write that reaches the mapper changes: the segment and its register, and the log (R126). -/
theorem setSegment_frame (cs : Cs) (word : Word) (s : State) :
    ∃ es, setSegment cs word s = addLog es s ∨
      ∃ g x, setSegment cs word s = applySegment cs g x (addLog es s) := by
  unfold setSegment
  simp only
  split
  · exact ⟨_, .inl rfl⟩
  · exact ⟨_, .inr ⟨_, _, rfl⟩⟩

end Machine

end Sys2Proof
end

