-- ==== Sys2Proof/Laws/Platform.lean ====
section
/-! SUPPORT. The operations of the environment: driving the lines of a list of chip-selects changes the
lines and the record of the outputs alone. -/

namespace Sys2Proof.Machine

theorem driveLines_fold (l : List Cs) (level : Cs → Bool) (s : State) :
    l.foldl (fun t cs => driveLine cs (level cs) t) s =
      { s with
        csline := (l.foldl (fun t cs => driveLine cs (level cs) t) s).csline
        bus := (l.foldl (fun t cs => driveLine cs (level cs) t) s).bus } := by
  induction l generalizing s with
  | nil => rfl
  | cons a l ih =>
    simp only [List.foldl_cons]
    conv_lhs => rw [ih]
    rw [driveLine_eq]

/-- Only the lines and the record change. -/
theorem driveLines_frame (level : Cs → Bool) (s : State) :
    driveLines level s =
      { s with csline := (driveLines level s).csline, bus := (driveLines level s).bus } :=
  driveLines_fold s.variant.slots level s

theorem driveLines_fold_csline (l : List Cs) (level : Cs → Bool) (s : State) (cs : Cs) :
    (l.foldl (fun t c => driveLine c (level c) t) s).csline.get cs
      = if cs ∈ l then level cs else s.csline.get cs := by
  induction l generalizing s with
  | nil => simp
  | cons a l ih =>
    simp only [List.foldl_cons, ih, driveLine_csline, Slots.get_set, List.mem_cons]
    by_cases h1 : cs = a
    · subst h1
      simp
    · simp [h1]

/-- Each line of the variant is at its level, every other as before. -/
theorem driveLines_csline (level : Cs → Bool) (s : State) (cs : Cs) :
    (driveLines level s).csline.get cs = if s.variant.has cs = true then level cs else s.csline.get cs := by
  unfold driveLines
  rw [driveLines_fold_csline]
  simp only [Variant.mem_slots]

/-- Driving lines appends line events to the record and nothing else. -/
theorem driveLines_bus (level : Cs → Bool) (s : State) :
    ∃ l, (∀ e ∈ l, ∃ cs b, e = BusEvent.line cs b) ∧ (driveLines level s).bus = s.bus ++ l := by
  unfold driveLines
  generalize s.variant.slots = css
  induction css generalizing s with
  | nil => exact ⟨[], by simp, by simp⟩
  | cons a l ih =>
    simp only [List.foldl_cons]
    obtain ⟨x, hx, h⟩ := ih (driveLine a (level a) s)
    rw [h, driveLine_bus]
    split
    · exact ⟨x, hx, by simp⟩
    · refine ⟨.line a (level a) :: x, ?_, by simp⟩
      intro e he
      rcases List.mem_cons.mp he with rfl | he
      · exact ⟨_, _, rfl⟩
      · exact hx e he

theorem get_presentSlots {α : Type} (v : Variant) (f : Cs → α) (old : Slots α) (cs : Cs) :
    (presentSlots v f old).get cs = if v.has cs = true then f cs else old.get cs := by
  simp [presentSlots]

end Sys2Proof.Machine
end

