-- ==== Sys2Proof/Laws/Invariant.lean ====
section
/-! SUPPORT. The operations keep the invariant, one lemma for each shared operation. -/

namespace Sys2Proof.Machine

/-- fields the invariant reads -/
theorem Invariant.core {s t : State} (h : Invariant s) (h1 : t.variant = s.variant) (h2 : t.segAddr = s.segAddr) (h3 : t.region = s.region)
   (h4 : ∀ cs, s.variant.has cs = true → t.csline.get cs = t.asserted cs) (h5 : t.dmaLen &&& ~~~dmaLenMask = 0#32) (h6 : t.dummyData &&& ~~~0xFF#32 = 0#32)
   (h7 : SnoopBounded t) (h8 : t.dram.wf = true) : Invariant t := by
  constructor
  · rw [h1]; exact h.descriptor
  · intro cs hc; rw [h1] at hc
    have := h.decodes cs hc
    unfold RegionDecodes firstMiBClamped at this ⊢
    rw [h1, h2, h3]; exact this
  · rw [h1, h3]; exact h.base
  · rw [h1, h2]; exact h.baseWord
  · intro cs hc; rw [h1] at hc
    have := h.fixedEnd cs hc
    unfold FixedEndKept at this ⊢
    rw [h1, h3]; exact this
  · intro cs hc; rw [h1] at hc
    have := h.inside cs hc
    unfold RegionInside at this ⊢
    rw [h1, h3]; exact this
  · intro cs hc; rw [h1] at hc; exact h4 cs hc
  · exact h5
  · exact h6
  · exact h7
  · exact h8

theorem Invariant.same {s t : State} (h : Invariant s) (h1 : t.variant = s.variant) (h2 : t.segAddr = s.segAddr) (h3 : t.region = s.region)
   (h4 : t.ctrl = s.ctrl) (h4' : t.csline = s.csline) (h5 : t.dmaLen = s.dmaLen) (h6 : t.dummyData = s.dummyData)
   (h7 : t.snoopIndex = s.snoopIndex) (h7' : t.snoopDummies = s.snoopDummies) (h8 : t.dram = s.dram) : Invariant t := by
  refine Invariant.core h h1 h2 h3 (fun cs hc => ?_) (by rw [h5]; exact h.lenMasked) (by rw [h6]; exact h.dummyMasked) ?_ (by rw [h8]; exact h.memory)
  · unfold State.asserted; rw [h4, h4']; exact h.lines cs hc
  · unfold SnoopBounded; rw [h7, h7']; exact h.snoop

/-- side accesses -/
theorem Invariant.side {s t : State} (h : Invariant s) (ht : SideTouches s t) (hl : ∀ cs, s.variant.has cs = true → t.csline.get cs = s.csline.get cs) (hs : SnoopBounded t) (hm : t.dram.wf = true) : Invariant t := by
  refine Invariant.core h ht.variant ht.segAddr ht.region (fun cs hc => ?_) (by rw [ht.dmaLen]; exact h.lenMasked) (by rw [ht.dummyData]; exact h.dummyMasked) hs hm
  unfold State.asserted; rw [ht.ctrl, hl cs hc]; exact h.lines cs hc

theorem ndummies_le (b : Byte) : ndummies b ≤ 4 := by revert b; decide +kernel

theorem snoopBounded_userByte (cs : Cs) (b : Byte) {s : State} (h : SnoopBounded s) : SnoopBounded (userByte cs b s) := by
  rw [userByte_eq]
  unfold SnoopBounded at *
  obtain ⟨h1, h2⟩ := h
  have haw : s.addrWidth cs ≤ 4 := by unfold State.addrWidth; split <;> omega
  have hn := ndummies_le b
  show snoopNextDummies _ _ _ _ ≤ 4 ∧ match snoopNextIndex _ _ _ _ with | .off => True | .start => True | .count k => 1 ≤ k ∧ 1 ≤ snoopNextDummies _ _ _ _ ∧ k + snoopNextDummies _ _ _ _ ≤ 9
  cases hi : s.snoopIndex with
  | off => simp [snoopNextIndex, snoopNextDummies, h1]
  | start =>
    by_cases hz : ndummies b = 0
    · simp [snoopNextIndex, snoopNextDummies, hz, h1]
    · simp [snoopNextIndex, snoopNextDummies, hz]; omega
  | count k =>
    rw [hi] at h2
    simp only at h2
    by_cases hk : k < s.addrWidth cs + 1
    · simp [snoopNextIndex, snoopNextDummies, hk]; omega
    · by_cases hd : s.snoopDummies ≤ 1
      · simp [snoopNextIndex, snoopNextDummies, hk, hd]
      · simp [snoopNextIndex, snoopNextDummies, hk, hd]; omega

theorem snoopBounded_userBytes (cs : Cs) (l : List Byte) {s : State} (h : SnoopBounded s) : SnoopBounded (userBytes cs l s) := by
  induction l generalizing s with
  | nil => exact h
  | cons b l ih => exact ih (snoopBounded_userByte cs b h)

theorem asserted_of_not_user {s : State} {cs : Cs} (h : s.mode cs ≠ .user) : s.asserted cs = false := by
  unfold State.asserted assertedField
  have : modeField (s.ctrl.get cs) ≠ .user := h
  simp [this]

theorem invariant_framed {s : State} (h : Invariant s) {cs : Cs} (hc : s.variant.has cs = true) (hm : s.mode cs ≠ .user)
    (es : List Event) (sent : List Byte) :
    Invariant (driveLine cs false (transferred sent (addLog es (driveLine cs true s)))) := by
  refine Invariant.side h ?_ ?_ (by simpa [SnoopBounded] using h.snoop) (by simpa using h.memory)
  · rw [driveLine_eq, driveLine_eq]; rfl
  · intro o _
    simp only [driveLine_csline, transferred_csline, addLog_csline, Slots.set_set, Slots.get_set]
    split
    · next e => rw [e, h.lines cs hc, asserted_of_not_user hm]
    · rfl

theorem invariant_flashLoad {s : State} (h : Invariant s) {cs : Cs} (hc : s.variant.has cs = true) (a : Word) (w : Width) : Invariant (flashLoad cs a w s).2 := by
  unfold flashLoad
  split
  · next hm => rw [framedLoad_snd]; exact invariant_framed h hc (by rw [hm]; decide) _ _
  · next hm => rw [framedLoad_snd]; exact invariant_framed h hc (by rw [hm]; decide) _ _
  · exact Invariant.same h rfl rfl rfl rfl rfl rfl rfl rfl rfl rfl
  · show Invariant (receiveBytes w.bytes s).2
    rw [receiveBytes_eq]; exact Invariant.same h rfl rfl rfl rfl rfl rfl rfl rfl rfl rfl

theorem invariant_flashStore {s : State} (h : Invariant s) {cs : Cs} (hc : s.variant.has cs = true) (a : Word) (w : Width) (d : Word) : Invariant (flashStore cs a w d s) := by
  unfold flashStore
  split
  · split
    · exact Invariant.same h rfl rfl rfl rfl rfl rfl rfl rfl rfl rfl
    · exact Invariant.same h rfl rfl rfl rfl rfl rfl rfl rfl rfl rfl
    · next hm => rw [framedStore_eq]; exact invariant_framed h hc (by rw [hm]; decide) _ _
    · exact Invariant.side h (userBytes_touches _ _ _) (fun o _ => by simp) (snoopBounded_userBytes _ _ h.snoop) (by simpa using h.memory)
  · exact Invariant.same h rfl rfl rfl rfl rfl rfl rfl rfl rfl rfl

theorem Invariant.sideSame {s t : State} (h : Invariant s) (ht : SideTouches s t) (h1 : t.csline = s.csline) (h2 : t.snoopIndex = s.snoopIndex) (h3 : t.snoopDummies = s.snoopDummies) (h4 : t.dram.wf = true) : Invariant t := by
  refine Invariant.side h ht (fun o _ => by rw [h1]) ?_ h4
  unfold SnoopBounded; rw [h2, h3]; exact h.snoop

theorem invariant_flashRead {s : State} (h : Invariant s) (x : Word) : Invariant (flashRead32 x s).2 := by
  unfold flashRead32
  split
  · refine Invariant.sideSame h (by have := flashRead32_touches x s; unfold flashRead32 at this; simp_all) ?_ ?_ ?_ ?_ <;> 
      (unfold externalFlashRead32; split
       · first | rfl | exact h.memory
       · unfold nextFlashReply; split <;> first | rfl | exact h.memory)
  · split
    · exact h
    · split
      · exact h
      · next hr => exact invariant_flashLoad h (route_has hr) _ _

theorem invariant_flashWrite {s : State} (h : Invariant s) (x w : Word) : Invariant (flashWrite32 x w s).2 := by
  unfold flashWrite32
  split
  · refine Invariant.sideSame h (by have := flashWrite32_touches x w s; unfold flashWrite32 at this; simp_all) ?_ ?_ ?_ ?_ <;> 
      (unfold externalFlashWrite32; split
       · first | rfl | exact h.memory
       · unfold nextFlashReply; split <;> first | rfl | exact h.memory)
  · split
    · exact h
    · split
      · exact h
      · next hr => exact invariant_flashStore h (route_has hr) _ _ _

theorem invariant_dramRead {s : State} (h : Invariant s) (a : Word) : Invariant (dramRead32 a s).2 := by
  refine Invariant.sideSame h (dramRead32_touches a s) ?_ ?_ ?_ (by rw [dramRead32_dram]; exact h.memory)  <;> 
    (unfold dramRead32; split
     · rfl
     · unfold nextDramReply; split
       · next r _ _ => cases r <;> rfl
       · simp only; split <;> rfl)
theorem invariant_dramWrite {s : State} (h : Invariant s) (a w : Word) : Invariant (dramWrite32 a w s).2 := by
  refine Invariant.sideSame h (dramWrite32_touches a w s) ?_ ?_ ?_ ?_
  iterate 3 
    (unfold dramWrite32; split
     · rfl
     · unfold nextDramReply; split
       · next r _ _ => cases r <;> rfl
       · simp only; split <;> rfl)
  rw [dramWrite32_dram]; split
  · exact Memory.writeWord_wf _ _ h.memory
  · exact h.memory

theorem dmaLen_masked_sub (x : Word) (h : x &&& ~~~dmaLenMask = 0#32) (hz : x ≠ 0#32) : (x - 4#32) &&& ~~~dmaLenMask = 0#32 := by
  have key : ∀ y : Word, y &&& ~~~dmaLenMask = 0#32 ↔ (y.toNat % 4 = 0 ∧ y.toNat < 0x2000000) := by
    intro y
    have e : y &&& ~~~dmaLenMask = 0#32 ↔ y.toNat &&& 0xFE000003 = 0 := by
      constructor
      · intro h; have := congrArg BitVec.toNat h; simpa [dmaLenMask] using this
      · intro h; apply BitVec.eq_of_toNat_eq; simpa [dmaLenMask] using h
    rw [e]
    constructor
    · intro h
      have h1 : y.toNat % 4 = 0 := by
        have := congrArg (· % 2 ^ 2) h
        simp only [Nat.and_mod_two_pow] at this
        rw [show (0xFE000003 % 2 ^ 2) = 2 ^ 2 - 1 by norm_num, Nat.and_two_pow_sub_one_eq_mod] at this
        simpa using this
      refine ⟨h1, ?_⟩
      have h2 := congrArg (· >>> 25) h
      simp only [Nat.shiftRight_and_distrib] at h2
      rw [show (0xFE000003 >>> 25) = 2 ^ 7 - 1 by rfl, Nat.and_two_pow_sub_one_eq_mod, Nat.shiftRight_eq_div_pow] at h2
      have := y.isLt
      simp at h2; omega
    · rintro ⟨h1, h2⟩
      have e1 : y.toNat = (y.toNat / 4) <<< 2 := by rw [Nat.shiftLeft_eq]; omega
      apply Nat.eq_of_testBit_eq
      intro i
      rw [Nat.testBit_and, Nat.zero_testBit]
      by_cases hi : i < 25
      · by_cases hi2 : i < 2
        · have : y.toNat.testBit i = false := by
            rw [e1, Nat.testBit_shiftLeft]; simp; omega
          simp [this]
        · have : Nat.testBit 0xFE000003 i = false := by interval_cases i <;> rfl
          simp [this]
      · have : y.toNat.testBit i = false := Nat.testBit_lt_two_pow (lt_of_lt_of_le h2 (by
          calc 0x2000000 = 2 ^ 25 := by norm_num
            _ ≤ 2 ^ i := Nat.pow_le_pow_right (by norm_num) (by omega)))
        simp [this]
  rw [key] at h ⊢
  have : x.toNat ≠ 0 := fun hh => hz (BitVec.eq_of_toNat_eq hh)
  rw [BitVec.toNat_sub]; simp
  omega

/-- The CE_STOP bit is not in CLK_FREQ (R17, R183). -/
theorem setClkFreq_stop (x : Word) (r : Nat) : (setClkFreq x r).getLsbD 2 = x.getLsbD 2 := by
  simp [setClkFreq]

theorem invariant_checksumAdvance {s : State} (h : Invariant s) (hz : s.dmaLen ≠ 0#32) (w : Word) : Invariant (checksumAdvance w s) :=
  Invariant.core h rfl rfl rfl h.lines (dmaLen_masked_sub _ h.lenMasked hz) h.dummyMasked h.snoop h.memory
theorem invariant_transferAdvance {s : State} (h : Invariant s) (hz : s.dmaLen ≠ 0#32) (w : Word) : Invariant (transferAdvance w s) :=
  Invariant.core h rfl rfl rfl h.lines (dmaLen_masked_sub _ h.lenMasked hz) h.dummyMasked h.snoop h.memory
theorem invariant_addLog {s : State} (h : Invariant s) (es : List Event) : Invariant (addLog es s) := Invariant.same h rfl rfl rfl rfl rfl rfl rfl rfl rfl rfl

theorem invariant_dmaLoop {body : State → Bool × State} {c : Nat} (hm : ∀ s, Moved c (if (body s).1 then 1 else 0) s (body s).2)
   (hi : ∀ s, Invariant s → s.dmaLen ≠ 0#32 → Invariant (body s).2) (n : Nat) (s : State) (h : Invariant s) (hn : 4 * n ≤ s.dmaLen.toNat) : Invariant (dmaLoop body n s).2 := by
  induction n generalizing s with
  | zero => exact h
  | succ n ih =>
    have hz : s.dmaLen ≠ 0#32 := by intro hh; rw [hh] at hn; simp at hn
    have hb := hi s h hz
    have hmv := hm s
    simp only [dmaLoop]
    cases hs : (body s).1
    · exact hb
    · rw [hs] at hmv
      refine ih _ hb ?_
      rw [hmv.len, BitVec.toNat_sub]
      have := s.dmaLen.isLt
      simp; omega

theorem invariant_checksumStep (s : State) (h : Invariant s) (hz : s.dmaLen ≠ 0#32) : Invariant (checksumStep s).2 := by
  have hl := (flashRead32_touches s.dmaFlashAddr s).dmaLen
  rcases checksumStep_cases s with ⟨-, w, -, e⟩ | ⟨-, -, e⟩ <;> rw [e]
  · exact invariant_checksumAdvance (invariant_flashRead h _) (by rw [hl]; exact hz) _
  · exact invariant_addLog (invariant_flashRead h _) _
theorem invariant_readStep (s : State) (h : Invariant s) (hz : s.dmaLen ≠ 0#32) : Invariant (readStep s).2 := by
  have hl := (flashRead32_touches s.dmaFlashAddr s)
  rcases readStep_cases s with ⟨-, w, -, -, e⟩ | ⟨-, w, -, -, e⟩ | ⟨-, -, e⟩ <;> rw [e]
  · exact invariant_transferAdvance (invariant_dramWrite (invariant_flashRead h _) _ _) (by rw [(hl.trans (dramWrite32_touches _ _ _)).dmaLen]; exact hz) _
  · exact invariant_addLog (invariant_dramWrite (invariant_flashRead h _) _ _) _
  · exact invariant_addLog (invariant_flashRead h _) _
theorem invariant_writeStep (s : State) (h : Invariant s) (hz : s.dmaLen ≠ 0#32) : Invariant (writeStep s).2 := by
  have hl := (dramRead32_touches s.dmaDramAddr s)
  rcases writeStep_cases s with ⟨-, w, -, -, e⟩ | ⟨-, w, -, -, e⟩ | ⟨-, -, e⟩ <;> rw [e]
  · exact invariant_transferAdvance (invariant_flashWrite (invariant_dramRead h _) _ _) (by rw [(hl.trans (flashWrite32_touches _ _ _)).dmaLen]; exact hz) _
  · exact invariant_addLog (invariant_flashWrite (invariant_dramRead h _) _ _) _
  · exact invariant_addLog (invariant_dramRead h _) _

theorem dmaSteps_le (s : State) : 4 * dmaSteps s ≤ s.dmaLen.toNat := by unfold dmaSteps; omega

theorem invariant_checksumRun {s : State} (h : Invariant s) : Invariant (checksumRun s) := by
  have := invariant_dmaLoop checksumStep_moved invariant_checksumStep (dmaSteps s) s h (dmaSteps_le s)
  unfold checksumRun; simp only; split
  · unfold injectFailure; split
    · exact Invariant.same this rfl rfl rfl rfl rfl rfl rfl rfl rfl rfl
    · exact this
  · exact this
theorem invariant_transferRun {s : State} (h : Invariant s) : Invariant (transferRun s) := by
  unfold transferRun; split
  · exact invariant_dmaLoop writeStep_moved invariant_writeStep (dmaSteps s) s h (dmaSteps_le s)
  · exact invariant_dmaLoop readStep_moved invariant_readStep (dmaSteps s) s h (dmaSteps_le s)
theorem invariant_calibrate {s : State} (h : Invariant s) : Invariant (calibrate s) := by
  rw [calibrate_eq]
  refine Invariant.core h rfl rfl rfl (fun cs hc => ?_) h.lenMasked h.dummyMasked h.snoop h.memory
  show s.csline.get cs = assertedField ((s.ctrl.set .cs0 _).get cs)
  rw [h.lines cs hc, Slots.get_set]
  unfold State.asserted
  split
  · next e =>
    subst e
    have hv := (setClkFreq_sameView s (ratio (freqField s.dmaCtrl))).m .cs0
    rw [Slots.get_set_same] at hv
    unfold assertedField
    rw [hv, setClkFreq_stop]
  · rfl
theorem invariant_complete {s : State} (h : Invariant s) : Invariant (returnNone (complete s)) := Invariant.same h rfl rfl rfl rfl rfl rfl rfl rfl rfl rfl

theorem invariant_startDma {s t : State} (h : Invariant s) {v : Word} {body : State → State} (hb : ∀ u, Invariant u → Invariant (body u)) (he : startDma v body s = .next t) : Invariant t := by
  unfold startDma at he
  split_ifs at he
  · injection he with he; rw [← he]; exact Invariant.same h rfl rfl rfl rfl rfl rfl rfl rfl rfl rfl
  · injection he with he; rw [← he]
    exact invariant_complete (hb _ (Invariant.same h rfl rfl rfl rfl rfl rfl rfl rfl rfl rfl))

theorem invariant_stopDma {s : State} (h : Invariant s) (v : Word) : Invariant (returnNone (stopDma v s)) := Invariant.same h rfl rfl rfl rfl rfl rfl rfl rfl rfl rfl

theorem invariant_writeDmaControl {s t : State} (h : Invariant s) {v : Word} (he : writeDmaControl v s = .next t) : Invariant t := by
  unfold writeDmaControl at he
  split_ifs at he
  · injection he with he; rw [← he]; exact invariant_stopDma h v
  · exact invariant_startDma h (fun u hu => invariant_checksumRun (invariant_calibrate hu)) he
  · exact invariant_startDma h (fun u hu => invariant_checksumRun hu) he
  · exact invariant_startDma h (fun u hu => invariant_transferRun hu) he

theorem invariant_ifDma {s t : State} (h : Invariant s) {v : Word} {r : Result} (hr : ∀ t, r = .next t → Invariant t) (he : ifDma v s r = .next t) : Invariant t := by
  unfold ifDma at he; split at he
  · exact hr t he
  · injection he with he; rw [← he]; exact Invariant.same h rfl rfl rfl rfl rfl rfl rfl rfl rfl rfl

theorem invariant_readIf {s t : State} (h : Invariant s) {r : Reg} {w : Width} {v : Word} (he : readIf r w v s = .next t) : Invariant t := by
  unfold readIf at he; injection he with he; rw [← he]
  split <;> exact Invariant.same h rfl rfl rfl rfl rfl rfl rfl rfl rfl rfl
theorem invariant_writeIf {s t u : State} (h : Invariant s) {r : Reg} {v : Word} (hu : regRecognised s.variant r = true → Invariant u) (he : writeIf r v s u = .next t) : Invariant t := by
  unfold writeIf at he; injection he with he; rw [← he]
  split
  · next hr => exact Invariant.same (hu hr) rfl rfl rfl rfl rfl rfl rfl rfl rfl rfl
  · exact Invariant.same h rfl rfl rfl rfl rfl rfl rfl rfl rfl rfl
theorem invariant_inMode {s t u : State} {cs : Cs} {m : Mode} (hu : s.variant.has cs = true → s.mode cs = m → Invariant u) (he : inMode cs m s u = .next t) : Invariant t := by
  unfold inMode at he
  split_ifs at he with h1 h2
  injection he with he; rw [← he]
  exact hu (by simpa using h1) (by simpa using h2)
theorem invariant_snoopRowStore {s t : State} (h : Invariant s) {cs : Cs} {a : Word} {b : Byte} (he : snoopRowStore cs a b s = .next t) : Invariant t := by
  refine invariant_inMode (fun hc hm => ?_) he
  have : Invariant (userStore cs a [b] s) := by
    unfold userStore; split
    · exact Invariant.side h (userBytes_touches _ _ _) (fun o _ => by simp) (snoopBounded_userBytes _ _ h.snoop) (by simpa using h.memory)
    · exact Invariant.same h rfl rfl rfl rfl rfl rfl rfl rfl rfl rfl
  exact Invariant.same this rfl rfl rfl rfl rfl rfl rfl rfl rfl rfl
theorem invariant_loadInMode {s t : State} (h : Invariant s) {m : Mode} {cs : Cs} {a : Word} {w : Width} (he : loadInMode m cs a w s = .next t) : Invariant t := by
  unfold loadInMode at he
  refine invariant_inMode ?_ he
  exact (fun hc _ => Invariant.same (invariant_flashLoad h hc a w) rfl rfl rfl rfl rfl rfl rfl rfl rfl rfl)
theorem invariant_storeInMode {s t : State} (h : Invariant s) {m : Mode} {cs : Cs} {a : Word} {w : Width} {d : Word} (he : storeInMode m cs a w d s = .next t) : Invariant t := by
  unfold storeInMode at he
  refine invariant_inMode ?_ he
  exact (fun hc _ => Invariant.same (invariant_flashStore h hc a w d) rfl rfl rfl rfl rfl rfl rfl rfl rfl rfl)

theorem invariant_writeCtrl {s : State} (h : Invariant s) (cs : Cs) (v : Word) : Invariant (writeCtrl cs v s) := by
  unfold writeCtrl propagateAsserted
  have hx : ∀ o, State.asserted { s with ctrl := s.ctrl.set cs v } o = if o = cs then assertedField v else s.asserted o := by
    intro o
    show assertedField ((s.ctrl.set cs v).get o) = _
    rw [Slots.get_set]; split <;> rfl
  split
  · next e =>
    refine Invariant.core h rfl rfl rfl (fun o ho => ?_) h.lenMasked h.dummyMasked h.snoop h.memory
    rw [hx]; split
    · next eo => subst eo; rw [e]; exact h.lines o ho
    · exact h.lines o ho
  · split
    · next e1 e2 =>
      rw [driveLine_eq]
      refine Invariant.core h rfl rfl rfl (fun o ho => ?_) h.lenMasked h.dummyMasked ⟨h.snoop.1, trivial⟩ h.memory
      show (s.csline.set cs true).get o = State.asserted { s with ctrl := s.ctrl.set cs v } o
      rw [hx, Slots.get_set]; split
      · exact e2.symm
      · exact h.lines o ho
    · next e1 e2 =>
      rw [driveLine_eq]
      refine Invariant.core h rfl rfl rfl (fun o ho => ?_) h.lenMasked h.dummyMasked ⟨h.snoop.1, trivial⟩ h.memory
      show (s.csline.set cs false).get o = State.asserted { s with ctrl := s.ctrl.set cs v } o
      rw [hx, Slots.get_set]; split
      · simpa using e2
      · exact h.lines o ho

theorem masked_of_and (x m : Word) : (x &&& m) &&& ~~~m = 0#32 := by
  rw [BitVec.and_assoc, BitVec.and_not_self]; simp
theorem masked_lowByte (x : Word) : ((x.extractLsb' 0 8).setWidth 32) &&& ~~~0xFF#32 = 0#32 := by
  apply BitVec.eq_of_getLsbD_eq
  intro j hj
  simp only [BitVec.getLsbD_and, BitVec.getLsbD_setWidth, BitVec.getLsbD_extractLsb', BitVec.getLsbD_not]
  by_cases h : j < 8
  · have : (255#32).getLsbD j = true := by interval_cases j <;> rfl
    rw [this]; simp
  · simp [h]

/-- Under `NEW_1M` the first MiB of the window encodes to the all-zero word (log 19). -/
theorem encodeSegment_firstMiB (v : Variant) (hv : v.segEnc = .new1M) :
    encodeSegment v ⟨v.winBase, 0x100000⟩ = 0#32 := by
  apply BitVec.eq_of_toNat_eq
  rw [encodeSegment, hv]
  simp only
  rw [encodeNew_toNat _ _ (by simp)]
  simp only [BitVec.toNat_ofNat]
  omega

/-- The range of the legacy decoder (R66). -/
theorem decode_range {v : Variant} (hv : v.segEnc = .legacy8M) (r : Word) :
    0 ≤ (decodeSegment v r).start ∧ (decodeSegment v r).start ≤ 0x7F800000 ∧
      0 ≤ (decodeSegment v r).stop ∧ (decodeSegment v r).stop ≤ 0x7F800000 := by
  have := r.isLt
  rw [decodeSegment_legacy_start v hv, decodeSegment_legacy_stop v hv]
  omega

/-- What an accepted write leaves: the stored word decodes to the segment, but for the first MiB (log 19). -/
theorem clamped_decodes {v : Variant} (hw : v.wf = true) {cs : Cs} (hc : v.has cs = true) (word : Word) (hrej : ¬ rejected v (clamped v cs word).seg = true) :
   sameSegment (clamped v cs word).seg (decodeSegment v (clamped v cs word).word) ∨
   (v.segEnc = .new1M ∧ cs = .cs0 ∧ (clamped v cs word).word = 0#32 ∧ (clamped v cs word).seg = ⟨v.winBase, MiB⟩) := by
  have f := Variant.wf_window hw
  have hb := f.base; have hr := f.range
  have d := Variant.wf_default hw hc
  obtain ⟨a1, a2⟩ := decodeSegment_aligned hw word
  rw [clamped_word]
  have hok := mt (rejected_eq v (clamped v cs word).seg).mpr hrej
  by_cases he : (clamped v cs word).seg = decodeSegment v word
  · rw [if_pos he, he]; exact .inl (.inl rfl)
  · rw [if_neg he]
    -- alignment of the clamped segment
    have hst : (clamped v cs word).seg.start = if cs = .cs0 then (v.winBase : Int) else (decodeSegment v word).start := clamped_start v cs word
    have hsp : (clamped v cs word).seg.stop = match v.fixedEnd.get cs with | none => (decodeSegment v word).stop | some e => (e : Int) := clamped_stop v cs word
    have hsz : (clamped v cs word).seg.stop = (clamped v cs word).seg.start + (clamped v cs word).seg.size := rfl
    have hdsp : (v.segDefault.get cs).stop = (v.segDefault.get cs).start + (v.segDefault.get cs).size := rfl
    have al1 : (clamped v cs word).seg.start % (unit v : Int) = 0 := by
      rw [hst]; split
      · omega
      · exact a1
    have al2 : (clamped v cs word).seg.stop % (unit v : Int) = 0 := by
      rw [hsp]
      cases hf : v.fixedEnd.get cs with
      | none => exact a2
      | some e =>
        simp only
        rw [d.fixedEnd e hf, hdsp]
        rw [Int.add_emod, d.start, d.size]; simp
    cases hv : v.segEnc
    · left; left
      obtain ⟨r1, r2, r3, r4⟩ := decode_range hv word
      simp only [hv] at hr
      simp only [unit, hv, MiB] at al1 al2 hb
      have b1 : 0 ≤ (clamped v cs word).seg.start ∧ (clamped v cs word).seg.start ≤ 0x7F800000 := by
        rw [hst]; split <;> omega
      have b2 : 0 ≤ (clamped v cs word).seg.stop ∧ (clamped v cs word).seg.stop ≤ 0x7F800000 := by
        rw [hsp]
        cases hf : v.fixedEnd.get cs with
        | none => exact ⟨r3, r4⟩
        | some e =>
          simp only
          rw [d.fixedEnd e hf]
          have := d.inside; rw [inWindow_iff] at this
          have h0 := d.startNonneg; have h1 := d.sizeNonneg
          refine ⟨by omega, ?_⟩
          by_cases hz : (v.segDefault.get cs).size = 0
          · have rt := d.roundTrip
            have := decode_range hv (encodeSegment v (v.segDefault.get cs))
            rw [rt] at this; exact this.2.2.2
          · have := (this hz).2; omega
      exact (decodeSegment_encodeSegment_legacy v hv _ b1.1 al1 al2 b1.2 b2.1 b2.2).symm
    · simp only [hv] at hr
      simp only [unit, hv, MiB] at al1 al2 hb
      by_cases hz : (clamped v cs word).seg.size = 0
      · left; right
        refine ⟨hz, ?_⟩
        have : encodeSegment v (clamped v cs word).seg = 0#32 := by simp [encodeSegment, hv, encodeNew, hz]
        rw [this, decodeSegment_new_zero v hv]
      · by_cases hm : (clamped v cs word).seg = ⟨v.winBase, 0x100000⟩
        · have hcs : cs = .cs0 := by
            by_contra hne
            -- then the end was clamped
            rw [if_neg hne] at hst
            cases hf : v.fixedEnd.get cs with
            | none =>
              apply he
              apply Segment.ext_ends hst
              rw [hsp, hf]
            | some e =>
              have h1 := d.fixedEnd e hf
              rw [hf] at hsp
              simp only at hsp
              have hst' : (clamped v cs word).seg.start = v.winBase := by rw [hm]
              have hsz' : (clamped v cs word).seg.size = 0x100000 := by rw [hm]
              have hstop : (v.segDefault.get cs).stop = v.winBase + 0x100000 := by rw [← h1, ← hsp, hsz, hst', hsz']
              have rt := d.roundTrip
              by_cases hz2 : (v.segDefault.get cs).size = 0
              · have : encodeSegment v (v.segDefault.get cs) = 0#32 := by simp [encodeSegment, hv, encodeNew, hz2]
                rw [this, decodeSegment_new_zero v hv] at rt
                rw [← rt] at hstop; simp only [Segment.stop] at hstop; omega
              · have i := d.inside hz2
                rw [inWindow_iff] at i
                have s1 := d.start; have s2 := d.size; have s3 := d.sizeNonneg
                simp only [unit, hv, MiB] at s1 s2
                have hd : v.segDefault.get cs = ⟨v.winBase, 0x100000⟩ := by
                  have : (v.segDefault.get cs).start = v.winBase := by omega
                  refine Segment.ext_ends this ?_
                  rw [hstop]; rfl
                rw [hd, encodeSegment_firstMiB v hv, decodeSegment_new_zero v hv] at rt
                injection rt with _ rt; omega
          right
          refine ⟨rfl, hcs, ?_, hm⟩
          rw [hm]; exact encodeSegment_firstMiB v hv
        · left; left
          have hw1 : (v.winBase : Int) ≤ (clamped v cs word).seg.start ∧ (clamped v cs word).seg.stop ≤ (v.winBase : Int) + v.winSize := by omega
          refine (decodeSegment_encodeSegment_new v hv _ hw1.1 (by omega) (by omega) (by omega) (by omega) (by omega) hm).symm



/-- The mapper keeps the invariant (R132). -/
theorem invariant_setSegment {s : State} (h : Invariant s) {cs : Cs} (hc : s.variant.has cs = true) (word : Word) : Invariant (setSegment cs word s) := by
  unfold setSegment
  simp only
  split
  · exact invariant_addLog h _
  · next hok =>
    have hacc := clamped_decodes h.descriptor hc word hok
    have hin := mt (rejected_eq s.variant (clamped s.variant cs word).seg).mpr hok
    have hst := clamped_start s.variant cs word
    have hsp := clamped_stop s.variant cs word
    constructor
    · exact h.descriptor
    · intro o ho
      by_cases he : o = cs
      · subst he
        unfold RegionDecodes firstMiBClamped applySegment
        simp only [Slots.get_set_same]
        rcases hacc with ha | ⟨a, b, c, d⟩
        · exact .inl ha
        · exact .inr ⟨a, b, c, d⟩
      · have := h.decodes o ho
        unfold RegionDecodes firstMiBClamped at this ⊢
        unfold applySegment
        simp only [Slots.get_set_ne _ _ he]; exact this
    · show ((s.region.set cs (clamped s.variant cs word).seg).get .cs0).start = _
      rw [Slots.get_set]; split
      · next h0 => rw [hst, if_pos h0.symm]; rfl
      · exact h.base
    · show (decodeSegment s.variant ((s.segAddr.set cs (clamped s.variant cs word).word).get .cs0)).start = _
      rw [Slots.get_set]; split
      · next h0 =>
        subst h0
        have hs0 : (clamped s.variant .cs0 word).seg.start = s.variant.winBase := by rw [hst, if_pos rfl]
        rw [clamped_word] at hacc ⊢
        by_cases he : (clamped s.variant .cs0 word).seg = decodeSegment s.variant word
        · rw [if_pos he, ← he]; exact hs0
        · rw [if_neg he] at hacc ⊢
          rcases hacc with (ha | ⟨hz, hz2⟩) | ⟨hv, -, hz, -⟩
          · rw [← ha]; exact hs0
          · cases hv : s.variant.segEnc
            · -- legacy: start of the encoding
              have hv0 := hz
              obtain ⟨a1, a2⟩ := decodeSegment_aligned h.descriptor word
              have f := Variant.wf_window h.descriptor
              have hb := f.base; have hr := f.range
              simp only [hv, unit, MiB] at hr hb
              have e1 : (clamped s.variant .cs0 word).seg.stop = (clamped s.variant .cs0 word).seg.start + (clamped s.variant .cs0 word).seg.size := rfl
              rw [decodeSegment_encodeSegment_legacy s.variant hv _ (by omega) (by omega) (by omega) (by omega) (by omega) (by omega)]; exact hs0
            · have : encodeSegment s.variant (clamped s.variant .cs0 word).seg = 0#32 := by simp [encodeSegment, hv, encodeNew, hz]
              rw [this, decodeSegment_new_zero s.variant hv]; rfl
          · rw [hz, decodeSegment_new_zero s.variant hv]; rfl
      · exact h.baseWord
    · intro o ho
      unfold FixedEndKept
      show ∀ e, s.variant.fixedEnd.get o = some e → ((s.region.set cs (clamped s.variant cs word).seg).get o).stop = e
      intro e hfe
      rw [Slots.get_set]; split
      · next he => subst he; rw [hsp, hfe]
      · exact h.fixedEnd o ho e hfe
    · intro o ho
      unfold RegionInside
      show 0 ≤ ((s.region.set cs (clamped s.variant cs word).seg).get o).size ∧ (0 < ((s.region.set cs (clamped s.variant cs word).seg).get o).size → inWindow s.variant ((s.region.set cs (clamped s.variant cs word).seg).get o) = true)
      rw [Slots.get_set]; split
      · rw [inWindow_iff]
        clear hsp
        omega
      · exact h.inside o ho
    · exact h.lines
    · exact h.lenMasked
    · exact h.dummyMasked
    · exact h.snoop
    · exact h.memory

/-- R132(a) as the word sees it, with no exception: under `NEW_1M` the sub-region and the segment its
register decodes to have one word, also in the state of log 19. -/
theorem Invariant.region_word {s : State} (h : Invariant s) (hv : s.variant.segEnc = .new1M) {cs : Cs}
    (hc : s.variant.has cs = true) :
    encodeSegment s.variant (s.region.get cs)
      = encodeSegment s.variant (decodeSegment s.variant (s.segAddr.get cs)) := by
  obtain (he | ⟨h0, h1⟩) | ⟨-, -, hw, hg⟩ := h.decodes cs hc
  · rw [he]
  · simp only [encodeSegment, hv, encodeNew, h0, h1, if_true]
  · rw [hg, hw, decodeSegment_new_zero s.variant hv]
    exact (encodeSegment_firstMiB s.variant hv).trans (by simp [encodeSegment, hv, encodeNew])

end Sys2Proof.Machine
end

