-- ==== Sys2Proof/Laws/Log.lean ====
section
/-! SUPPORT. No operation reads the log (R35): with another log it does the same and appends the same events. -/

namespace Sys2Proof.Machine

/-- The state with another log. -/
def withLog (l : List Event) (s : State) : State := { s with log := l }
/-- An operation that reads no log and only appends to it (R35). -/
def LogBlind (g : State → State) : Prop := ∀ s, ∃ es, (g s).log = s.log ++ es ∧ ∀ l, g (withLog l s) = withLog (l ++ es) (g s)
/-- The same of an operation with an answer. -/
def LogBlindValue {α : Type} (g : State → α × State) : Prop := ∀ s, ∃ es, (g s).2.log = s.log ++ es ∧ ∀ l, g (withLog l s) = ((g s).1, withLog (l ++ es) (g s).2)
/-- The same of an operation that may stop. -/
def LogBlindResult (g : State → Result) : Prop := ∀ s t, g s = .next t → ∃ es, t.log = s.log ++ es ∧ ∀ l, g (withLog l s) = .next (withLog (l ++ es) t)

theorem LogBlind.comp {f g : State → State} (hf : LogBlind f) (hg : LogBlind g) : LogBlind (fun s => g (f s)) := by
  intro s
  obtain ⟨e1, a1, b1⟩ := hf s
  obtain ⟨e2, a2, b2⟩ := hg (f s)
  exact ⟨e1 ++ e2, by rw [a2, a1, List.append_assoc], fun l => by simp only [b1, b2, List.append_assoc]⟩
theorem LogBlind.compP {α : Type} {f : State → State} {g : State → α × State} (hf : LogBlind f) (hg : LogBlindValue g) : LogBlindValue (fun s => g (f s)) := by
  intro s
  obtain ⟨e1, a1, b1⟩ := hf s
  obtain ⟨e2, a2, b2⟩ := hg (f s)
  exact ⟨e1 ++ e2, by rw [a2, a1, List.append_assoc], fun l => by simp only [b1, b2, List.append_assoc]⟩
theorem LogBlindValue.snd {α : Type} {g : State → α × State} (hg : LogBlindValue g) : LogBlind (fun s => (g s).2) := by
  intro s
  obtain ⟨e2, a2, b2⟩ := hg s
  exact ⟨e2, a2, fun l => by show (g (withLog l s)).2 = _; rw [b2]⟩
theorem LogBlind.self {f : State → State} (h : ∀ s, (f s).log = s.log) (h2 : ∀ s l, f (withLog l s) = withLog l (f s)) : LogBlind f := fun s => ⟨[], by simp [h], fun l => by simp [h2]⟩
theorem LogBlind.idn : LogBlind (fun s => s) := LogBlind.self (fun _ => rfl) (fun _ _ => rfl)

theorem logBlind_addLog (f : State → List Event) (h : ∀ s l, f (withLog l s) = f s) : LogBlind (fun s => addLog (f s) s) := fun s => ⟨f s, rfl, fun l => by show addLog (f (withLog l s)) _ = _; rw [h]; rfl⟩

theorem logBlind_framed (cs : Cs) (ef : State → List Event) (sf : State → List Byte) (h1 : ∀ s l, ef (withLog l s) = ef s)
    (h2 : ∀ s l, sf (withLog l s) = sf s) :
    LogBlind (fun s => transferred (sf s) (addLog (ef s) (driveLine cs true s))) := by
  intro s
  refine ⟨ef s, by simp, fun l => ?_⟩
  show transferred (sf (withLog l s)) (addLog (ef (withLog l s)) (driveLine cs true (withLog l s))) = _
  rw [h1, h2]
  simp only [driveLine_eq]
  rfl

theorem logBlind_driveLine (cs : Cs) (b : Bool) : LogBlind (driveLine cs b) :=
  LogBlind.self (fun s => by simp) (fun s l => by rw [driveLine_eq, driveLine_eq]; rfl)

theorem logBlind_frameOpen (cs : Cs) (a : Word) : LogBlind (frameOpen cs a) := by
  have h := logBlind_framed cs (frameEvents cs a) (frameHead cs a) (fun _ _ => rfl) (fun s l => by
    unfold frameHead
    have hc : (clampToSegment cs a (withLog l s)).1 = (clampToSegment cs a s).1 := clampToSegment_congr cs a rfl rfl
    rw [hc]; rfl)
  intro s
  obtain ⟨es, x, y⟩ := h s
  simp only at x y
  refine ⟨es, by rw [frameOpen_eq]; exact x, fun l => ?_⟩
  rw [frameOpen_eq, frameOpen_eq]; exact y l

theorem logBlind_receive (n : Nat) : LogBlindValue (receiveBytes n) := fun s =>
  ⟨[], by rw [receiveBytes_eq]; simp, fun l => by rw [receiveBytes_eq, receiveBytes_eq, List.append_nil]; rfl⟩

theorem logBlind_framedLoad (cs : Cs) (a : Word) (w : Width) : LogBlindValue (framedLoad cs a w) := by
  have h := (logBlind_frameOpen cs a).compP (logBlind_receive w.bytes)
  intro s
  obtain ⟨es, x, y⟩ := h s
  simp only at x y
  refine ⟨es, by simpa [framedLoad, frameClose] using x, fun l => ?_⟩
  unfold framedLoad frameClose
  simp only [y]
  obtain ⟨_, _, z⟩ := logBlind_driveLine cs false (receiveBytes w.bytes (frameOpen cs a s)).2
  rw [driveLine_eq, driveLine_eq]; rfl

theorem logBlind_framedStore (cs : Cs) (a : Word) (w : Width) (d : Word) : LogBlind (framedStore cs a w d) := by
  have h : LogBlind (fun s => sendBytes (payload w d) (frameOpen cs a s)) :=
    (logBlind_frameOpen cs a).comp (g := sendBytes (payload w d))
      (LogBlind.self (fun _ => by rw [sendBytes_eq]; simp) (fun _ _ => by rw [sendBytes_eq, sendBytes_eq]; rfl))
  exact h.comp (logBlind_driveLine cs false)

theorem logBlind_userByte (cs : Cs) (b : Byte) : LogBlind (userByte cs b) := LogBlind.self (fun s => by simp) (fun s l => by rw [userByte_eq, userByte_eq]; rfl)
theorem logBlind_userBytes (cs : Cs) (l : List Byte) : LogBlind (userBytes cs l) := by
  induction l with
  | nil => exact LogBlind.idn
  | cons b l ih => exact (logBlind_userByte cs b).comp ih
theorem logBlind_rejectStore (cs : Cs) (a : Word) : LogBlind (rejectStore cs a) := fun s => ⟨_, rfl, fun l => rfl⟩

theorem logBlind_flashLoad (cs : Cs) (a : Word) (w : Width) : LogBlindValue (flashLoad cs a w) := by
  intro s
  have hm : ∀ l, (withLog l s).mode cs = s.mode cs := fun _ => rfl
  cases h : s.mode cs <;> simp only [flashLoad, hm, h]
  · exact logBlind_framedLoad cs a w s
  · exact logBlind_framedLoad cs a w s
  · exact ⟨[.flashInvalidMode cs .read .write], rfl, fun l => rfl⟩
  · refine ⟨[], ?_, fun l => ?_⟩
    · show (receiveBytes w.bytes s).2.log = _; rw [receiveBytes_eq]; simp
    · simp only [userLoad, receiveBytes_eq, List.append_nil]; rfl
theorem logBlind_flashStore (cs : Cs) (a : Word) (w : Width) (d : Word) : LogBlind (flashStore cs a w d) := by
  intro s
  have hm : ∀ l, (withLog l s).mode cs = s.mode cs := fun _ => rfl
  have hw : ∀ l, (withLog l s).writable cs = s.writable cs := fun _ => rfl
  unfold flashStore
  simp only [hm, hw]
  split
  · split
    · exact ⟨_, rfl, fun l => rfl⟩
    · exact ⟨_, rfl, fun l => rfl⟩
    · exact logBlind_framedStore cs a w d s
    · exact logBlind_userBytes cs _ s
  · exact logBlind_rejectStore cs a s

theorem logBlind_flashRead32 (x : Word) : LogBlindValue (flashRead32 x) := by
  intro s
  unfold flashRead32
  have hb : ∀ l, (withLog l s).binding = s.binding := fun _ => rfl
  have hr : ∀ l, route (withLog l s) ((withLog l s).variant.winBase + x.toNat) 4 = route s (s.variant.winBase + x.toNat) 4 := fun _ => rfl
  simp only [hb, hr]
  split
  · unfold externalFlashRead32 nextFlashReply
    have hf : ∀ l, (withLog l s).flashReplies = s.flashReplies := fun _ => rfl
    simp only [hf]
    split
    · exact ⟨[], by simp, fun l => by simp; rfl⟩
    · have hfc : ∀ l, (withLog l s).freeCount = s.freeCount := fun _ => rfl
      simp only [hfc]
      split <;> exact ⟨[], by simp, fun l => by simp; rfl⟩
  · split
    · exact ⟨[], by simp, fun l => by simp⟩
    · split
      · exact ⟨[], by simp, fun l => by simp⟩
      · next cs addr _ =>
        obtain ⟨es, a, b⟩ := logBlind_flashLoad cs addr .w4 s
        exact ⟨es, a, fun l => by rw [b]⟩
theorem logBlind_flashWrite32 (x w : Word) : LogBlindValue (flashWrite32 x w) := by
  intro s
  unfold flashWrite32
  have hb : ∀ l, (withLog l s).binding = s.binding := fun _ => rfl
  have hr : ∀ l, route (withLog l s) ((withLog l s).variant.winBase + x.toNat) 4 = route s (s.variant.winBase + x.toNat) 4 := fun _ => rfl
  simp only [hb, hr]
  split
  · unfold externalFlashWrite32 nextFlashReply
    have hf : ∀ l, (withLog l s).flashReplies = s.flashReplies := fun _ => rfl
    simp only [hf]
    split
    · exact ⟨[], by simp, fun l => by simp; rfl⟩
    · have hfc : ∀ l, (withLog l s).freeCount = s.freeCount := fun _ => rfl
      simp only [hfc]
      split <;> exact ⟨[], by simp, fun l => by simp; rfl⟩
  · split
    · exact ⟨[], by simp, fun l => by simp⟩
    · split
      · exact ⟨[], by simp, fun l => by simp⟩
      · next cs addr _ =>
        obtain ⟨es, a, b⟩ := logBlind_flashStore cs addr .w4 w s
        exact ⟨es, a, fun l => by rw [b]⟩
theorem nextDramReply_withLog (s : State) : (nextDramReply s).2.log = s.log ∧ (nextDramReply s).2.dram = s.dram ∧ ∀ l, nextDramReply (withLog l s) = ((nextDramReply s).1, withLog l (nextDramReply s).2) := by
  unfold nextDramReply
  have hf : ∀ l, (withLog l s).dramReplies = s.dramReplies := fun _ => rfl
  simp only [hf]
  split <;> exact ⟨rfl, rfl, fun l => rfl⟩
theorem logBlind_dramRead32 (a : Word) : LogBlindValue (dramRead32 a) := by
  intro s
  obtain ⟨h1, h2, h3⟩ := nextDramReply_withLog s
  have hd : ∀ l, (withLog l s).dram = s.dram := fun _ => rfl
  unfold dramRead32
  simp only [h3, hd]
  split
  · exact ⟨[], by simp, fun l => by simp; rfl⟩
  · rcases hn : nextDramReply s with ⟨r, u⟩
    rw [hn] at h1
    cases r <;> exact ⟨[], by simpa using h1, fun l => by simp; rfl⟩
theorem logBlind_dramWrite32 (a w : Word) : LogBlindValue (dramWrite32 a w) := by
  intro s
  obtain ⟨h1, h2, h3⟩ := nextDramReply_withLog s
  have hd : ∀ l, (withLog l s).dram = s.dram := fun _ => rfl
  unfold dramWrite32
  simp only [h3, hd]
  split
  · exact ⟨[], by simp, fun l => by simp; rfl⟩
  · rcases hn : nextDramReply s with ⟨r, u⟩
    rw [hn] at h1
    cases r <;> exact ⟨[], by simpa using h1, fun l => by simp; rfl⟩

theorem logBlind_checksumStep : LogBlindValue checksumStep := by
  intro s
  obtain ⟨es, a, b⟩ := logBlind_flashRead32 s.dmaFlashAddr s
  unfold checksumStep
  have hx : ∀ l, (withLog l s).dmaFlashAddr = s.dmaFlashAddr := fun _ => rfl
  simp only [hx, b]
  generalize flashRead32 s.dmaFlashAddr s = q at *
  obtain ⟨_ | w, u⟩ := q
  · exact ⟨es ++ [.dmaFlashReadFail s.dmaFlashAddr], by show u.log ++ _ = _; rw [show u.log = _ from a]; simp, fun l => by simp [withLog, addLog]⟩
  · exact ⟨es, a, fun l => rfl⟩
theorem logBlind_readStep : LogBlindValue readStep := by
  intro s
  obtain ⟨es, a, b⟩ := logBlind_flashRead32 s.dmaFlashAddr s
  unfold readStep
  have hx : ∀ l, (withLog l s).dmaFlashAddr = s.dmaFlashAddr := fun _ => rfl
  have hy : ∀ l, (withLog l s).dmaDramAddr = s.dmaDramAddr := fun _ => rfl
  simp only [hx, hy, b]
  generalize flashRead32 s.dmaFlashAddr s = q at *
  obtain ⟨_ | w, u⟩ := q
  · exact ⟨es ++ [.dmaFlashReadFail s.dmaFlashAddr], by show u.log ++ _ = _; rw [show u.log = _ from a]; simp, fun l => by simp [withLog, addLog]⟩
  · obtain ⟨es2, a2, b2⟩ := logBlind_dramWrite32 s.dmaDramAddr w u
    simp only [b2]
    generalize dramWrite32 s.dmaDramAddr w u = q2 at *
    obtain ⟨_ | _, x⟩ := q2
    · exact ⟨es ++ es2 ++ [.dmaDramWriteFail s.dmaDramAddr], by show x.log ++ _ = _; rw [show x.log = _ from a2, show u.log = _ from a]; simp, fun l => by simp [withLog, addLog]⟩
    · exact ⟨es ++ es2, by show x.log = _; rw [show x.log = _ from a2, show u.log = _ from a]; simp, fun l => by simp [withLog, transferAdvance]⟩
theorem logBlind_writeStep : LogBlindValue writeStep := by
  intro s
  obtain ⟨es, a, b⟩ := logBlind_dramRead32 s.dmaDramAddr s
  unfold writeStep
  have hx : ∀ l, (withLog l s).dmaFlashAddr = s.dmaFlashAddr := fun _ => rfl
  have hy : ∀ l, (withLog l s).dmaDramAddr = s.dmaDramAddr := fun _ => rfl
  simp only [hx, hy, b]
  generalize dramRead32 s.dmaDramAddr s = q at *
  obtain ⟨_ | w, u⟩ := q
  · exact ⟨es ++ [.dmaDramReadFail s.dmaDramAddr], by show u.log ++ _ = _; rw [show u.log = _ from a]; simp, fun l => by simp [withLog, addLog]⟩
  · obtain ⟨es2, a2, b2⟩ := logBlind_flashWrite32 s.dmaFlashAddr w u
    simp only [b2]
    generalize flashWrite32 s.dmaFlashAddr w u = q2 at *
    obtain ⟨_ | _, x⟩ := q2
    · exact ⟨es ++ es2 ++ [.dmaFlashWriteFail s.dmaFlashAddr], by show x.log ++ _ = _; rw [show x.log = _ from a2, show u.log = _ from a]; simp, fun l => by simp [withLog, addLog]⟩
    · exact ⟨es ++ es2, by show x.log = _; rw [show x.log = _ from a2, show u.log = _ from a]; simp, fun l => by simp [withLog, transferAdvance]⟩
theorem logBlind_dmaLoop {body : State → Bool × State} (h : LogBlindValue body) (n : Nat) : LogBlindValue (dmaLoop body n) := by
  induction n with
  | zero => intro s; exact ⟨[], by simp [dmaLoop], fun l => by simp [dmaLoop]⟩
  | succ n ih =>
    intro s
    obtain ⟨e1, a1, b1⟩ := h s
    simp only [dmaLoop, b1]
    cases (body s).1
    · exact ⟨e1, a1, fun l => rfl⟩
    · obtain ⟨e2, a2, b2⟩ := ih (body s).2
      refine ⟨e1 ++ e2, ?_, fun l => ?_⟩
      · simp only [if_true]; rw [a2, a1, List.append_assoc]
      · simp only [if_true]; rw [b2, List.append_assoc]
theorem logBlind_checksumRun : LogBlind checksumRun := by
  intro s
  obtain ⟨e1, a1, b1⟩ := logBlind_dmaLoop logBlind_checksumStep (dmaSteps s) s
  have hd : ∀ l, dmaSteps (withLog l s) = dmaSteps s := fun _ => rfl
  unfold checksumRun
  simp only [hd, b1]
  cases (dmaLoop checksumStep (dmaSteps s) s).1
  · exact ⟨e1, a1, fun l => rfl⟩
  · simp only [if_true]
    have hi : LogBlind injectFailure := LogBlind.self (fun s => by unfold injectFailure; split <;> rfl)
      (fun s l => by
        unfold injectFailure
        have h1 : (withLog l s).variant = s.variant := rfl
        have h2 : (withLog l s).dmaCtrl = s.dmaCtrl := rfl
        rw [h1, h2]; split <;> rfl)
    obtain ⟨e2, a2, b2⟩ := hi (dmaLoop checksumStep (dmaSteps s) s).2
    refine ⟨e1 ++ e2, by rw [a2, a1, List.append_assoc], fun l => ?_⟩
    rw [b2, List.append_assoc]
theorem logBlind_transferRun : LogBlind transferRun := by
  intro s
  have hd : ∀ l, dmaSteps (withLog l s) = dmaSteps s := fun _ => rfl
  have hc : ∀ l, (withLog l s).dmaCtrl = s.dmaCtrl := fun _ => rfl
  unfold transferRun
  simp only [hd, hc]
  split
  · exact (logBlind_dmaLoop logBlind_writeStep (dmaSteps s)).snd s
  · exact (logBlind_dmaLoop logBlind_readStep (dmaSteps s)).snd s
theorem logBlind_calibrate : LogBlind calibrate := LogBlind.self (fun s => by rw [calibrate_eq]) (fun s l => by rw [calibrate_eq, calibrate_eq]; rfl)
theorem logBlind_startDma (v : Word) {body : State → State} (h : LogBlind body) : LogBlindResult (startDma v body) := by
  intro s t he
  unfold startDma at he ⊢
  have h1 : ∀ l, (withLog l s).dmaInProgress = s.dmaInProgress := fun _ => rfl
  have h2 : ∀ l, (withLog l s).dmaLen = s.dmaLen := fun _ => rfl
  simp only [h1, h2]
  split_ifs at he ⊢
  · injection he with he; rw [← he]; exact ⟨[.dmaInProgress v], rfl, fun l => rfl⟩
  · injection he with he
    obtain ⟨es, a, b⟩ := h { s with dmaCtrl := v }
    rw [← he]
    refine ⟨es, a, fun l => ?_⟩
    have := congrArg (fun z => (Host.Outcome.next (returnNone (complete z)) : Result)) (b l)
    exact this
theorem logBlind_writeDmaControl (v : Word) : LogBlindResult (writeDmaControl v) := by
  intro s t he
  unfold writeDmaControl at he ⊢
  split_ifs at he ⊢
  · injection he with he; rw [← he]; exact ⟨[], by simp [returnNone, stopDma], fun l => by simp; rfl⟩
  · exact logBlind_startDma v (logBlind_calibrate.comp logBlind_checksumRun) s t he
  · exact logBlind_startDma v logBlind_checksumRun s t he
  · exact logBlind_startDma v logBlind_transferRun s t he
theorem logBlind_ifDma (v : Word) {r : State → Result} (h : LogBlindResult r) : LogBlindResult (fun s => ifDma v s (r s)) := by
  intro s t he
  unfold ifDma at he ⊢
  simp only at he ⊢
  have h1 : ∀ l, (withLog l s).variant = s.variant := fun _ => rfl
  simp only [h1]
  split_ifs at he ⊢
  · exact h s t he
  · injection he with he; rw [← he]; exact ⟨_, rfl, fun l => rfl⟩
theorem logBlind_next {g : State → State} (h : LogBlind g) : LogBlindResult (fun s => .next (g s)) := by
  intro s t he
  injection he with he
  obtain ⟨es, a, b⟩ := h s
  rw [← he]; exact ⟨es, a, fun l => by simp only [b]⟩
theorem logBlind_unrecognisedRead (off : State → Byte) (h : ∀ l s, off (withLog l s) = off s) (w : Width) : LogBlind (fun s => unrecognisedRead (off s) w s) := fun s => ⟨[.unimplementedRead (off s)], rfl, fun l => by show unrecognisedRead (off (withLog l s)) w _ = _; rw [h]; rfl⟩
theorem logBlind_readIf (r : Reg) (w : Width) (f : State → Word) (h : ∀ l s, f (withLog l s) = f s) : LogBlindResult (fun s => readIf r w (f s) s) := by
  intro s t he
  unfold readIf at he ⊢
  injection he with he
  have h1 : ∀ l, (withLog l s).variant = s.variant := fun _ => rfl
  simp only [h1, h]
  rw [← he]
  split
  · exact ⟨[], by simp, fun l => by simp; rfl⟩
  · exact ⟨_, rfl, fun l => rfl⟩
theorem logBlind_writeIf (r : Reg) (v : Word) {g : State → State} (h : LogBlind g) : LogBlindResult (fun s => writeIf r v s (g s)) := by
  intro s t he
  unfold writeIf at he ⊢
  injection he with he
  have h1 : ∀ l, (withLog l s).variant = s.variant := fun _ => rfl
  simp only [h1]
  rw [← he]
  split
  · obtain ⟨es, a, b⟩ := h s
    exact ⟨es, a, fun l => by rw [b]; rfl⟩
  · exact ⟨_, rfl, fun l => rfl⟩
theorem logBlind_inMode (cs : Cs) (m : Mode) {g : State → State} (h : LogBlind g) : LogBlindResult (fun s => inMode cs m s (g s)) := by
  intro s t he
  unfold inMode at he ⊢
  have h1 : ∀ l, (withLog l s).variant = s.variant := fun _ => rfl
  have h2 : ∀ l, (withLog l s).mode cs = s.mode cs := fun _ => rfl
  simp only [h1, h2]
  simp only at he
  split_ifs at he ⊢
  injection he with he; rw [← he]
  obtain ⟨es, a, b⟩ := h s
  exact ⟨es, a, fun l => by rw [b]⟩
theorem logBlind_snoopRowStore (cs : Cs) (a : Word) (b : Byte) : LogBlindResult (snoopRowStore cs a b) := by
  have : LogBlind (userStore cs a [b]) := by
    intro s
    unfold userStore
    have hw : ∀ l, (withLog l s).writable cs = s.writable cs := fun _ => rfl
    simp only [hw]
    split
    · exact logBlind_userBytes cs _ s
    · exact logBlind_rejectStore cs a s
  exact logBlind_inMode cs .user (this.comp (g := returnNone) (LogBlind.self (fun _ => rfl) (fun _ _ => rfl)))
theorem logBlind_loadInMode (m : Mode) (cs : Cs) (a : Word) (w : Width) : LogBlindResult (loadInMode m cs a w) := by
  have : LogBlind (fun s => returnValue w (flashLoad cs a w s).1 (flashLoad cs a w s).2) := by
    intro s
    obtain ⟨es, x, y⟩ := logBlind_flashLoad cs a w s
    exact ⟨es, x, fun l => by show returnValue w (flashLoad cs a w (withLog l s)).1 (flashLoad cs a w (withLog l s)).2 = _; rw [y]; rfl⟩
  exact logBlind_inMode cs m this
theorem logBlind_storeInMode (m : Mode) (cs : Cs) (a : Word) (w : Width) (d : Word) : LogBlindResult (storeInMode m cs a w d) :=
  logBlind_inMode cs m ((logBlind_flashStore cs a w d).comp (g := returnNone) (LogBlind.self (fun _ => rfl) (fun _ _ => rfl)))
theorem logBlind_writeCtrl (cs : Cs) (v : Word) : LogBlind (writeCtrl cs v) := by
  have h1 : ∀ l s, (withLog l s).ctrl = s.ctrl := fun _ _ => rfl
  refine LogBlind.self (fun s => ?_) (fun s l => ?_)
  · unfold writeCtrl propagateAsserted
    split
    · rfl
    · split <;> simp
  · unfold writeCtrl propagateAsserted State.asserted
    rw [h1]
    split
    · rfl
    · split <;> (rw [driveLine_eq, driveLine_eq]; rfl)

theorem logBlind_writeSeg (cs : Cs) (v : Word) : LogBlind (writeSeg cs v) := by
  intro s
  unfold writeSeg
  have h1 : ∀ l, (withLog l s).segAddr = s.segAddr := fun _ => rfl
  simp only [h1]
  split
  · exact ⟨[], by simp, fun l => by simp⟩
  · unfold setSegment
    have h2 : ∀ l, (withLog l s).variant = s.variant := fun _ => rfl
    have h3 : ∀ l, adviceEvents (withLog l s) cs (clamped s.variant cs v).seg = adviceEvents s cs (clamped s.variant cs v).seg := fun _ => rfl
    simp only [h2, h3]
    split
    · exact ⟨_, rfl, fun l => by simp [withLog, addLog]⟩
    · exact ⟨_, rfl, fun l => by simp [withLog, addLog, applySegment]⟩

end Sys2Proof.Machine
end

