-- ==== Sys2Proof/Laws/PerInstr.lean ====
section
/-! SUPPORT. What holds of every operation as syntax, one lemma per constructor. -/

namespace Sys2Proof.Laws.OneLength

/-- R60: operations have no lengths of their own; every operation is encoded in one frame of nine bytes
(log 3), whatever the variant. -/
def Statement (i : Instr) : Prop := ∀ v : Variant, (encode v i).2.length = 9

theorem rdConf (w : Width) : Statement (.rdConf w) := fun _ => rfl
theorem wrConf (w : Width) (data : Word) : Statement (.wrConf w data) := fun _ => rfl
theorem rdCeCtrl (w : Width) : Statement (.rdCeCtrl w) := fun _ => rfl
theorem wrCeCtrl (w : Width) (data : Word) : Statement (.wrCeCtrl w data) := fun _ => rfl
theorem rdIntrCtrl (w : Width) : Statement (.rdIntrCtrl w) := fun _ => rfl
theorem wrIntrCtrl (w : Width) (data : Word) : Statement (.wrIntrCtrl w data) := fun _ => rfl
theorem rdCtrl0 (w : Width) : Statement (.rdCtrl0 w) := fun _ => rfl
theorem wrCtrl0 (w : Width) (data : Word) : Statement (.wrCtrl0 w data) := fun _ => rfl
theorem rdCtrl1 (w : Width) : Statement (.rdCtrl1 w) := fun _ => rfl
theorem wrCtrl1 (w : Width) (data : Word) : Statement (.wrCtrl1 w data) := fun _ => rfl
theorem rdCtrl2 (w : Width) : Statement (.rdCtrl2 w) := fun _ => rfl
theorem wrCtrl2 (w : Width) (data : Word) : Statement (.wrCtrl2 w data) := fun _ => rfl
theorem rdCtrl3 (w : Width) : Statement (.rdCtrl3 w) := fun _ => rfl
theorem wrCtrl3 (w : Width) (data : Word) : Statement (.wrCtrl3 w data) := fun _ => rfl
theorem rdCtrl4 (w : Width) : Statement (.rdCtrl4 w) := fun _ => rfl
theorem wrCtrl4 (w : Width) (data : Word) : Statement (.wrCtrl4 w data) := fun _ => rfl
theorem rdSegAddr0 (w : Width) : Statement (.rdSegAddr0 w) := fun _ => rfl
theorem wrSegAddr0 (w : Width) (data : Word) : Statement (.wrSegAddr0 w data) := fun _ => rfl
theorem rdSegAddr1 (w : Width) : Statement (.rdSegAddr1 w) := fun _ => rfl
theorem wrSegAddr1 (w : Width) (data : Word) : Statement (.wrSegAddr1 w data) := fun _ => rfl
theorem rdSegAddr2 (w : Width) : Statement (.rdSegAddr2 w) := fun _ => rfl
theorem wrSegAddr2 (w : Width) (data : Word) : Statement (.wrSegAddr2 w data) := fun _ => rfl
theorem rdSegAddr3 (w : Width) : Statement (.rdSegAddr3 w) := fun _ => rfl
theorem wrSegAddr3 (w : Width) (data : Word) : Statement (.wrSegAddr3 w data) := fun _ => rfl
theorem rdSegAddr4 (w : Width) : Statement (.rdSegAddr4 w) := fun _ => rfl
theorem wrSegAddr4 (w : Width) (data : Word) : Statement (.wrSegAddr4 w data) := fun _ => rfl
theorem rdDummyData (w : Width) : Statement (.rdDummyData w) := fun _ => rfl
theorem wrDummyData (w : Width) (data : Word) : Statement (.wrDummyData w data) := fun _ => rfl
theorem rdDmaCtrl (w : Width) : Statement (.rdDmaCtrl w) := fun _ => rfl
theorem wrDmaCtrl (w : Width) (data : Word) : Statement (.wrDmaCtrl w data) := fun _ => rfl
theorem rdDmaFlashAddr (w : Width) : Statement (.rdDmaFlashAddr w) := fun _ => rfl
theorem wrDmaFlashAddr (w : Width) (data : Word) : Statement (.wrDmaFlashAddr w data) := fun _ => rfl
theorem rdDmaDramAddr (w : Width) : Statement (.rdDmaDramAddr w) := fun _ => rfl
theorem wrDmaDramAddr (w : Width) (data : Word) : Statement (.wrDmaDramAddr w data) := fun _ => rfl
theorem rdDmaLen (w : Width) : Statement (.rdDmaLen w) := fun _ => rfl
theorem wrDmaLen (w : Width) (data : Word) : Statement (.wrDmaLen w data) := fun _ => rfl
theorem rdDmaChecksum (w : Width) : Statement (.rdDmaChecksum w) := fun _ => rfl
theorem wrDmaChecksum (w : Width) (data : Word) : Statement (.wrDmaChecksum w data) := fun _ => rfl
theorem rdTimings (w : Width) : Statement (.rdTimings w) := fun _ => rfl
theorem wrTimings (w : Width) (data : Word) : Statement (.wrTimings w data) := fun _ => rfl
theorem rdUnrecognised (off : Byte) (w : Width) : Statement (.rdUnrecognised off w) := fun _ => rfl
theorem wrUnrecognised (off : Byte) (w : Width) (data : Word) : Statement (.wrUnrecognised off w data) := fun _ => rfl
theorem fldRead (cs : Cs) (addr : Word) (w : Width) : Statement (.fldRead cs addr w) := fun _ => rfl
theorem fldFread (cs : Cs) (addr : Word) (w : Width) : Statement (.fldFread cs addr w) := fun _ => rfl
theorem fldWrite (cs : Cs) (addr : Word) (w : Width) : Statement (.fldWrite cs addr w) := fun _ => rfl
theorem fldUser (cs : Cs) (addr : Word) (w : Width) : Statement (.fldUser cs addr w) := fun _ => rfl
theorem fstRead (cs : Cs) (addr : Word) (w : Width) (data : Word) : Statement (.fstRead cs addr w data) := fun _ => rfl
theorem fstFread (cs : Cs) (addr : Word) (w : Width) (data : Word) : Statement (.fstFread cs addr w data) := fun _ => rfl
theorem fstWrite (cs : Cs) (addr : Word) (w : Width) (data : Word) : Statement (.fstWrite cs addr w data) := fun _ => rfl
theorem fstUser (cs : Cs) (addr : Word) (w : Width) (data : Word) : Statement (.fstUser cs addr w data) := fun _ => rfl
theorem dmaStop (upper : BitVec 31) : Statement (.dmaStop upper) := fun _ => rfl
theorem dmaCksum (wr : Bool) (upper : BitVec 28) : Statement (.dmaCksum wr upper) := fun _ => rfl
theorem dmaCksumCal (wr : Bool) (upper : BitVec 28) : Statement (.dmaCksumCal wr upper) := fun _ => rfl
theorem dmaRd (calib : Bool) (upper : BitVec 28) : Statement (.dmaRd calib upper) := fun _ => rfl
theorem dmaWr (calib : Bool) (upper : BitVec 28) : Statement (.dmaWr calib upper) := fun _ => rfl
theorem snoopPlainRead (cs : Cs) (addr : Word) : Statement (.snoopPlainRead cs addr) := fun _ => rfl
theorem snoopPlainRead4 (cs : Cs) (addr : Word) : Statement (.snoopPlainRead4 cs addr) := fun _ => rfl
theorem snoopPlainPp (cs : Cs) (addr : Word) : Statement (.snoopPlainPp cs addr) := fun _ => rfl
theorem snoopPlainPp4 (cs : Cs) (addr : Word) : Statement (.snoopPlainPp4 cs addr) := fun _ => rfl
theorem snoopPlainDpp (cs : Cs) (addr : Word) : Statement (.snoopPlainDpp cs addr) := fun _ => rfl
theorem snoopPlainQpp (cs : Cs) (addr : Word) : Statement (.snoopPlainQpp cs addr) := fun _ => rfl
theorem snoopPlainQpp4 (cs : Cs) (addr : Word) : Statement (.snoopPlainQpp4 cs addr) := fun _ => rfl
theorem snoopPlainPp44 (cs : Cs) (addr : Word) : Statement (.snoopPlainPp44 cs addr) := fun _ => rfl
theorem snoopFastFastRead (cs : Cs) (addr : Word) : Statement (.snoopFastFastRead cs addr) := fun _ => rfl
theorem snoopFastFastRead4 (cs : Cs) (addr : Word) : Statement (.snoopFastFastRead4 cs addr) := fun _ => rfl
theorem snoopFastDor (cs : Cs) (addr : Word) : Statement (.snoopFastDor cs addr) := fun _ => rfl
theorem snoopFastDor4 (cs : Cs) (addr : Word) : Statement (.snoopFastDor4 cs addr) := fun _ => rfl
theorem snoopFastQor (cs : Cs) (addr : Word) : Statement (.snoopFastQor cs addr) := fun _ => rfl
theorem snoopFastQor4 (cs : Cs) (addr : Word) : Statement (.snoopFastQor4 cs addr) := fun _ => rfl
theorem snoopDualDior (cs : Cs) (addr : Word) : Statement (.snoopDualDior cs addr) := fun _ => rfl
theorem snoopDualDior4 (cs : Cs) (addr : Word) : Statement (.snoopDualDior4 cs addr) := fun _ => rfl
theorem snoopQuadQior (cs : Cs) (addr : Word) : Statement (.snoopQuadQior cs addr) := fun _ => rfl
theorem snoopQuadQior4 (cs : Cs) (addr : Word) : Statement (.snoopQuadQior4 cs addr) := fun _ => rfl
theorem snoopUnknown (cs : Cs) (addr : Word) (b : Byte) : Statement (.snoopUnknown cs addr b) := fun _ => rfl

end Sys2Proof.Laws.OneLength
end

