-- ==== Sys2Proof/Tests/Slice0.lean ====
section
/-! SUPPORT. The model's own tests: ill-formed terms the checks refuse; words written out from the spec's
encodings; single steps with the results of spec/95_test_vectors.md (the vector's name is in the docstring);
and for every statement with hypotheses a concrete state and operands that meet them. -/

namespace Sys2Proof.Tests

set_option Elab.async false

open Sys2Proof.Machine Sys2Proof.Claims

/-- A fact about the state an operation gives. -/
def after {α : Type} (r : Result) (f : State → α) : Option α :=
  match r with
  | .next t => some (f t)
  | .fault _ => none
  | .refused _ => none

theorem after_some {α : Type} {r : Result} {f : State → α} {x : α} (h : after r f = some x) :
    ∃ t, r = .next t ∧ f t = x := by
  cases r with
  | next t => exact ⟨t, rfl, by simpa [after] using h⟩
  | fault e => cases h
  | refused e => cases h

/-- REF_A after reset. -/
def a : State := State.reset

/-- REF_B after reset. -/
def b : State := State.ofVariant refB .framer []

/-- REF_C after reset. -/
def c : State := State.ofVariant refC .framer []

/-- The instance the opcode table is written for: every chip-select, with DMA. -/
def full : State := State.ofVariant tableVariant .framer []

/-- REF_A with chip-select 0 writable and this CTRL0, and bytes waiting on the bus. -/
def ready (ctrl0 : Word) : State :=
  { a with conf := 0x00010000#32, ctrl := ⟨ctrl0, 0, 0, 0, 0⟩, miso := [0, 0, 0, 0, 0x11, 0x22, 0x33, 0x44] }

/-- REF_A in user mode with a snoop cursor and budget, dummy byte 0xDD. -/
def snooping (i : SnoopIndex) (n : Nat) : State :=
  { ready 3#32 with dummyData := 0xDD#32, csline := ⟨true, false, false, false, false⟩, snoopIndex := i, snoopDummies := n }

/-- REF_A with external spaces that give these answers, and these cursors and length. -/
def dma (flash dram len : Word) (answers : List (Option Word)) (replies : List DramReply) : State :=
  { a with
    binding := .external, dmaFlashAddr := flash, dmaDramAddr := dram, dmaLen := len
    flashReplies := answers, dramReplies := replies }

/-- The line changes and the bytes sent. -/
def lineAndBytes (s : State) : List (Option Byte × Bool) :=
  s.bus.filterMap fun e => match e with
    | .xfer x _ => some (some x, true)
    | .line _ level => some (none, level)
    | _ => none

/-- Only the sent bytes. -/
def bytesOf (s : State) : List Byte := sentBytes s.bus

/-! The checks of WellFormed refuse ill-formed terms. -/

theorem test_wf_reference_descriptors : refA.wf = true ∧ refB.wf = true ∧ refC.wf = true := by decide +kernel

theorem test_wf_count : ({ refA with numCs := 0 } : Variant).wfCount = false ∧
    ({ refA with numCs := 6 } : Variant).wf = false := by decide +kernel

theorem test_wf_offsets : ({ refA with rTimings := 0x96 } : Variant).wfOffsets = false ∧
    ({ refA with rTimings := 0x100 } : Variant).wfOffsets = false ∧
    ({ refA with rTimings := 0x54 } : Variant).wf = false := by decide +kernel

theorem test_wf_window : ({ refA with winBase := 0x20100000 } : Variant).wfWindow = false ∧
    ({ refA with winSize := 0 } : Variant).wfWindow = false ∧
    ({ refA with winBase := 0xF8000000 } : Variant).wf = false := by decide +kernel

theorem test_wf_default :
    ({ refA with segDefault := refA.segDefault.set .cs1 ⟨0x28000000, 0x00100000⟩ } : Variant).wfDefault .cs1 = false ∧
    ({ refA with segDefault := refA.segDefault.set .cs2 ⟨0x30000000, 0x02000000⟩ } : Variant).wfDefault .cs2 = false ∧
    ({ refC with segDefault := refC.segDefault.set .cs1 ⟨0x20000000, 0x00100000⟩ } : Variant).wf = false := by
  decide +kernel

theorem test_wf_base :
    ({ refA with segDefault := refA.segDefault.set .cs0 ⟨0x21000000, 0x07000000⟩ } : Variant).wfBase = false ∧
    ({ refA with segDefault := refA.segDefault.set .cs0 ⟨0x21000000, 0x07000000⟩ } : Variant).wf = false := by
  decide +kernel

theorem test_wf_fixed_end :
    ({ refB with fixedEnd := refB.fixedEnd.set .cs1 (some 0x37800000) } : Variant).wfFixedEnd .cs1 = false ∧
    ({ refB with fixedEnd := refB.fixedEnd.set .cs1 (some 0x37800000) } : Variant).wf = false := by decide +kernel

theorem test_wf_range : ({ refA with winSize := 0x60000000 } : Variant).wfRange = false ∧
    ({ refC with winSize := 0x10100000 } : Variant).wf = false := by decide +kernel

/-- A chip-select the variant has not, a DMA row without DMA, an offset that is a register's or no multiple
of 4, and a listed byte as an unknown one. -/
theorem test_wf_operations : Instr.wf refA (.rdCtrl3 .w4) = false ∧ Instr.wf refB (.wrDmaLen .w4 0) = false ∧
    Instr.wf refB (.dmaStop 0) = false ∧ Instr.wf refA (.rdUnrecognised 0x10 .w1) = false ∧
    Instr.wf refA (.wrUnrecognised 0x51 .w1 0) = false ∧ Instr.wf refA (.fldRead .cs3 0 .w1) = false ∧
    Instr.wf refA (.snoopPlainRead .cs4 0) = false ∧ Instr.wf refA (.snoopUnknown .cs0 0 0x0B) = false ∧
    Instr.wf refA (.rdUnrecognised 0x50 .w1) = true ∧ Instr.wf refA (.snoopUnknown .cs0 0 0x9F) = true := by
  decide +kernel

/-! Words written out from the spec's encodings. R61: bits 7:0 the offset, bit 8 the direction; here the
second byte holds the direction in bit 0 and the width code in bits 2:1 (log 3). -/

/-- Reads of R62's table at the reference offsets, width 4 (code 0). -/
theorem test_decode_reads :
    decode tableVariant .reg [0x00, 0b000, 0, 0, 0, 0, 0, 0, 0] = .ok (.rdConf .w4) ∧
    decode tableVariant .reg [0x04, 0b000, 0, 0, 0, 0, 0, 0, 0] = .ok (.rdCeCtrl .w4) ∧
    decode tableVariant .reg [0x08, 0b000, 0, 0, 0, 0, 0, 0, 0] = .ok (.rdIntrCtrl .w4) ∧
    decode tableVariant .reg [0x10, 0b000, 0, 0, 0, 0, 0, 0, 0] = .ok (.rdCtrl0 .w4) ∧
    decode tableVariant .reg [0x14, 0b000, 0, 0, 0, 0, 0, 0, 0] = .ok (.rdCtrl1 .w4) ∧
    decode tableVariant .reg [0x18, 0b000, 0, 0, 0, 0, 0, 0, 0] = .ok (.rdCtrl2 .w4) ∧
    decode tableVariant .reg [0x1C, 0b000, 0, 0, 0, 0, 0, 0, 0] = .ok (.rdCtrl3 .w4) ∧
    decode tableVariant .reg [0x20, 0b000, 0, 0, 0, 0, 0, 0, 0] = .ok (.rdCtrl4 .w4) ∧
    decode tableVariant .reg [0x30, 0b000, 0, 0, 0, 0, 0, 0, 0] = .ok (.rdSegAddr0 .w4) ∧
    decode tableVariant .reg [0x34, 0b000, 0, 0, 0, 0, 0, 0, 0] = .ok (.rdSegAddr1 .w4) ∧
    decode tableVariant .reg [0x38, 0b000, 0, 0, 0, 0, 0, 0, 0] = .ok (.rdSegAddr2 .w4) ∧
    decode tableVariant .reg [0x3C, 0b000, 0, 0, 0, 0, 0, 0, 0] = .ok (.rdSegAddr3 .w4) ∧
    decode tableVariant .reg [0x40, 0b000, 0, 0, 0, 0, 0, 0, 0] = .ok (.rdSegAddr4 .w4) ∧
    decode tableVariant .reg [0x54, 0b000, 0, 0, 0, 0, 0, 0, 0] = .ok (.rdDummyData .w4) ∧
    decode tableVariant .reg [0x80, 0b010, 0, 0, 0, 0, 0, 0, 0] = .ok (.rdDmaCtrl .w1) ∧
    decode tableVariant .reg [0x84, 0b100, 0, 0, 0, 0, 0, 0, 0] = .ok (.rdDmaFlashAddr .w2) ∧
    decode tableVariant .reg [0x88, 0b110, 0, 0, 0, 0, 0, 0, 0] = .ok (.rdDmaDramAddr .w3) ∧
    decode tableVariant .reg [0x8C, 0b000, 0, 0, 0, 0, 0, 0, 0] = .ok (.rdDmaLen .w4) ∧
    decode tableVariant .reg [0x90, 0b000, 0, 0, 0, 0, 0, 0, 0] = .ok (.rdDmaChecksum .w4) ∧
    decode tableVariant .reg [0x94, 0b000, 0, 0, 0, 0, 0, 0, 0] = .ok (.rdTimings .w4) ∧
    decode tableVariant .reg [0x50, 0b000, 0, 0, 0, 0, 0, 0, 0] = .ok (.rdUnrecognised 0x50 .w4) := by
  decide +kernel

/-- Writes of R62's table: the direction bit 1. -/
theorem test_decode_writes :
    decode tableVariant .reg [0x00, 0b001, 1, 2, 3, 4, 0, 0, 0] = .ok (.wrConf .w4 0x04030201#32) ∧
    decode tableVariant .reg [0x04, 0b001, 1, 0, 0, 0, 0, 0, 0] = .ok (.wrCeCtrl .w4 1#32) ∧
    decode tableVariant .reg [0x08, 0b001, 1, 0, 0, 0, 0, 0, 0] = .ok (.wrIntrCtrl .w4 1#32) ∧
    decode tableVariant .reg [0x10, 0b001, 3, 0, 0, 0, 0, 0, 0] = .ok (.wrCtrl0 .w4 3#32) ∧
    decode tableVariant .reg [0x14, 0b001, 3, 0, 0, 0, 0, 0, 0] = .ok (.wrCtrl1 .w4 3#32) ∧
    decode tableVariant .reg [0x18, 0b001, 3, 0, 0, 0, 0, 0, 0] = .ok (.wrCtrl2 .w4 3#32) ∧
    decode tableVariant .reg [0x1C, 0b001, 3, 0, 0, 0, 0, 0, 0] = .ok (.wrCtrl3 .w4 3#32) ∧
    decode tableVariant .reg [0x20, 0b001, 3, 0, 0, 0, 0, 0, 0] = .ok (.wrCtrl4 .w4 3#32) ∧
    decode tableVariant .reg [0x30, 0b001, 0, 0, 0x40, 0x48, 0, 0, 0] = .ok (.wrSegAddr0 .w4 0x48400000#32) ∧
    decode tableVariant .reg [0x34, 0b001, 0, 0, 0x50, 0x58, 0, 0, 0] = .ok (.wrSegAddr1 .w4 0x58500000#32) ∧
    decode tableVariant .reg [0x38, 0b001, 0, 0, 0, 0, 0, 0, 0] = .ok (.wrSegAddr2 .w4 0#32) ∧
    decode tableVariant .reg [0x3C, 0b001, 0, 0, 0, 0, 0, 0, 0] = .ok (.wrSegAddr3 .w4 0#32) ∧
    decode tableVariant .reg [0x40, 0b001, 0, 0, 0, 0, 0, 0, 0] = .ok (.wrSegAddr4 .w4 0#32) ∧
    decode tableVariant .reg [0x54, 0b001, 0x78, 0, 0, 0, 0, 0, 0] = .ok (.wrDummyData .w4 0x78#32) ∧
    decode tableVariant .reg [0x80, 0b011, 5, 0, 0, 0, 0, 0, 0] = .ok (.wrDmaCtrl .w1 5#32) ∧
    decode tableVariant .reg [0x84, 0b101, 4, 0, 0, 0, 0, 0, 0] = .ok (.wrDmaFlashAddr .w2 4#32) ∧
    decode tableVariant .reg [0x88, 0b111, 4, 0, 0, 0, 0, 0, 0] = .ok (.wrDmaDramAddr .w3 4#32) ∧
    decode tableVariant .reg [0x8C, 0b001, 16, 0, 0, 0, 0, 0, 0] = .ok (.wrDmaLen .w4 16#32) ∧
    decode tableVariant .reg [0x90, 0b001, 5, 0, 0, 0, 0, 0, 0] = .ok (.wrDmaChecksum .w4 5#32) ∧
    decode tableVariant .reg [0x94, 0b001, 1, 0, 0, 0, 0, 0, 0] = .ok (.wrTimings .w4 1#32) ∧
    decode tableVariant .reg [0x50, 0b001, 7, 0, 0, 0, 0, 0, 0] = .ok (.wrUnrecognised 0x50 .w4 7#32) := by
  decide +kernel

/-- R63: bits 1:0 the MODE field, bit 2 the direction; bits 4:3 the width code, 7:5 the chip-select. -/
theorem test_decode_flash :
    decode refA .flash [0b000_00_0_00, 0x34, 0x12, 0, 0, 0, 0, 0, 0] = .ok (.fldRead .cs0 0x1234#32 .w4) ∧
    decode refA .flash [0b001_01_0_01, 0x10, 0, 0, 1, 0, 0, 0, 0] = .ok (.fldFread .cs1 0x01000010#32 .w1) ∧
    decode refA .flash [0b010_10_0_10, 0, 0, 0, 0, 0, 0, 0, 0] = .ok (.fldWrite .cs2 0#32 .w2) ∧
    decode refA .flash [0b000_11_0_11, 0, 0, 0, 0, 0, 0, 0, 0] = .ok (.fldUser .cs0 0#32 .w3) ∧
    decode refA .flash [0b000_00_1_00, 0, 0, 0, 0, 1, 0, 0, 0] = .ok (.fstRead .cs0 0#32 .w4 1#32) ∧
    decode refA .flash [0b001_00_1_01, 0, 0, 0, 0, 1, 0, 0, 0] = .ok (.fstFread .cs1 0#32 .w4 1#32) ∧
    decode refA .flash [0b000_10_1_10, 0, 1, 0, 0, 0xEF, 0xBE, 0, 0] = .ok (.fstWrite .cs0 0x100#32 .w2 0xBEEF#32) ∧
    decode refA .flash [0b000_01_1_11, 0, 0, 0, 0, 0xBB, 0, 0, 0] = .ok (.fstUser .cs0 0#32 .w1 0xBB#32) := by
  decide +kernel

/-- R64, R21: ENABLE bit 0, WRITE bit 1, CKSUM bit 2, CALIB bit 3, FREQ 7:4, DELAY 11:8. -/
theorem test_decode_dmactl :
    decode refA .dmactl [0b0000_0010, 0, 0, 0, 0, 0, 0, 0, 0] = .ok (.dmaStop 1#31) ∧
    decode refA .dmactl [0b0000_0101, 0, 0, 0, 0, 0, 0, 0, 0] = .ok (.dmaCksum false 0#28) ∧
    decode refA .dmactl [0b0000_0111, 0, 0, 0, 0, 0, 0, 0, 0] = .ok (.dmaCksum true 0#28) ∧
    decode refA .dmactl [0b0110_1101, 0b0000_0011, 0, 0, 0, 0, 0, 0, 0] = .ok (.dmaCksumCal false 0x36#28) ∧
    decode refA .dmactl [0b0000_0001, 0, 0, 0, 0, 0, 0, 0, 0] = .ok (.dmaRd false 0#28) ∧
    decode refA .dmactl [0b0000_1011, 0, 0, 0, 0, 0, 0, 0, 0] = .ok (.dmaWr true 0#28) := by
  decide +kernel

/-- R65, R70: the byte. -/
theorem test_decode_snoop :
    decode refA .snoop [0x03, 0, 0, 0, 0, 0, 0, 0, 0] = .ok (.snoopPlainRead .cs0 0#32) ∧
    decode refA .snoop [0x13, 0, 0, 0, 0, 0, 0, 0, 0] = .ok (.snoopPlainRead4 .cs0 0#32) ∧
    decode refA .snoop [0x02, 1, 0, 0, 0, 0, 0, 0, 0] = .ok (.snoopPlainPp .cs1 0#32) ∧
    decode refA .snoop [0x12, 2, 4, 3, 2, 1, 0, 0, 0] = .ok (.snoopPlainPp4 .cs2 0x01020304#32) ∧
    decode refA .snoop [0xA2, 0, 0, 0, 0, 0, 0, 0, 0] = .ok (.snoopPlainDpp .cs0 0#32) ∧
    decode refA .snoop [0x32, 0, 0, 0, 0, 0, 0, 0, 0] = .ok (.snoopPlainQpp .cs0 0#32) ∧
    decode refA .snoop [0x34, 0, 0, 0, 0, 0, 0, 0, 0] = .ok (.snoopPlainQpp4 .cs0 0#32) ∧
    decode refA .snoop [0x3E, 0, 0, 0, 0, 0, 0, 0, 0] = .ok (.snoopPlainPp44 .cs0 0#32) ∧
    decode refA .snoop [0x0B, 0, 0, 0, 0, 0, 0, 0, 0] = .ok (.snoopFastFastRead .cs0 0#32) ∧
    decode refA .snoop [0x0C, 0, 0, 0, 0, 0, 0, 0, 0] = .ok (.snoopFastFastRead4 .cs0 0#32) ∧
    decode refA .snoop [0x3B, 0, 0, 0, 0, 0, 0, 0, 0] = .ok (.snoopFastDor .cs0 0#32) ∧
    decode refA .snoop [0x3C, 0, 0, 0, 0, 0, 0, 0, 0] = .ok (.snoopFastDor4 .cs0 0#32) ∧
    decode refA .snoop [0x6B, 0, 0, 0, 0, 0, 0, 0, 0] = .ok (.snoopFastQor .cs0 0#32) ∧
    decode refA .snoop [0x6C, 0, 0, 0, 0, 0, 0, 0, 0] = .ok (.snoopFastQor4 .cs0 0#32) ∧
    decode refA .snoop [0xBB, 0, 0, 0, 0, 0, 0, 0, 0] = .ok (.snoopDualDior .cs0 0#32) ∧
    decode refA .snoop [0xBC, 0, 0, 0, 0, 0, 0, 0, 0] = .ok (.snoopDualDior4 .cs0 0#32) ∧
    decode refA .snoop [0xEB, 0, 0, 0, 0, 0, 0, 0, 0] = .ok (.snoopQuadQior .cs0 0#32) ∧
    decode refA .snoop [0xEC, 0, 0, 0, 0, 0, 0, 0, 0] = .ok (.snoopQuadQior4 .cs0 0#32) ∧
    decode refA .snoop [0x9F, 0, 0, 0, 0, 0, 0, 0, 0] = .ok (.snoopUnknown .cs0 0#32 0x9F) := by
  decide +kernel

/-- Each reason a frame is turned away. -/
theorem test_decode_rejects :
    decode refA .reg [0x10, 0] = .error .badLength ∧
    decode refA .reg [0x10, 0b1000, 0, 0, 0, 0, 0, 0, 0] = .error .reservedBits ∧
    decode refA .reg [0x10, 0, 1, 0, 0, 0, 0, 0, 0] = .error .reservedBits ∧
    decode refA .reg [0x11, 0, 0, 0, 0, 0, 0, 0, 0] = .error .misalignedOffset ∧
    decode refA .flash [0b01100000, 0, 0, 0, 0, 0, 0, 0, 0] = .error .noSuchChipSelect ∧
    decode refA .flash [0b11100000, 0, 0, 0, 0, 0, 0, 0, 0] = .error .noSuchChipSelect ∧
    decode refB .dmactl [0, 0, 0, 0, 0, 0, 0, 0, 0] = .error .noDmaEngine ∧
    decode refA .snoop [0x03, 5, 0, 0, 0, 0, 0, 0, 0] = .error .noSuchChipSelect := by
  decide +kernel

/-- Words as spec/opcode_table.json numbers them, and that the next step from reset runs them (log 4,
log 5). -/
theorem test_table_words :
    decodeTableWord 16 0x000 = some (.rdConf .w4) ∧ decodeTableWord 16 0x194 = some (.wrTimings .w4 0#32) ∧
    decodeTableWord 8 0x7 = some (.fstUser .cs0 0#32 .w4 0#32) ∧
    decodeTableWord 8 0xD = some (.dmaCksumCal false 0#28) ∧
    decodeTableWord 8 0xBB = some (.snoopDualDior .cs0 0#32) := by
  decide +kernel

theorem test_table_words_run :
    after (step (a.withFetchWord 16 0x030)) (·.ret) = some (some 0x50400000#32) ∧
    after (step (a.withFetchWord 8 0x2)) (·.log) = some [.flashInvalidMode .cs0 .read .write] ∧
    after (step (a.withFetchWord 8 0xD)) (·.ctrl.s0) = some 0x00000000#32 ∧
    after (step (a.withFetchWord 8 0xBB)) (·.snoopIndex) = some (.count 1) := by
  decide +kernel

/-! Registers. -/

/-- A1, A2: reset values. -/
theorem test_reads_after_reset :
    after (exec (.rdConf .w4) a) (·.ret) = some (some 0#32) ∧
    after (exec (.rdSegAddr0 .w4) a) (·.ret) = some (some 0x50400000#32) ∧
    after (exec (.rdSegAddr1 .w4) a) (·.ret) = some (some 0x54500000#32) ∧
    after (exec (.rdSegAddr2 .w4) a) (·.ret) = some (some 0x58540000#32) := by decide +kernel

/-- X2. -/
theorem test_reads_after_reset_new : c.segAddr.s0 = 0x07F00000#32 ∧ c.segAddr.s1 = 0x0FF00800#32 ∧
    c.segAddr.s2 = 0#32 := by decide +kernel

/-- A3, A4: a narrow write zeroes the upper bytes. -/
theorem test_wrConf : after (exec (.wrConf .w4 0x00010000) a) (fun t => (t.conf, t.writable .cs0)) = some (0x00010000#32, true) ∧
    after (exec (.wrConf .w1 0xAB) (ready 0)) (fun t => (t.conf, t.writable .cs0)) = some (0xAB#32, false) := by
  decide +kernel

/-- A5. -/
theorem test_rdSegAddr1_narrow : after (exec (.rdSegAddr1 .w2) a) (·.ret) = some (some 0#32) ∧
    after (exec (.rdSegAddr1 .w3) a) (·.ret) = some (some 0x500000#32) := by decide +kernel

/-- A6, A7. -/
theorem test_rdUnrecognised :
    after (exec (.rdUnrecognised 0x50 .w4) a) (fun t => (t.ret, t.log)) = some (some 0xFFFFFFFF#32, [.unimplementedRead 0x50]) ∧
    after (exec (.rdUnrecognised 0x50 .w1) a) (·.ret) = some (some 0xFF#32) := by decide +kernel

/-- A8. -/
theorem test_wrUnrecognised : after (exec (.wrUnrecognised 0x50 .w4 7) a) (fun t => ({ t with log := [] }, t.log))
    = some (a, [.unimplementedWrite 0x50 7#32]) := by decide +kernel

/-- A9, A10, A11: rows the variant has not. -/
theorem test_rows_not_present :
    after (exec (.wrCtrl3 .w4 3) a) (fun t => ({ t with log := [] }, t.log)) = some (a, [.unimplementedWrite 0x1C 3#32]) ∧
    after (exec (.rdDmaCtrl .w4) b) (fun t => (t.ret, t.log)) = some (some 0xFFFFFFFF#32, [.unimplementedRead 0x80]) ∧
    after (exec (.wrDmaCtrl .w4 5) b) (fun t => ({ t with log := [] }, t.log)) = some (b, [.unimplementedWrite 0x80 5#32]) := by
  decide +kernel

/-- A12. -/
theorem test_wrDummyData : after (exec (.wrDummyData .w4 0x12345678) a) (·.dummyData) = some 0x78#32 := by decide +kernel

/-- A13, A14. -/
theorem test_dma_addresses : after (exec (.wrDmaFlashAddr .w4 0x20000107) a) (·.dmaFlashAddr) = some 0x104#32 ∧
    after (exec (.wrDmaDramAddr .w4 0x80001003) a) (·.dmaDramAddr) = some 0x1000#32 := by decide +kernel

/-- A15. -/
theorem test_wrDmaLen : after (exec (.wrDmaLen .w4 19) a) (·.dmaLen) = some 16#32 ∧
    after (exec (.wrDmaLen .w4 3) a) (·.dmaLen) = some 0#32 ∧
    after (exec (.wrDmaLen .w4 0x02000010) a) (·.dmaLen) = some 0x10#32 ∧
    after (exec (.wrDmaLen .w4 0xFFFFFFFF) a) (·.dmaLen) = some 0x01FFFFFC#32 := by decide +kernel

/-- A16. -/
theorem test_wrDmaChecksum : after (exec (.wrDmaChecksum .w4 5) a) (fun t => (t.dmaChecksum, t.log))
    = some (0#32, [.unimplementedWrite 0x90 5#32]) := by decide +kernel

/-- A17. -/
theorem test_wrIntrCtrl : after (exec (.wrIntrCtrl .w4 0xFFFFFFFF) a) (fun t => (t.intrCtrl, t.irq))
    = some (0xFFFFFFFF#32, false) := by decide +kernel

/-- A18, A19. -/
theorem test_wrCtrl0_assert :
    after (exec (.wrCtrl0 .w4 3) a) (fun t => (t.csline.s0, t.snoopIndex)) = some (true, .start) ∧
    after (exec (.wrCtrl0 .w4 0x00AB0003) (snooping (.count 2) 1)) (fun t => (t.ctrl.s0, t.csline.s0, t.snoopIndex))
      = some (0x00AB0003#32, true, .count 2) := by decide +kernel

/-- A20, A21, A22. -/
theorem test_wrCtrl0_release :
    after (exec (.wrCtrl0 .w4 7) (snooping .start 0)) (fun t => (t.csline.s0, t.snoopIndex)) = some (false, .off) ∧
    after (exec (.wrCtrl0 .w4 2) (snooping .start 0)) (fun t => (t.csline.s0, t.snoopIndex)) = some (false, .off) ∧
    after (exec (.wrCtrl0 .w4 7) a) (fun t => (t.csline.s0, t.bus)) = some (false, []) := by decide +kernel

/-- A23, its third write. -/
theorem test_wrCtrl1_shares_the_cursor :
    after (exec (.wrCtrl1 .w4 7) { a with ctrl := ⟨3, 3, 0, 0, 0⟩, csline := ⟨true, true, false, false, false⟩, snoopIndex := .start })
      (fun t => (t.csline.s0, t.csline.s1, t.snoopIndex)) = some (true, false, .off) := by decide +kernel

/-- A24, A25. -/
theorem test_wrTimings_wrCeCtrl : after (exec (.wrTimings .w4 0x321) a) (·.timings) = some 0x321#32 ∧
    after (exec (.wrCeCtrl .w4 1) a) (fun t => (t.ext4 .cs0, t.ext4 .cs1)) = some (true, false) := by decide +kernel

/-! The segment mapper. -/

/-- S1, S2. -/
theorem test_wrSegAddr1 :
    after (exec (.wrSegAddr1 .w4 0x58500000) a) (fun t => (t.segAddr.s1, t.region.s1, t.log))
      = some (0x58500000#32, ⟨0x28000000, 0x04000000⟩,
        [.segOverlap .cs1 .cs2 ⟨0x28000000, 0x04000000⟩ ⟨0x2A000000, 0x02000000⟩]) ∧
    after (exec (.wrSegAddr1 .w4 0x58510000) a) (·.log)
      = some [.segMisaligned .cs1 ⟨0x28800000, 0x03800000⟩,
        .segOverlap .cs1 .cs2 ⟨0x28800000, 0x03800000⟩ ⟨0x2A000000, 0x02000000⟩] := by decide +kernel

/-- S3, S5. -/
theorem test_wrSegAddr2 :
    after (exec (.wrSegAddr2 .w4 0x64600000) a) (fun t => ({ t with log := [] }, t.log))
      = some (a, [.segInvalid .cs2 0x64600000#32 ⟨0x30000000, 0x02000000⟩]) ∧
    after (exec (.wrSegAddr2 .w4 0) a) (fun t => (t.segAddr.s2, t.region.s2, t.log)) = some (0#32, ⟨0, 0⟩, []) := by
  decide +kernel

/-- S6, S14. -/
theorem test_wrSegAddr0 :
    after (exec (.wrSegAddr0 .w4 0x3C410000) a) (fun t => (t.segAddr.s0, t.log))
      = some (0x50400000#32, [.segCs0StartFixed 0x3C410000#32 ⟨0x20800000, -0x02800000⟩,
        .segInvalid .cs0 0x3C400000#32 ⟨0x20000000, -0x02000000⟩]) ∧
    after (exec (.wrSegAddr0 .w4 0x03F00100) c) (fun t => (t.segAddr.s0, t.region.s0))
      = some (0x03F00000#32, ⟨0x20000000, 0x04000000⟩) := by decide +kernel

/-- By hand from R67, R126, R127: REF_C `WR SEG_ADDR0, 0x10` (start 0x20100000, size 0) is clamped to the
first MiB, whose word is zero. The state is the exception of log 19. -/
theorem test_first_mib_clamped :
    after (exec (.wrSegAddr0 .w4 0x10) c) (fun t => (t.segAddr.s0, t.region.s0, t.log))
      = some (0#32, ⟨0x20000000, 0x00100000⟩, [.segCs0StartFixed 0x10#32 ⟨0x20100000, 0⟩]) := by decide +kernel

/-- S9, S10: a fixed end. -/
theorem test_fixed_end :
    after (exec (.wrSegAddr1 .w4 0x6C640000) b) (fun t => (t.segAddr.s1, t.region.s1, t.log))
      = some (0x70640000#32, ⟨0x32000000, 0x06000000⟩,
        [.segEndFixed .cs1 0x6C640000#32 ⟨0x32000000, 0x04000000⟩, .segMisaligned .cs1 ⟨0x32000000, 0x06000000⟩]) ∧
    after (exec (.wrSegAddr1 .w4 0x70680000) b) (fun t => (t.region.s1, t.log)) = some (⟨0x34000000, 0x04000000⟩, []) := by
  decide +kernel

/-- S12, S15, S16, S17: the other layout. -/
theorem test_new_layout :
    after (exec (.wrSegAddr1 .w4 0x0BF00800) c) (fun t => (t.region.s1, t.log)) = some (⟨0x28000000, 0x04000000⟩, []) ∧
    after (exec (.wrSegAddr1 .w4 1) c) (fun t => (t.segAddr.s1, t.region.s1)) = some (1#32, ⟨0x20000000, 0x00100000⟩) ∧
    after (exec (.wrSegAddr1 .w4 0x00700800) c) (·.region.s1) = some ⟨0x28000000, 0x08000000⟩ ∧
    after (exec (.wrSegAddr1 .w4 0) c) (·.region.s1) = some ⟨0x20000000, 0⟩ := by decide +kernel

/-- T1: the round trips of the reference segments. -/
theorem test_round_trips : encodeSegment refB ⟨0x32000000, 0x06000000⟩ = 0x70640000#32 ∧
    decodeSegment refB 0x70640000#32 = ⟨0x32000000, 0x06000000⟩ ∧
    encodeSegment refC ⟨0x2C000000, 0x04000000⟩ = 0x0FF00C00#32 ∧
    decodeSegment refC 0x0FF00C00#32 = ⟨0x2C000000, 0x04000000⟩ ∧
    encodeSegment refA ⟨0x20000000, 0x04100000⟩ = 0x48400000#32 := by decide +kernel

/-! The framer. -/

/-- F1. -/
theorem test_fldRead : after (exec (.fldRead .cs0 0x1234 .w4) (ready 0)) (fun t => (t.ret, bytesOf t))
    = some (some 0x44332211#32, [0x03, 0x00, 0x12, 0x34, 0, 0, 0, 0]) ∧
    after (exec (.fldRead .cs0 0x1234 .w1) (ready 0)) lineAndBytes
      = some [(none, true), (some 0x03, true), (some 0x00, true), (some 0x12, true), (some 0x34, true),
        (some 0x00, true), (none, false)] := by decide +kernel

/-- F3: four address bytes. -/
theorem test_fldRead_ext4 : after (exec (.fldRead .cs0 0x01000010 .w1) { ready 0 with ceCtrl := 1#32 }) bytesOf
    = some [0x03, 0x01, 0x00, 0x00, 0x10, 0x00] := by decide +kernel

/-- F6, F8. -/
theorem test_fldFread :
    after (exec (.fldFread .cs0 0 .w1) { ready 0x006B4041 with dummyData := 0xFF#32, miso := List.replicate 10 0 }) bytesOf
      = some [0x6B, 0, 0, 0, 0xFF, 0xFF, 0xFF, 0xFF, 0xFF, 0] ∧
    after (exec (.fldFread .cs0 0 .w1) (ready 1)) (fun t => (bytesOf t, t.log))
      = some ([0, 0, 0, 0, 0], [.noCommand .cs0 .fastRead]) := by decide +kernel

/-- F13. -/
theorem test_fldWrite : after (exec (.fldWrite .cs0 0 .w4) (ready 0x00020002)) (fun t => (t.ret, t.bus, t.log))
    = some (some 0#32, [], [.flashInvalidMode .cs0 .read .write]) := by decide +kernel

/-- F14, F15. -/
theorem test_fldUser :
    after (exec (.fldUser .cs0 0 .w2) { snooping .start 0 with miso := [0x34, 0x12] }) (fun t => (t.ret, bytesOf t, t.snoopIndex))
      = some (some 0x1234#32, [0, 0], .start) ∧
    after (exec (.fldUser .cs0 0 .w1) (ready 7)) (fun t => (t.bus, t.csline.s0)) = some ([.xfer 0 0], false) := by
  decide +kernel

/-- F11, F12. -/
theorem test_fstRead : after (exec (.fstRead .cs0 0 .w4 1) (ready 0)) (fun t => (t.bus, t.log))
      = some ([], [.flashInvalidMode .cs0 .write .read]) ∧
    after (exec (.fstRead .cs0 0 .w4 1) a) (·.log) = some [.flashNotWritable .cs0 0#32] := by decide +kernel

/-- R152. -/
theorem test_fstFread : after (exec (.fstFread .cs0 0 .w4 1) (ready 1)) (fun t => (t.bus, t.log))
    = some ([], [.flashInvalidMode .cs0 .write .fastRead]) := by decide +kernel

/-- F9, F10. -/
theorem test_fstWrite : after (exec (.fstWrite .cs0 0x100 .w2 0xBEEF) (ready 0x00020002)) bytesOf
      = some [0x02, 0x00, 0x01, 0x00, 0xEF, 0xBE] ∧
    after (exec (.fstWrite .cs0 0x100 .w2 0xBEEF) { ready 0x00020002 with conf := 0#32 }) (fun t => (t.bus, t.log))
      = some ([], [.flashNotWritable .cs0 0x100#32]) := by decide +kernel

/-- N7, its first store. -/
theorem test_fstUser : after (exec (.fstUser .cs0 0 .w4 0x0100000B) (snooping .start 0)) (fun t => (bytesOf t, t.snoopIndex))
    = some ([0x0B, 0x00, 0x00, 0x01], .count 4) := by decide +kernel

/-- R146: an offset past the segment. -/
theorem test_clamp : after (exec (.fldRead .cs1 0x02000010 .w1) (ready 0)) (fun t => (bytesOf t, t.log))
    = some ([0x03, 0, 0, 0x10, 0], [.flashAddrClamped .cs1 0x02000010#32]) := by decide +kernel

/-! The snoop emulator: R70's dummy counts. -/

/-- The rows that count no dummies. -/
theorem test_snoop_plain :
    [Instr.snoopPlainRead .cs0 0, .snoopPlainRead4 .cs0 0, .snoopPlainPp .cs0 0, .snoopPlainPp4 .cs0 0, .snoopPlainDpp .cs0 0,
      .snoopPlainQpp .cs0 0, .snoopPlainQpp4 .cs0 0, .snoopPlainPp44 .cs0 0, .snoopUnknown .cs0 0 0x9F].map
      (fun i => after (exec i (snooping .start 0)) (fun t => (bytesOf t, t.snoopIndex)))
    = [[0x03], [0x13], [0x02], [0x12], [0xA2], [0x32], [0x34], [0x3E], [0x9F]].map (fun l => some (l, .off)) := by
  decide +kernel

/-- The rows that count one dummy, two dummies, four dummies. -/
theorem test_snoop_counts :
    [Instr.snoopFastFastRead .cs0 0, .snoopFastFastRead4 .cs0 0, .snoopFastDor .cs0 0, .snoopFastDor4 .cs0 0,
      .snoopFastQor .cs0 0, .snoopFastQor4 .cs0 0, .snoopDualDior .cs0 0, .snoopDualDior4 .cs0 0,
      .snoopQuadQior .cs0 0, .snoopQuadQior4 .cs0 0].map
      (fun i => after (exec i (snooping .start 0)) (fun t => (bytesOf t, t.snoopIndex, t.snoopDummies)))
    = [(0x0B, 1), (0x0C, 1), (0x3B, 1), (0x3C, 1), (0x6B, 1), (0x6C, 1), (0xBB, 2), (0xBC, 2), (0xEB, 4), (0xEC, 4)].map
      (fun p => some ([p.1], .count 1, p.2)) := by decide +kernel

/-- N6, its last byte: replaced by the dummy byte. -/
theorem test_snoop_replaces :
    after (exec (.fstUser .cs0 0 .w1 0xA5) (snooping (.count 4) 2)) (fun t => (bytesOf t, t.snoopIndex, t.snoopDummies))
      = some ([0xDD], .count 5, 1) := by decide +kernel

/-! The DMA engine. -/

/-- D16, its last write. -/
theorem test_dmaStop :
    after (exec (.dmaStop 0) { a with intrCtrl := 0x808#32, irq := true, dmaChecksum := 5#32, dmaCtrl := 5#32 })
      (fun t => (t.irq, t.intrCtrl, t.dmaChecksum)) = some (false, 8#32, 0#32) := by decide +kernel

/-- T4, D8. -/
theorem test_dmaCksum :
    after (exec (.dmaCksum false 0) (dma 0x100 0 16 (List.replicate 4 (some 0x44332211)) []))
      (fun t => (t.dmaChecksum, t.dmaFlashAddr, t.dmaLen, t.intrCtrl)) = some (0x10CC8844#32, 0x110#32, 0#32, 0x800#32) ∧
    after (exec (.dmaCksum true 0) (dma 0 0x1000 4 [some 0x44332211] [])) (fun t => (t.dmaChecksum, t.dmaDramAddr))
      = some (0x44332211#32, 0x1000#32) := by decide +kernel

/-- D5: a read that fails. -/
theorem test_dmaCksum_fails :
    after (exec (.dmaCksum false 0) (dma 0x100 0 16 [some 0x44332211, some 0x44332211, none] []))
      (fun t => (t.dmaChecksum, t.dmaFlashAddr, t.dmaLen, t.log))
      = some (0x88664422#32, 0x108#32, 8#32, [.dmaFlashReadFail 0x108#32]) := by decide +kernel

/-- D9, D10. -/
theorem test_dmaCksumCal :
    after (exec (.dmaCksumCal false 0x36) (dma 0 0 4 [some 0x44332211] []))
      (fun t => (t.timings, t.ctrl.s0, t.dmaChecksum, t.dmaCtrl)) = some (0x3000#32, 0x400#32, 0x44332211#32, 0x36D#32) ∧
    after (exec (.dmaCksumCal false 0x7F) { a with timings := 0xFFFFFFFF#32 }) (fun t => (t.timings, t.ctrl.s0))
      = some (0xFFFFFFF7#32, 0x100#32) := by decide +kernel

/-- D13, D14. -/
theorem test_injection :
    [0x0F#28, 0x17, 0x27, 0x0E, 0x1E, 0x97, 0x06].map (fun up =>
      after (exec (.dmaCksum false up)
        { dma 0 0 4 [some 0x44332211] [] with variant := { refA with injectFailure := true } }) (·.dmaChecksum))
    = [0x0BADC0DE#32, 0x0BADC0DE, 0x44332211, 0x0BADC0DE, 0x44332211, 0x0BADC0DE, 0x44332211].map some := by
  decide +kernel

/-- D6, D19. -/
theorem test_dmaRd :
    after (exec (.dmaRd false 0) (dma 0x200 0x1000 12 [some 1, some 2, some 3] [.plain, .plain, .plain]))
      (fun t => ([t.dram.readWord 0x1000, t.dram.readWord 0x1004, t.dram.readWord 0x1008], t.dmaFlashAddr, t.dmaDramAddr, t.dmaLen, t.dmaChecksum))
      = some ([1#32, 2#32, 3#32], 0x20C#32, 0x100C#32, 0#32, 6#32) ∧
    after (exec (.dmaRd false 0) (dma 0x200 0x1000 12 [some 1, some 2, some 3] [.plain, .fail]))
      (fun t => ([t.dram.readWord 0x1000, t.dram.readWord 0x1004], t.dmaFlashAddr, t.dmaLen, t.dmaChecksum, t.log))
      = some ([1#32, 0#32], 0x204#32, 8#32, 1#32, [.dmaDramWriteFail 0x1004#32]) := by decide +kernel

/-- D7. -/
theorem test_dmaWr :
    after (exec (.dmaWr false 0)
      { dma 0x200 0x1000 8 [some 0, some 0] [.plain, .plain] with dram := [(0x1000, 0xA), (0x1004, 0xB)] })
      (fun t => (t.dmaFlashAddr, t.dmaDramAddr, t.dmaChecksum, t.bus))
      = some (0x208#32, 0x1008#32, 0x15#32, [.dramRead 0x1000 (some 0xA), .flashWrite 0x200 0xA true,
        .dramRead 0x1004 (some 0xB), .flashWrite 0x204 0xB true]) := by decide +kernel

/-- T3: the gate. -/
theorem test_gate :
    after (exec (.dmaCksumCal false 0xF0) { dma 0x100 0 8 [] [] with dmaCtrl := 5#32 })
      (fun t => (t.dmaCtrl, t.dmaLen, t.timings, t.log)) = some (5#32, 8#32, 0#32, [.dmaInProgress 0xF0D#32]) := by
  decide +kernel

/-! The platform. -/

/-- X1, on the state before its RESET. -/
theorem test_reset :
    after (serveNext .reset { snooping (.count 1) 2 with segAddr := ⟨0x50400000, 0x58500000, 0x58540000, 0, 0⟩, intrCtrl := 0x808, irq := true })
      (fun t => (t.segAddr.s1, t.csline.s0, t.irq, t.snoopIndex, t.snoopDummies, t.ctrl.s0))
      = some (0x54500000#32, false, false, .off, 0, 0#32) := by decide +kernel

/-- X3: the snapshot after N6, restored after a reset. -/
theorem test_restore :
    after (serveNext (.restore (takeSnapshot (snooping (.count 5) 1))) a)
      (fun t => (t.snoopIndex, t.snoopDummies, t.csline.s0, t.dummyData)) = some (.count 5, 1, true, 0xDD#32) := by
  decide +kernel

/-- X4. -/
theorem test_construct : construct refA .framer none = .error .noDramSpace := by rfl

/-- P3's window access, a hole, and a straddle. -/
theorem test_routing :
    route { a with region := ⟨⟨0x20000000, 0x04000000⟩, ⟨0x24000000, 0x04000000⟩, ⟨0x28000000, 0x0A000000⟩, ⟨0, 0⟩, ⟨0, 0⟩⟩ } 0x24000000 1
      = some (.cs1, 0#32) ∧
    route a 0x2C000000 1 = none ∧ route a 0x29FFFFFE 4 = none ∧ route a 0x29FFFFFC 4 = some (.cs1, 0x01FFFFFC#32) := by
  decide +kernel

/-! Witnesses: for every statement with hypotheses, a state and operands that meet them together. -/

theorem witness_DecodeOfEncode : refA.wf = true ∧ (Instr.fstUser .cs2 0xFFFFFFFF#32 .w3 5#32).wf refA = true ∧
    refC.wf = true ∧ (Instr.rdUnrecognised 0xFC .w1).wf refC = true ∧ (Instr.dmaWr true 0xFFFFFFF#28).wf refC = true := by
  decide +kernel

theorem witness_EncodeOfDecode : ∃ i, decode refA .dmactl [0xFF, 0xFF, 0xFF, 0xFF, 0, 0, 0, 0, 0] = .ok i :=
  ⟨.dmaCksumCal true 0xFFFFFFF#28, by decide +kernel⟩

theorem witness_StepRunsTheDecodedOperation :
    decode a.variant .snoop [0xEC, 2, 0, 0, 0, 0, 0, 0, 0] = .ok (.snoopQuadQior4 .cs2 0#32) ∧
    decode a.variant .snoop [0xEC, 3, 0, 0, 0, 0, 0, 0, 0] = .error .noSuchChipSelect ∧ a.pending = [] := by
  decide +kernel

/-- The highest register of the map, the highest offset, and the offset just above the chip-selects. -/
theorem witness_RegisterAccessSelectsItsRow : a.variant.wf = true ∧
    (0x94 % 4 = 0 ∧ 0x94 < 0x100 ∧ regRecognised a.variant .timings = true ∧ regOffset a.variant .timings = 0x94) ∧
    (0xFC % 4 = 0 ∧ 0xFC < 0x100 ∧ ∀ r, regRecognised a.variant r = true → regOffset a.variant r ≠ 0xFC) ∧
    (0x1C % 4 = 0 ∧ 0x1C < 0x100 ∧ ∀ r, regRecognised a.variant r = true → regOffset a.variant r ≠ 0x1C) := by
  refine ⟨by decide +kernel, by decide +kernel, ⟨by decide, by decide, ?_⟩, by decide, by decide, ?_⟩ <;>
    (intro r; cases r <;> (try (rename_i cs; cases cs)) <;> decide +kernel)

theorem witness_AccessOutsideTheContractIsRefused : ((0 : Nat) = 0 ∨ 4 < 0) ∧ ((5 : Nat) = 0 ∨ 4 < 5) ∧
    ((1 : Nat) ≤ 1 ∧ 1 ≤ 4 ∧ 0x100 ≤ 0x100) ∧ ((1 : Nat) ≤ 4 ∧ 4 ≤ 4 ∧ 0xFF < 0x100 ∧ 0xFF % 4 ≠ 0) := by decide

/-- A state of REF_A whose invariant is checked below. -/
def w : State :=
  { ready 3#32 with
    csline := ⟨true, false, false, false, false⟩, snoopIndex := .count 4, snoopDummies := 4
    dmaLen := 0x01FFFFFC#32, dummyData := 0xFF#32, dram := [(0, 1), (0xFFFFFFFF, 2)] }

theorem invariant_w : Invariant w where
  descriptor := by decide +kernel
  decodes := by
    intro cs h
    refine .inl (.inl ?_)
    cases cs <;> decide +kernel
  base := by decide +kernel
  baseWord := by decide +kernel
  fixedEnd := by
    intro cs _ e he
    cases cs <;> cases he
  inside := by
    intro cs _
    unfold RegionInside
    cases cs <;> decide +kernel
  lines := by
    intro cs _
    cases cs <;> decide +kernel
  lenMasked := by decide +kernel
  dummyMasked := by decide +kernel
  snoop := ⟨by decide +kernel, by decide +kernel, by decide +kernel, by decide +kernel⟩
  memory := by decide +kernel

/-- The last bytes of chip-select 1's segment. -/
theorem witness_WindowAccessIsRouted : Invariant w ∧ w.variant.has .cs1 = true ∧
    w.variant.winBase ≤ 0x29FFFFFC ∧ 0x29FFFFFC + Width.bytes .w4 ≤ w.variant.winBase + w.variant.winSize ∧
    (w.region.get .cs1).start ≤ (0x29FFFFFC : Nat) ∧
    ((0x29FFFFFC : Nat) : Int) + Width.bytes .w4 ≤ (w.region.get .cs1).start + (w.region.get .cs1).size ∧
    (∀ o, w.variant.has o = true → o ≠ .cs1 →
      ¬ ((w.region.get o).start ≤ (0x29FFFFFC : Nat)
        ∧ ((0x29FFFFFC : Nat) : Int) + Width.bytes .w4 ≤ (w.region.get o).start + (w.region.get o).size)) := by
  refine ⟨invariant_w, by decide +kernel, by decide +kernel, by decide +kernel, by decide +kernel, by decide +kernel, ?_⟩
  intro o _ h
  cases o <;> first
    | exact absurd rfl h
    | decide +kernel

/-- REF_A with the region of chip-select 1 over that of chip-select 0. -/
def overlapped : State := { a with region := a.region.set .cs1 ⟨0x28000000, 0x04000000⟩ }

/-- The window's last byte, taken by none; and an address two sub-regions take. -/
theorem witness_UnsettledWindowAccess :
    (a.variant.winBase ≤ 0x2FFFFFFF ∧ 0x2FFFFFFF + Width.bytes .w1 ≤ a.variant.winBase + a.variant.winSize ∧
      ∀ cs, ¬ (a.variant.has cs = true ∧ (a.region.get cs).start ≤ (0x2FFFFFFF : Nat)
        ∧ ((0x2FFFFFFF : Nat) : Int) + Width.bytes .w1 ≤ (a.region.get cs).start + (a.region.get cs).size)) ∧
    (overlapped.variant.winBase ≤ 0x2A000000 ∧
      0x2A000000 + Width.bytes .w4 ≤ overlapped.variant.winBase + overlapped.variant.winSize ∧
      ∃ cs, overlapped.variant.has cs = true ∧ (overlapped.region.get cs).start ≤ ((0x2A000000 : Nat) : Int) ∧
        ((0x2A000000 : Nat) : Int) + Width.bytes .w4 ≤ (overlapped.region.get cs).start + (overlapped.region.get cs).size) := by
  refine ⟨⟨by decide +kernel, by decide +kernel, ?_⟩, by decide +kernel, by decide +kernel, .cs2, by decide +kernel⟩
  intro cs
  cases cs <;> decide +kernel

/-- The table's own instance has every chip-select and the DMA engine, in a well-formed descriptor. -/
theorem witness_RegisterReads : full.variant.wf = true ∧ always full.variant = true ∧ full.variant.has .cs0 = true ∧
    full.variant.has .cs1 = true ∧ full.variant.has .cs2 = true ∧ full.variant.has .cs3 = true ∧
    full.variant.has .cs4 = true ∧ full.variant.hasDma = true ∧ Invariant w :=
  ⟨by decide +kernel, rfl, rfl, rfl, rfl, rfl, rfl, rfl, invariant_w⟩

/-- The same instances serve the write rows. -/
theorem witness_PlainRegisterWrites : full.variant.wf = true ∧ always full.variant = true ∧ full.variant.hasDma = true := by
  decide +kernel

theorem witness_ChipSelectRegisterWrites : full.variant.wf = true ∧ full.variant.has .cs0 = true ∧
    full.variant.has .cs1 = true ∧ full.variant.has .cs2 = true ∧ full.variant.has .cs3 = true ∧
    full.variant.has .cs4 = true := by decide +kernel

theorem witness_UnrecognisedReads :
    (Cs.cs4, Instr.rdCtrl4 .w4) ∈ [(Cs.cs0, Instr.rdCtrl0 .w4), (.cs1, .rdCtrl1 .w4), (.cs2, .rdCtrl2 .w4),
      (.cs3, .rdCtrl3 .w4), (.cs4, .rdCtrl4 .w4)] ∧ a.variant.has .cs4 = false ∧
    (Cs.cs2, Instr.rdSegAddr2 .w4) ∈ [(Cs.cs0, Instr.rdSegAddr0 .w4), (.cs1, .rdSegAddr1 .w4), (.cs2, .rdSegAddr2 .w4),
      (.cs3, .rdSegAddr3 .w4), (.cs4, .rdSegAddr4 .w4)] ∧ b.variant.has .cs2 = false ∧
    (0x90#8, Instr.rdDmaChecksum .w4) ∈ [(0x80#8, Instr.rdDmaCtrl .w4), (0x84#8, .rdDmaFlashAddr .w4),
      (0x88#8, .rdDmaDramAddr .w4), (0x8C#8, .rdDmaLen .w4), (0x90#8, .rdDmaChecksum .w4)] ∧ b.variant.hasDma = false := by
  decide +kernel

theorem witness_UnrecognisedWrites :
    (Cs.cs3, Instr.wrCtrl3 .w1 9#32) ∈ [(Cs.cs0, Instr.wrCtrl0 .w1 9#32), (.cs1, .wrCtrl1 .w1 9#32), (.cs2, .wrCtrl2 .w1 9#32),
      (.cs3, .wrCtrl3 .w1 9#32), (.cs4, .wrCtrl4 .w1 9#32)] ∧ a.variant.has .cs3 = false ∧
    (Cs.cs4, Instr.wrSegAddr4 .w1 9#32) ∈ [(Cs.cs0, Instr.wrSegAddr0 .w1 9#32), (.cs1, .wrSegAddr1 .w1 9#32),
      (.cs2, .wrSegAddr2 .w1 9#32), (.cs3, .wrSegAddr3 .w1 9#32), (.cs4, .wrSegAddr4 .w1 9#32)] ∧
    a.variant.has .cs4 = false ∧
    (0x80#8, Instr.wrDmaCtrl .w1 9#32) ∈ [(0x80#8, Instr.wrDmaCtrl .w1 9#32), (0x84#8, .wrDmaFlashAddr .w1 9#32),
      (0x88#8, .wrDmaDramAddr .w1 9#32), (0x8C#8, .wrDmaLen .w1 9#32), (0x90#8, .wrDmaChecksum .w1 9#32)] ∧
    b.variant.hasDma = false := by
  decide +kernel

theorem witness_NarrowAccessesMergeWithZero : 0 % 4 = 0 ∧ 0 < 0x100 ∧ 0xFC % 4 = 0 ∧ 0xFC < 0x100 := by decide

theorem witness_RegisterAccessesComplete : Invariant w ∧ 0xFC % 4 = 0 ∧ 0xFC < 0x100 ∧ 0 % 4 = 0 :=
  ⟨invariant_w, by decide⟩

/-- Outside by one unit (S3), and an end at the window's end, which is inside. -/
theorem witness_SetSegmentInSixSteps : outsideWindow a.variant (clampedSegment a.variant .cs2 0x64600000#32) ∧
    outsideWindow a.variant (clampedSegment a.variant .cs1 0x50540000#32) ∧
    ¬ outsideWindow a.variant (clampedSegment a.variant .cs1 0x60500000#32) ∧
    ¬ outsideWindow a.variant (clampedSegment a.variant .cs2 0#32) := by
  unfold outsideWindow
  decide +kernel

theorem witness_StartClampKeepsTheWrittenEnd :
    (a.variant.wf = true ∧ a.variant.fixedEnd.s0 = none ∧ (decodeSegment a.variant 0x48410000#32).start ≠ a.variant.winBase ∧
      ¬ outsideWindow a.variant (clampedSegment a.variant .cs0 0x48410000#32) ∧ a.variant.segEnc = .legacy8M) ∧
    (c.variant.wf = true ∧ c.variant.fixedEnd.s0 = none ∧ (decodeSegment c.variant 0x03F00100#32).start ≠ c.variant.winBase ∧
      ¬ outsideWindow c.variant (clampedSegment c.variant .cs0 0x03F00100#32) ∧ c.variant.segEnc = .new1M) := by
  unfold outsideWindow
  decide +kernel

/-- T7: a write the mapper takes, written twice. -/
theorem witness_SegmentWritesAreIdempotent : a.variant.has .cs1 = true ∧
    ∃ t u, exec (.wrSegAddr1 .w4 0x58500000#32) a = .next t ∧ exec (.wrSegAddr1 .w4 0x58500000#32) t = .next u ∧
      t.segAddr.get .cs1 = 0x58500000#32 := by
  refine ⟨rfl, ?_⟩
  obtain ⟨t, ht, hs⟩ := after_some (r := exec (.wrSegAddr1 .w4 0x58500000#32) a)
    (f := fun t => (t.segAddr.get .cs1, (after (exec (.wrSegAddr1 .w4 0x58500000#32) t) (fun _ => true))))
    (x := (0x58500000#32, some true)) (by decide +kernel)
  injection hs with h1 h2
  obtain ⟨u, hu, -⟩ := after_some h2
  exact ⟨t, u, ht, hu, h1⟩

theorem witness_SegmentLayouts : refA.segEnc = .legacy8M ∧ refC.segEnc = .new1M ∧ (1#32 : Word) ≠ 0#32 ∧
    (0 : Int) ≤ (⟨0, 0⟩ : Segment).start ∧ (0 : Int) ≤ (⟨0, 0⟩ : Segment).start + (⟨0, 0⟩ : Segment).size ∧
    (refC.winBase : Int) ≤ (⟨0x20000000, 0⟩ : Segment).start ∧ (0 : Int) ≤ (⟨0x20000000, 0⟩ : Segment).size := by
  decide +kernel

/-- The empty segments, the whole window, and words of a positive size and of size 0 (R122). -/
theorem witness_SegmentRoundTrip :
    [(refC, (⟨0x20000000, 0⟩ : Segment)), (refC, ⟨0x20000000, 0x10000000⟩), (refC, ⟨0x20000000, 0x00200000⟩),
      (refA, ⟨0x20000000, 0x10000000⟩), (refA, ⟨0x30000000, 0⟩), (refA, ⟨0, 0⟩), (refA, ⟨0x7F800000, 0⟩)].all (fun p =>
        decide (p.1.wf = true ∧ p.2.start % (unit p.1 : Int) = 0 ∧ p.2.size % (unit p.1 : Int) = 0 ∧ 0 ≤ p.2.size ∧
          (((p.1.winBase : Int) ≤ p.2.start ∧ p.2.start + p.2.size ≤ (p.1.winBase : Int) + p.1.winSize) ∨
            (p.2.size = 0 ∧ p.1.segEnc = .legacy8M ∧ 0 ≤ p.2.start ∧ p.2.start < 0x80000000)) ∧
          (p.1.segEnc = .new1M → p.2.size = 0 → p.2.start = p.1.winBase) ∧
          ¬ (p.1.segEnc = .new1M ∧ p.2 = ⟨p.1.winBase, 0x100000⟩))) = true ∧
    refA.segEnc = .legacy8M ∧ refC.segEnc = .new1M ∧ 0 < (decodeSegment refC 1#32).size ∧
    0 < (decodeSegment refC 0xFFFFFFFF#32).size ∧ (decodeSegment refC 0x10#32).size = 0 ∧
    (decodeSegment refC 0#32).size = 0 := by
  decide +kernel

theorem witness_FramedLoads : (ready 0#32).variant.has .cs0 = true ∧ modeNumber .cs0 (ready 0#32) = 0 ∧
    modeNumber .cs0 (ready 0x006B4041#32) = 1 ∧ modeNumber .cs2 (ready 0#32) = 0 := by decide +kernel

theorem witness_FramedStores : (ready 0x00020002#32).variant.has .cs0 = true ∧
    modeNumber .cs0 (ready 0x00020002#32) = 2 ∧ writeEnabled .cs0 (ready 0x00020002#32) = true := by decide +kernel

theorem witness_UserLoads : (ready 7#32).variant.has .cs0 = true ∧ modeNumber .cs0 (ready 7#32) = 3 := by decide +kernel

theorem witness_InvalidModeAccesses : (ready 0#32).variant.has .cs0 = true ∧ writeEnabled .cs0 (ready 0#32) = true ∧
    modeNumber .cs0 (ready 2#32) = 2 ∧ modeNumber .cs0 (ready 0#32) = 0 ∧
    modeNumber .cs0 (ready 1#32) = 1 ∧ writeEnabled .cs0 (ready 1#32) = true := by decide +kernel

theorem witness_StoresNeedWriteEnable : [0#32, 1#32, 2#32, 3#32].map
    (fun x => let t := { a with ctrl := ⟨0, 0, x, 0, 0⟩ }
      (t.variant.has .cs2, writeEnabled .cs2 t, modeNumber .cs2 t))
    = [(true, false, 0), (true, false, 1), (true, false, 2), (true, false, 3)] := by decide +kernel

theorem witness_ContradictedSelectorsAreRefused : a.variant.has .cs3 = false ∧ a.variant.has .cs2 = true ∧
    modeOfBits ((a.ctrl.get .cs2).extractLsb' 0 2) ≠ .user ∧ modeNumber .cs2 a ≠ 3 := by decide +kernel

theorem witness_RoutedOffsetsAreNeverClamped : Invariant w ∧
    ∃ t, serveNext (.window .read 0x29FFFFFC 4 0#32) w = .next t := by
  obtain ⟨t, ht, -⟩ := after_some (r := serveNext (.window .read 0x29FFFFFC 4 0#32) w) (f := fun _ => true) (x := true)
    (by decide +kernel)
  exact ⟨invariant_w, t, ht⟩

theorem witness_OnlyUserStoresSnoop :
    (∃ t, exec (.fldUser .cs0 0#32 .w2) (snooping (.count 4) 4) = .next t) ∧
    (writeEnabled .cs0 { snooping (.count 4) 4 with conf := 0#32 } = false ∧
      ∃ t, exec (.fstUser .cs0 0#32 .w1 0#32) { snooping (.count 4) 4 with conf := 0#32 } = .next t) := by
  obtain ⟨t, ht, -⟩ := after_some (r := exec (.fldUser .cs0 0#32 .w2) (snooping (.count 4) 4)) (f := fun _ => true)
    (x := true) (by decide +kernel)
  obtain ⟨u, hu, -⟩ := after_some (r := exec (.fstUser .cs0 0#32 .w1 0#32) { snooping (.count 4) 4 with conf := 0#32 })
    (f := fun _ => true) (x := true) (by decide +kernel)
  exact ⟨⟨t, ht⟩, by decide +kernel, u, hu⟩

theorem userReady_snooping (i : SnoopIndex) (n : Nat) : UserReady .cs0 (snooping i n) :=
  ⟨rfl, by show (3#32 : Word).toNat % 4 = 3; decide, by show (0x00010000#32).getLsbD 16 = true; decide⟩

/-- The seven states of the cursor, the counter at both sides of the address width. -/
theorem witness_UserStoreOfOneByte :
    UserReady .cs0 (snooping .off 0) ∧ (snooping .off 0).snoopIndex = .off ∧
    UserReady .cs0 (snooping .start 0) ∧ (snooping .start 0).snoopIndex = .start ∧ dummiesOf 0x03#8 = 0 ∧ 0 < dummiesOf 0xEC#8 ∧
    UserReady .cs0 (snooping (.count 3) 1) ∧ 3 < addressWidth .cs0 (snooping (.count 3) 1) + 1 ∧
    addressWidth .cs0 (snooping (.count 4) 0) + 1 ≤ 4 ∧ (snooping (.count 4) 0).snoopDummies = 0 ∧
    (snooping (.count 4) 1).snoopDummies = 1 ∧ 1 < (snooping (.count 4) 2).snoopDummies :=
  ⟨userReady_snooping _ _, rfl, userReady_snooping _ _, rfl, by decide +kernel, by decide +kernel,
    userReady_snooping _ _, by decide +kernel, by decide +kernel, rfl, rfl, by decide +kernel⟩

theorem witness_UserStoresGoByteByByte : UserReady .cs0 (snooping (.count 3) 4) := userReady_snooping _ _

theorem witness_SnoopRows : UserReady .cs0 (snooping .start 0) ∧ (snooping .start 0).snoopIndex = .start ∧
    (0xEC#8, 4, Instr.snoopQuadQior4) ∈ snoopRows ∧
    (let t : State := { a with ctrl := ⟨3, 0, 0, 0, 0⟩ }
     t.variant.has .cs0 = true ∧ modeNumber .cs0 t = 3 ∧ writeEnabled .cs0 t = false) ∧
    ∀ r ∈ snoopRows, r.1 ≠ 0x9F#8 := by
  refine ⟨userReady_snooping _ _, rfl, by simp [snoopRows], by decide +kernel, ?_⟩
  intro r hr
  have : ∀ x ∈ snoopRows.map (·.1), x ≠ 0x9F#8 := by decide +kernel
  exact this r.1 (List.mem_map_of_mem hr)

/-- A command with dummies and its three address bytes, and one without. -/
theorem witness_CommandsGetTheirDummyBytes : UserReady .cs0 (snooping .start 0) ∧ (snooping .start 0).snoopIndex = .start ∧
    0 < dummiesOf 0xBB#8 ∧ [0#8, 0#8, 0#8].length = addressWidth .cs0 (snooping .start 0) ∧ dummiesOf 0x03#8 = 0 :=
  ⟨userReady_snooping _ _, rfl, by decide +kernel, by decide +kernel, by decide +kernel⟩

theorem witness_RatioTables : 1 ≤ 1 ∧ 16 ≤ 16 ∧ 1 ≤ 16 := by decide

/-- One value for each row: ENABLE clear, checksum, checksum with calibration, the two transfers; and each
way through the gate. -/
theorem witness_DmaControlWritesSelectTheirRow : a.variant.hasDma = true ∧ a.variant.wf = true ∧
    (low .w4 0xFFFFFFFE#32).getLsbD 0 = false ∧
    ((low .w4 5#32).getLsbD 0 = true ∧ (low .w4 5#32).getLsbD 2 = true ∧ (low .w4 5#32).getLsbD 3 = false) ∧
    ((low .w1 0xF#32).getLsbD 0 = true ∧ (low .w1 0xF#32).getLsbD 2 = true ∧ (low .w1 0xF#32).getLsbD 3 = true) ∧
    ((low .w4 9#32).getLsbD 0 = true ∧ (low .w4 9#32).getLsbD 2 = false ∧ (low .w4 9#32).getLsbD 1 = false) ∧
    ((low .w4 3#32).getLsbD 0 = true ∧ (low .w4 3#32).getLsbD 2 = false ∧ (low .w4 3#32).getLsbD 1 = true) ∧
    a.dmaLen.toNat % 4 = 0 ∧ a.dmaCtrl.getLsbD 0 = false := by decide +kernel

theorem witness_DmaStop : (dma 0 0 3 [] []).variant.hasDma = true := by decide +kernel

theorem witness_DmaStartWhileInProgress : StartRow (.dmaRd true 5#28) (dmaStartValue true false false 5#28) ∧
    a.variant.hasDma = true ∧ ({ a with dmaCtrl := 5#32 } : State).dmaCtrl.getLsbD 0 = true ∧
    ({ a with dmaCtrl := 5#32 } : State).intrCtrl.getLsbD 11 = false :=
  ⟨.rd true 5#28, by decide +kernel⟩

/-- Both ways the gate is open: ENABLE clear, and DMA_STATUS set. -/
theorem open_a : DmaOpen a := ⟨rfl, .inl (by decide +kernel)⟩

theorem open_completed : DmaOpen { a with dmaCtrl := 5#32, intrCtrl := 0x800#32 } := ⟨rfl, .inr (by decide +kernel)⟩

theorem open_dma (x y z : Word) (r : List (Option Word)) (d : List DramReply) : DmaOpen (dma x y z r d) :=
  ⟨rfl, .inl (by rw [show (dma x y z r d).dmaCtrl = 0#32 from rfl]; decide)⟩

theorem witness_DmaStartsComplete : StartRow (.dmaCksumCal true 7#28) (dmaStartValue true true true 7#28) ∧
    DmaOpen a ∧ a.dmaLen.toNat % 4 = 0 ∧ DmaOpen { a with dmaCtrl := 5#32, intrCtrl := 0x800#32 } ∧
    (dmaStartValue false true true 7#28).getLsbD 3 = false ∧ (dmaStartValue true false true 7#28).getLsbD 2 = false :=
  ⟨.cksumCal true 7#28, open_a, by decide +kernel, open_completed, by decide +kernel, by decide +kernel⟩

theorem witness_DmaLengthFault : StartRow (.dmaCksum false 0#28) (dmaStartValue false true false 0#28) ∧
    DmaOpen (dma 0 0 3 [] []) ∧ (dma 0 0 3 [] []).dmaLen.toNat % 4 ≠ 0 ∧ Invariant w :=
  ⟨.cksum false 0#28, open_dma _ _ _ _ _, by decide +kernel, invariant_w⟩

/-- A transfer that wraps its cursors, and a checksum that stops early. -/
theorem witness_DmaCursorsMoveInStep :
    (StartRow (.dmaRd false 0#28) (dmaStartValue false false false 0#28) ∧
      DmaOpen (dma 0xFFFFFFFC#32 0xFFFFFFFC#32 4#32 [some 1#32] [.plain]) ∧
      ∃ t, exec (.dmaRd false 0#28) (dma 0xFFFFFFFC#32 0xFFFFFFFC#32 4#32 [some 1#32] [.plain]) = .next t) ∧
    (StartRow (.dmaCksum false 0#28) (dmaStartValue false true false 0#28) ∧ DmaOpen (dma 0#32 0#32 8#32 [some 1#32, none] []) ∧
      ∃ t, exec (.dmaCksum false 0#28) (dma 0#32 0#32 8#32 [some 1#32, none] []) = .next t) := by
  obtain ⟨t, ht, -⟩ := after_some (r := exec (.dmaRd false 0#28) (dma 0xFFFFFFFC#32 0xFFFFFFFC#32 4#32 [some 1#32] [.plain]))
    (f := fun _ => true) (x := true) (by decide +kernel)
  obtain ⟨u, hu, -⟩ := after_some (r := exec (.dmaCksum false 0#28) (dma 0#32 0#32 8#32 [some 1#32, none] []))
    (f := fun _ => true) (x := true) (by decide +kernel)
  exact ⟨⟨.rd false 0#28, open_dma _ _ _ _ _, t, ht⟩, .cksum false 0#28, open_dma _ _ _ _ _, u, hu⟩

theorem witness_DmaOfZeroLength : DmaOpen a ∧ a.dmaLen = 0#32 := ⟨open_a, rfl⟩

/-- No word, and two words. -/
theorem witness_ChecksumDmaSumsTheWords : DmaOpen (dma 0#32 0#32 8#32 [some 1#32, some 2#32] []) ∧
    (dma 0#32 0#32 8#32 [some 1#32, some 2#32] []).binding = .external ∧
    (dma 0#32 0#32 8#32 [some 1#32, some 2#32] []).dmaFlashAddr.toNat % 4 = 0 ∧
    (dma 0#32 0#32 8#32 [some 1#32, some 2#32] []).dmaLen.toNat = 4 * [1#32, 2#32].length ∧
    (dma 0#32 0#32 8#32 [some 1#32, some 2#32] []).flashReplies = [1#32, 2#32].map some ++ [] ∧
    (dma 0#32 0#32 0#32 [] []).dmaLen.toNat = 4 * ([] : List Word).length :=
  ⟨open_dma _ _ _ _ _, rfl, by decide +kernel, by decide +kernel, rfl, by decide +kernel⟩

theorem witness_ChecksumDmaStopsEarly : DmaOpen (dma 0#32 0#32 8#32 [some 1#32, none] []) ∧
    (dma 0#32 0#32 8#32 [some 1#32, none] []).binding = .external ∧
    (dma 0#32 0#32 8#32 [some 1#32, none] []).dmaFlashAddr.toNat % 4 = 0 ∧
    (dma 0#32 0#32 8#32 [some 1#32, none] []).dmaLen.toNat % 4 = 0 ∧
    4 * [1#32].length < (dma 0#32 0#32 8#32 [some 1#32, none] []).dmaLen.toNat ∧
    (dma 0#32 0#32 8#32 [some 1#32, none] []).flashReplies = [1#32].map some ++ none :: [] :=
  ⟨open_dma _ _ _ _ _, rfl, by decide +kernel, by decide +kernel, by decide +kernel, rfl⟩

theorem witness_CalibrationOnlyTunes : DmaOpen (dma 0#32 0#32 8#32 [some 1#32, some 2#32] []) ∧
    (dma 0#32 0#32 8#32 [some 1#32, some 2#32] []).dmaLen.toNat % 4 = 0 :=
  ⟨open_dma _ _ _ _ _, by decide +kernel⟩

/-- D13's state, for the row with and without calibration. -/
theorem witness_UnreliableSettingsReadTheSentinel :
    let s : State := { dma 0#32 0#32 4#32 [some 1#32] [] with variant := { refA with injectFailure := true } }
    DmaOpen s ∧ s.variant.injectFailure = true ∧ unreliableSetting (dmaStartValue true true false 0x0F#28) = true ∧
    unreliableSetting (dmaStartValue false true false 0x17#28) = true ∧
    (∃ t, exec (.dmaCksumCal false 0x0F#28) s = .next t ∧ t.dmaLen = 0#32) ∧
    ∃ t, exec (.dmaCksum false 0x17#28) s = .next t ∧ t.dmaLen = 0#32 := by
  intro s
  refine ⟨⟨rfl, .inl (by decide +kernel)⟩, rfl, by decide +kernel, by decide +kernel, ?_, ?_⟩
  · exact after_some (f := fun t => t.dmaLen) (by decide +kernel)
  · exact after_some (f := fun t => t.dmaLen) (by decide +kernel)

/-- The last word of the DRAM side. -/
theorem witness_DmaFromFlashToDram : DmaOpen (dma 0#32 0xFFFFFFFC#32 4#32 [some 7#32] [.plain]) ∧
    (dma 0#32 0xFFFFFFFC#32 4#32 [some 7#32] [.plain]).binding = .external ∧
    (dma 0#32 0xFFFFFFFC#32 4#32 [some 7#32] [.plain]).dram.wf = true ∧
    (dma 0#32 0xFFFFFFFC#32 4#32 [some 7#32] [.plain]).dmaFlashAddr.toNat % 4 = 0 ∧
    (dma 0#32 0xFFFFFFFC#32 4#32 [some 7#32] [.plain]).dmaDramAddr.toNat % 4 = 0 ∧
    (dma 0#32 0xFFFFFFFC#32 4#32 [some 7#32] [.plain]).dmaLen.toNat = 4 * [7#32].length ∧
    (dma 0#32 0xFFFFFFFC#32 4#32 [some 7#32] [.plain]).dmaDramAddr.toNat
      + (dma 0#32 0xFFFFFFFC#32 4#32 [some 7#32] [.plain]).dmaLen.toNat ≤ 2 ^ 32 ∧
    (dma 0#32 0xFFFFFFFC#32 4#32 [some 7#32] [.plain]).flashReplies = [7#32].map some ++ [] ∧
    (dma 0#32 0xFFFFFFFC#32 4#32 [some 7#32] [.plain]).dramReplies = List.replicate [7#32].length .plain ++ [] :=
  ⟨open_dma _ _ _ _ _, rfl, by decide +kernel, by decide +kernel, by decide +kernel, by decide +kernel,
    by decide +kernel, rfl, rfl⟩

theorem witness_DmaFromDramToFlash : DmaOpen (dma 0#32 0xFFFFFFF8#32 8#32 [some 0#32, some 0#32] [.plain, .plain]) ∧
    (dma 0#32 0xFFFFFFF8#32 8#32 [some 0#32, some 0#32] [.plain, .plain]).binding = .external ∧
    (dma 0#32 0xFFFFFFF8#32 8#32 [some 0#32, some 0#32] [.plain, .plain]).dmaFlashAddr.toNat % 4 = 0 ∧
    (dma 0#32 0xFFFFFFF8#32 8#32 [some 0#32, some 0#32] [.plain, .plain]).dmaDramAddr.toNat % 4 = 0 ∧
    (dma 0#32 0xFFFFFFF8#32 8#32 [some 0#32, some 0#32] [.plain, .plain]).dmaLen.toNat = 4 * 2 ∧
    (dma 0#32 0xFFFFFFF8#32 8#32 [some 0#32, some 0#32] [.plain, .plain]).dmaDramAddr.toNat
      + (dma 0#32 0xFFFFFFF8#32 8#32 [some 0#32, some 0#32] [.plain, .plain]).dmaLen.toNat ≤ 2 ^ 32 ∧
    (dma 0#32 0xFFFFFFF8#32 8#32 [some 0#32, some 0#32] [.plain, .plain]).flashReplies = [some 0#32, some 0#32] ++ [] ∧
    [some 0#32, some 0#32].length = 2 ∧ (∀ x ∈ [some 0#32, some 0#32], x ≠ none) ∧
    (dma 0#32 0xFFFFFFF8#32 8#32 [some 0#32, some 0#32] [.plain, .plain]).dramReplies = List.replicate 2 .plain ++ [] :=
  ⟨open_dma _ _ _ _ _, rfl, by decide +kernel, by decide +kernel, by decide +kernel, by decide +kernel, rfl, rfl,
    by simp, rfl⟩

/-- The five failures, each in its own state. -/
theorem witness_DmaTransfersStopEarly :
    (∀ x y r d, DmaOpen (dma x y 8#32 r d) ∧ (dma x y 8#32 r d).binding = .external ∧
      (dma x y 8#32 r d).dmaLen.toNat % 4 = 0 ∧ (dma x y 8#32 r d).dmaLen ≠ 0#32) ∧
    ((dma 4#32 0#32 8#32 [none] []).dmaFlashAddr.toNat % 4 = 0 ∧ (dma 4#32 0#32 8#32 [none] []).flashReplies = none :: []) ∧
    (dma 3#32 0#32 8#32 [] []).dmaFlashAddr.toNat % 4 ≠ 0 ∧
    ((dma 4#32 8#32 8#32 [some 1#32] [.fail]).dmaDramAddr.toNat % 4 = 0 ∧
      (dma 4#32 8#32 8#32 [some 1#32] [.fail]).flashReplies = some 1#32 :: [] ∧
      (dma 4#32 8#32 8#32 [some 1#32] [.fail]).dramReplies = .fail :: []) ∧
    ((dma 4#32 8#32 8#32 [none] [.word 5#32]).dramReplies = .word 5#32 :: [] ∧
      (dma 4#32 8#32 8#32 [none] [.word 5#32]).flashReplies = none :: []) :=
  ⟨fun x y r d => ⟨open_dma x y _ r d, rfl, by rw [show (dma x y 8#32 r d).dmaLen = 8#32 from rfl]; decide,
      by rw [show (dma x y 8#32 r d).dmaLen = 8#32 from rfl]; decide⟩,
    ⟨by decide +kernel, rfl⟩, by decide +kernel, ⟨by decide +kernel, rfl, rfl⟩, rfl, rfl⟩

/-- REF_A with the framer on the flash side, eight bytes waiting, and four bytes to move. -/
def framed4 : State := { ready 0#32 with dmaLen := 4#32, dmaFlashAddr := 0x100#32, dramReplies := [.word 9#32] }

theorem witness_FramerServesTheFlashSide :
    DmaOpen framed4 ∧ framed4.binding = .framer ∧ framed4.dmaLen = 4#32 ∧ framed4.variant.injectFailure = false ∧
    framed4.dmaFlashAddr.toNat % 4 = 0 ∧ framed4.dmaDramAddr.toNat % 4 = 0 ∧ framed4.dramReplies = .word 9#32 :: [] ∧
    (∃ u, serveNext (.window .read (framed4.variant.winBase + framed4.dmaFlashAddr.toNat) 4 0#32) framed4 = .next u ∧
      u.ret = some 0x44332211#32) ∧
    (∃ u, serveNext (.window .write (framed4.variant.winBase + framed4.dmaFlashAddr.toNat) 4 9#32)
      { framed4 with dramReplies := [], bus := framed4.bus ++ [.dramRead framed4.dmaDramAddr (some 9#32)] } = .next u) ∧
    ({ framed4 with dmaFlashAddr := 2#32 } : State).dmaFlashAddr.toNat % 4 ≠ 0 ∧
    (∃ s : State, DmaOpen s ∧ s.dmaLen = 4#32 ∧ s.binding = .framer ∧ s.dmaFlashAddr = 0x0C000000#32 ∧
      serveNext (.window .read (s.variant.winBase + s.dmaFlashAddr.toNat) 4 0#32) s = .refused .notDelivered) := by
  refine ⟨⟨rfl, .inl (by decide +kernel)⟩, rfl, rfl, rfl, by decide +kernel, by decide +kernel, rfl, ?_, ?_, by decide +kernel,
    { framed4 with dmaFlashAddr := 0x0C000000#32 }, ⟨rfl, .inl (by decide +kernel)⟩, rfl, rfl, rfl, ?_⟩
  · exact after_some (f := fun t => t.ret) (by decide +kernel)
  · obtain ⟨u, hu, -⟩ := after_some (r := serveNext (.window .write (framed4.variant.winBase + framed4.dmaFlashAddr.toNat) 4 9#32)
      { framed4 with dramReplies := [], bus := framed4.bus ++ [.dramRead framed4.dmaDramAddr (some 9#32)] })
      (f := fun _ => true) (x := true) (by decide +kernel)
    exact ⟨u, hu⟩
  · rfl

theorem witness_StuckGateOpensByStop : StartRow (.dmaCksum false 0#28) (dmaStartValue false true false 0#28) ∧
    a.variant.hasDma = true ∧ ({ a with dmaCtrl := 5#32, intrCtrl := 0x800#32 } : State).dmaCtrl.getLsbD 0 = true ∧
    (0#32 : Word).getLsbD 11 = false ∧ a.dmaLen.toNat % 4 = 0 ∧
    ∃ t, exec (.wrIntrCtrl .w4 0#32) { a with dmaCtrl := 5#32, intrCtrl := 0x800#32 } = .next t :=
  ⟨.cksum false 0#28, rfl, by decide +kernel, by decide +kernel, by decide +kernel, _, rfl⟩

theorem witness_OnlyTheBufferIsWritten :
    (∃ t, exec (.dmaWr false 0#28) (dma 0#32 0#32 4#32 [some 1#32] [.plain]) = .next t) ∧
    (dma 0#32 0xFFFFFFFC#32 4#32 [some 1#32] [.plain]).dram.wf = true ∧
    (dma 0#32 0xFFFFFFFC#32 4#32 [some 1#32] [.plain]).dmaDramAddr.toNat
      + (dma 0#32 0xFFFFFFFC#32 4#32 [some 1#32] [.plain]).dmaLen.toNat ≤ 2 ^ 32 ∧
    (∃ t, exec (.dmaRd false 0#28) (dma 0#32 0xFFFFFFFC#32 4#32 [some 1#32] [.plain]) = .next t) ∧
    (0xFFFFFFFB < (dma 0#32 0xFFFFFFFC#32 4#32 [some 1#32] [.plain]).dmaDramAddr.toNat) := by
  obtain ⟨t, ht, -⟩ := after_some (r := exec (.dmaWr false 0#28) (dma 0#32 0#32 4#32 [some 1#32] [.plain]))
    (f := fun _ => true) (x := true) (by decide +kernel)
  obtain ⟨u, hu, -⟩ := after_some (r := exec (.dmaRd false 0#28) (dma 0#32 0xFFFFFFFC#32 4#32 [some 1#32] [.plain]))
    (f := fun _ => true) (x := true) (by decide +kernel)
  exact ⟨⟨t, ht⟩, by decide +kernel, by decide +kernel, ⟨u, hu⟩, by decide +kernel⟩

/-- `irq` rising (D16) and falling. -/
theorem witness_IrqMovesOnlyWithDmaControl :
    (∃ t, exec (.wrIntrCtrl .w4 0#32) a = .next t ∧ dmaControl (.wrIntrCtrl .w4 0#32) = false) ∧
    (∃ t, exec (.dmaCksum false 0#28) { a with intrCtrl := 8#32 } = .next t ∧ t.irq = true) ∧
    (∃ t, exec (.dmaStop 0#31) { a with irq := true } = .next t ∧ t.irq = false) :=
  ⟨⟨_, rfl, rfl⟩, after_some (f := fun t => t.irq) (by decide +kernel), after_some (f := fun t => t.irq) (by decide +kernel)⟩

theorem witness_NothingReadsTheLog : ∃ t, exec (.wrSegAddr1 .w4 0x58510000#32) a = .next t ∧ t.log ≠ [] := by
  obtain ⟨t, ht, hl⟩ := after_some (r := exec (.wrSegAddr1 .w4 0x58510000#32) a) (f := fun t => t.log.isEmpty) (x := false)
    (by decide +kernel)
  exact ⟨t, ht, by cases h : t.log <;> simp_all⟩

theorem witness_DescriptorIsNeverChanged : ∃ t, step { a with pending := [.reset] } = .next t := by
  obtain ⟨t, ht, -⟩ := after_some (r := step { a with pending := [.reset] }) (f := fun _ => true) (x := true) (by decide +kernel)
  exact ⟨t, ht⟩

theorem witness_Construction : ({ refA with numCs := 0 } : Variant).wf = false ∧
    (refA.wf = true ∧ refA.hasDma = true ∧ (none : Option Memory) = none) ∧
    (refB.wf = true ∧ refB.hasDma = false) := by decide +kernel

/-- Another version, another descriptor, and each kind of cursor byte. -/
theorem witness_RestoreRebuildsTheOutputs : ({ takeSnapshot a with version := 2 } : Snapshot).version ≠ 1 ∧
    ((takeSnapshot b).version = 1 ∧ (takeSnapshot b).takenOf ≠ a.variant) ∧
    ((takeSnapshot a).version = 1 ∧ (takeSnapshot a).takenOf = a.variant ∧ (takeSnapshot a).cursor = 0xFF#8) ∧
    (takeSnapshot (snooping .start 0)).cursor = 0x00#8 ∧
    ((takeSnapshot (snooping (.count 8) 1)).cursor ≠ 0xFF#8 ∧ (takeSnapshot (snooping (.count 8) 1)).cursor ≠ 0x00#8) ∧
    a.variant.hasDma = true ∧ a.variant.has .cs2 = true := by
  decide +kernel

/-- REF_B, whose chip-select 1 has a fixed end, with a DMA engine. -/
def fixedEnded : State := State.ofVariant { refB with hasDma := true } .framer []

theorem invariant_fixedEnded : Invariant fixedEnded where
  descriptor := by decide +kernel
  decodes := by
    intro cs _
    refine .inl (.inl ?_)
    cases cs <;> decide +kernel
  base := by decide +kernel
  baseWord := by decide +kernel
  fixedEnd := by
    intro cs _ e he
    cases cs <;> cases he
    decide +kernel
  inside := by
    intro cs _
    unfold RegionInside
    cases cs <;> decide +kernel
  lines := by
    intro cs _
    cases cs <;> decide +kernel
  lenMasked := by decide +kernel
  dummyMasked := by decide +kernel
  snoop := ⟨by decide +kernel, trivial⟩
  memory := by decide +kernel

/-- With no fixed end, and with one whose word has a positive size. -/
theorem witness_RestoreUndoesSave : Invariant w ∧ w.variant = w.variant ∧ w.variant.hasDma = true ∧
    serveNext .save w = .next { w with saved := some (takeSnapshot w) } ∧ (∀ cs, w.variant.fixedEnd.get cs = none) ∧
    Invariant fixedEnded ∧ fixedEnded.variant.hasDma = true ∧
    serveNext .save fixedEnded = .next { fixedEnded with saved := some (takeSnapshot fixedEnded) } ∧
    fixedEnded.variant.fixedEnd.get .cs1 = some 0x38000000 ∧
    0 < (decodeSegment fixedEnded.variant (fixedEnded.segAddr.get .cs1)).size ∧
    ∀ cs e, cs ≠ .cs1 → fixedEnded.variant.fixedEnd.get cs ≠ some e := by
  refine ⟨invariant_w, rfl, rfl, rfl, fun cs => ?_, invariant_fixedEnded, rfl, rfl, rfl, by decide +kernel,
    fun cs e h he => ?_⟩
  · cases cs <;> rfl
  · cases cs <;> first
      | exact h rfl
      | cases he

theorem witness_InvariantAtReset : refB.wf = true ∧ Memory.wf [(0, 1), (0xFFFFFFFF, 2)] = true := by decide +kernel

theorem witness_EveryStepKeepsTheInvariant : Invariant { w with pending := [.window .write 0x20000000 1 0xA5#32] } ∧
    (∀ p rest, ({ w with pending := [.window .write 0x20000000 1 0xA5#32] } : State).pending ≠ .restore p :: rest) ∧
    ∃ t, step { w with pending := [.window .write 0x20000000 1 0xA5#32] } = .next t := by
  refine ⟨?_, by simp, ?_⟩
  · obtain ⟨h1, h2, h3, h4, h5, h6, h7, h8, h9, h10, h11⟩ := invariant_w
    exact ⟨h1, h2, h3, h4, h5, h6, h7, h8, h9, h10, h11⟩
  · obtain ⟨t, ht, -⟩ := after_some (r := step { w with pending := [.window .write 0x20000000 1 0xA5#32] })
      (f := fun _ => true) (x := true) (by decide +kernel)
    exact ⟨t, ht⟩

end Sys2Proof.Tests
end

/-! Proofs of the family `00_scope.md`: what a step runs (O4), and what no step changes (O53). -/

namespace Sys2Proof.Machine

open Sys2Proof.Claims

/-! Serving a request: the request is put in front, and taken away before it is served. -/

/-- What a request turns into does not depend on the requests that wait behind it. -/
theorem fetch_pending (r : Request) (l : List Request) (s : State) :
    fetch r { s with pending := l } = fetch r s := by
  cases r <;> rfl

/-- Serving a request next is serving what it turns into, on the state without it (log 2). -/
theorem serveNext_eq (r : Request) (s : State) : serveNext r s = serve (fetch r s) s := by
  have h : serveNext r s = serve (fetch r { s with pending := r :: s.pending }) s := step_cons rfl
  rw [h, fetch_pending]

theorem fetchFrame_ok {v : Variant} {fmt : Format} {bytes : List Byte} {i : Instr}
    (h : decode v fmt bytes = .ok i) : fetchFrame v fmt bytes = .operation i := by
  simp [fetchFrame, h]

theorem fetchFrame_error {v : Variant} {fmt : Format} {bytes : List Byte} {e : Reject}
    (h : decode v fmt bytes = .error e) : fetchFrame v fmt bytes = .refused (.undecoded e) := by
  simp [fetchFrame, h]

theorem step_idle {s : State} (h : s.pending = []) : step s = .next s := by
  simp [step, h]

/-- Settles O4: a served frame is what it decodes to, an operation or a refusal. -/
theorem stepRunsTheDecodedOperation : Obligations.StepRunsTheDecodedOperation := by
  refine ⟨fun s fmt bytes i h => ?_, fun s fmt bytes e h => ?_, fun s => step_idle⟩
  · rw [serveNext_eq, fetch, fetchFrame_ok h, serve]
  · rw [serveNext_eq, fetch, fetchFrame_error h, serve]

/-! What no step changes: the parameters of the block (R4, R59), and the log up to now (R35). -/

/-- `t` is a later state of the same block: the descriptor and the binding are those of `s`, and the
log is that of `s` with some events after it. -/
structure Continues (s t : State) : Prop where
  variant : t.variant = s.variant
  binding : t.binding = s.binding
  log : ∃ es, t.log = s.log ++ es

/-- Every next state that the result can be continues `s`. -/
def ResultContinues (s : State) (r : Result) : Prop := ∀ t, r = .next t → Continues s t

theorem Continues.trans {s t u : State} (h : Continues s t) (k : Continues t u) : Continues s u := by
  obtain ⟨es, hs⟩ := h.log
  obtain ⟨fs, hf⟩ := k.log
  exact ⟨k.variant.trans h.variant, k.binding.trans h.binding, es ++ fs, by simp [hf, hs]⟩

/-- An operation that touches neither the parameters nor the log. -/
theorem Continues.of_same {s t : State} (hv : t.variant = s.variant) (hb : t.binding = s.binding)
    (hl : t.log = s.log) : Continues s t :=
  ⟨hv, hb, [], by simp [hl]⟩

theorem Continues.refl (s : State) : Continues s s := .of_same rfl rfl rfl

theorem Continues.returnNone {s t : State} (h : Continues s t) : Continues s (returnNone t) :=
  ⟨h.variant, h.binding, h.log⟩

theorem Continues.returnValue {s t : State} (h : Continues s t) (w : Width) (v : Word) :
    Continues s (returnValue w v t) :=
  ⟨h.variant, h.binding, h.log⟩

theorem Continues.next {s t : State} (h : Continues s t) : ResultContinues s (.next t) := by
  rintro u ⟨⟩
  exact h

theorem addLog_continues (es : List Event) (s : State) : Continues s (addLog es s) := ⟨rfl, rfl, es, rfl⟩

theorem driveLine_continues (cs : Cs) (level : Bool) (s : State) : Continues s (driveLine cs level s) :=
  .of_same (by simp) (by simp) (by simp)

theorem driveLines_continues (level : Cs → Bool) (s : State) : Continues s (driveLines level s) := by
  rw [driveLines_frame]
  exact .of_same rfl rfl rfl

/-- An operation of the framer or of a side of the engine: it touches no parameter and only appends. -/
theorem SideTouches.continues {f : State → State} (hf : LogBlind f) {s : State} (h : SideTouches s (f s)) :
    Continues s (f s) :=
  ⟨h.variant, h.binding, (hf s).imp fun _ => And.left⟩

theorem DmaTouches.continues {f : State → State} (hf : LogBlind f) {s : State} (h : DmaTouches s (f s)) :
    Continues s (f s) :=
  ⟨h.variant, h.binding, (hf s).imp fun _ => And.left⟩

theorem flashLoad_continues (cs : Cs) (addr : Word) (w : Width) (s : State) :
    Continues s (flashLoad cs addr w s).2 :=
  (flashLoad_touches cs addr w s).continues (f := fun s => (flashLoad cs addr w s).2)
    (logBlind_flashLoad cs addr w).snd

theorem flashStore_continues (cs : Cs) (addr : Word) (w : Width) (data : Word) (s : State) :
    Continues s (flashStore cs addr w data s) :=
  (flashStore_touches cs addr w data s).continues (logBlind_flashStore cs addr w data)

theorem userStore_continues (cs : Cs) (addr : Word) (bytes : List Byte) (s : State) :
    Continues s (userStore cs addr bytes s) := by
  unfold userStore
  split
  · exact (userBytes_touches cs bytes s).continues (logBlind_userBytes cs bytes)
  · exact addLog_continues _ s

theorem checksumRun_continues (s : State) : Continues s (checksumRun s) :=
  (checksumRun_touches s).continues logBlind_checksumRun

theorem transferRun_continues (s : State) : Continues s (transferRun s) :=
  (transferRun_touches s).continues logBlind_transferRun

theorem calibrate_continues (s : State) : Continues s (calibrate s) := by
  rw [calibrate_eq]
  exact .of_same rfl rfl rfl

theorem calibratedChecksum_continues (s : State) : Continues s (checksumRun (calibrate s)) :=
  (calibrate_continues s).trans (checksumRun_continues _)

/-! The shared operations of the rows. -/

theorem unrecognisedRead_continues (off : Byte) (w : Width) (s : State) :
    Continues s (unrecognisedRead off w s) :=
  (addLog_continues _ s).returnValue w _

theorem unrecognisedWrite_continues (off : Byte) (value : Word) (s : State) :
    Continues s (unrecognisedWrite off value s) :=
  (addLog_continues _ s).returnNone

theorem readIf_continues (r : Reg) (w : Width) (v : Word) (s : State) :
    ResultContinues s (readIf r w v s) := by
  refine Continues.next ?_
  split
  · exact (Continues.refl s).returnValue w v
  · exact unrecognisedRead_continues _ w s

theorem writeIf_continues (r : Reg) (value : Word) {s t : State} (h : Continues s t) :
    ResultContinues s (writeIf r value s t) := by
  refine Continues.next ?_
  split
  · exact h.returnNone
  · exact unrecognisedWrite_continues _ value s

theorem propagateAsserted_continues (cs : Cs) (was now : Bool) (s : State) :
    Continues s (propagateAsserted cs was now s) := by
  have cursor (c : SnoopIndex) : Continues s { s with snoopIndex := c } := .of_same rfl rfl rfl
  unfold propagateAsserted
  split
  · exact .refl s
  · split
    · exact (cursor .start).trans (driveLine_continues cs true _)
    · exact (cursor .off).trans (driveLine_continues cs false _)

theorem writeCtrl_continues (cs : Cs) (value : Word) (s : State) : Continues s (writeCtrl cs value s) := by
  have store : Continues s { s with ctrl := s.ctrl.set cs value } := .of_same rfl rfl rfl
  exact store.trans (propagateAsserted_continues cs _ _ _)

theorem setSegment_continues (cs : Cs) (word : Word) (s : State) : Continues s (setSegment cs word s) := by
  obtain ⟨es, h | ⟨g, x, h⟩⟩ := setSegment_frame cs word s <;> rw [h]
  · exact addLog_continues es s
  · exact (addLog_continues es s).trans (.of_same rfl rfl rfl)

theorem writeSeg_continues (cs : Cs) (value : Word) (s : State) : Continues s (writeSeg cs value s) := by
  unfold writeSeg
  split
  · exact .refl s
  · exact setSegment_continues cs value s

theorem inMode_continues (cs : Cs) (m : Mode) {s t : State} (h : Continues s t) :
    ResultContinues s (inMode cs m s t) := by
  intro u hu
  obtain ⟨-, -, rfl⟩ := inMode_of_next hu
  exact h

theorem loadInMode_continues (m : Mode) (cs : Cs) (addr : Word) (w : Width) (s : State) :
    ResultContinues s (loadInMode m cs addr w s) :=
  inMode_continues cs m ((flashLoad_continues cs addr w s).returnValue w _)

theorem storeInMode_continues (m : Mode) (cs : Cs) (addr : Word) (w : Width) (data : Word) (s : State) :
    ResultContinues s (storeInMode m cs addr w data s) :=
  inMode_continues cs m (flashStore_continues cs addr w data s).returnNone

theorem snoopRowStore_continues (cs : Cs) (addr : Word) (b : Byte) (s : State) :
    ResultContinues s (snoopRowStore cs addr b s) :=
  inMode_continues cs .user (userStore_continues cs addr [b] s).returnNone

theorem stopDma_continues (value : Word) (s : State) : Continues s (stopDma value s) := .of_same rfl rfl rfl

theorem complete_continues (s : State) : Continues s (complete s) := .of_same rfl rfl rfl

theorem startDma_continues (value : Word) {body : State → State} (h : ∀ u, Continues u (body u))
    (s : State) : ResultContinues s (startDma value body s) := by
  unfold startDma
  split
  · exact (addLog_continues _ s).returnNone.next
  · split
    · exact fun _ => nofun
    · have store : Continues s { s with dmaCtrl := value } := .of_same rfl rfl rfl
      exact ((store.trans (h _)).trans (complete_continues _)).returnNone.next

theorem writeDmaControl_continues (value : Word) (s : State) :
    ResultContinues s (writeDmaControl value s) := by
  unfold writeDmaControl
  split
  · exact (stopDma_continues value s).returnNone.next
  · split
    · split
      · exact startDma_continues value calibratedChecksum_continues s
      · exact startDma_continues value checksumRun_continues s
    · exact startDma_continues value transferRun_continues s

theorem ifDma_continues (value : Word) {s : State} {r : Result} (h : ResultContinues s r) :
    ResultContinues s (ifDma value s r) := by
  unfold ifDma
  split
  · exact h
  · exact (unrecognisedWrite_continues _ value s).next

/-- No operation changes the parameters of the block or takes an event off the log. -/
theorem exec_continues (i : Instr) (s : State) : ResultContinues s (exec i s) := by
  cases i with
  | rdConf | rdCeCtrl | rdIntrCtrl | rdDummyData | rdTimings
  | rdCtrl0 | rdCtrl1 | rdCtrl2 | rdCtrl3 | rdCtrl4
  | rdSegAddr0 | rdSegAddr1 | rdSegAddr2 | rdSegAddr3 | rdSegAddr4
  | rdDmaCtrl | rdDmaFlashAddr | rdDmaDramAddr | rdDmaLen | rdDmaChecksum =>
    exact readIf_continues _ _ _ s
  | wrConf | wrCeCtrl | wrIntrCtrl | wrDummyData | wrTimings
  | wrDmaFlashAddr | wrDmaDramAddr | wrDmaLen =>
    exact writeIf_continues _ _ (.of_same rfl rfl rfl)
  | wrDmaChecksum => exact writeIf_continues _ _ (addLog_continues _ s)
  | wrCtrl0 | wrCtrl1 | wrCtrl2 | wrCtrl3 | wrCtrl4 =>
    exact writeIf_continues _ _ (writeCtrl_continues _ _ s)
  | wrSegAddr0 | wrSegAddr1 | wrSegAddr2 | wrSegAddr3 | wrSegAddr4 =>
    exact writeIf_continues _ _ (writeSeg_continues _ _ s)
  | rdUnrecognised off w => exact (unrecognisedRead_continues off w s).next
  | wrUnrecognised off w data => exact (unrecognisedWrite_continues off (lowBytes w data) s).next
  | fldRead | fldFread | fldWrite | fldUser => exact loadInMode_continues _ _ _ _ s
  | fstRead | fstFread | fstWrite | fstUser => exact storeInMode_continues _ _ _ _ _ s
  | wrDmaCtrl w data => exact ifDma_continues _ (writeDmaControl_continues (lowBytes w data) s)
  | dmaStop => exact ifDma_continues _ (stopDma_continues _ s).returnNone.next
  | dmaCksum => exact ifDma_continues _ (startDma_continues _ checksumRun_continues s)
  | dmaCksumCal => exact ifDma_continues _ (startDma_continues _ calibratedChecksum_continues s)
  | dmaRd | dmaWr => exact ifDma_continues _ (startDma_continues _ transferRun_continues s)
  | snoopPlainRead | snoopPlainRead4 | snoopPlainPp | snoopPlainPp4 | snoopPlainDpp | snoopPlainQpp
  | snoopPlainQpp4 | snoopPlainPp44 | snoopFastFastRead | snoopFastFastRead4 | snoopFastDor
  | snoopFastDor4 | snoopFastQor | snoopFastQor4 | snoopDualDior | snoopDualDior4 | snoopQuadQior
  | snoopQuadQior4 | snoopUnknown =>
    exact snoopRowStore_continues _ _ _ s

/-! The operations of the environment, and the step. -/

theorem resetBlock_continues (s : State) : Continues s (resetBlock s) := by
  refine .trans ?_ (driveLines_continues _ _)
  exact .of_same rfl rfl rfl

theorem restoreRegisters_continues (p : Snapshot) (s : State) : Continues s (restoreRegisters p s) :=
  .of_same rfl rfl rfl

theorem rebuildOutputs_continues (s : State) : Continues s (rebuildOutputs s) := by
  refine .trans ?_ (driveLines_continues _ _)
  exact .of_same rfl rfl rfl

theorem saveBlock_continues (s : State) : Continues s (saveBlock s) := .of_same rfl rfl rfl

theorem restoreBlock_continues (p : Snapshot) (s : State) : ResultContinues s (restoreBlock p s) := by
  unfold restoreBlock
  split
  · exact fun _ => nofun
  · split
    · exact fun _ => nofun
    · exact ((restoreRegisters_continues p s).trans (rebuildOutputs_continues _)).next

theorem serve_continues (f : Fetched) (s : State) : ResultContinues s (serve f s) := by
  cases f with
  | operation i => exact exec_continues i s
  | reset => exact (resetBlock_continues s).next
  | save => exact (saveBlock_continues s).next
  | restore p => exact restoreBlock_continues p s
  | refused r => exact fun _ => nofun

theorem popRequest_continues (s : State) : Continues s s.popRequest := .of_same rfl rfl rfl

theorem step_continues (s : State) : ResultContinues s (step s) := by
  intro t h
  cases hp : s.pending with
  | nil =>
    rw [step_idle hp] at h
    exact (Continues.refl s).next t h
  | cons r rest =>
    rw [step_cons hp] at h
    exact (popRequest_continues s).trans (serve_continues _ _ t h)

/-- Settles O53: what an idle step, an operation, a reset, a save and a restore each keep, put together. -/
theorem descriptorIsNeverChanged : Obligations.DescriptorIsNeverChanged := by
  intro s t h
  obtain ⟨variant, binding, log⟩ := step_continues s t h
  exact ⟨variant, binding, log⟩

end Sys2Proof.Machine

/-! Proofs of the family `10_state.md`: the log nothing reads (O52), the moves of `irq` (O51) and of the
DMA cursors (O39). -/

namespace Sys2Proof.Machine

open Sys2Proof.Claims

/-! The rows that reach the engine are all one write of DMA control (R64, R175). -/

/-- What a start runs between its store and its completion, by the value stored (R64). -/
def startBody (value : Word) : State → State :=
  if value.getLsbD 2 then
    if value.getLsbD 3 then fun t => checksumRun (calibrate t) else checksumRun
  else transferRun

theorem writeDmaControl_stop {value : Word} (h : value.getLsbD 0 = false) (s : State) :
    writeDmaControl value s = .next (returnNone (stopDma value s)) := by
  rw [writeDmaControl, if_pos h]

theorem writeDmaControl_start {value : Word} (h : value.getLsbD 0 = true) (s : State) :
    writeDmaControl value s = startDma value (startBody value) s := by
  rw [writeDmaControl, if_neg (by simp [h])]
  unfold startBody
  split
  · split <;> rfl
  · rfl

theorem enable_of_startRow {i : Instr} {value : Word} (h : StartRow i value) : value.getLsbD 0 = true := by
  cases h <;> rw [getLsbD_dmaStartValue] <;> rfl

theorem exec_startRow {i : Instr} {value : Word} (h : StartRow i value) (s : State) :
    exec i s = ifDma value s (startDma value (startBody value) s) := by
  have selects (calib cksum wr : Bool) (up : BitVec 28) :
      startBody (dmaStartValue calib cksum wr up) =
        if cksum then if calib then fun t => checksumRun (calibrate t) else checksumRun
        else transferRun := by
    simp only [startBody, getLsbD_dmaStartValue]
    rfl
  cases h <;> rw [selects] <;> rfl

/-- Every row by which a write reaches the engine is the write of some value to DMA control (R175). -/
theorem exec_dmaControl {i : Instr} (h : dmaControl i = true) :
    ∃ value, ∀ s, exec i s = ifDma value s (writeDmaControl value s) := by
  have start {i : Instr} {value : Word} (h : StartRow i value) (s : State) :
      exec i s = ifDma value s (writeDmaControl value s) := by
    rw [exec_startRow h, writeDmaControl_start (enable_of_startRow h)]
  cases i with
  | wrDmaCtrl w data => exact ⟨lowBytes w data, fun _ => rfl⟩
  | dmaStop up =>
    refine ⟨dmaStopValue up, fun s => ?_⟩
    rw [writeDmaControl_stop (by rw [getLsbD_dmaStopValue]; rfl)]
    rfl
  | dmaCksum wr up => exact ⟨_, start (.cksum wr up)⟩
  | dmaCksumCal wr up => exact ⟨_, start (.cksumCal wr up)⟩
  | dmaRd calib up => exact ⟨_, start (.rd calib up)⟩
  | dmaWr calib up => exact ⟨_, start (.wr calib up)⟩
  | _ => cases h

/-- A start that gives a next state was discarded by the gate, or ran to its completion (R177, R190). -/
theorem startDma_cases {value : Word} {body : State → State} {s t : State}
    (h : startDma value body s = .next t) :
    (s.dmaInProgress = true ∧ t = returnNone (discardStart value s)) ∨
    (s.dmaInProgress = false ∧ s.dmaLen.toNat % 4 = 0 ∧
      t = returnNone (complete (body { s with dmaCtrl := value }))) := by
  unfold startDma at h
  split_ifs at h with gate len
  · exact .inl ⟨gate, by injection h with h; exact h.symm⟩
  · exact .inr ⟨by simpa using gate, by simpa using len, by injection h with h; exact h.symm⟩

/-- On a variant with DMA a row of the engine is its meaning; on another one it is a logged write (R76). -/
theorem ifDma_cases {value : Word} {s t : State} {r : Result} (h : ifDma value s r = .next t) :
    (s.variant.hasDma = true ∧ r = .next t) ∨
    (s.variant.hasDma = false ∧ t = unrecognisedWrite (busOffset s .dmaCtrl) value s) := by
  unfold ifDma at h
  split_ifs at h with dma
  · exact .inl ⟨dma, h⟩
  · exact .inr ⟨by simpa using dma, by injection h with h; exact h.symm⟩

/-! The log (R35). -/

theorem logBlind_unrecognisedWrite (off : Byte) (value : Word) : LogBlind (unrecognisedWrite off value) :=
  fun _ => ⟨_, rfl, fun _ => rfl⟩

theorem dmaControl_logBlind {i : Instr} (h : dmaControl i = true) : LogBlindResult (exec i) := by
  obtain ⟨value, e⟩ := exec_dmaControl h
  rw [funext e]
  exact logBlind_ifDma value (logBlind_writeDmaControl value)

/-- Every operation appends its events and reads none (R35). -/
theorem exec_logBlind (i : Instr) : LogBlindResult (exec i) := by
  cases i with
  | rdConf | rdCeCtrl | rdIntrCtrl | rdDummyData | rdTimings
  | rdCtrl0 | rdCtrl1 | rdCtrl2 | rdCtrl3 | rdCtrl4
  | rdSegAddr0 | rdSegAddr1 | rdSegAddr2 | rdSegAddr3 | rdSegAddr4
  | rdDmaCtrl | rdDmaFlashAddr | rdDmaDramAddr | rdDmaLen | rdDmaChecksum =>
    exact logBlind_readIf _ _ _ fun _ _ => rfl
  | wrConf | wrCeCtrl | wrIntrCtrl | wrDummyData | wrTimings
  | wrDmaFlashAddr | wrDmaDramAddr | wrDmaLen =>
    exact logBlind_writeIf _ _ (.self (fun _ => rfl) fun _ _ => rfl)
  | wrDmaChecksum => exact logBlind_writeIf _ _ (logBlind_addLog _ fun _ _ => rfl)
  | wrCtrl0 | wrCtrl1 | wrCtrl2 | wrCtrl3 | wrCtrl4 =>
    exact logBlind_writeIf _ _ (logBlind_writeCtrl _ _)
  | wrSegAddr0 | wrSegAddr1 | wrSegAddr2 | wrSegAddr3 | wrSegAddr4 =>
    exact logBlind_writeIf _ _ (logBlind_writeSeg _ _)
  | rdUnrecognised off w => exact logBlind_next (logBlind_unrecognisedRead (fun _ => off) (fun _ _ => rfl) w)
  | wrUnrecognised off w data => exact logBlind_next (logBlind_unrecognisedWrite off (lowBytes w data))
  | fldRead | fldFread | fldWrite | fldUser => exact logBlind_loadInMode _ _ _ _
  | fstRead | fstFread | fstWrite | fstUser => exact logBlind_storeInMode _ _ _ _ _
  | wrDmaCtrl | dmaStop | dmaCksum | dmaCksumCal | dmaRd | dmaWr => exact dmaControl_logBlind rfl
  | snoopPlainRead | snoopPlainRead4 | snoopPlainPp | snoopPlainPp4 | snoopPlainDpp | snoopPlainQpp
  | snoopPlainQpp4 | snoopPlainPp44 | snoopFastFastRead | snoopFastFastRead4 | snoopFastDor
  | snoopFastDor4 | snoopFastQor | snoopFastQor4 | snoopDualDior | snoopDualDior4 | snoopQuadQior
  | snoopQuadQior4 | snoopUnknown =>
    exact logBlind_snoopRowStore _ _ _

/-- Settles O52: every shared operation of the rows appends its events and reads none. -/
theorem nothingReadsTheLog : Obligations.NothingReadsTheLog :=
  fun i s t h => exec_logBlind i s t h

/-! The interrupt line (R34). -/

/-- `irq` and the two registers that move with it stand (R34). -/
structure KeepsInterrupt (s t : State) : Prop where
  irq : t.irq = s.irq
  intrCtrl : t.intrCtrl = s.intrCtrl
  dmaCtrl : t.dmaCtrl = s.dmaCtrl

theorem DmaTouches.keepsInterrupt {s t : State} (h : DmaTouches s t) : KeepsInterrupt s t :=
  ⟨h.irq, h.intrCtrl, h.dmaCtrl⟩

theorem KeepsInterrupt.trans {s t u : State} (h : KeepsInterrupt s t) (k : KeepsInterrupt t u) :
    KeepsInterrupt s u :=
  ⟨k.irq.trans h.irq, k.intrCtrl.trans h.intrCtrl, k.dmaCtrl.trans h.dmaCtrl⟩

theorem calibrate_keepsInterrupt (s : State) : KeepsInterrupt s (calibrate s) := by
  rw [calibrate_eq]
  exact ⟨rfl, rfl, rfl⟩

theorem startBody_keepsInterrupt (value : Word) (s : State) : KeepsInterrupt s (startBody value s) := by
  unfold startBody
  split
  · split
    · exact (calibrate_keepsInterrupt s).trans (checksumRun_touches _).keepsInterrupt
    · exact (checksumRun_touches s).keepsInterrupt
  · exact (transferRun_touches s).keepsInterrupt

/-- The three things an operation can do with `irq`: leave it, raise it at the completion of a DMA with
DMA_EN set (R190), lower it by a stop (R176). -/
inductive IrqMove (s t : State) : Prop where
  | kept (irq : t.irq = s.irq)
  | completed (irq : t.irq = (s.irq || dmaEnField s.intrCtrl))
      (status : t.intrCtrl = setDmaStatus s.intrCtrl) (enable : t.dmaCtrl.getLsbD 0 = true)
  | stopped (irq : t.irq = false) (enable : t.dmaCtrl.getLsbD 0 = false)

theorem startDma_irqMove {value : Word} (hv : value.getLsbD 0 = true) {s t : State}
    (h : startDma value (startBody value) s = .next t) : IrqMove s t := by
  obtain ⟨-, rfl⟩ | ⟨-, -, rfl⟩ := startDma_cases h
  · exact .kept rfl
  · obtain ⟨irq, intrCtrl, dmaCtrl⟩ := startBody_keepsInterrupt value { s with dmaCtrl := value }
    refine .completed ?_ ?_ ?_
    · simp [irq, intrCtrl]
    · simp [intrCtrl]
    · simp [dmaCtrl, hv]

theorem writeDmaControl_irqMove {value : Word} {s t : State} (h : writeDmaControl value s = .next t) :
    IrqMove s t := by
  cases hv : value.getLsbD 0
  · rw [writeDmaControl_stop hv] at h
    injection h with h
    subst h
    exact .stopped rfl hv
  · rw [writeDmaControl_start hv] at h
    exact startDma_irqMove hv h

theorem exec_dmaControl_irqMove {i : Instr} (hi : dmaControl i = true) {s t : State}
    (h : exec i s = .next t) : IrqMove s t := by
  obtain ⟨value, e⟩ := exec_dmaControl hi
  rw [e] at h
  obtain ⟨-, h⟩ | ⟨-, rfl⟩ := ifDma_cases h
  · exact writeDmaControl_irqMove h
  · exact .kept rfl

/-- Every next state that the result can be has the `irq` of `s`. -/
def KeepsIrq (s : State) (r : Result) : Prop := ∀ t, r = .next t → t.irq = s.irq

theorem keepsIrq_next {s t : State} (h : t.irq = s.irq) : KeepsIrq s (.next t) := by
  rintro u ⟨⟩
  exact h

theorem readIf_keepsIrq (r : Reg) (w : Width) (v : Word) (s : State) : KeepsIrq s (readIf r w v s) := by
  refine keepsIrq_next ?_
  split <;> rfl

theorem writeIf_keepsIrq (r : Reg) (value : Word) {s t : State} (h : t.irq = s.irq) :
    KeepsIrq s (writeIf r value s t) := by
  refine keepsIrq_next ?_
  split
  · exact h
  · rfl

theorem inMode_keepsIrq (cs : Cs) (m : Mode) {s t : State} (h : t.irq = s.irq) :
    KeepsIrq s (inMode cs m s t) := by
  intro u hu
  obtain ⟨-, -, rfl⟩ := inMode_of_next hu
  exact h

theorem writeCtrl_irq (cs : Cs) (value : Word) (s : State) : (writeCtrl cs value s).irq = s.irq := by
  unfold writeCtrl propagateAsserted
  split
  · rfl
  · split <;> rw [driveLine_irq]

theorem writeSeg_irq (cs : Cs) (value : Word) (s : State) : (writeSeg cs value s).irq = s.irq := by
  unfold writeSeg
  split
  · rfl
  · obtain ⟨es, h | ⟨g, x, h⟩⟩ := setSegment_frame cs value s <;> rw [h]
    · rfl
    · rfl

theorem userStore_irq (cs : Cs) (addr : Word) (bytes : List Byte) (s : State) :
    (userStore cs addr bytes s).irq = s.irq := by
  unfold userStore
  split
  · exact userBytes_irq cs bytes s
  · rfl

/-- No operation but a write of DMA control moves `irq`. -/
theorem exec_keepsIrq {i : Instr} (hi : dmaControl i = false) (s : State) : KeepsIrq s (exec i s) := by
  cases i with
  | rdConf | rdCeCtrl | rdIntrCtrl | rdDummyData | rdTimings
  | rdCtrl0 | rdCtrl1 | rdCtrl2 | rdCtrl3 | rdCtrl4
  | rdSegAddr0 | rdSegAddr1 | rdSegAddr2 | rdSegAddr3 | rdSegAddr4
  | rdDmaCtrl | rdDmaFlashAddr | rdDmaDramAddr | rdDmaLen | rdDmaChecksum =>
    exact readIf_keepsIrq _ _ _ s
  | wrConf | wrCeCtrl | wrIntrCtrl | wrDummyData | wrTimings
  | wrDmaFlashAddr | wrDmaDramAddr | wrDmaLen | wrDmaChecksum =>
    exact writeIf_keepsIrq _ _ rfl
  | wrCtrl0 | wrCtrl1 | wrCtrl2 | wrCtrl3 | wrCtrl4 =>
    exact writeIf_keepsIrq _ _ (writeCtrl_irq _ _ s)
  | wrSegAddr0 | wrSegAddr1 | wrSegAddr2 | wrSegAddr3 | wrSegAddr4 =>
    exact writeIf_keepsIrq _ _ (writeSeg_irq _ _ s)
  | rdUnrecognised | wrUnrecognised => exact keepsIrq_next rfl
  | fldRead | fldFread | fldWrite | fldUser =>
    exact inMode_keepsIrq _ _ (flashLoad_touches _ _ _ s).irq
  | fstRead | fstFread | fstWrite | fstUser =>
    exact inMode_keepsIrq _ _ (flashStore_touches _ _ _ _ s).irq
  | wrDmaCtrl | dmaStop | dmaCksum | dmaCksumCal | dmaRd | dmaWr => cases hi
  | snoopPlainRead | snoopPlainRead4 | snoopPlainPp | snoopPlainPp4 | snoopPlainDpp | snoopPlainQpp
  | snoopPlainQpp4 | snoopPlainPp44 | snoopFastFastRead | snoopFastFastRead4 | snoopFastDor
  | snoopFastDor4 | snoopFastQor | snoopFastQor4 | snoopDualDior | snoopDualDior4 | snoopQuadQior
  | snoopQuadQior4 | snoopUnknown =>
    exact inMode_keepsIrq _ _ (userStore_irq _ _ _ s)

theorem exec_irqMove {i : Instr} {s t : State} (h : exec i s = .next t) : IrqMove s t := by
  cases hi : dmaControl i
  · exact .kept (exec_keepsIrq hi s t h)
  · exact exec_dmaControl_irqMove hi h

theorem setDmaStatus_status (intr : Word) : (setDmaStatus intr).getLsbD 11 = true := by
  simp [setDmaStatus]

/-- Settles O51: of the three moves of `irq` only a completion can raise it and only a stop can lower it. -/
theorem irqMovesOnlyWithDmaControl : Obligations.IrqMovesOnlyWithDmaControl := by
  intro s t i h
  refine ⟨fun hi => exec_keepsIrq hi s t h, fun low high => ?_, fun high low => ?_⟩
  · cases exec_irqMove h with
    | kept irq => simp [irq, low] at high
    | completed irq status enable =>
      refine ⟨?_, by rw [status, setDmaStatus_status], enable⟩
      simpa [irq, low, dmaEnField] using high
    | stopped irq enable => simp [irq] at high
  · cases exec_irqMove h with
    | kept irq => simp [irq, high] at low
    | completed irq status enable => simp [irq, high] at low
    | stopped irq enable => exact enable

/-! The cursors of the engine (R186). -/

theorem calibrate_moved (s : State) (c : Nat) : Moved c 0 s (calibrate s) := by
  rw [calibrate_eq]
  constructor <;> simp

/-- Every start moves the flash cursor and DMA_LEN by some number of words, and the DRAM cursor with them
in a transfer only. -/
theorem startBody_moved (value : Word) (s : State) :
    ∃ k, k ≤ dmaSteps s ∧ Moved (if value.getLsbD 2 then 0 else 4) k s (startBody value s) := by
  unfold startBody
  split
  · split
    · obtain ⟨k, hk, hm⟩ := checksumRun_moved (calibrate s)
      have steps : dmaSteps (calibrate s) = dmaSteps s := by rw [calibrate_eq]; rfl
      refine ⟨k, steps ▸ hk, ?_⟩
      simpa using (calibrate_moved s 0).trans hm
    · exact checksumRun_moved s
  · exact transferRun_moved s

/-- A gate that is open is no DMA in progress (R13). -/
theorem not_dmaInProgress_of_open {s : State} (h : DmaOpen s) : s.dmaInProgress = false := by
  rcases h.gate with enable | status
  · simp only [State.dmaInProgress, enable, Bool.false_and]
  · simp only [State.dmaInProgress, status, Bool.not_true, Bool.and_false]

/-- A length that loses no more words than it holds stays a multiple of 4 and never wraps. -/
theorem Moved.dmaLen_toNat {c k : Nat} {s t : State} (h : Moved c k s t) (hk : k ≤ dmaSteps s) :
    t.dmaLen.toNat = s.dmaLen.toNat - 4 * k := by
  have fits : 4 * k ≤ s.dmaLen.toNat := (Nat.mul_le_mul_left 4 hk).trans (dmaSteps_le s)
  rw [h.len, BitVec.toNat_sub_of_le, BitVec.toNat_ofNat, Nat.mod_eq_of_lt (by omega)]
  rw [BitVec.le_def, BitVec.toNat_ofNat, Nat.mod_eq_of_lt (by omega)]
  exact fits

theorem Moved.dmaLen_lost {c k : Nat} {s t : State} (h : Moved c k s t) :
    s.dmaLen - t.dmaLen = BitVec.ofNat 32 (4 * k) := by
  rw [h.len, sub_sub_cancel]

/-- Settles O39: a start that passes the gate moves the cursors by some number of words, no more than
DMA_LEN holds. -/
theorem dmaCursorsMoveInStep : Obligations.DmaCursorsMoveInStep := by
  intro s t i value row gate h
  rw [exec_startRow row] at h
  obtain ⟨-, h⟩ | ⟨absent, -⟩ := ifDma_cases h
  · obtain ⟨busy, -⟩ | ⟨-, words, rfl⟩ := startDma_cases h
    · exact absurd (not_dmaInProgress_of_open gate) (by simp [busy])
    · obtain ⟨k, hk, moved⟩ := startBody_moved value { s with dmaCtrl := value }
      have len : _ = s.dmaLen.toNat - 4 * k := moved.dmaLen_toNat hk
      simp only [returnNone_dmaLen, complete_dmaLen, returnNone_dmaFlashAddr, complete_dmaFlashAddr,
        returnNone_dmaDramAddr, complete_dmaDramAddr]
      refine ⟨by omega, by omega, ?_, ?_⟩
      · rw [moved.dmaLen_lost, moved.flash]
      · rw [moved.dmaLen_lost, moved.dram]
        split <;> simp
  · simp [gate.present] at absent

end Sys2Proof.Machine

/-! Proofs of the family `20_memory.md`: register accesses outside the contract (O6), narrow accesses
(O12), and the window accesses of the DMA engine (O48). -/

namespace Sys2Proof.Machine

open Sys2Proof.Claims

/-! The contract of a register access, tested before its row is looked at (R40, R41, R45). -/

theorem widthOfNat_of_le {w : Nat} (h1 : 1 ≤ w) (h4 : w ≤ 4) : ∃ width, widthOfNat w = some width := by
  interval_cases w
  · exact ⟨.w1, rfl⟩
  · exact ⟨.w2, rfl⟩
  · exact ⟨.w3, rfl⟩
  · exact ⟨.w4, rfl⟩

theorem fetchRegister_badWidth {w : Nat} (h : w = 0 ∨ 4 < w) (v : Variant) (dir : Dir) (off : Nat) (data : Word) :
    fetchRegister v dir off w data = .refused .badWidth := by
  simp only [fetchRegister, widthOfNat_none h]

theorem fetchRegister_outside {w off : Nat} (h1 : 1 ≤ w) (h4 : w ≤ 4) (h : regSpaceBytes ≤ off)
    (v : Variant) (dir : Dir) (data : Word) :
    fetchRegister v dir off w data = .refused .outsideRegisterSpace := by
  obtain ⟨width, hw⟩ := widthOfNat_of_le h1 h4
  simp only [fetchRegister, hw, if_pos h]

theorem fetchRegister_misaligned {w off : Nat} (h1 : 1 ≤ w) (h4 : w ≤ 4) (h : off < regSpaceBytes)
    (hm : off % 4 ≠ 0) (v : Variant) (dir : Dir) (data : Word) :
    fetchRegister v dir off w data = .refused .misalignedOffset := by
  obtain ⟨width, hw⟩ := widthOfNat_of_le h1 h4
  simp only [fetchRegister, hw, if_neg (Nat.not_le.mpr h), if_pos hm]

/-- Settles O6: each test of the contract refuses what the tests before it let through. -/
theorem accessOutsideTheContractIsRefused : Obligations.AccessOutsideTheContractIsRefused := by
  intro s dir off w data
  simp only [serveNext_eq, fetch]
  refine ⟨fun hw => ?_, fun h1 h4 ho => ?_, fun h1 h4 ho hm => ?_⟩
  · rw [fetchRegister_badWidth hw, serve]
  · rw [fetchRegister_outside h1 h4 ho, serve]
  · rw [fetchRegister_misaligned h1 h4 ho hm, serve]

/-! Narrow register accesses (R42). -/

/-- The low bytes of a word in arithmetic. -/
theorem lowBytes_eq_low (w : Width) (v : Word) : lowBytes w v = low w v := by
  apply BitVec.eq_of_toNat_eq
  cases w with
  | w1 | w2 | w3 => simp [lowBytes, low, Width.bytes]
  | w4 => simp [lowBytes, low, Width.bytes, Nat.mod_eq_of_lt v.isLt]

/-- A write row presents only the low bytes of its data to the write rule of its register. -/
theorem exec_writeRow_narrow (off : Byte) (w : Width) (data : Word) (r : Option Reg) (s : State) :
    exec (writeRow off w data r) s = exec (writeRow off .w4 (lowBytes w data) r) s := by
  rcases r with _ | r
  · rfl
  · cases r with
    | ctrl cs | segAddr cs => cases cs <;> rfl
    | _ => rfl

/-- At every width the row answers the low bytes of one value, in one state. -/
def AnswersLowBytes (row : Width → Result) : Prop := ∃ v t, ∀ w, row w = .next (returnValue w v t)

theorem unrecognisedRead_answersLowBytes (off : Byte) (s : State) :
    AnswersLowBytes fun w => execRdUnrecognised off w s :=
  ⟨_, _, fun _ => rfl⟩

theorem readIf_answersLowBytes (r : Reg) (x : Word) (s : State) : AnswersLowBytes fun w => readIf r w x s := by
  cases h : regRecognised s.variant r
  · exact ⟨_, _, fun w => readIf_absent h w x⟩
  · exact ⟨_, _, fun w => readIf_present h w x⟩

theorem readRow_answersLowBytes (off : Byte) (r : Option Reg) (s : State) :
    AnswersLowBytes fun w => exec (readRow off w r) s := by
  rcases r with _ | r
  · exact unrecognisedRead_answersLowBytes off s
  · cases r with
    | ctrl cs | segAddr cs => cases cs <;> exact readIf_answersLowBytes _ _ s
    | _ => exact readIf_answersLowBytes _ _ s

/-- A guest read in the contract runs the read row of its offset (R106). -/
theorem serveNext_registerRead {off : Nat} (h4 : off % 4 = 0) (h : off < 0x100) (w : Width) (data : Word)
    (s : State) :
    serveNext (.register .read off w.bytes data) s
      = exec (readRow (BitVec.ofNat 8 off) w (regAt s.variant off)) s := by
  rw [serveNext_eq, fetch, fetchRegister_read _ _ _ _ h4 h, serve]

/-- A guest write in the contract runs the write row of its offset (R106). -/
theorem serveNext_registerWrite {off : Nat} (h4 : off % 4 = 0) (h : off < 0x100) (w : Width) (data : Word)
    (s : State) :
    serveNext (.register .write off w.bytes data) s
      = exec (writeRow (BitVec.ofNat 8 off) w data (regAt s.variant off)) s := by
  rw [serveNext_eq, fetch, fetchRegister_write _ _ _ _ h4 h, serve]

/-- Settles O12: a row depends on its width only through the low bytes of the data it takes, or of the
value it answers. -/
theorem narrowAccessesMergeWithZero : Obligations.NarrowAccessesMergeWithZero := by
  intro s off w data h4 h
  constructor
  · have wide : serveNext (.register .write off 4 (low w data)) s = _ :=
      serveNext_registerWrite h4 h .w4 (low w data) s
    calc serveNext (.register .write off w.bytes data) s
        = exec (writeRow (BitVec.ofNat 8 off) w data (regAt s.variant off)) s :=
          serveNext_registerWrite h4 h w data s
      _ = exec (writeRow (BitVec.ofNat 8 off) .w4 (low w data) (regAt s.variant off)) s := by
          rw [exec_writeRow_narrow, lowBytes_eq_low]
      _ = serveNext (.register .write off 4 (low w data)) s := wide.symm
  · obtain ⟨v, t, answer⟩ := readRow_answersLowBytes (BitVec.ofNat 8 off) (regAt s.variant off) s
    refine ⟨returnValue .w4 v t, v, (serveNext_registerRead h4 h .w4 data s).trans (answer .w4), rfl, ?_⟩
    refine ((serveNext_registerRead h4 h w data s).trans (answer w)).trans ?_
    rw [returnValue, lowBytes_eq_low]
    rfl

/-! A window access that is delivered, and one that is not (R130, R131). -/

theorem serveNext_windowRead {s : State} {a : Nat} {w : Width} {cs : Cs} {addr : Word}
    (h : route s a w.bytes = some (cs, addr)) (data : Word) :
    serveNext (.window .read a w.bytes data) s
      = .next (returnValue w (flashLoad cs addr w s).1 (flashLoad cs addr w s).2) := by
  rw [serveNext_eq, fetch, fetchWindow_read h (route_has h), serve, exec_loadRow]
  exact inMode_next (route_has h) rfl _

theorem serveNext_windowWrite {s : State} {a : Nat} {w : Width} {cs : Cs} {addr : Word}
    (h : route s a w.bytes = some (cs, addr)) (data : Word) :
    serveNext (.window .write a w.bytes data) s = .next (returnNone (flashStore cs addr w data s)) := by
  rw [serveNext_eq, fetch, fetchWindow_write h (route_has h), serve, exec_storeRow]
  exact inMode_next (route_has h) rfl _

theorem serveNext_window_unrouted {s : State} {a : Nat} {w : Width} (h : route s a w.bytes = none) (dir : Dir)
    (data : Word) : serveNext (.window dir a w.bytes data) s = .refused .notDelivered := by
  rw [serveNext_eq, fetch, fetchWindow_none h, serve]

/-! The flash side of the engine under the framer is the 4-byte window access at the window base plus the
cursor (R59). -/

section
variable {s : State} {x : Word} (framer : s.binding = .framer)
include framer

theorem flashRead32_framer_routed {cs : Cs} {addr : Word} (hx : x.toNat % 4 = 0)
    (h : route s (s.variant.winBase + x.toNat) 4 = some (cs, addr)) :
    flashRead32 x s = (some (flashLoad cs addr .w4 s).1, (flashLoad cs addr .w4 s).2) := by
  simp [flashRead32, framer, hx, h]

theorem flashRead32_framer_unserved
    (h : x.toNat % 4 ≠ 0 ∨ route s (s.variant.winBase + x.toNat) 4 = none) :
    flashRead32 x s = (none, s) := by
  by_cases hx : x.toNat % 4 = 0
  · simp [flashRead32, framer, hx, h.resolve_left (not_not.mpr hx)]
  · simp [flashRead32, framer, hx]

theorem flashWrite32_framer_routed {cs : Cs} {addr : Word} (hx : x.toNat % 4 = 0)
    (h : route s (s.variant.winBase + x.toNat) 4 = some (cs, addr)) (v : Word) :
    flashWrite32 x v s = (true, flashStore cs addr .w4 v s) := by
  simp [flashWrite32, framer, hx, h]

theorem flashRead32_of_windowRead {u : State} {v : Word} (hx : x.toNat % 4 = 0)
    (h : serveNext (.window .read (s.variant.winBase + x.toNat) 4 0#32) s = .next u) (hv : u.ret = some v) :
    ∃ t, flashRead32 x s = (some v, t) ∧ u = returnValue .w4 v t := by
  cases hr : route s (s.variant.winBase + x.toNat) 4 with
  | none => exact nomatch (serveNext_window_unrouted (w := .w4) hr .read 0#32).symm.trans h
  | some p =>
    injection (serveNext_windowRead (w := .w4) hr 0#32).symm.trans h with hu
    subst hu
    injection hv with hv
    subst hv
    exact ⟨_, flashRead32_framer_routed framer hx hr, rfl⟩

/-- A store that is delivered is an `Ok`, also when the framer drops it. -/
theorem flashWrite32_of_windowWrite {u : State} {v : Word} (hx : x.toNat % 4 = 0)
    (h : serveNext (.window .write (s.variant.winBase + x.toNat) 4 v) s = .next u) :
    ∃ t, flashWrite32 x v s = (true, t) ∧ u = returnNone t := by
  cases hr : route s (s.variant.winBase + x.toNat) 4 with
  | none => exact nomatch (serveNext_window_unrouted (w := .w4) hr .write v).symm.trans h
  | some p =>
    injection (serveNext_windowWrite (w := .w4) hr v).symm.trans h with hu
    exact ⟨_, flashWrite32_framer_routed framer hx hr v, hu.symm⟩

theorem flashRead32_framer_fails
    (h : x.toNat % 4 ≠ 0 ∨
      serveNext (.window .read (s.variant.winBase + x.toNat) 4 0#32) s = .refused .notDelivered) :
    flashRead32 x s = (none, s) := by
  refine flashRead32_framer_unserved framer (h.imp_right fun refused => ?_)
  cases hr : route s (s.variant.winBase + x.toNat) 4 with
  | none => rfl
  | some p => exact nomatch (serveNext_windowRead (w := .w4) hr 0#32).symm.trans refused

end

/-! A start stores DMA_CTRL before its accesses; an access of the flash side does not read it. -/

theorem SideTouches.of_flashRead32 {s t : State} {x : Word} {o : Option Word} (h : flashRead32 x s = (o, t)) :
    SideTouches s t := by
  simpa [h] using flashRead32_touches x s

theorem SideTouches.of_flashWrite32 {s t : State} {x v : Word} {ok : Bool} (h : flashWrite32 x v s = (ok, t)) :
    SideTouches s t := by
  simpa [h] using flashWrite32_touches x v s

/-- An access leaves CTRL and TIMINGS alone, so a tuning with the old ones only sets DMA_CTRL. -/
theorem SideTouches.withTuning_self {s t : State} (h : SideTouches s t) (d : Word) :
    withTuning s.ctrl s.timings d t = { t with dmaCtrl := d } := by
  rw [withTuning, ← h.ctrl, ← h.timings]

theorem flashRead32_setDmaCtrl {s t : State} {x : Word} {o : Option Word} (h : flashRead32 x s = (o, t))
    (d : Word) : flashRead32 x { s with dmaCtrl := d } = (o, { t with dmaCtrl := d }) := by
  have stored := flashRead32_withTuning s.ctrl s.timings d s (.self s) x
  rwa [h, (SideTouches.of_flashRead32 h).withTuning_self] at stored

theorem flashWrite32_withTuning (c : Slots Word) (timings d : Word) (s : State) (h : SameView c s) (x v : Word) :
    flashWrite32 x v (withTuning c timings d s)
      = ((flashWrite32 x v s).1, withTuning c timings d (flashWrite32 x v s).2) := by
  have binding : (withTuning c timings d s).binding = s.binding := rfl
  have routed : route (withTuning c timings d s) ((withTuning c timings d s).variant.winBase + x.toNat) 4
      = route s (s.variant.winBase + x.toNat) 4 := rfl
  unfold flashWrite32
  rw [binding, routed]
  split
  · unfold externalFlashWrite32
    split
    · rfl
    · simp only [nextFlashReply_withTuning]
      rfl
  · split
    · rfl
    · split
      · rfl
      · simp only [flashStore_withTuning c timings d s h]

theorem flashWrite32_setDmaCtrl {s t : State} {x v : Word} {ok : Bool} (h : flashWrite32 x v s = (ok, t))
    (d : Word) : flashWrite32 x v { s with dmaCtrl := d } = (ok, { t with dmaCtrl := d }) := by
  have stored := flashWrite32_withTuning s.ctrl s.timings d s (.self s) x v
  rwa [h, (SideTouches.of_flashWrite32 h).withTuning_self] at stored

/-- The state in which the DRAM side has answered a word to a read. -/
def dramAnswered (a v : Word) (more : List DramReply) (s : State) : State :=
  { s with dramReplies := more, bus := s.bus ++ [.dramRead a (some v)] }

theorem dramRead32_word {a v : Word} {s : State} {more : List DramReply} (ha : a.toNat % 4 = 0)
    (hr : s.dramReplies = .word v :: more) : dramRead32 a s = (some v, dramAnswered a v more s) := by
  simp only [dramRead32, ha, ne_eq, not_true, if_false, nextDramReply, hr]
  rfl

/-! A DMA of one word (R178, R179, R190). -/

/-- A start that passes the gate stores the value, runs its body and completes. -/
theorem startDma_open {s : State} (gate : DmaOpen s) (words : s.dmaLen.toNat % 4 = 0) (value : Word)
    (body : State → State) :
    ifDma value s (startDma value body s) = .next (completed (body { s with dmaCtrl := value })) := by
  rw [ifDma, if_pos gate.present, startDma, if_neg (by simp [not_dmaInProgress_of_open gate]),
    if_neg (by simp [words])]
  rfl

theorem dmaLoop_one (body : State → Bool × State) (s : State) : dmaLoop body 1 s = body s := by
  simp only [dmaLoop]
  rcases body s with ⟨_ | _, t⟩ <;> rfl

theorem dmaSteps_oneWord {s : State} (h : s.dmaLen = 4#32) : dmaSteps s = 1 := by
  rw [dmaSteps, h]
  rfl

theorem checksumRun_oneWord {s : State} (h : s.dmaLen = 4#32) :
    checksumRun s = if (checksumStep s).1 then injectFailure (checksumStep s).2 else (checksumStep s).2 := by
  simp only [checksumRun, dmaSteps_oneWord h, dmaLoop_one]

theorem checksumRun_oneWord_read {s t : State} {v : Word} (h : s.dmaLen = 4#32)
    (inject : s.variant.injectFailure = false) (read : flashRead32 s.dmaFlashAddr s = (some v, t)) :
    checksumRun s = checksumAdvance v t := by
  have touches := SideTouches.of_flashRead32 read
  have off : t.variant.injectFailure = false := by rw [touches.variant, inject]
  rw [checksumRun_oneWord h]
  simp [checksumStep, read, injectFailure, off]

theorem checksumRun_oneWord_fails {s t : State} (h : s.dmaLen = 4#32)
    (read : flashRead32 s.dmaFlashAddr s = (none, t)) :
    checksumRun s = addLog [.dmaFlashReadFail s.dmaFlashAddr] t := by
  rw [checksumRun_oneWord h]
  simp [checksumStep, read]

theorem transferRun_oneWord_toFlash {s t u : State} {v : Word} (h : s.dmaLen = 4#32)
    (toFlash : s.dmaCtrl.getLsbD 1 = true) (read : dramRead32 s.dmaDramAddr s = (some v, t))
    (write : flashWrite32 s.dmaFlashAddr v t = (true, u)) :
    transferRun s = transferAdvance v u := by
  simp only [transferRun, toFlash, if_true, dmaSteps_oneWord h, dmaLoop_one, writeStep, read, write]

section
variable {s : State} (gate : DmaOpen s) (framer : s.binding = .framer) (oneWord : s.dmaLen = 4#32)
include gate framer oneWord

theorem dmaCksum_framer_read {u : State} {v : Word} (wr : Bool) (up : BitVec 28)
    (inject : s.variant.injectFailure = false) (aligned : s.dmaFlashAddr.toNat % 4 = 0)
    (load : serveNext (.window .read (s.variant.winBase + s.dmaFlashAddr.toNat) 4 0#32) s = .next u)
    (value : u.ret = some v) :
    exec (.dmaCksum wr up) s = .next (completed { u with
      dmaCtrl := dmaStartValue false true wr up
      dmaChecksum := s.dmaChecksum + v
      dmaFlashAddr := s.dmaFlashAddr + 4#32
      dmaLen := 0#32 }) := by
  obtain ⟨t, read, rfl⟩ := flashRead32_of_windowRead framer aligned load value
  have touches := SideTouches.of_flashRead32 read
  have len : t.dmaLen = 4#32 := touches.dmaLen.trans oneWord
  have run := checksumRun_oneWord_read (s := { s with dmaCtrl := dmaStartValue false true wr up })
    oneWord inject (flashRead32_setDmaCtrl read _)
  refine (startDma_open gate (by simp [oneWord]) _ checksumRun).trans ?_
  rw [run, ← touches.dmaChecksum, ← touches.dmaFlashAddr]
  simp [checksumAdvance, completed, returnValue, len]

theorem dmaCksum_framer_fails (wr : Bool) (up : BitVec 28)
    (fails : s.dmaFlashAddr.toNat % 4 ≠ 0 ∨
      serveNext (.window .read (s.variant.winBase + s.dmaFlashAddr.toNat) 4 0#32) s = .refused .notDelivered) :
    exec (.dmaCksum wr up) s = .next (completed { s with
      dmaCtrl := dmaStartValue false true wr up
      log := s.log ++ [.dmaFlashReadFail s.dmaFlashAddr] }) := by
  have run := checksumRun_oneWord_fails (s := { s with dmaCtrl := dmaStartValue false true wr up })
    oneWord (flashRead32_setDmaCtrl (flashRead32_framer_fails framer fails) _)
  refine (startDma_open gate (by simp [oneWord]) _ checksumRun).trans ?_
  rw [run]
  rfl

theorem dmaWr_framer {u : State} {v : Word} {more : List DramReply} (calib : Bool) (up : BitVec 28)
    (flashAligned : s.dmaFlashAddr.toNat % 4 = 0) (dramAligned : s.dmaDramAddr.toNat % 4 = 0)
    (reply : s.dramReplies = .word v :: more)
    (store : serveNext (.window .write (s.variant.winBase + s.dmaFlashAddr.toNat) 4 v)
      (dramAnswered s.dmaDramAddr v more s) = .next u) :
    exec (.dmaWr calib up) s = .next (completed { u with
      dmaCtrl := dmaStartValue calib false true up
      dmaChecksum := s.dmaChecksum + v
      dmaFlashAddr := s.dmaFlashAddr + 4#32
      dmaDramAddr := s.dmaDramAddr + 4#32
      dmaLen := 0#32 }) := by
  obtain ⟨t, write, rfl⟩ :=
    flashWrite32_of_windowWrite (s := dramAnswered s.dmaDramAddr v more s) framer flashAligned store
  have touches := SideTouches.of_flashWrite32 write
  have len : t.dmaLen = 4#32 := touches.dmaLen.trans oneWord
  have run := transferRun_oneWord_toFlash (s := { s with dmaCtrl := dmaStartValue calib false true up })
    oneWord (by rw [getLsbD_dmaStartValue]; rfl) (dramRead32_word dramAligned reply)
    (flashWrite32_setDmaCtrl write _)
  refine (startDma_open gate (by simp [oneWord]) _ transferRun).trans ?_
  rw [run]
  simp [transferAdvance, completed, returnNone, dramAnswered, len, touches.dmaChecksum, touches.dmaFlashAddr,
    touches.dmaDramAddr]

end

/-- Settles O48: the engine's access is the window access, and storing DMA_CTRL before it changes nothing
that it does. -/
theorem framerServesTheFlashSide : Obligations.FramerServesTheFlashSide := by
  intro s wr calib up gate framer oneWord a cksum toFlash
  refine ⟨fun u v inject aligned load value => ?_, fun u v more fa da reply store => ?_, fun fails => ?_⟩
  · exact dmaCksum_framer_read gate framer oneWord wr up inject aligned load value
  · exact dmaWr_framer gate framer oneWord calib up fa da reply store
  · exact dmaCksum_framer_fails gate framer oneWord wr up fails

end Sys2Proof.Machine

/-! Proofs of the family `30_encoding.md`: the decoder and the encoder (O2, O3, O1), the segment layouts
(O19), the selectors of the FLASH and SNOOP rows (O26, O31), the selectors of a write of DMA_CTRL (O34), the
tables of the clock ratio (O33). -/

namespace Sys2Proof.Machine

open Sys2Proof.Claims

/-! The row a selector gives, when the row is known. -/

theorem snoopTable_eq_none_iff (b : Byte) : snoopTable b = none ↔ b ∉ snoopRows.map Prod.fst := by
  revert b
  decide +kernel

theorem snoopRow_unlisted {b : Byte} (h : snoopTable b = none) (cs : Cs) (a : Word) :
    snoopRow cs a b = .snoopUnknown cs a b := by
  unfold snoopRow
  split
  case h_19 => rfl
  all_goals next hb => simp [snoopTable, hb] at h

/-- A row of the table is the SNOOP row of its byte. -/
theorem snoopRow_listed {r : Byte × Nat × (Cs → Word → Instr)} (h : r ∈ snoopRows) (cs : Cs) (a : Word) :
    snoopRow cs a r.1 = r.2.2 cs a := by
  have rows : snoopRows.map (fun r cs a => snoopRow cs a r.1) = snoopRows.map (fun r => r.2.2) := rfl
  exact congrFun (congrFun (List.map_inj_left.mp rows r h) cs) a

theorem dmactlRow_stop {value : Word} (h : value.getLsbD 0 = false) :
    dmactlRow value = .dmaStop (value.extractLsb' 1 31) := if_pos h

theorem dmactlRow_start {value : Word} (h : value.getLsbD 0 = true) :
    dmactlRow value =
      if value.getLsbD 2 then
        if value.getLsbD 3 then .dmaCksumCal (value.getLsbD 1) (value.extractLsb' 4 28)
        else .dmaCksum (value.getLsbD 1) (value.extractLsb' 4 28)
      else if value.getLsbD 1 then .dmaWr (value.getLsbD 3) (value.extractLsb' 4 28)
      else .dmaRd (value.getLsbD 3) (value.extractLsb' 4 28) :=
  if_neg (by simp [h])

theorem dmactlRow_dmaStopValue (up : BitVec 31) : dmactlRow (dmaStopValue up) = .dmaStop up := by
  rw [dmactlRow_stop (by rw [getLsbD_dmaStopValue]; rfl), dmaStopValue_upper]

/-- The DMACTL row that the mode bits of a start select (R64). -/
theorem dmactlRow_dmaStartValue (calib cksum wr : Bool) (up : BitVec 28) :
    dmactlRow (dmaStartValue calib cksum wr up) =
      if cksum then if calib then .dmaCksumCal wr up else .dmaCksum wr up
      else if wr then .dmaWr calib up else .dmaRd calib up := by
  simp only [dmactlRow, getLsbD_dmaStartValue, dmaStartValue_upper]
  rfl

/-! A selected row is one the variant has, where its register, its chip-select or the engine is. -/

theorem readRow_wf {v : Variant} {off : Byte} (h : off.toNat % 4 = 0) (w : Width) :
    (readRow off w (regAt v off.toNat)).wf v = true := by
  cases hr : regAt v off.toNat with
  | none => simp [readRow, Instr.wf, offsetUnrecognised, h, hr]
  | some r =>
    have present := (regAt_some hr).1
    cases r with
    | ctrl cs | segAddr cs => cases cs <;> exact present
    | _ => exact present

theorem writeRow_wf {v : Variant} {off : Byte} (h : off.toNat % 4 = 0) (w : Width) (data : Word) :
    (writeRow off w data (regAt v off.toNat)).wf v = true := by
  cases hr : regAt v off.toNat with
  | none => simp [writeRow, Instr.wf, offsetUnrecognised, h, hr]
  | some r =>
    have present := (regAt_some hr).1
    cases r with
    | ctrl cs | segAddr cs => cases cs <;> exact present
    | _ => exact present

theorem loadRow_wf {v : Variant} {cs : Cs} (h : v.has cs = true) (m : Mode) (a : Word) (w : Width) :
    (loadRow m cs a w).wf v = true := by
  cases m <;> exact h

theorem storeRow_wf {v : Variant} {cs : Cs} (h : v.has cs = true) (m : Mode) (a : Word) (w : Width)
    (data : Word) : (storeRow m cs a w data).wf v = true := by
  cases m <;> exact h

theorem dmactlRow_wf {v : Variant} (h : v.hasDma = true) (value : Word) : (dmactlRow value).wf v = true := by
  unfold dmactlRow
  split_ifs <;> exact h

theorem snoopRow_wf {v : Variant} {cs : Cs} (h : v.has cs = true) (a : Word) (b : Byte) :
    (snoopRow cs a b).wf v = true := by
  cases hb : snoopTable b with
  | none => simp [snoopRow_unlisted hb, Instr.wf, h, hb]
  | some n =>
    unfold snoopRow
    split
    case h_19 => simp_all [snoopTable]
    all_goals exact h

/-! A frame, its operation and the parts both are made of. -/

/-- The frames of a variant by their parts: the row that the selector selects (R60 to R65), with its operands,
and the frame that the model puts around them (log 3). -/
inductive FrameOf (v : Variant) : Instr → Format × List Byte → Prop where
  | regRead (off : Byte) (w : Width) (aligned : off.toNat % 4 = 0) :
      FrameOf v (readRow off w (regAt v off.toNat)) (.reg, regFrame off .read w 0#32)
  | regWrite (off : Byte) (w : Width) (data : Word) (aligned : off.toNat % 4 = 0) :
      FrameOf v (writeRow off w data (regAt v off.toNat)) (.reg, regFrame off .write w data)
  | load (m : Mode) (cs : Cs) (a : Word) (w : Width) (present : v.has cs = true) :
      FrameOf v (loadRow m cs a w) (.flash, flashFrame .read m cs a w 0#32)
  | store (m : Mode) (cs : Cs) (a : Word) (w : Width) (data : Word) (present : v.has cs = true) :
      FrameOf v (storeRow m cs a w data) (.flash, flashFrame .write m cs a w data)
  | dmactl (value : Word) (present : v.hasDma = true) :
      FrameOf v (dmactlRow value) (.dmactl, dmactlFrame value)
  | snoop (cs : Cs) (a : Word) (b : Byte) (present : v.has cs = true) :
      FrameOf v (snoopRow cs a b) (.snoop, snoopFrame cs a b)

theorem FrameOf.decodes {v : Variant} {i : Instr} {f : Format × List Byte} (h : FrameOf v i f) :
    decode v f.1 f.2 = .ok i := by
  cases h with
  | regRead off w aligned => exact decode_regRead v off w aligned
  | regWrite off w data aligned => exact decode_regWrite v off w data aligned
  | load m cs a w present => exact decode_flashLoad v m cs a w present
  | store m cs a w data present => exact decode_flashStore v m cs a w data present
  | dmactl value present => exact decode_dmactl v value present
  | snoop cs a b present => exact decode_snoop v cs a b present

theorem FrameOf.encodes {v : Variant} {i : Instr} {f : Format × List Byte} (h : FrameOf v i f) :
    encode v i = f := by
  cases h with
  | regRead off w => exact encode_readRow v off w
  | regWrite off w data => exact encode_writeRow v off w data
  | load m => cases m <;> rfl
  | store m => cases m <;> rfl
  | dmactl value => exact encode_dmactlRow v value
  | snoop cs a b => exact encode_snoopRow v cs a b

theorem FrameOf.wf {v : Variant} {i : Instr} {f : Format × List Byte} (h : FrameOf v i f) : i.wf v = true := by
  cases h with
  | regRead off w aligned => exact readRow_wf aligned w
  | regWrite off w data aligned => exact writeRow_wf aligned w data
  | load m cs a w present => exact loadRow_wf present m a w
  | store m cs a w data present => exact storeRow_wf present m a w data
  | dmactl value present => exact dmactlRow_wf present value
  | snoop cs a b present => exact snoopRow_wf present a b

/-! Every operation the variant has stands in such a frame. -/

/-- The offset of a register the variant has, as the byte a frame carries (R5(b), R62). -/
theorem toNat_regOffset {v : Variant} (hv : v.wf = true) {r : Reg} (hr : regRecognised v r = true) :
    (BitVec.ofNat 8 (regOffset v r)).toNat = regOffset v r := by
  rw [BitVec.toNat_ofNat]
  exact Nat.mod_eq_of_lt (Variant.wf_offset hv hr).2

theorem FrameOf.of_regReadFrame {v : Variant} {i : Instr} {r : Reg} {w : Width} (hv : v.wf = true)
    (frame : encode v i = regReadFrame v r w)
    (row : readRow (BitVec.ofNat 8 (regOffset v r)) w (some r) = i) (hr : regRecognised v r = true) :
    FrameOf v i (encode v i) := by
  have off := toNat_regOffset hv hr
  have h := FrameOf.regRead (v := v) (BitVec.ofNat 8 (regOffset v r)) w
    (by rw [off]; exact (Variant.wf_offset hv hr).1)
  rwa [off, regAt_regOffset hv hr, row, ← regReadFrame, ← frame] at h

theorem FrameOf.of_regWriteFrame {v : Variant} {i : Instr} {r : Reg} {w : Width} {data : Word}
    (hv : v.wf = true) (frame : encode v i = regWriteFrame v r w data)
    (row : writeRow (BitVec.ofNat 8 (regOffset v r)) w data (some r) = i) (hr : regRecognised v r = true) :
    FrameOf v i (encode v i) := by
  have off := toNat_regOffset hv hr
  have h := FrameOf.regWrite (v := v) (BitVec.ofNat 8 (regOffset v r)) w data
    (by rw [off]; exact (Variant.wf_offset hv hr).1)
  rwa [off, regAt_regOffset hv hr, row, ← regWriteFrame, ← frame] at h

theorem FrameOf.of_dmactlRow {v : Variant} {i : Instr} {value : Word} (row : dmactlRow value = i)
    (present : v.hasDma = true) : FrameOf v i (encode v i) := by
  subst row
  rw [encode_dmactlRow]
  exact .dmactl value present

theorem FrameOf.of_snoopFrame {v : Variant} {i : Instr} {cs : Cs} {a : Word} {b : Byte}
    (frame : encode v i = (.snoop, snoopFrame cs a b)) (row : snoopRow cs a b = i) (present : v.has cs = true) :
    FrameOf v i (encode v i) := by
  rw [frame, ← row]
  exact .snoop cs a b present

theorem offsetUnrecognised_iff (v : Variant) (off : Byte) :
    offsetUnrecognised v off = true ↔ off.toNat % 4 = 0 ∧ regAt v off.toNat = none := by
  simp [offsetUnrecognised]

theorem FrameOf.of_wf {v : Variant} {i : Instr} (hv : v.wf = true) (h : i.wf v = true) :
    FrameOf v i (encode v i) := by
  cases i with
  | rdConf | rdCeCtrl | rdIntrCtrl | rdDummyData | rdTimings
  | rdCtrl0 | rdCtrl1 | rdCtrl2 | rdCtrl3 | rdCtrl4
  | rdSegAddr0 | rdSegAddr1 | rdSegAddr2 | rdSegAddr3 | rdSegAddr4
  | rdDmaCtrl | rdDmaFlashAddr | rdDmaDramAddr | rdDmaLen | rdDmaChecksum =>
    exact .of_regReadFrame hv rfl rfl h
  | wrConf | wrCeCtrl | wrIntrCtrl | wrDummyData | wrTimings
  | wrCtrl0 | wrCtrl1 | wrCtrl2 | wrCtrl3 | wrCtrl4
  | wrSegAddr0 | wrSegAddr1 | wrSegAddr2 | wrSegAddr3 | wrSegAddr4
  | wrDmaCtrl | wrDmaFlashAddr | wrDmaDramAddr | wrDmaLen | wrDmaChecksum =>
    exact .of_regWriteFrame hv rfl rfl h
  | rdUnrecognised off w =>
    obtain ⟨aligned, none⟩ := (offsetUnrecognised_iff v off).mp h
    have frame := FrameOf.regRead (v := v) off w aligned
    rwa [none] at frame
  | wrUnrecognised off w data =>
    obtain ⟨aligned, none⟩ := (offsetUnrecognised_iff v off).mp h
    have frame := FrameOf.regWrite (v := v) off w data aligned
    rwa [none] at frame
  | fldRead cs a w => exact .load .read cs a w h
  | fldFread cs a w => exact .load .fastRead cs a w h
  | fldWrite cs a w => exact .load .write cs a w h
  | fldUser cs a w => exact .load .user cs a w h
  | fstRead cs a w data => exact .store .read cs a w data h
  | fstFread cs a w data => exact .store .fastRead cs a w data h
  | fstWrite cs a w data => exact .store .write cs a w data h
  | fstUser cs a w data => exact .store .user cs a w data h
  | dmaStop up => exact .of_dmactlRow (dmactlRow_dmaStopValue up) h
  | dmaCksum wr up => exact .of_dmactlRow (dmactlRow_dmaStartValue false true wr up) h
  | dmaCksumCal wr up => exact .of_dmactlRow (dmactlRow_dmaStartValue true true wr up) h
  | dmaRd calib up => exact .of_dmactlRow (dmactlRow_dmaStartValue calib false false up) h
  | dmaWr calib up => exact .of_dmactlRow (dmactlRow_dmaStartValue calib false true up) h
  | snoopPlainRead | snoopPlainRead4 | snoopPlainPp | snoopPlainPp4 | snoopPlainDpp | snoopPlainQpp
  | snoopPlainQpp4 | snoopPlainPp44 | snoopFastFastRead | snoopFastFastRead4 | snoopFastDor
  | snoopFastDor4 | snoopFastQor | snoopFastQor4 | snoopDualDior | snoopDualDior4 | snoopQuadQior
  | snoopQuadQior4 =>
    exact .of_snoopFrame rfl rfl h
  | snoopUnknown cs a b =>
    obtain ⟨present, unlisted⟩ : v.has cs = true ∧ snoopTable b = none := by simpa [Instr.wf] using h
    exact .of_snoopFrame rfl (snoopRow_unlisted unlisted cs a) present

/-- Settles O2: an operation the variant has stands in the frame of its parts, and that frame decodes to it. -/
theorem decodeOfEncode : Obligations.DecodeOfEncode :=
  fun _ _ hv h => (FrameOf.of_wf hv h).decodes

/-! Every frame that decodes is such a frame: its bytes are the parts they carry, put together again. -/

theorem regFrame_of_bytes {off sel : Byte} (unused : sel.extractLsb' 3 5 = 0#5) (dir : Dir)
    (selects : sel.getLsbD 0 = decide (dir = .write)) (b2 b3 b4 b5 : Byte) :
    regFrame off dir (widthOfCode (sel.extractLsb' 1 2)) (wordOfBytes b2 b3 b4 b5) =
      [off, sel, b2, b3, b4, b5, 0#8, 0#8, 0#8] := by
  obtain ⟨h0, h1, h2, h3⟩ := byteOf_wordOfBytes b2 b3 b4 b5
  have parts := regSelector_of sel unused _ selects
  unfold regFrame
  rw [codeOfWidth_widthOfCode, h0, h1, h2, h3]
  cases dir <;> exact congrArg (fun b => [off, b, b2, b3, b4, b5, 0#8, 0#8, 0#8]) parts

theorem flashFrame_of_bytes {sel : Byte} {cs : Cs} (chip : csOfNat (sel.extractLsb' 5 3).toNat = some cs)
    (dir : Dir) (selects : sel.getLsbD 2 = decide (dir = .write)) (b1 b2 b3 b4 b5 b6 b7 b8 : Byte) :
    flashFrame dir (modeOfBits (sel.extractLsb' 0 2)) cs (wordOfBytes b1 b2 b3 b4)
        (widthOfCode (sel.extractLsb' 3 2)) (wordOfBytes b5 b6 b7 b8) =
      [sel, b1, b2, b3, b4, b5, b6, b7, b8] := by
  obtain ⟨h0, h1, h2, h3⟩ := byteOf_wordOfBytes b1 b2 b3 b4
  obtain ⟨k0, k1, k2, k3⟩ := byteOf_wordOfBytes b5 b6 b7 b8
  have parts := flashSelector_of sel _ selects
  unfold flashFrame
  rw [codeOfWidth_widthOfCode, bitsOfMode_modeOfBits, toNat_of_csOfNat chip, BitVec.ofNat_toNat,
    BitVec.setWidth_eq, h0, h1, h2, h3, k0, k1, k2, k3]
  cases dir <;> exact congrArg (fun b => [b, b1, b2, b3, b4, b5, b6, b7, b8]) parts

theorem dmactlFrame_of_bytes (b0 b1 b2 b3 : Byte) :
    dmactlFrame (wordOfBytes b0 b1 b2 b3) = [b0, b1, b2, b3, 0#8, 0#8, 0#8, 0#8, 0#8] := by
  obtain ⟨h0, h1, h2, h3⟩ := byteOf_wordOfBytes b0 b1 b2 b3
  rw [dmactlFrame, h0, h1, h2, h3]

theorem snoopFrame_of_bytes {csByte : Byte} {cs : Cs} (chip : csOfNat csByte.toNat = some cs)
    (b b2 b3 b4 b5 : Byte) :
    snoopFrame cs (wordOfBytes b2 b3 b4 b5) b = [b, csByte, b2, b3, b4, b5, 0#8, 0#8, 0#8] := by
  obtain ⟨h0, h1, h2, h3⟩ := byteOf_wordOfBytes b2 b3 b4 b5
  rw [snoopFrame, toNat_of_csOfNat chip, BitVec.ofNat_toNat, BitVec.setWidth_eq, h0, h1, h2, h3]

theorem FrameOf.of_decodeReg {v : Variant} {off sel b2 b3 b4 b5 : Byte} {i : Instr}
    (h : decodeReg v off sel (wordOfBytes b2 b3 b4 b5) = .ok i) :
    FrameOf v i (.reg, [off, sel, b2, b3, b4, b5, 0#8, 0#8, 0#8]) := by
  unfold decodeReg at h
  split_ifs at h with unused misaligned dir data
  · obtain rfl := Except.ok.inj h
    rw [← regFrame_of_bytes (not_not.mp unused) .write (by simp [dir])]
    exact .regWrite off _ _ (not_not.mp misaligned)
  · obtain rfl := Except.ok.inj h
    rw [← regFrame_of_bytes (not_not.mp unused) .read (by simpa using dir), not_not.mp data]
    exact .regRead off _ (not_not.mp misaligned)

theorem FrameOf.of_decodeFlash {v : Variant} {sel b1 b2 b3 b4 b5 b6 b7 b8 : Byte} {i : Instr}
    (h : decodeFlash v sel (wordOfBytes b1 b2 b3 b4) (wordOfBytes b5 b6 b7 b8) = .ok i) :
    FrameOf v i (.flash, [sel, b1, b2, b3, b4, b5, b6, b7, b8]) := by
  unfold decodeFlash at h
  cases chip : csOfNat (sel.extractLsb' 5 3).toNat with
  | none => simp only [chip, reduceCtorEq] at h
  | some cs =>
    simp only [chip] at h
    split_ifs at h with absent dir data
    · obtain rfl := Except.ok.inj h
      rw [← flashFrame_of_bytes chip .write (by simp [dir])]
      exact .store _ cs _ _ _ (by simpa using absent)
    · obtain rfl := Except.ok.inj h
      rw [← flashFrame_of_bytes chip .read (by simpa using dir), not_not.mp data]
      exact .load _ cs _ _ (by simpa using absent)

theorem FrameOf.of_decodeDmactl {v : Variant} {b0 b1 b2 b3 : Byte} {i : Instr}
    (h : decodeDmactl v (wordOfBytes b0 b1 b2 b3) = .ok i) :
    FrameOf v i (.dmactl, [b0, b1, b2, b3, 0#8, 0#8, 0#8, 0#8, 0#8]) := by
  unfold decodeDmactl at h
  split_ifs at h with present
  obtain rfl := Except.ok.inj h
  rw [← dmactlFrame_of_bytes]
  exact .dmactl _ present

theorem FrameOf.of_decodeSnoop {v : Variant} {b csByte b2 b3 b4 b5 : Byte} {i : Instr}
    (h : decodeSnoop v b csByte (wordOfBytes b2 b3 b4 b5) = .ok i) :
    FrameOf v i (.snoop, [b, csByte, b2, b3, b4, b5, 0#8, 0#8, 0#8]) := by
  unfold decodeSnoop at h
  cases chip : csOfNat csByte.toNat with
  | none => simp only [chip, reduceCtorEq] at h
  | some cs =>
    simp only [chip] at h
    split_ifs at h with present
    obtain rfl := Except.ok.inj h
    rw [← snoopFrame_of_bytes chip]
    exact .snoop cs _ b present

theorem FrameOf.of_decode {v : Variant} {fmt : Format} {bytes : List Byte} {i : Instr}
    (h : decode v fmt bytes = .ok i) : FrameOf v i (fmt, bytes) := by
  unfold decode at h
  split at h
  case h_2 => cases h
  case h_1 =>
    cases fmt with
    | reg =>
      simp only at h
      split_ifs at h with zeros
      obtain ⟨rfl, rfl, rfl⟩ := zeros
      exact .of_decodeReg h
    | flash => exact .of_decodeFlash h
    | dmactl =>
      simp only at h
      split_ifs at h with zeros
      obtain ⟨rfl, rfl, rfl, rfl, rfl⟩ := zeros
      exact .of_decodeDmactl h
    | snoop =>
      simp only at h
      split_ifs at h with zeros
      obtain ⟨rfl, rfl, rfl⟩ := zeros
      exact .of_decodeSnoop h

/-- Settles O3: a frame that decodes is made of its parts, and the row they select encodes to it. -/
theorem encodeOfDecode : Obligations.EncodeOfDecode :=
  fun _ _ _ _ h => ⟨(FrameOf.of_decode h).encodes, (FrameOf.of_decode h).wf⟩

/-- Settles O1 by running the decoder on each of the nine frames. -/
theorem writtenOutFramesDecode : Obligations.WrittenOutFramesDecode := by
  unfold Obligations.WrittenOutFramesDecode
  decide +kernel

/-! The segment layouts (R66, R67). -/

theorem encodeSegment_legacy_toNat {v : Variant} (hv : v.segEnc = .legacy8M) {g : Segment} (start : 0 ≤ g.start)
    (stop : 0 ≤ g.start + g.size) :
    (encodeSegment v g).toNat
      = (g.start + g.size).toNat / 2 ^ 23 % 2 ^ 8 * 2 ^ 24 + g.start.toNat / 2 ^ 23 % 2 ^ 8 * 2 ^ 16 := by
  rw [encodeSegment, hv]
  refine (encodeLegacy_toNat g).trans ?_
  rw [Segment.stop]
  omega

theorem encodeSegment_new_toNat {v : Variant} (hv : v.segEnc = .new1M) {g : Segment}
    (start : (v.winBase : Int) ≤ g.start) (size : 0 ≤ g.size) :
    (encodeSegment v g).toNat
      = if g.size = 0 then 0
        else (g.start - v.winBase + g.size - 1).toNat / 2 ^ 20 % 2 ^ 8 * 2 ^ 20
          + (g.start - v.winBase).toNat / 2 ^ 20 % 2 ^ 8 * 2 ^ 4 := by
  rw [encodeSegment, hv]
  split_ifs with empty
  · simp [encodeNew, empty]
  · refine (encodeNew_toNat v g empty).trans ?_
    omega

/-- Settles O19: the two decoders by their ends, the two encoders by their fields. -/
theorem segmentLayouts : Obligations.SegmentLayouts := by
  intro v r
  refine ⟨fun hv => ⟨?_, ?_, fun g => ?_⟩, fun hv => ⟨?_, fun hr => ⟨?_, ?_⟩, fun g => ?_⟩⟩
  · exact decodeSegment_legacy_start v hv r
  · exact decodeSegment_legacy_stop v hv r
  · exact encodeSegment_legacy_toNat hv
  · rintro rfl
    exact decodeSegment_new_zero v hv
  · exact decodeSegment_new_start v hv r hr
  · exact decodeSegment_new_stop v hv r hr
  · exact encodeSegment_new_toNat hv

/-! The rows of a chip-select and a mode (R63, R65, R140). -/

/-- The mode of a chip-select by its number (R13). -/
theorem mode_eq_iff (cs : Cs) (s : State) (m : Mode) :
    s.mode cs = m ↔ modeNumber cs s = (bitsOfMode m).toNat := by
  have number : ((s.ctrl.get cs).extractLsb' 0 2).toNat = modeNumber cs s := by
    simp [modeNumber]
  rw [← number, BitVec.toNat_inj, State.mode, modeField]
  constructor
  · rintro rfl
    rw [bitsOfMode_modeOfBits]
  · intro h
    rw [h, modeOfBits_bitsOfMode]

theorem mode_user_iff (cs : Cs) (s : State) : s.mode cs = .user ↔ modeNumber cs s = 3 := mode_eq_iff cs s .user

theorem inMode_absent {cs : Cs} {s : State} (h : s.variant.has cs = false) (m : Mode) (t : State) :
    inMode cs m s t = .refused .noSuchChipSelect := by
  rw [inMode, if_pos h]

theorem inMode_mismatch {cs : Cs} {m : Mode} {s : State} (present : s.variant.has cs = true)
    (h : s.mode cs ≠ m) (t : State) : inMode cs m s t = .refused .selectorMismatch := by
  rw [inMode, if_neg (by simp [present]), if_pos h]

/-- What a row gives in a mode matters only in that mode. -/
theorem inMode_congr {cs : Cs} {m : Mode} {s t u : State} (h : s.mode cs = m → t = u) :
    inMode cs m s t = inMode cs m s u := by
  unfold inMode
  split_ifs with absent mismatch
  · rfl
  · rfl
  · rw [h (not_not.mp mismatch)]

/-- Settles O26: every FLASH and SNOOP row makes the two checks, the chip-select first. -/
theorem contradictedSelectorsAreRefused : Obligations.ContradictedSelectorsAreRefused := by
  intro s cs addr w data m b
  rw [exec_loadRow, exec_storeRow, exec_snoopRow]
  refine ⟨fun absent => ⟨?_, ?_, ?_⟩, fun present mismatch => ⟨?_, ?_⟩, fun present mismatch => ?_⟩
  · exact inMode_absent absent m _
  · exact inMode_absent absent m _
  · exact inMode_absent absent .user _
  · exact inMode_mismatch present mismatch _
  · exact inMode_mismatch present mismatch _
  · exact inMode_mismatch present (mt (mode_user_iff cs s).mp mismatch) _

/-! The SNOOP rows (R65, R70, R161). -/

/-- The answers of the flash side one by one are the answers of the statements. -/
theorem answers_eq_map (m : List Byte) (c n : Nat) :
    answers m c n = (List.range n).map fun i => m.getD i (Config.freeMiso (c + (i - m.length))) := by
  induction n generalizing m c with
  | zero => simp
  | succ n ih =>
    rw [List.range_succ_eq_map, List.map_cons, List.map_map]
    cases m with
    | nil =>
      simp only [answers, ih]
      simp [Function.comp_def, Nat.add_assoc, Nat.add_comm 1]
    | cons r m =>
      simp only [answers, ih]
      simp [Function.comp_def]

theorem exchange_eq (sent : List Byte) (s : State) : exchange sent s = transferred sent s := by
  rw [transferred, answers_eq_map]
  rfl

/-- A one-byte store carries its byte. -/
theorem payload_byte (b : Byte) : payload .w1 (b.setWidth 32) = [b] := by
  have low : byteOf (b.setWidth 32) 0 = b := by
    apply BitVec.eq_of_toNat_eq
    simpa [byteOf] using b.isLt
  simp [payload, Width.bytes, low]

/-- A SNOOP row is the one-byte user-mode store of its byte (R65, log 21). -/
theorem exec_snoopRow_eq_fstUser (cs : Cs) (addr : Word) (b : Byte) (s : State) :
    exec (snoopRow cs addr b) s = exec (.fstUser cs addr .w1 (b.setWidth 32)) s := by
  rw [exec_snoopRow]
  refine inMode_congr fun user => ?_
  rw [userStore, flashStore, user, payload_byte]

/-- The row `SNOOP.UNKNOWN` stores its byte, listed or not. -/
theorem exec_snoopUnknown (cs : Cs) (addr : Word) (b : Byte) (s : State) :
    exec (.snoopUnknown cs addr b) s = exec (snoopRow cs addr b) s := by
  rw [exec_snoopRow]
  rfl

/-- A user-mode store without the write-enable bit is only logged (R141). -/
theorem exec_snoopRow_notWritable {cs : Cs} {s : State} (present : s.variant.has cs = true)
    (user : modeNumber cs s = 3) (closed : writeEnabled cs s = false) (addr : Word) (b : Byte) :
    exec (snoopRow cs addr b) s = .next { s with log := s.log ++ [.flashNotWritable cs addr], ret := none } := by
  have writable : s.writable cs = false := closed
  rw [exec_snoopRow, snoopRowStore, inMode_next present ((mode_user_iff cs s).mpr user), userStore, writable]
  rfl

/-- An opcode byte goes out, and starts the count of its dummies, if it has any (R161). -/
theorem exec_snoopRow_start {cs : Cs} {s : State} (ready : UserReady cs s) (start : s.snoopIndex = .start)
    (addr : Word) (b : Byte) :
    exec (snoopRow cs addr b) s = .next { exchange [b] s with
      snoopIndex := if ndummies b = 0 then .off else .count 1
      snoopDummies := if ndummies b = 0 then s.snoopDummies else ndummies b
      ret := none } := by
  have writable : s.writable cs = true := ready.writable
  rw [exec_snoopRow, snoopRowStore, inMode_next ready.has ((mode_user_iff cs s).mpr ready.user), userStore,
    if_pos writable, userBytes, userBytes, userByte_eq, exchange_eq, snoopSends, start]
  rfl

theorem snoopRows_dummies : ∀ r ∈ snoopRows, r.2.1 = ndummies r.1 := by decide

theorem ndummies_unlisted {b : Byte} (h : ∀ r ∈ snoopRows, r.1 ≠ b) : ndummies b = 0 := by
  have unlisted : snoopTable b = none := by
    rw [snoopTable_eq_none_iff, List.mem_map]
    rintro ⟨r, hr, rfl⟩
    exact h r hr rfl
  rw [ndummies, unlisted]
  rfl

/-- Settles O31: each row is the row of its byte, which is the store of that byte. (`snoopRows` is the
statements' name of the table.) -/
theorem snoopRowsHold : Obligations.SnoopRows := by
  refine ⟨fun s cs addr => ⟨fun r hr => ?_, fun b => ?_⟩,
    fun s cs addr present user closed => ⟨fun r hr => ?_, fun b => ?_⟩,
    fun s cs addr ready start => ⟨fun r hr => ?_, fun b unlisted => ?_⟩⟩
  · rw [← snoopRow_listed hr, exec_snoopRow_eq_fstUser]
  · rw [exec_snoopUnknown, exec_snoopRow_eq_fstUser]
  · rw [← snoopRow_listed hr, exec_snoopRow_notWritable present user closed]
  · rw [exec_snoopUnknown, exec_snoopRow_notWritable present user closed]
  · rw [← snoopRow_listed hr, exec_snoopRow_start ready start, snoopRows_dummies r hr]
  · rw [exec_snoopUnknown, exec_snoopRow_start ready start, ndummies_unlisted unlisted]
    rfl

/-! A write of DMA_CTRL (R64, R175). -/

theorem startRow_dmactlRow {value : Word} (enable : value.getLsbD 0 = true) :
    StartRow (dmactlRow value) value := by
  have bits := dmaStartValue_of value enable
  generalize value.getLsbD 3 = calib, value.getLsbD 2 = cksum, value.getLsbD 1 = wr,
    value.extractLsb' 4 28 = up at bits
  rw [← bits, dmactlRow_dmaStartValue]
  cases cksum with
  | false =>
    cases wr with
    | false => exact .rd calib up
    | true => exact .wr calib up
  | true =>
    cases calib with
    | false => exact .cksum wr up
    | true => exact .cksumCal wr up

/-- The DMACTL row of a value is the write of that value to DMA control (R175). -/
theorem exec_dmactlRow (value : Word) (s : State) :
    exec (dmactlRow value) s = ifDma value s (writeDmaControl value s) := by
  cases enable : value.getLsbD 0 with
  | false =>
    have stop := dmaStopValue_of value enable
    rw [writeDmaControl_stop enable, ← stop, dmactlRow_dmaStopValue]
    rfl
  | true => rw [exec_startRow (startRow_dmactlRow enable), writeDmaControl_start enable]

theorem exec_wrDmaCtrl (w : Width) (data : Word) (s : State) :
    exec (.wrDmaCtrl w data) s = exec (dmactlRow (low w data)) s := by
  rw [exec_dmactlRow, ← lowBytes_eq_low]
  rfl

/-- A write to DMA control that is a stop, or that the gate lets through, completes with its value stored. -/
theorem exec_dmactlRow_completes {value : Word} {s : State} (present : s.variant.hasDma = true)
    (words : s.dmaLen.toNat % 4 = 0)
    (gate : value.getLsbD 0 = false ∨ s.dmaCtrl.getLsbD 0 = false ∨ s.intrCtrl.getLsbD 11 = true) :
    ∃ t, exec (dmactlRow value) s = .next t ∧ t.dmaCtrl = value ∧ t.ret = none := by
  rw [exec_dmactlRow]
  cases enable : value.getLsbD 0 with
  | false =>
    refine ⟨returnNone (stopDma value s), ?_, rfl, rfl⟩
    rw [writeDmaControl_stop enable, ifDma, if_pos present]
  | true =>
    have gateOpen : DmaOpen s := ⟨present, gate.resolve_left (by simp [enable])⟩
    refine ⟨completed (startBody value { s with dmaCtrl := value }), ?_, ?_, rfl⟩
    · rw [writeDmaControl_start enable, startDma_open gateOpen words]
    · exact (startBody_keepsInterrupt value { s with dmaCtrl := value }).dmaCtrl

/-- Settles O34: WR DMA_CTRL is the DMACTL row of its value, by the bits of that value. -/
theorem dmaControlWritesSelectTheirRow : Obligations.DmaControlWritesSelectTheirRow := by
  intro s w data present v up written
  have row : written = exec (dmactlRow v) s := exec_wrDmaCtrl w data s
  refine ⟨fun h0 => ?_, fun h0 h2 h3 => ?_, fun h0 h2 h3 => ?_, fun h0 h2 h1 => ?_, fun h0 h2 h1 => ?_,
    fun hv => ?_, fun words gate => ?_⟩
  · rw [row, dmactlRow_stop h0]
  · rw [row, dmactlRow_start h0, h2, h3]
    rfl
  · rw [row, dmactlRow_start h0, h2, h3]
    rfl
  · rw [row, dmactlRow_start h0, h2, h1]
    rfl
  · rw [row, dmactlRow_start h0, h2, h1]
    rfl
  · have at80 : regAt s.variant 0x80 = some .dmaCtrl := regAt_regOffset hv (r := .dmaCtrl) present
    rw [serveNext_registerWrite (by decide) (by decide), at80]
    rfl
  · rw [row]
    exact exec_dmactlRow_completes present words gate

/-! The clock-ratio table (R71, R72). -/

/-- The setting of a ratio: the odd ratios are those of the upper eight settings (R71). -/
def freqOfRatio (k : Nat) : BitVec 4 :=
  if k % 2 = 1 then BitVec.ofNat 4 (15 - k / 2) else BitVec.ofNat 4 (8 - k / 2)

theorem freqOfRatio_ratio (f : BitVec 4) : freqOfRatio (ratio f) = f := by
  revert f
  decide

theorem ratio_freqOfRatio {k : Nat} (h1 : 1 ≤ k) (h16 : k ≤ 16) : ratio (freqOfRatio k) = k := by
  interval_cases k <;> rfl

theorem ratio_formula (f : BitVec 4) :
    ratio f = 2 * (7 - f.toNat % 8) + (if 8 ≤ f.toNat then 1 else 2) := by
  revert f
  decide

/-- Settles O33: the table has its formula and an inverse; the unreliable settings by the ratio. -/
theorem ratioTables : Obligations.RatioTables := by
  refine ⟨ratio_formula, fun k h1 h16 => ⟨freqOfRatio k, ratio_freqOfRatio h1 h16, ?_⟩, fun r d _ _ => ?_⟩
  · rintro g rfl
    exact (freqOfRatio_ratio g).symm
  · unfold unreliable
    split
    · simp
    · simp
    · simp
    next h1 h2 h3 =>
      refine (decide_eq_false ?_).symm
      rintro (h | ⟨h, -⟩ | ⟨h, -⟩)
      · exact h1 h
      · exact h2 h
      · exact h3 h

end Sys2Proof.Machine

/-! Proofs of the family `40_register_access.md`: which row an access runs (O5), the read rows (O9, O10), the
write rows (O13, O14, O11, O18), and that every access in the contract completes (O15). -/

namespace Sys2Proof.Machine

open Sys2Proof.Claims

/-! The row of an offset (R106). -/

section
variable {s : State} (hv : s.variant.wf = true)
include hv

theorem serveNext_readRegister {r : Reg} (hr : regRecognised s.variant r = true) (w : Width) (data : Word) :
    serveNext (.register .read (regOffset s.variant r) w.bytes data) s
      = exec (readRow (BitVec.ofNat 8 (regOffset s.variant r)) w (some r)) s := by
  obtain ⟨aligned, below⟩ := Variant.wf_offset hv hr
  rw [serveNext_registerRead aligned below, regAt_regOffset hv hr]

theorem serveNext_writeRegister {r : Reg} (hr : regRecognised s.variant r = true) (w : Width) (data : Word) :
    serveNext (.register .write (regOffset s.variant r) w.bytes data) s
      = exec (writeRow (BitVec.ofNat 8 (regOffset s.variant r)) w data (some r)) s := by
  obtain ⟨aligned, below⟩ := Variant.wf_offset hv hr
  rw [serveNext_registerWrite aligned below, regAt_regOffset hv hr]

end

/-- Settles O5: the register map gives the register of the offset, or none. -/
theorem registerAccessSelectsItsRow : Obligations.RegisterAccessSelectsItsRow := by
  intro s off w data hv aligned below
  refine ⟨?_, fun unrecognised => ?_⟩
  · rintro r hr rfl
    exact ⟨serveNext_readRegister hv hr w data, serveNext_writeRegister hv hr w data⟩
  · have nothing := regAt_eq_none unrecognised
    rw [serveNext_registerRead aligned below, serveNext_registerWrite aligned below, nothing]
    exact ⟨rfl, rfl⟩

/-! The read rows, all by one equation (R80 to R102, R76). -/

/-- The register as it stands. -/
def registerValue (s : State) : Reg → Word
  | .conf => s.conf
  | .ceCtrl => s.ceCtrl
  | .intrCtrl => s.intrCtrl
  | .ctrl cs => s.ctrl.get cs
  | .segAddr cs => s.segAddr.get cs
  | .dummyData => s.dummyData
  | .dmaCtrl => s.dmaCtrl
  | .dmaFlashAddr => s.dmaFlashAddr
  | .dmaDramAddr => s.dmaDramAddr
  | .dmaLen => s.dmaLen
  | .dmaChecksum => s.dmaChecksum
  | .timings => s.timings

theorem exec_readRow_some (off : Byte) (w : Width) (r : Reg) (s : State) :
    exec (readRow off w (some r)) s = readIf r w (registerValue s r) s := by
  cases r with
  | ctrl cs | segAddr cs => cases cs <;> rfl
  | _ => rfl

theorem returnValue_eq (w : Width) (v : Word) (s : State) :
    returnValue w v s = { s with ret := some (low w v) } := by
  rw [returnValue, lowBytes_eq_low]

theorem exec_readRow_present {r : Reg} {s : State} (hr : regRecognised s.variant r = true) (off : Byte)
    (w : Width) :
    exec (readRow off w (some r)) s = .next { s with ret := some (low w (registerValue s r)) } := by
  rw [exec_readRow_some, readIf_present hr, returnValue_eq]

/-- The row of a register the variant has not is the unrecognised-offset row (R76). -/
theorem exec_readRow_absent {r : Reg} {s : State} (hr : regRecognised s.variant r = false) (off : Byte)
    (w : Width) :
    exec (readRow off w (some r)) s = exec (.rdUnrecognised (busOffset s r) w) s := by
  rw [exec_readRow_some, readIf_absent hr]
  rfl

/-- The offset operand of `readRow` matters only where there is no register. -/
theorem readRow_reads (r : Reg) :
    ReadRow (fun w => readRow 0#8 w (some r)) (regOffset · r) (regRecognised · r) (registerValue · r) := by
  intro s w hr
  refine ⟨exec_readRow_present hr _ w, fun hv data => ?_⟩
  rw [serveNext_readRegister hv hr, exec_readRow_present hr, exec_readRow_present hr]

/-- A register that stays within its mask is equal to its masked value. -/
theorem and_mask_of_masked {x m : Word} (h : x &&& ~~~m = 0#32) : x &&& m = x := by
  calc x &&& m = (x &&& m) ||| (x &&& ~~~m) := by rw [h, BitVec.or_zero]
    _ = x := by rw [← BitVec.and_or_distrib_left, BitVec.or_not_self, BitVec.and_allOnes]

theorem Invariant.dummyData_lt {s : State} (h : Invariant s) : s.dummyData.toNat < 256 := by
  rw [← and_mask_of_masked h.dummyMasked, BitVec.toNat_and]
  exact Nat.lt_succ_of_le Nat.and_le_right

/-- Settles O9: each row is the read row of its register. -/
theorem registerReads : Obligations.RegisterReads :=
  ⟨readRow_reads .conf, readRow_reads .ceCtrl, readRow_reads .intrCtrl, readRow_reads .dummyData,
    readRow_reads .timings,
    readRow_reads (.ctrl .cs0), readRow_reads (.ctrl .cs1), readRow_reads (.ctrl .cs2),
    readRow_reads (.ctrl .cs3), readRow_reads (.ctrl .cs4),
    readRow_reads (.segAddr .cs0), readRow_reads (.segAddr .cs1), readRow_reads (.segAddr .cs2),
    readRow_reads (.segAddr .cs3), readRow_reads (.segAddr .cs4),
    readRow_reads .dmaCtrl, readRow_reads .dmaFlashAddr, readRow_reads .dmaDramAddr, readRow_reads .dmaLen,
    readRow_reads .dmaChecksum, fun _ => Invariant.dummyData_lt⟩

/-! The rows of the registers a variant may lack, listed as the statements list them. -/

/-- A row listed for its chip-select is the row of that chip-select. -/
theorem eq_of_mem_csRows {α : Type} {row : Cs → α} {cs : Cs} {i : α}
    (h : (cs, i) ∈ Cs.all.map fun c => (c, row c)) : i = row cs := by
  obtain ⟨c, -, e⟩ := List.mem_map.mp h
  injection e with hc hi
  rw [← hi, hc]

/-- The registers of the DMA engine, in the order of their offsets (R62). -/
def dmaRegisters : List Reg := [.dmaCtrl, .dmaFlashAddr, .dmaDramAddr, .dmaLen, .dmaChecksum]

theorem regRecognised_dmaRegisters (v : Variant) : ∀ r ∈ dmaRegisters, regRecognised v r = v.hasDma := by
  simp [dmaRegisters, regRecognised]

/-- A row listed for its offset is the row of the DMA register at that offset. -/
theorem exists_of_mem_dmaRows {row : Reg → Instr} {off : Byte} {i : Instr} (v : Variant)
    (h : (off, i) ∈ dmaRegisters.map fun r => (BitVec.ofNat 8 (regOffset v r), row r)) :
    ∃ r, regRecognised v r = v.hasDma ∧ off = BitVec.ofNat 8 (regOffset v r) ∧ i = row r := by
  obtain ⟨r, hr, e⟩ := List.mem_map.mp h
  injection e with hoff hi
  exact ⟨r, regRecognised_dmaRegisters v r hr, hoff.symm, hi.symm⟩

/-- Settles O10: the row at an unrecognised offset, and the rows of the registers the variant has not. -/
theorem unrecognisedReads : Obligations.UnrecognisedReads := by
  refine ⟨fun s off w => congrArg Host.Outcome.next (returnValue_eq w _ _), fun s w => ⟨?_, ?_, ?_⟩⟩
  · intro cs row listed absent
    obtain rfl := eq_of_mem_csRows (row := fun cs => readRow 0#8 w (some (.ctrl cs))) listed
    exact exec_readRow_absent (r := .ctrl cs) absent _ w
  · intro cs row listed absent
    obtain rfl := eq_of_mem_csRows (row := fun cs => readRow 0#8 w (some (.segAddr cs))) listed
    exact exec_readRow_absent (r := .segAddr cs) absent _ w
  · intro off row listed absent
    obtain ⟨r, recognised, rfl, rfl⟩ :=
      exists_of_mem_dmaRows (row := fun r => readRow 0#8 w (some r)) s.variant listed
    exact exec_readRow_absent (recognised.trans absent) _ w

/-! The write rows, all by one equation (R81 to R103, R76). -/

/-- What a write of a register does with the zero-extended value, in a variant that has the register. -/
def writeRule (r : Reg) (v : Word) (s : State) : Result :=
  match r with
  | .conf => .next (returnNone { s with conf := v })
  | .ceCtrl => .next (returnNone { s with ceCtrl := v })
  | .intrCtrl => .next (returnNone { s with intrCtrl := v })
  | .ctrl cs => .next (returnNone (writeCtrl cs v s))
  | .segAddr cs => .next (returnNone (writeSeg cs v s))
  | .dummyData => .next (returnNone { s with dummyData := lowBytes .w1 v })
  | .dmaCtrl => writeDmaControl v s
  | .dmaFlashAddr => .next (returnNone { s with dmaFlashAddr := v &&& s.variant.dmaFlashMask })
  | .dmaDramAddr => .next (returnNone { s with dmaDramAddr := v &&& s.variant.dmaDramMask })
  | .dmaLen => .next (returnNone { s with dmaLen := v &&& dmaLenMask })
  | .dmaChecksum => .next (returnNone (addLog [.unimplementedWrite 0x90#8 v] s))
  | .timings => .next (returnNone { s with timings := v })

theorem exec_writeRow_present {r : Reg} {s : State} (hr : regRecognised s.variant r = true) (off : Byte)
    (w : Width) (data : Word) :
    exec (writeRow off w data (some r)) s = writeRule r (low w data) s := by
  rw [← lowBytes_eq_low]
  cases r with
  | ctrl cs | segAddr cs => cases cs <;> exact writeIf_present hr _ _
  | dmaCtrl => exact if_pos hr
  | _ => exact writeIf_present hr _ _

/-- The row of a register the variant has not is the unrecognised-offset row (R76). -/
theorem exec_writeRow_absent {r : Reg} {s : State} (hr : regRecognised s.variant r = false) (off : Byte)
    (w : Width) (data : Word) :
    exec (writeRow off w data (some r)) s = exec (.wrUnrecognised (busOffset s r) w data) s := by
  cases r with
  | ctrl cs | segAddr cs => cases cs <;> exact writeIf_absent hr _ _
  | dmaCtrl => exact if_neg (ne_true_of_eq_false hr)
  | _ => exact writeIf_absent hr _ _

/-- A register whose write rule has an effect and returns nothing has that effect at every width. -/
theorem writeRow_writes {r : Reg} {effect : Word → State → State}
    (rule : ∀ v s, writeRule r v s = .next (returnNone (effect v s))) :
    WriteRow (fun w data => writeRow 0#8 w data (some r)) (regOffset · r) (regRecognised · r) effect := by
  intro s w data hr
  refine ⟨(exec_writeRow_present hr _ w data).trans (rule _ s), fun hv => ?_⟩
  rw [serveNext_writeRegister hv hr, exec_writeRow_present hr, exec_writeRow_present hr]

/-- The mask of DMA_LEN in arithmetic: a multiple of 4 below 32 MiB (R24). -/
theorem and_dmaLenMask (v : Word) : v &&& dmaLenMask = BitVec.ofNat 32 (v.toNat % 0x02000000 / 4 * 4) := by
  have mask : dmaLenMask.toNat = (2 ^ 23 - 1) * 2 ^ 2 := rfl
  apply BitVec.eq_of_toNat_eq
  rw [BitVec.toNat_and, BitVec.toNat_ofNat, Nat.mod_eq_of_lt (by omega), mask]
  refine Nat.eq_of_testBit_eq fun i => ?_
  have bits : (v.toNat % 2 ^ 25 / 2 ^ 2 * 2 ^ 2).testBit i = (decide (2 ≤ i ∧ i < 25) && v.toNat.testBit i) := by
    rw [Nat.testBit_mul_two_pow, Nat.testBit_div_two_pow, Nat.testBit_mod_two_pow]
    by_cases h : 2 ≤ i
    · simp [h]
    · simp [h]
  refine Eq.trans ?_ bits.symm
  rw [Nat.testBit_and, Nat.testBit_mul_two_pow, Nat.testBit_two_pow_sub_one]
  by_cases h : 2 ≤ i
  · have : i - 2 < 23 ↔ i < 25 := by omega
    simp [h, this, Bool.and_comm]
  · simp [h]

theorem Invariant.dmaLen_words {s : State} (h : Invariant s) : s.dmaLen.toNat % 4 = 0 := by
  rw [← and_mask_of_masked h.lenMasked, and_dmaLenMask, BitVec.toNat_ofNat]
  omega

/-- Settles O13: each row is the write row of its register; the predicates read the word just stored. -/
theorem plainRegisterWrites : Obligations.PlainRegisterWrites := by
  refine ⟨writeRow_writes (r := .conf) fun _ _ => rfl, fun _ _ _ => rfl,
    writeRow_writes (r := .ceCtrl) fun _ _ => rfl, fun _ _ _ => rfl,
    writeRow_writes (r := .intrCtrl) fun _ _ => rfl, fun _ _ => rfl,
    writeRow_writes (r := .dummyData) fun v s => ?_,
    writeRow_writes (r := .timings) fun _ _ => rfl,
    writeRow_writes (r := .dmaFlashAddr) fun _ _ => rfl,
    writeRow_writes (r := .dmaDramAddr) fun _ _ => rfl,
    writeRow_writes (r := .dmaLen) fun v s => ?_,
    writeRow_writes (r := .dmaChecksum) fun _ _ => rfl⟩
  · rw [writeRule, lowBytes_eq_low]
    rfl
  · rw [writeRule, and_dmaLenMask]

/-- Settles O11: the row at an unrecognised offset, and the rows of the registers the variant has not. -/
theorem unrecognisedWrites : Obligations.UnrecognisedWrites := by
  refine ⟨fun s off w data => ?_, fun s w data => ⟨?_, ?_, ?_⟩⟩
  · rw [← lowBytes_eq_low]
    rfl
  · intro cs row listed absent
    obtain rfl := eq_of_mem_csRows (row := fun cs => writeRow 0#8 w data (some (.ctrl cs))) listed
    exact exec_writeRow_absent (r := .ctrl cs) absent _ w data
  · intro cs row listed absent
    obtain rfl := eq_of_mem_csRows (row := fun cs => writeRow 0#8 w data (some (.segAddr cs))) listed
    exact exec_writeRow_absent (r := .segAddr cs) absent _ w data
  · intro off row listed absent
    obtain ⟨r, recognised, rfl, rfl⟩ :=
      exists_of_mem_dmaRows (row := fun r => writeRow 0#8 w data (some r)) s.variant listed
    exact exec_writeRow_absent (recognised.trans absent) _ w data

/-! The registers of a chip-select (R87, R89). -/

/-- `asserted` is the low three bits `011` (R13). -/
theorem assertedField_eq (ctrl : Word) : assertedField ctrl = assertedWord ctrl := by
  have low3 : ∀ b : BitVec 3,
      modeOfBits (b.extractLsb' 0 2) = .user ∧ b.getLsbD 2 = false ↔ b.toNat = 3 := by
    decide
  rw [Bool.eq_iff_iff, assertedField, assertedWord, Bool.and_eq_true, decide_eq_true_iff, decide_eq_true_iff,
    modeField]
  simpa using low3 (ctrl.extractLsb' 0 3)

theorem lineTo_eq (cs : Cs) (level : Bool) (s : State) : lineTo cs level s = driveLine cs level s :=
  (driveLine_eq cs level s).symm

theorem writeCtrl_eq (cs : Cs) (v : Word) (s : State) : writeCtrl cs v s = ctrlWritten cs v s := by
  rw [writeCtrl, State.asserted, assertedField_eq, assertedField_eq, propagateAsserted, ctrlWritten]
  simp only [lineTo_eq]

theorem ctrlRow_writes (cs : Cs) :
    WriteRow (fun w data => writeRow 0#8 w data (some (.ctrl cs))) (regOffset · (.ctrl cs)) (·.has cs)
      (ctrlWritten cs) :=
  writeRow_writes fun v s => by rw [writeRule, writeCtrl_eq]

theorem segRow_writes (cs : Cs) :
    WriteRow (fun w data => writeRow 0#8 w data (some (.segAddr cs))) (regOffset · (.segAddr cs)) (·.has cs)
      (segWritten cs) :=
  writeRow_writes fun _ _ => rfl

/-- Settles O14: each row is the write row of its register. -/
theorem chipSelectRegisterWrites : Obligations.ChipSelectRegisterWrites :=
  ⟨ctrlRow_writes .cs0, ctrlRow_writes .cs1, ctrlRow_writes .cs2, ctrlRow_writes .cs3, ctrlRow_writes .cs4,
    segRow_writes .cs0, segRow_writes .cs1, segRow_writes .cs2, segRow_writes .cs3, segRow_writes .cs4⟩

/-! What the mapper does with a word depends on the descriptor alone, so a second write of it moves nothing. -/

theorem setSegment_rejected {s : State} {cs : Cs} {word : Word}
    (h : rejected s.variant (clamped s.variant cs word).seg = true) :
    ∃ es, setSegment cs word s = addLog es s :=
  ⟨_, if_pos h⟩

theorem setSegment_accepted {s : State} {cs : Cs} {word : Word}
    (h : ¬ rejected s.variant (clamped s.variant cs word).seg = true) :
    ∃ es, setSegment cs word s
      = applySegment cs (clamped s.variant cs word).seg (clamped s.variant cs word).word (addLog es s) :=
  ⟨_, if_neg h⟩

theorem applySegment_again (cs : Cs) (g : Segment) (x : Word) (es : List Event) (s : State) :
    applySegment cs g x (addLog es (returnNone (applySegment cs g x s)))
      = addLog es (returnNone (applySegment cs g x s)) := by
  simp [applySegment, addLog, returnNone]

theorem setSegment_again (cs : Cs) (word : Word) (s : State) :
    ∃ es, setSegment cs word (returnNone (setSegment cs word s))
      = addLog es (returnNone (setSegment cs word s)) := by
  by_cases h : rejected s.variant (clamped s.variant cs word).seg = true
  · obtain ⟨es, first⟩ := setSegment_rejected h
    rw [first]
    exact setSegment_rejected (s := returnNone (addLog es s)) h
  · obtain ⟨es, first⟩ := setSegment_accepted h
    rw [first]
    obtain ⟨fs, second⟩ := setSegment_accepted (s := returnNone (applySegment cs _ _ (addLog es s))) h
    exact ⟨fs, second.trans (applySegment_again cs _ _ fs _)⟩

theorem addLog_nil (s : State) : addLog [] s = s := by
  rw [addLog, List.append_nil]

theorem writeSeg_held {s : State} {cs : Cs} {word : Word} (h : s.segAddr.get cs = word) :
    writeSeg cs word s = s :=
  if_pos h.symm

theorem writeSeg_changed {s : State} {cs : Cs} {word : Word} (h : s.segAddr.get cs ≠ word) :
    writeSeg cs word s = setSegment cs word s :=
  if_neg h.symm

theorem writeSeg_again (cs : Cs) (word : Word) (s : State) :
    ∃ es, writeSeg cs word (returnNone (writeSeg cs word s)) = addLog es (returnNone (writeSeg cs word s)) := by
  by_cases held : (returnNone (writeSeg cs word s)).segAddr.get cs = word
  · rw [writeSeg_held held]
    exact ⟨[], (addLog_nil _).symm⟩
  · have changed : s.segAddr.get cs ≠ word := fun h => held (by rwa [writeSeg_held h])
    rw [writeSeg_changed held, writeSeg_changed changed]
    exact setSegment_again cs word s

theorem exec_segRow_w4 {s : State} {cs : Cs} (present : s.variant.has cs = true) (word : Word) :
    exec (writeRow 0#8 .w4 word (some (.segAddr cs))) s = .next (returnNone (writeSeg cs word s)) := by
  have whole : low .w4 word = word := (lowBytes_eq_low .w4 word).symm
  rw [exec_writeRow_present (r := .segAddr cs) present, whole, writeRule]

/-- Settles O18: the second write is not forwarded, or it is clamped and rejected or applied like the first. -/
theorem segmentWritesAreIdempotent : Obligations.SegmentWritesAreIdempotent := by
  intro s t u cs row word listed present first second
  obtain rfl :=
    eq_of_mem_csRows (row := fun cs data => writeRow 0#8 .w4 data (some (.segAddr cs))) listed
  injection (exec_segRow_w4 present word).symm.trans first with ht
  have present' : t.variant.has cs = true := by
    rw [← ht, returnNone_variant, (writeSeg_continues cs word s).variant, present]
  injection (exec_segRow_w4 present' word).symm.trans second with hu
  subst ht hu
  refine ⟨fun held => ?_, ?_⟩
  · rw [writeSeg_held held]
    rfl
  · obtain ⟨es, again⟩ := writeSeg_again cs word s
    rw [again]
    rfl

/-! Every access in the contract completes (R107, R108). -/

theorem startDma_completes {s : State} (words : s.dmaLen.toNat % 4 = 0) (value : Word) (body : State → State) :
    ∃ t, startDma value body s = .next t := by
  rw [startDma, if_neg (not_not.mpr words)]
  split
  · exact ⟨_, rfl⟩
  · exact ⟨_, rfl⟩

theorem writeDmaControl_completes {s : State} (words : s.dmaLen.toNat % 4 = 0) (value : Word) :
    ∃ t, writeDmaControl value s = .next t := by
  cases enable : value.getLsbD 0 with
  | false => exact ⟨_, writeDmaControl_stop enable s⟩
  | true =>
    rw [writeDmaControl_start enable]
    exact startDma_completes words value _

theorem writeRule_completes {s : State} (words : s.dmaLen.toNat % 4 = 0) (r : Reg) (value : Word) :
    ∃ t, writeRule r value s = .next t := by
  cases r with
  | dmaCtrl => exact writeDmaControl_completes words value
  | _ => exact ⟨_, rfl⟩

/-- Settles O15: at the offset of a register its row completes, elsewhere the unrecognised-offset row; the one
write that a state could stop is a start of the engine, and the invariant keeps DMA_LEN a multiple of 4. -/
theorem registerAccessesComplete : Obligations.RegisterAccessesComplete := by
  intro s off w data inv aligned below
  rw [serveNext_registerRead aligned below, serveNext_registerWrite aligned below]
  cases hr : regAt s.variant off with
  | none => exact ⟨⟨_, _, rfl⟩, _, rfl⟩
  | some r =>
    have present := (regAt_some hr).1
    rw [exec_readRow_present present, exec_writeRow_present present]
    exact ⟨⟨_, [], by rw [List.append_nil]⟩, writeRule_completes inv.dmaLen_words r _⟩

end Sys2Proof.Machine

/-! Proofs of the family `41_segment_mapper.md`: the invariant at reset and after every step (O59, O60), the
routing of a window access (O7, O8), the mapper (O16, O17), the round trips of the segment layouts (O20). -/

namespace Sys2Proof.Machine

open Sys2Proof.Claims

/-! The invariant in the reset state of R220, whatever stands in the slots the variant has not. -/

/-- What R220 sets of the fields the invariant reads: the mapper at the default segments, the lines low, the
rest zero. -/
structure AtDefaults (s : State) : Prop where
  segAddr : ∀ cs, s.variant.has cs = true → s.segAddr.get cs = encodeSegment s.variant (s.variant.segDefault.get cs)
  region : ∀ cs, s.variant.has cs = true → s.region.get cs = s.variant.segDefault.get cs
  ctrl : ∀ cs, s.variant.has cs = true → s.ctrl.get cs = 0#32
  csline : ∀ cs, s.variant.has cs = true → s.csline.get cs = false
  dmaLen : s.dmaLen = 0#32
  dummyData : s.dummyData = 0#32
  cursor : s.snoopIndex = .off
  budget : s.snoopDummies = 0

/-- A register at its default word decodes to the default segment (R5(d)). -/
theorem AtDefaults.decoded {s : State} (d : AtDefaults s) (descriptor : s.variant.wf = true) {cs : Cs}
    (present : s.variant.has cs = true) :
    decodeSegment s.variant (s.segAddr.get cs) = s.variant.segDefault.get cs := by
  rw [d.segAddr cs present]
  exact (Variant.wf_default descriptor present).roundTrip

/-- A well-formed descriptor makes its defaults meet the mapper's invariants (R5(d) to R5(f), R132). -/
theorem AtDefaults.invariant {s : State} (d : AtDefaults s) (descriptor : s.variant.wf = true)
    (memory : s.dram.wf = true) : Invariant s where
  descriptor := descriptor
  decodes cs present := .inl (.inl (by rw [d.region cs present, d.decoded descriptor present]))
  base := by rw [d.region .cs0 (Variant.wf_has_cs0 descriptor), Variant.wf_base descriptor]
  baseWord := by rw [d.decoded descriptor (Variant.wf_has_cs0 descriptor), Variant.wf_base descriptor]
  fixedEnd cs present e he := by
    rw [d.region cs present, (Variant.wf_default descriptor present).fixedEnd e he]
  inside cs present := by
    have default := Variant.wf_default descriptor present
    rw [RegionInside, d.region cs present]
    exact ⟨default.sizeNonneg, fun nonempty => default.inside nonempty.ne'⟩
  lines cs present := by
    rw [d.csline cs present, State.asserted, d.ctrl cs present]
    rfl
  lenMasked := by rw [d.dmaLen, BitVec.zero_and]
  dummyMasked := by rw [d.dummyData, BitVec.zero_and]
  snoop := by simp [SnoopBounded, d.cursor, d.budget]
  memory := memory

theorem ofVariant_atDefaults (v : Variant) (b : FlashBinding) (m : Memory) :
    AtDefaults (State.ofVariant v b m) where
  segAddr cs present := (Slots.get_ofFn _ cs).trans (if_pos present)
  region cs present := (Slots.get_ofFn _ cs).trans (if_pos present)
  ctrl cs _ := Slots.get_ofFn _ cs
  csline cs _ := Slots.get_ofFn _ cs
  dmaLen := rfl
  dummyData := rfl
  cursor := rfl
  budget := rfl

theorem resetBlock_atDefaults (s : State) : AtDefaults (resetBlock s) := by
  unfold resetBlock
  constructor
  case csline =>
    intro cs present
    rw [driveLines_frame] at present
    exact (driveLines_csline _ _ cs).trans (if_pos present)
  case segAddr | region | ctrl =>
    rw [driveLines_frame]
    exact fun cs present => (get_presentSlots _ _ _ cs).trans (if_pos present)
  case dmaLen | dummyData | cursor | budget => rw [driveLines_frame]

theorem invariant_ofVariant {v : Variant} {m : Memory} (descriptor : v.wf = true) (memory : m.wf = true)
    (b : FlashBinding) : Invariant (State.ofVariant v b m) :=
  (ofVariant_atDefaults v b m).invariant descriptor memory

theorem refA_wf : refA.wf = true := by decide +kernel

/-- Settles O59: a newly constructed block stands at the defaults, and so does the reference one. -/
theorem invariantAtReset : Obligations.InvariantAtReset :=
  ⟨invariant_ofVariant refA_wf rfl .framer, fun _ b _ descriptor memory => invariant_ofVariant descriptor memory b⟩

theorem invariant_resetBlock {s : State} (h : Invariant s) : Invariant (resetBlock s) := by
  refine (resetBlock_atDefaults s).invariant ?_ ?_
  · rw [(resetBlock_continues s).variant]
    exact h.descriptor
  · rw [resetBlock, driveLines_frame]
    exact h.memory

/-! Every operation keeps the invariant. -/

theorem invariant_saveBlock {s : State} (h : Invariant s) : Invariant (saveBlock s) :=
  .same h rfl rfl rfl rfl rfl rfl rfl rfl rfl rfl

theorem invariant_popRequest {s : State} (h : Invariant s) : Invariant s.popRequest :=
  .same h rfl rfl rfl rfl rfl rfl rfl rfl rfl rfl

theorem invariant_unrecognisedRead {s : State} (h : Invariant s) (off : Byte) (w : Width) :
    Invariant (unrecognisedRead off w s) :=
  .same h rfl rfl rfl rfl rfl rfl rfl rfl rfl rfl

theorem invariant_unrecognisedWrite {s : State} (h : Invariant s) (off : Byte) (value : Word) :
    Invariant (unrecognisedWrite off value s) :=
  .same h rfl rfl rfl rfl rfl rfl rfl rfl rfl rfl

theorem invariant_setDummyData {s : State} (h : Invariant s) {value : Word} (masked : value &&& ~~~0xFF#32 = 0#32) :
    Invariant { s with dummyData := value } :=
  .core h rfl rfl rfl h.lines h.lenMasked masked h.snoop h.memory

theorem invariant_setDmaLen {s : State} (h : Invariant s) {value : Word} (masked : value &&& ~~~dmaLenMask = 0#32) :
    Invariant { s with dmaLen := value } :=
  .core h rfl rfl rfl h.lines masked h.dummyMasked h.snoop h.memory

theorem invariant_writeSeg {s : State} (h : Invariant s) {cs : Cs} (present : s.variant.has cs = true)
    (value : Word) : Invariant (writeSeg cs value s) := by
  unfold writeSeg
  split
  · exact h
  · exact invariant_setSegment h present value

theorem invariant_writeSegRow {s t : State} (h : Invariant s) {cs : Cs} {w : Width} {data : Word}
    (he : writeSegRow cs w data s = .next t) : Invariant t :=
  invariant_writeIf (r := .segAddr cs) h (fun present => invariant_writeSeg h present _) he

theorem invariant_dmaControl {s t : State} (h : Invariant s) {i : Instr} (hi : dmaControl i = true)
    (he : exec i s = .next t) : Invariant t := by
  obtain ⟨value, e⟩ := exec_dmaControl hi
  rw [e] at he
  exact invariant_ifDma h (fun _ => invariant_writeDmaControl h) he

/-- Every operation keeps the invariant, by the shared operation its row runs. -/
theorem invariant_exec {s t : State} (h : Invariant s) {i : Instr} (he : exec i s = .next t) : Invariant t := by
  cases i with
  | rdConf | rdCeCtrl | rdIntrCtrl | rdDummyData | rdTimings
  | rdCtrl0 | rdCtrl1 | rdCtrl2 | rdCtrl3 | rdCtrl4
  | rdSegAddr0 | rdSegAddr1 | rdSegAddr2 | rdSegAddr3 | rdSegAddr4
  | rdDmaCtrl | rdDmaFlashAddr | rdDmaDramAddr | rdDmaLen | rdDmaChecksum =>
    exact invariant_readIf h he
  | wrConf | wrCeCtrl | wrIntrCtrl | wrTimings | wrDmaFlashAddr | wrDmaDramAddr | wrDmaChecksum =>
    refine invariant_writeIf h (fun _ => ?_) he
    exact .same h rfl rfl rfl rfl rfl rfl rfl rfl rfl rfl
  | wrDummyData => exact invariant_writeIf h (fun _ => invariant_setDummyData h (masked_lowByte _)) he
  | wrDmaLen => exact invariant_writeIf h (fun _ => invariant_setDmaLen h (masked_of_and _ _)) he
  | wrCtrl0 | wrCtrl1 | wrCtrl2 | wrCtrl3 | wrCtrl4 =>
    exact invariant_writeIf h (fun _ => invariant_writeCtrl h _ _) he
  | wrSegAddr0 | wrSegAddr1 | wrSegAddr2 | wrSegAddr3 | wrSegAddr4 =>
    exact invariant_writeSegRow h he
  | rdUnrecognised off w =>
    injection he with he
    exact he ▸ invariant_unrecognisedRead h off w
  | wrUnrecognised off w data =>
    injection he with he
    exact he ▸ invariant_unrecognisedWrite h off (lowBytes w data)
  | fldRead | fldFread | fldWrite | fldUser => exact invariant_loadInMode h he
  | fstRead | fstFread | fstWrite | fstUser => exact invariant_storeInMode h he
  | wrDmaCtrl | dmaStop | dmaCksum | dmaCksumCal | dmaRd | dmaWr => exact invariant_dmaControl h rfl he
  | snoopPlainRead | snoopPlainRead4 | snoopPlainPp | snoopPlainPp4 | snoopPlainDpp | snoopPlainQpp
  | snoopPlainQpp4 | snoopPlainPp44 | snoopFastFastRead | snoopFastFastRead4 | snoopFastDor
  | snoopFastDor4 | snoopFastQor | snoopFastQor4 | snoopDualDior | snoopDualDior4 | snoopQuadQior
  | snoopQuadQior4 | snoopUnknown =>
    exact invariant_snoopRowStore h he

theorem invariant_serve {s t : State} (h : Invariant s) {f : Fetched} (noRestore : ∀ p, f ≠ .restore p)
    (he : serve f s = .next t) : Invariant t := by
  cases f with
  | operation i => exact invariant_exec h he
  | reset =>
    injection he with he
    exact he ▸ invariant_resetBlock h
  | save =>
    injection he with he
    exact he ▸ invariant_saveBlock h
  | restore p => exact absurd rfl (noRestore p)
  | refused r => cases he

theorem fetchFrame_ne_restore (v : Variant) (fmt : Format) (bytes : List Byte) (p : Snapshot) :
    fetchFrame v fmt bytes ≠ .restore p := by
  unfold fetchFrame
  split <;> nofun

/-- Only a request to restore is served as one. -/
theorem fetch_ne_restore {r : Request} (h : ∀ p, r ≠ .restore p) (s : State) (p : Snapshot) :
    fetch r s ≠ .restore p := by
  cases r with
  | register dir off w data =>
    rw [fetch, fetchRegister]
    split
    · nofun
    · split_ifs
      · nofun
      · nofun
      · exact fetchFrame_ne_restore _ _ _ p
  | window dir addr w data =>
    rw [fetch, fetchWindow]
    split
    · nofun
    · split
      · nofun
      · exact fetchFrame_ne_restore _ _ _ p
  | frame fmt bytes => exact fetchFrame_ne_restore _ _ _ p
  | reset | save => nofun
  | restore q => exact absurd rfl (h q)

/-- Settles O60: an idle step changes nothing, and every request but a restore is served by operations that
each keep the invariant. -/
theorem everyStepKeepsTheInvariant : Obligations.EveryStepKeepsTheInvariant := by
  intro s t h noRestore he
  cases hp : s.pending with
  | nil =>
    rw [step_idle hp] at he
    injection he with he
    exact he ▸ h
  | cons r rest =>
    rw [step_cons hp] at he
    have request : ∀ p, r ≠ .restore p := fun p hr => noRestore p rest (by rw [hp, hr])
    exact invariant_serve (invariant_popRequest h) (fetch_ne_restore request s) he

/-! The routing of a window access (R130, R131). -/

theorem route_of_winner {s : State} {a w : Nat} {cs : Cs} (base : s.variant.winBase ≤ a)
    (top : a + w ≤ s.variant.winBase + s.variant.winSize) (h : winner (covering s a w) = some cs) :
    route s a w = some (cs, BitVec.ofInt 32 ((a : Int) - (s.region.get cs).start)) := by
  have window : inFlashWindow s.variant a w = true := decide_eq_true ⟨base, top⟩
  simp only [route, window, if_true, h]

theorem route_of_covering_nil {s : State} {a w : Nat} (h : covering s a w = []) : route s a w = none := by
  simp [route, h, winner]

theorem serveNext_windowRead_row {s : State} {a : Nat} {w : Width} {cs : Cs} {addr : Word}
    (h : route s a w.bytes = some (cs, addr)) (data : Word) :
    serveNext (.window .read a w.bytes data) s = exec (loadRow (s.mode cs) cs addr w) s := by
  rw [serveNext_eq, fetch, fetchWindow_read h (route_has h), serve]

theorem serveNext_windowWrite_row {s : State} {a : Nat} {w : Width} {cs : Cs} {addr : Word}
    (h : route s a w.bytes = some (cs, addr)) (data : Word) :
    serveNext (.window .write a w.bytes data) s = exec (storeRow (s.mode cs) cs addr w data) s := by
  rw [serveNext_eq, fetch, fetchWindow_write h (route_has h), serve]

/-- Settles O8: with no candidate nothing is routed; with some, the winner is one of them. -/
theorem unsettledWindowAccess : Obligations.UnsettledWindowAccess := by
  intro s a w data base top takes
  refine ⟨fun none dir => ?_, fun ⟨cs, hcs⟩ => ?_⟩
  · have empty : covering s a w.bytes = [] :=
      List.eq_nil_iff_forall_not_mem.mpr fun cs hcs => none cs ((mem_covering s a _ cs).mp hcs)
    exact serveNext_window_unrouted (route_of_covering_nil empty) dir data
  · obtain ⟨o, ho⟩ := winner_some (List.ne_nil_of_mem ((mem_covering s a _ cs).mpr hcs))
    have routed := route_of_winner base top ho
    exact ⟨o, (mem_covering s a _ o).mp (winner_mem ho), serveNext_windowRead_row routed data,
      serveNext_windowWrite_row routed data⟩

theorem toNat_ofInt_of_fits {x : Int} (nonneg : 0 ≤ x) (fits : x < 2 ^ 32) :
    ((BitVec.ofInt 32 x).toNat : Int) = x := by
  rw [BitVec.toNat_ofInt]
  omega

/-- A sub-region that is not empty lies below 2^32 (R5(c), R132(d)). -/
theorem Invariant.region_bounds {s : State} (h : Invariant s) {cs : Cs} (present : s.variant.has cs = true)
    (nonempty : 0 < (s.region.get cs).size) :
    0 ≤ (s.region.get cs).start ∧ (s.region.get cs).start + (s.region.get cs).size ≤ 2 ^ 32 := by
  obtain ⟨base, top⟩ := (inWindow_iff _ _).mp ((h.inside cs present).2 nonempty)
  have window := (Variant.wf_window h.descriptor).top
  rw [Segment.stop] at top
  omega

theorem Width.bytes_pos (w : Width) : 0 < w.bytes := by cases w <;> decide

/-- Settles O7: a single candidate wins, and the invariant keeps its offset in a word. -/
theorem windowAccessIsRouted : Obligations.WindowAccessIsRouted := by
  intro s cs a w data g inv present base top start stop alone addr
  have wpos := Width.bytes_pos w
  obtain ⟨low, high⟩ : 0 ≤ g.start ∧ g.start + g.size ≤ 2 ^ 32 :=
    inv.region_bounds present (show 0 < g.size by omega)
  have offset : (addr.toNat : Int) = a - g.start := toNat_ofInt_of_fits (by omega) (by omega)
  have covers : cs ∈ covering s a w.bytes := (mem_covering s a _ cs).mpr ⟨present, start, stop⟩
  have wins : winner (covering s a w.bytes) = some cs := by
    refine winner_unique (covering_nodup s a _) covers fun o ho => ?_
    obtain ⟨has, takes⟩ := (mem_covering s a _ o).mp ho
    by_contra other
    exact alone o has other takes
  have routed := route_of_winner base top wins
  exact ⟨offset, by omega, serveNext_windowRead_row routed data, serveNext_windowWrite_row routed data⟩

/-! `setSegment` in the arithmetic of its rules (R126 to R129). -/

theorem clamped_seg (v : Variant) (cs : Cs) (word : Word) : (clamped v cs word).seg = clampedSegment v cs word := by
  refine Segment.ext_ends (clamped_start v cs word) ((clamped_stop v cs word).trans ?_)
  rw [Segment.stop, clampedSegment]
  cases v.fixedEnd.get cs with
  | none => simp [Segment.stop]
  | some e => simp [Segment.stop]

theorem clamped_storedWord (v : Variant) (cs : Cs) (word : Word) : (clamped v cs word).word = storedWord v cs word := by
  rw [clamped_word, clamped_seg]
  rfl

/-- Step 2 by itself: the segment and word it leaves, and its event. -/
theorem clampStart_eq (v : Variant) (cs : Cs) (word : Word) :
    clampStart v cs (candidateOf v word) =
      ⟨(startFixed v cs word).1, (startFixed v cs word).2,
        if cs = .cs0 ∧ (decodeSegment v word).start ≠ v.winBase then
          [.segCs0StartFixed word (decodeSegment v word)] else []⟩ := by
  unfold clampStart startFixed candidateOf
  by_cases moved : cs = .cs0 ∧ (decodeSegment v word).start ≠ v.winBase
  · simp only [if_pos moved]
    rfl
  · simp only [if_neg moved]

theorem clamped_events (v : Variant) (cs : Cs) (word : Word) : (clamped v cs word).events = clampLog v cs word := by
  rw [clamped, clampStart_eq, clampEnd, clampLog]
  cases v.fixedEnd.get cs with
  | none => exact (List.append_nil _).symm
  | some e =>
    by_cases kept : (startFixed v cs word).1.start + (startFixed v cs word).1.size = (e : Int)
    · simp [Segment.stop, kept]
    · simp [Segment.stop, kept]

theorem rejected_iff_outsideWindow (v : Variant) (g : Segment) : rejected v g = true ↔ outsideWindow v g :=
  rejected_eq v g

/-- One overlap event, where there is one. -/
theorem overlapWith_eq (s : State) (cs : Cs) (g : Segment) (i : Cs) :
    overlapWith s cs g i =
      if (decide (i ≠ cs) && overlaps g (decodeSegment s.variant (s.segAddr.get i)) && s.variant.has i) = true then
        [.segOverlap cs i g (decodeSegment s.variant (s.segAddr.get i))] else [] := by
  refine if_congr ?_ rfl rfl
  rw [Bool.and_eq_true, Bool.and_eq_true, overlaps, decide_eq_true_iff, decide_eq_true_iff]
  constructor
  · rintro ⟨other, present, shared⟩
    exact ⟨⟨other, shared⟩, present⟩
  · rintro ⟨⟨other, shared⟩, present⟩
    exact ⟨other, present, shared⟩

theorem filter_map_eq_flatMap {α β : Type} (p : α → Bool) (f : α → β) (l : List α) :
    (l.filter p).map f = l.flatMap fun x => if p x = true then [f x] else [] := by
  induction l with
  | nil => rfl
  | cons x l ih => cases h : p x <;> simp [h, ih]

theorem overlapEvents_eq (s : State) (cs : Cs) (g : Segment) :
    overlapEvents s cs g = Cs.all.flatMap (overlapWith s cs g) := by
  rw [overlapEvents, Variant.slots, List.filter_filter, filter_map_eq_flatMap]
  refine congrArg (List.flatMap · Cs.all) (funext fun i => ?_)
  rw [overlapWith_eq]

theorem adviceEvents_eq (s : State) (cs : Cs) (g : Segment) : adviceEvents s cs g = adviceLog s cs g := by
  rw [adviceEvents, adviceLog, overlapEvents_eq]
  simp [misaligned, Cs.all]

/-- Settles O16: the candidate of steps 1 to 3 is the clamped segment with its word and its events. -/
theorem setSegmentInSixSteps : Obligations.SetSegmentInSixSteps := by
  intro s cs word g stored
  rw [← rejected_iff_outsideWindow]
  unfold setSegment
  simp only [clamped_seg, clamped_storedWord, clamped_events, adviceEvents_eq]
  refine ⟨fun out => ?_, fun inside => ?_⟩
  · rw [if_pos out, addLog, List.append_assoc]
  · rw [if_neg inside, applySegment, addLog, List.append_assoc]

/-! A write of SEG_ADDR0 with another start than the window base (R127). -/

/-- What the start clamp makes of a word where chip-select 0 has no fixed end (R127). -/
theorem clampedSegment_cs0 {v : Variant} (free : v.fixedEnd.s0 = none) (word : Word) :
    clampedSegment v .cs0 word = ⟨v.winBase, (decodeSegment v word).stop - v.winBase⟩ := by
  have end0 : v.fixedEnd.get .cs0 = none := free
  simp only [clampedSegment, end0, if_true, Segment.stop]

/-- Under `LEGACY_8M` the start clamp keeps the END field and stores the window base as START (R66). -/
theorem encode_startClamped_legacy {v : Variant} (hw : v.wf = true) (hv : v.segEnc = .legacy8M) (word : Word) :
    (encodeSegment v ⟨v.winBase, (decodeSegment v word).stop - v.winBase⟩).toNat
      = word.toNat / 2 ^ 24 * 2 ^ 24 + v.winBase / 2 ^ 23 * 2 ^ 16 := by
  have range := (Variant.wf_window hw).range
  have stop := decodeSegment_legacy_stop v hv word
  have fits := word.isLt
  simp only [hv] at range
  rw [encodeSegment_legacy_toNat hv (by simp) (by simp only; omega)]
  simp only
  omega

/-- Under `NEW_1M` it keeps the END field, and the START field of the window base is 0 (R67). -/
theorem encode_startClamped_new {v : Variant} (hv : v.segEnc = .new1M) {word : Word} (nonzero : word ≠ 0#32) :
    (encodeSegment v ⟨v.winBase, (decodeSegment v word).stop - v.winBase⟩).toNat
      = word.toNat / 2 ^ 20 % 2 ^ 8 * 2 ^ 20 := by
  have stop := decodeSegment_new_stop v hv word nonzero
  rw [encodeSegment_new_toNat hv (le_refl _) (by simp only; omega), if_neg (by simp only; omega)]
  simp only
  omega

/-- Settles O17: the clamped segment has the window base and the written end, and its word is its encoding. -/
theorem startClampKeepsTheWrittenEnd : Obligations.StartClampKeepsTheWrittenEnd := by
  intro s word hw free moved accepted t
  have clamp := clampedSegment_cs0 free word
  have stored : storedWord s.variant .cs0 word
      = encodeSegment s.variant ⟨s.variant.winBase, (decodeSegment s.variant word).stop - s.variant.winBase⟩ := by
    have differs : clampedSegment s.variant .cs0 word ≠ decodeSegment s.variant word := by
      intro same
      exact moved (by rw [← same, clamp])
    rw [storedWord, if_neg differs, clamp]
  have ht : t = _ := (setSegmentInSixSteps s .cs0 word).2 accepted
  have register : t.segAddr.s0 = storedWord s.variant .cs0 word := by rw [ht]; rfl
  have region : t.region.s0 = clampedSegment s.variant .cs0 word := by rw [ht]; rfl
  rw [register, stored, region, clamp]
  refine ⟨fun hv => encode_startClamped_legacy hw hv word, fun hv => encode_startClamped_new hv ?_, rfl, ?_⟩
  · rintro rfl
    exact moved (by rw [decodeSegment_new_zero _ hv])
  · exact add_sub_cancel _ _

/-! The round trips of the segment layouts (R123). -/

theorem encodeSegment_new_empty {v : Variant} (hv : v.segEnc = .new1M) {g : Segment} (empty : g.size = 0) :
    encodeSegment v g = 0#32 := by
  simp [encodeSegment, hv, encodeNew, empty]

/-- R123, first half, under `LEGACY_8M`. -/
theorem decode_encode_legacy {v : Variant} (hw : v.wf = true) (hv : v.segEnc = .legacy8M) {g : Segment}
    (start : g.start % (unit v : Int) = 0) (size : g.size % (unit v : Int) = 0) (nonneg : 0 ≤ g.size)
    (place : ((v.winBase : Int) ≤ g.start ∧ g.start + g.size ≤ (v.winBase : Int) + v.winSize) ∨
      (g.size = 0 ∧ 0 ≤ g.start ∧ g.start < 0x80000000)) :
    decodeSegment v (encodeSegment v g) = g := by
  have range := (Variant.wf_window hw).range
  simp only [hv] at range
  simp only [unit, hv, MiB] at start size
  have stop : g.stop = g.start + g.size := rfl
  apply decodeSegment_encodeSegment_legacy v hv <;> omega

/-- R123, first half, under `NEW_1M`. -/
theorem decode_encode_new {v : Variant} (hw : v.wf = true) (hv : v.segEnc = .new1M) {g : Segment}
    (start : g.start % (unit v : Int) = 0) (size : g.size % (unit v : Int) = 0) (nonneg : 0 ≤ g.size)
    (base : (v.winBase : Int) ≤ g.start) (top : g.start + g.size ≤ (v.winBase : Int) + v.winSize)
    (emptyAtBase : g.size = 0 → g.start = v.winBase) (notFirst : g ≠ ⟨v.winBase, 0x100000⟩) :
    decodeSegment v (encodeSegment v g) = g := by
  have window := Variant.wf_window hw
  have aligned := window.base
  have range := window.range
  simp only [hv] at range
  simp only [unit, hv, MiB] at start size aligned
  have stop : g.stop = g.start + g.size := rfl
  by_cases empty : g.size = 0
  · rw [encodeSegment_new_empty hv empty, decodeSegment_new_zero v hv, ← emptyAtBase empty, ← empty]
  · exact decodeSegment_encodeSegment_new v hv g base (by omega) (by omega) (by omega) (by omega) (by omega) notFirst

/-- R123, second half, under `LEGACY_8M`: both fields are kept, the rest is cleared. -/
theorem encode_decode_legacy {v : Variant} (hv : v.segEnc = .legacy8M) (r : Word) :
    (encodeSegment v (decodeSegment v r)).toNat = r.toNat / 2 ^ 16 * 2 ^ 16 := by
  have start := decodeSegment_legacy_start v hv r
  have stop := decodeSegment_legacy_stop v hv r
  have fits := r.isLt
  rw [Segment.stop] at stop
  rw [encodeSegment_legacy_toNat hv (by omega) (by omega), stop, start, Int.toNat_natCast, Int.toNat_natCast,
    Nat.mul_div_cancel _ (Nat.two_pow_pos 23), Nat.mul_div_cancel _ (Nat.two_pow_pos 23)]
  omega

/-- R123, second half, under `NEW_1M` for a word that decodes to a positive size. -/
theorem encode_decode_new {v : Variant} (hv : v.segEnc = .new1M) {r : Word} (positive : 0 < (decodeSegment v r).size) :
    (encodeSegment v (decodeSegment v r)).toNat
      = r.toNat / 2 ^ 20 % 2 ^ 8 * 2 ^ 20 + r.toNat / 2 ^ 4 % 2 ^ 8 * 2 ^ 4 := by
  have nonzero : r ≠ 0#32 := by
    rintro rfl
    simp [decodeSegment_new_zero v hv] at positive
  have start := decodeSegment_new_start v hv r nonzero
  have stop := decodeSegment_new_stop v hv r nonzero
  rw [Segment.stop] at stop
  rw [encodeSegment_new_toNat hv (by omega) positive.le, if_neg positive.ne']
  omega

/-- Under `LEGACY_8M` the address 2^31 does not fit the START field (log 19). -/
theorem decode_encode_legacy_top {v : Variant} (hv : v.segEnc = .legacy8M) :
    decodeSegment v (encodeSegment v ⟨0x80000000, 0⟩) = ⟨0, 0⟩ := by
  have word : encodeSegment v ⟨0x80000000, 0⟩ = 0#32 :=
    BitVec.eq_of_toNat_eq (by rw [encodeSegment_legacy_toNat hv (by simp) (by simp)]; simp)
  rw [word]
  refine Segment.ext_ends ?_ ?_
  · simp [decodeSegment_legacy_start v hv]
  · rw [decodeSegment_legacy_stop v hv]
    simp [Segment.stop]

/-- Settles O20: the exceptions as they come out, and each half under each layout. -/
theorem segmentRoundTrip : Obligations.SegmentRoundTrip := by
  refine ⟨fun v hv => ?_, fun v hv => decode_encode_legacy_top hv,
    fun v g hw start size nonneg place emptyAtBase notFirst => ?_, fun v r hv => encode_decode_legacy hv r,
    fun v r hv => ⟨encode_decode_new hv, encodeSegment_new_empty hv⟩⟩
  · rw [encodeSegment_firstMiB v hv, decodeSegment_new_zero v hv]
  · cases hv : v.segEnc with
    | legacy8M => exact decode_encode_legacy hw hv start size nonneg (place.imp_right fun ⟨h0, _, h1⟩ => ⟨h0, h1⟩)
    | new1M =>
      obtain ⟨base, top⟩ := place.resolve_right fun ⟨_, legacy, _⟩ => nomatch hv.symm.trans legacy
      exact decode_encode_new hw hv start size nonneg base top (emptyAtBase hv) fun first => notFirst ⟨hv, first⟩

end Sys2Proof.Machine

/-! Proofs of the family `42_spi_framer.md`: the framed loads and stores (O21, O22), the user-mode loads and stores
(O23, O30), the logged accesses (O24, O25), the offsets that are clamped (O27), what snoops (O28). -/

namespace Sys2Proof.Machine

open Sys2Proof.Claims

/-! The bytes of a frame and of a payload, in the arithmetic of the statements (R68, R143 to R145). -/

theorem byteOf_eq_byteAt (v : Word) (i : Nat) : byteOf v i = byteAt v i := by
  apply BitVec.eq_of_toNat_eq
  simp [byteOf, byteAt, Nat.shiftRight_eq_div_pow]

theorem payload_eq (w : Width) (data : Word) : payload w data = storedBytes w data :=
  List.map_congr_left fun i _ => byteOf_eq_byteAt data i

theorem storedBytes_length (w : Width) (data : Word) : (storedBytes w data).length = w.bytes := by
  simp [storedBytes]

theorem storedBytes_ne_nil (w : Width) (data : Word) : storedBytes w data ≠ [] :=
  List.ne_nil_of_length_pos (by rw [storedBytes_length]; exact Width.bytes_pos w)

theorem addressBytes_eq (cs : Cs) (a : Word) (s : State) : addressBytes (s.ext4 cs) a = addressSent cs a s := by
  simp only [addressBytes, addressSent, State.ext4, byteOf_eq_byteAt]

theorem opcodeField_eq (cs : Cs) (s : State) : opcodeField (s.ctrl.get cs) = opcodeSent cs s :=
  byteOf_eq_byteAt _ 2

theorem dummyCount_eq (cs : Cs) (s : State) : s.dummyCount cs = dummiesSent cs s := by
  simp [State.dummyCount, dummyField, dummiesSent, Nat.shiftRight_eq_div_pow]

theorem dummyByte_eq (s : State) : s.dummyByte = dummy s := byteOf_eq_byteAt _ 0

/-! The value of the bytes received (R43, R147). -/

/-- The number of some bytes, not cut to a word. -/
def littleSum (l : List Byte) : Nat := l.foldr (fun b n => b.toNat + 256 * n) 0

theorem littleSum_cons (b : Byte) (l : List Byte) : littleSum (b :: l) = b.toNat + 256 * littleSum l := rfl

theorem little_toNat (l : List Byte) : (little l).toNat = littleSum l % 2 ^ 32 := BitVec.toNat_ofNat _ _

theorem little_cons (b : Byte) (l : List Byte) : little (b :: l) = b.setWidth 32 ||| (little l <<< 8) := by
  apply BitVec.eq_of_toNat_eq
  have high : (little l <<< 8).toNat = 2 ^ 8 * (littleSum l % 2 ^ 24) := by
    rw [BitVec.toNat_shiftLeft, little_toNat, Nat.shiftLeft_eq]
    omega
  have low : (b.setWidth 32).toNat = b.toNat := BitVec.toNat_setWidth_of_le (by decide)
  rw [BitVec.toNat_or, high, low, Nat.or_comm, ← Nat.two_pow_add_eq_or_of_lt b.isLt, little_toNat, littleSum_cons]
  omega

theorem collect_eq_little (l : List Byte) : collect l = little l := by
  induction l with
  | nil => rfl
  | cons b l ih => rw [collect, ih, little_cons]

theorem littleSum_lt (l : List Byte) : littleSum l < 2 ^ (8 * l.length) := by
  induction l with
  | nil => simp [littleSum]
  | cons b l ih =>
    have byte := b.isLt
    rw [littleSum_cons, List.length_cons, Nat.mul_succ, Nat.pow_add]
    omega

/-- A value of as many bytes as the access is wide is returned whole (R42). -/
theorem lowBytes_little {w : Width} {l : List Byte} (h : l.length = w.bytes) : lowBytes w (little l) = little l := by
  have fits := littleSum_lt l
  rw [h] at fits
  have word : 2 ^ (8 * w.bytes) ≤ 2 ^ 32 := by cases w <;> decide
  rw [lowBytes_eq_low, low, little_toNat, Nat.mod_eq_of_lt (fits.trans_le word), Nat.mod_eq_of_lt fits]
  rfl

theorem received_eq (s : State) (n : Nat) : received s n = answers s.miso s.freeCount n :=
  (answers_eq_map s.miso s.freeCount n).symm

/-- The answers to the transfers after the first `k`. -/
theorem drop_answers (m : List Byte) (c k n : Nat) :
    (answers m c (k + n)).drop k = answers (m.drop k) (c + (k - m.length)) n := by
  induction k generalizing m c with
  | zero => simp
  | succ k ih =>
    rw [Nat.add_right_comm]
    cases m with
    | nil => simp [answers, ih, Nat.add_assoc, Nat.add_comm 1]
    | cons r m => simp [answers, ih]

theorem loaded_eq (s : State) (head fill : List Byte) :
    loaded s (head ++ fill) fill.length =
      little (answers (transferred head s).miso (transferred head s).freeCount fill.length) := by
  rw [loaded, received_eq, List.length_append, Nat.add_sub_cancel, drop_answers]
  rfl

/-- The last bytes received, as many as the access is wide, are returned whole. -/
theorem lowBytes_loaded {w : Width} {sent : List Byte} (h : w.bytes ≤ sent.length) (s : State) :
    lowBytes w (loaded s sent w.bytes) = loaded s sent w.bytes :=
  lowBytes_little (by rw [received_eq, List.length_drop, answers_length]; omega)

/-! Framed accesses (R142). -/

theorem framed_eq (cs : Cs) (events : List Event) (sent : List Byte) (s : State) :
    framed cs events sent s = driveLine cs false (transferred sent (addLog events (driveLine cs true s))) := by
  simp only [framed, lineTo_eq, exchange_eq]
  rfl

/-- A framed load answers the bytes that come in with its payload transfers (R147). -/
theorem framedLoad_eq (cs : Cs) (addr : Word) (w : Width) (s : State) :
    let sent := frameHead cs addr s ++ List.replicate w.bytes 0x00#8
    framedLoad cs addr w s = (loaded s sent w.bytes, framed cs (frameEvents cs addr s) sent s) := by
  have payload := loaded_eq s (frameHead cs addr s) (List.replicate w.bytes 0x00#8)
  rw [List.length_replicate] at payload
  refine Prod.ext ?_ ((framedLoad_snd cs addr w s).trans (framed_eq ..).symm)
  rw [payload]
  simp only [framedLoad, receiveBytes_eq, frameOpen_eq, collect_eq_little]
  simp [transferred]

/-- `clampToSegment` in the arithmetic of R146. -/
theorem clampToSegment_eq (cs : Cs) (addr : Word) (s : State) :
    clampToSegment cs addr s = (offsetSent cs addr s, { s with log := s.log ++ offsetLog cs addr s }) :=
  Prod.ext (apply_ite Prod.fst _ _ _) (clampToSegment_snd cs addr s)

theorem frameHead_eq (cs : Cs) (addr : Word) (s : State) :
    frameHead cs addr s = opcodeByte cs s :: addressSent cs (offsetSent cs addr s) s ++ frameDummies cs s := by
  rw [frameHead, addressBytes_eq, clampToSegment_eq]

/-- In READ mode: the opcode `READ_OPCODE`, no dummy bytes (R143, R145). -/
theorem frameHead_read {cs : Cs} {s : State} (mode : s.mode cs = .read) (addr : Word) :
    frameHead cs addr s = 0x03#8 :: addressSent cs (offsetSent cs addr s) s := by
  simp [frameHead_eq, opcodeByte, frameDummies, mode, readOpcode]

/-- In FAST_READ mode: CTRLcs.OPCODE and the dummy bytes (R143, R145). -/
theorem frameHead_fastRead {cs : Cs} {s : State} (mode : s.mode cs = .fastRead) (addr : Word) :
    frameHead cs addr s = opcodeSent cs s :: addressSent cs (offsetSent cs addr s) s
      ++ List.replicate (dummiesSent cs s) (dummy s) := by
  simp [frameHead_eq, opcodeByte, frameDummies, mode, opcodeField_eq, dummyCount_eq, dummyByte_eq]

/-- In WRITE mode: CTRLcs.OPCODE, no dummy bytes (R143, R150). -/
theorem frameHead_write {cs : Cs} {s : State} (mode : s.mode cs = .write) (addr : Word) :
    frameHead cs addr s = opcodeSent cs s :: addressSent cs (offsetSent cs addr s) s := by
  simp [frameHead_eq, opcodeByte, frameDummies, mode, opcodeField_eq]

theorem frameEvents_read {cs : Cs} {s : State} (mode : s.mode cs = .read) (addr : Word) :
    frameEvents cs addr s = offsetLog cs addr s := by
  rw [frameEvents, opcodeEvents, if_neg fun h => h.1 mode, List.append_nil]
  rfl

theorem frameEvents_opcode {cs : Cs} {m : Mode} {s : State} (mode : s.mode cs = m) (opcode : m ≠ .read)
    (addr : Word) :
    frameEvents cs addr s = offsetLog cs addr s ++ opcodeLog cs m s := by
  subst mode
  simp only [frameEvents, opcodeEvents, opcodeLog, opcodeField_eq, ne_eq, opcode, not_false_eq_true, true_and]
  rfl

/-! What a load and a store do in each mode (R140, R141). -/

section
variable {cs : Cs} {s : State}

theorem flashLoad_framed (mode : s.mode cs = .read ∨ s.mode cs = .fastRead) (addr : Word) (w : Width) :
    flashLoad cs addr w s = framedLoad cs addr w s := by
  rcases mode with mode | mode <;> rw [flashLoad, mode]

theorem flashLoad_write (mode : s.mode cs = .write) (addr : Word) (w : Width) :
    flashLoad cs addr w s = (0#32, addLog [.flashInvalidMode cs .read .write] s) := by
  rw [flashLoad, mode]
  rfl

theorem flashLoad_user (mode : s.mode cs = .user) (addr : Word) (w : Width) :
    flashLoad cs addr w s = (little (received s w.bytes), exchange (List.replicate w.bytes 0x00#8) s) := by
  rw [flashLoad, mode, received_eq, exchange_eq, ← collect_eq_little]
  simp only [userLoad, receiveBytes_eq]
  rfl

theorem flashStore_closed (closed : writeEnabled cs s = false) (addr : Word) (w : Width) (data : Word) :
    flashStore cs addr w data s = addLog [.flashNotWritable cs addr] s := by
  have writable : s.writable cs = false := closed
  rw [flashStore, writable]
  rfl

variable (opened : writeEnabled cs s = true)
include opened

theorem flashStore_invalid {m : Mode} (reads : m = .read ∨ m = .fastRead) (mode : s.mode cs = m) (addr : Word)
    (w : Width) (data : Word) :
    flashStore cs addr w data s = addLog [.flashInvalidMode cs .write m] s := by
  have writable : s.writable cs = true := opened
  rw [flashStore, if_pos writable, mode]
  rcases reads with rfl | rfl <;> rfl

theorem flashStore_write (mode : s.mode cs = .write) (addr : Word) (w : Width) (data : Word) :
    flashStore cs addr w data s = framedStore cs addr w data s := by
  have writable : s.writable cs = true := opened
  rw [flashStore, if_pos writable, mode]

theorem flashStore_user (mode : s.mode cs = .user) (addr : Word) (w : Width) (data : Word) :
    flashStore cs addr w data s = userBytes cs (storedBytes w data) s := by
  have writable : s.writable cs = true := opened
  rw [flashStore, if_pos writable, mode, payload_eq]

end

/-! The FLASH rows of a chip-select of the variant, in the mode of the row (R63). -/

section
variable {cs : Cs} {m : Mode} {s : State} (present : s.variant.has cs = true)
  (mode : modeNumber cs s = (bitsOfMode m).toNat)
include present mode

theorem exec_loadRow_next {addr : Word} {w : Width} {v : Word} {t : State} (load : flashLoad cs addr w s = (v, t)) :
    exec (loadRow m cs addr w) s = .next { t with ret := some (lowBytes w v) } := by
  rw [exec_loadRow, loadInMode, inMode_next present ((mode_eq_iff cs s m).mpr mode), load]
  rfl

theorem exec_storeRow_next {addr : Word} {w : Width} {data : Word} {t : State}
    (store : flashStore cs addr w data s = t) :
    exec (storeRow m cs addr w data) s = .next { t with ret := none } := by
  rw [exec_storeRow, storeInMode, inMode_next present ((mode_eq_iff cs s m).mpr mode), store]
  rfl

theorem exec_loadRow_framed (reads : m = .read ∨ m = .fastRead) (addr : Word) (w : Width) :
    let sent := frameHead cs addr s ++ List.replicate w.bytes 0x00#8
    exec (loadRow m cs addr w) s
      = .next { framed cs (frameEvents cs addr s) sent s with ret := some (loaded s sent w.bytes) } := by
  have load := flashLoad_framed (((mode_eq_iff cs s m).mpr mode).symm ▸ reads) addr w
  rw [exec_loadRow_next present mode (load.trans (framedLoad_eq cs addr w s)), lowBytes_loaded (by simp)]

end

/-- Settles O21: both rows are the framed load, with the head and the events of their mode. -/
theorem framedLoads : Obligations.FramedLoads := by
  intro s cs addr w present head fill
  refine ⟨fun mode => ?_, fun mode => ?_⟩
  · have read := (mode_eq_iff cs s .read).mpr mode
    have row := exec_loadRow_framed (m := .read) present mode (.inl rfl) addr w
    rwa [frameHead_read read, frameEvents_read read] at row
  · have fast := (mode_eq_iff cs s .fastRead).mpr mode
    have row := exec_loadRow_framed (m := .fastRead) present mode (.inr rfl) addr w
    rwa [frameHead_fastRead fast, frameEvents_opcode fast (by decide)] at row

/-- Settles O22: the framed store, with the head and the events of WRITE mode. -/
theorem framedStores : Obligations.FramedStores := by
  intro s cs addr w data present mode opened sent
  have write := (mode_eq_iff cs s .write).mpr mode
  have store : flashStore cs addr w data s = framed cs (offsetLog cs addr s ++ opcodeLog cs .write s) sent s := by
    rw [flashStore_write opened write, framedStore_eq, frameHead_write write, frameEvents_opcode write (by decide),
      payload_eq, framed_eq]
  exact exec_storeRow_next (m := .write) present mode store

/-- Settles O23: the bytes received are as many as the access is wide, so they are returned whole. -/
theorem userLoads : Obligations.UserLoads := by
  intro s cs addr w present mode
  have row := exec_loadRow_next (m := .user) present mode (flashLoad_user ((mode_user_iff cs s).mpr mode) addr w)
  rwa [lowBytes_little (by rw [received_eq, answers_length])] at row

theorem lowBytes_zero (w : Width) : lowBytes w 0#32 = 0#32 := by cases w <;> rfl

/-- Settles O24: each row is the one event. -/
theorem invalidModeAccesses : Obligations.InvalidModeAccesses := by
  intro s cs addr w data present
  refine ⟨fun mode => ?_, fun opened mode => ?_, fun opened mode => ?_⟩
  · have row := exec_loadRow_next (m := .write) present mode (flashLoad_write ((mode_eq_iff cs s _).mpr mode) addr w)
    rwa [lowBytes_zero] at row
  · exact exec_storeRow_next (m := .read) present mode
      (flashStore_invalid opened (.inl rfl) ((mode_eq_iff cs s _).mpr mode) addr w data)
  · exact exec_storeRow_next (m := .fastRead) present mode
      (flashStore_invalid opened (.inr rfl) ((mode_eq_iff cs s _).mpr mode) addr w data)

/-- Settles O25: the write-enable check comes before the mode. -/
theorem storesNeedWriteEnable : Obligations.StoresNeedWriteEnable := by
  intro s cs addr w data present closed dropped
  have store := flashStore_closed closed addr w data
  exact ⟨fun mode => exec_storeRow_next (m := .read) present mode store,
    fun mode => exec_storeRow_next (m := .fastRead) present mode store,
    fun mode => exec_storeRow_next (m := .write) present mode store,
    fun mode => exec_storeRow_next (m := .user) present mode store⟩

/-! User-mode stores (R151). -/

theorem userBytes_returnNone (cs : Cs) (l : List Byte) (s : State) :
    userBytes cs l (returnNone s) = returnNone (userBytes cs l s) := by
  induction l generalizing s with
  | nil => rfl
  | cons b l ih =>
    have byte : userByte cs b (returnNone s) = returnNone (userByte cs b s) := by
      rw [userByte_eq, userByte_eq]
      rfl
    rw [userBytes, byte, ih, userBytes]

theorem userReady_userByte {cs : Cs} {s : State} (ready : UserReady cs s) (b : Byte) :
    UserReady cs (returnNone (userByte cs b s)) where
  has := by simpa using ready.has
  user := by simpa [modeNumber] using ready.user
  writable := by simpa [writeEnabled] using ready.writable

theorem exec_fstUser_ready {cs : Cs} {s : State} (ready : UserReady cs s) (addr : Word) (w : Width) (data : Word) :
    exec (.fstUser cs addr w data) s = .next (returnNone (userBytes cs (storedBytes w data) s)) :=
  exec_storeRow_next (m := .user) ready.has ready.user
    (flashStore_user ready.writable ((mode_user_iff cs s).mpr ready.user) addr w data)

theorem userStores_cons {cs : Cs} {s : State} (ready : UserReady cs s) (addr : Word) (b : Byte) (l : List Byte) :
    userStores cs addr (b :: l) s = userStores cs addr l (returnNone (userByte cs b s)) := by
  have byte : exec (.fstUser cs addr .w1 (b.setWidth 32)) s = .next (returnNone (userByte cs b s)) := by
    rw [exec_fstUser_ready ready, ← payload_eq, payload_byte]
    rfl
  rw [userStores, List.foldl_cons, andThen, byte]
  rfl

/-- One-byte stores in order are one store of their bytes. -/
theorem userStores_ready {cs : Cs} {s : State} (ready : UserReady cs s) (addr : Word) (b : Byte) (l : List Byte) :
    userStores cs addr (b :: l) s = .next (returnNone (userBytes cs (b :: l) s)) := by
  induction l generalizing b s with
  | nil =>
    rw [userStores_cons ready]
    rfl
  | cons c l ih =>
    rw [userStores_cons ready, ih (userReady_userByte ready b), userBytes_returnNone]
    rfl

/-- Settles O30: one byte after the other is what the store does with its bytes. -/
theorem userStoresGoByteByByte : Obligations.UserStoresGoByteByByte := by
  intro s cs addr w data ready
  have store := exec_fstUser_ready ready addr w data
  refine ⟨?_, ?_⟩
  · obtain ⟨b, l, bytes⟩ := List.exists_cons_of_ne_nil (storedBytes_ne_nil w data)
    rw [store, bytes, userStores_ready ready]
  · obtain ⟨sent, i, n, length, transfers⟩ := userBytes_transfers cs (storedBytes w data) s
    refine ⟨sent, i, n, length.trans (storedBytes_length w data), ?_⟩
    rw [store, transfers, exchange_eq]
    rfl

/-! What a load or a store has done, by what it did to the bus; only an accepted user-mode store snoops. -/

/-- An access that has not gone through the snoop emulator: logged only, framed, or raw. -/
inductive Unsnooped (cs : Cs) (addr : Word) (s : State) : State → Prop where
  | logged (e : Event) (other : ∀ c a, Event.flashAddrClamped c a ≠ e) : Unsnooped cs addr s (addLog [e] s)
  | framed (sent : List Byte) : Unsnooped cs addr s (framed cs (frameEvents cs addr s) sent s)
  | raw (sent : List Byte) : Unsnooped cs addr s (exchange sent s)

theorem flashLoad_unsnooped (cs : Cs) (addr : Word) (w : Width) (s : State) :
    Unsnooped cs addr s (flashLoad cs addr w s).2 := by
  cases mode : s.mode cs with
  | read =>
    rw [flashLoad_framed (.inl mode), framedLoad_eq]
    exact .framed _
  | fastRead =>
    rw [flashLoad_framed (.inr mode), framedLoad_eq]
    exact .framed _
  | write =>
    rw [flashLoad_write mode]
    exact .logged _ (by simp)
  | user =>
    rw [flashLoad_user mode]
    exact .raw _

theorem flashStore_cases (cs : Cs) (addr : Word) (w : Width) (data : Word) (s : State) :
    Unsnooped cs addr s (flashStore cs addr w data s) ∨
      s.mode cs = .user ∧ writeEnabled cs s = true ∧
        flashStore cs addr w data s = userBytes cs (storedBytes w data) s := by
  cases enabled : writeEnabled cs s with
  | false =>
    rw [flashStore_closed enabled]
    exact .inl (.logged _ (by simp))
  | true =>
    cases mode : s.mode cs with
    | read =>
      rw [flashStore_invalid enabled (.inl rfl) mode]
      exact .inl (.logged _ (by simp))
    | fastRead =>
      rw [flashStore_invalid enabled (.inr rfl) mode]
      exact .inl (.logged _ (by simp))
    | write =>
      rw [flashStore_write enabled mode, framedStore_eq, ← framed_eq]
      exact .inl (.framed _)
    | user => exact .inr ⟨rfl, rfl, flashStore_user enabled mode addr w data⟩

/-! What snoops (R154). -/

/-- The cursor and the budget of the snoop emulator stand. -/
structure KeepsCursor (s t : State) : Prop where
  index : t.snoopIndex = s.snoopIndex
  dummies : t.snoopDummies = s.snoopDummies

theorem Unsnooped.keepsCursor {cs : Cs} {addr : Word} {s t : State} (h : Unsnooped cs addr s t) : KeepsCursor s t := by
  cases h <;> exact ⟨rfl, rfl⟩

theorem loadRow_keepsCursor {m : Mode} {cs : Cs} {addr : Word} {w : Width} {s t : State}
    (h : exec (loadRow m cs addr w) s = .next t) : KeepsCursor s t := by
  rw [exec_loadRow] at h
  obtain ⟨-, -, rfl⟩ := inMode_of_next h
  obtain ⟨index, dummies⟩ := (flashLoad_unsnooped cs addr w s).keepsCursor
  exact ⟨index, dummies⟩

theorem storeRow_keepsCursor {m : Mode} {cs : Cs} {addr : Word} {w : Width} {data : Word} {s t : State}
    (raw : m = .user → writeEnabled cs s = false) (h : exec (storeRow m cs addr w data) s = .next t) :
    KeepsCursor s t := by
  rw [exec_storeRow] at h
  obtain ⟨-, rfl, rfl⟩ := inMode_of_next h
  obtain unsnooped | ⟨user, enabled, -⟩ := flashStore_cases cs addr w data s
  · obtain ⟨index, dummies⟩ := unsnooped.keepsCursor
    exact ⟨index, dummies⟩
  · exact absurd enabled (by simp [raw user])

/-- Settles O28: the rows are the load rows of the four modes, and store rows that do not snoop. -/
theorem onlyUserStoresSnoop : Obligations.OnlyUserStoresSnoop := by
  intro s t cs addr w data i row next
  obtain ⟨index, dummies⟩ : KeepsCursor s t := by
    obtain member | ⟨rfl, closed⟩ := row
    · obtain load | store := List.mem_append.mp
        (show i ∈ [Mode.read, .fastRead, .write, .user].map (loadRow · cs addr w)
          ++ [Mode.read, .fastRead, .write].map (storeRow · cs addr w data) from member)
      · obtain ⟨m, -, rfl⟩ := List.mem_map.mp load
        exact loadRow_keepsCursor next
      · obtain ⟨m, framed, rfl⟩ := List.mem_map.mp store
        exact storeRow_keepsCursor (fun user => absurd framed (by simp [user])) next
    · exact storeRow_keepsCursor (m := .user) (fun _ => closed) next
  exact ⟨index, dummies⟩

/-! The offsets that are clamped (R146). -/

/-- The segment of the register has the size of the sub-region, or is empty (R132(a), log 19). -/
theorem Invariant.segmentSize_cases {s : State} (h : Invariant s) {cs : Cs} (present : s.variant.has cs = true) :
    segmentSize cs s = (s.region.get cs).size ∨ segmentSize cs s = 0 := by
  obtain (same | ⟨-, empty⟩) | ⟨new, -, zero, -⟩ := h.decodes cs present
  · exact .inl (by rw [segmentSize, same])
  · exact .inr empty
  · exact .inr (by rw [segmentSize, zero, decodeSegment_new_zero _ new])

/-- A routed offset is inside its segment (R130). -/
theorem offsetLog_of_route {s : State} (h : Invariant s) {a : Nat} {w : Width} {cs : Cs} {addr : Word}
    (routed : route s a w.bytes = some (cs, addr)) : offsetLog cs addr s = [] := by
  obtain ⟨covers, rfl⟩ := route_some routed
  obtain ⟨present, start, stop⟩ := (mem_covering s a _ cs).mp covers
  have wpos := Width.bytes_pos w
  have nonempty : 0 < (s.region.get cs).size := by omega
  obtain ⟨low, high⟩ := h.region_bounds present nonempty
  have offset := toNat_ofInt_of_fits (x := (a : Int) - (s.region.get cs).start) (by omega) (by omega)
  have size := h.segmentSize_cases present
  exact if_neg (by omega)

/-- The log gains no `FLASH_ADDR_CLAMPED`. -/
def LogsNoClamp (s t : State) : Prop :=
  ∃ es, t.log = s.log ++ es ∧ ∀ cs addr, Event.flashAddrClamped cs addr ∉ es

theorem frameEvents_noClamp {cs : Cs} {addr : Word} {s : State} (inside : offsetLog cs addr s = [])
    (c : Cs) (a : Word) :
    Event.flashAddrClamped c a ∉ frameEvents cs addr s := by
  have events : frameEvents cs addr s = opcodeEvents cs s := congrArg (· ++ opcodeEvents cs s) inside
  rw [events, opcodeEvents]
  split <;> simp

theorem Unsnooped.logsNoClamp {cs : Cs} {addr : Word} {s t : State} (h : Unsnooped cs addr s t)
    (inside : offsetLog cs addr s = []) : LogsNoClamp s t := by
  cases h with
  | logged e other => exact ⟨[e], rfl, fun c a member => other c a (List.mem_singleton.mp member)⟩
  | framed sent => exact ⟨frameEvents cs addr s, rfl, frameEvents_noClamp inside⟩
  | raw sent => exact ⟨[], (List.append_nil _).symm, by simp⟩

theorem flashStore_logsNoClamp {cs : Cs} {addr : Word} {s : State} (inside : offsetLog cs addr s = []) (w : Width)
    (data : Word) : LogsNoClamp s (flashStore cs addr w data s) := by
  obtain unsnooped | ⟨-, -, snooped⟩ := flashStore_cases cs addr w data s
  · exact unsnooped.logsNoClamp inside
  · exact ⟨[], by rw [snooped, userBytes_log, List.append_nil], by simp⟩

/-- What a window access that is served has done (R130). -/
theorem serveNext_window_cases {s t : State} {dir : Dir} {a w : Nat} {data : Word}
    (h : serveNext (.window dir a w data) s = .next t) :
    ∃ (width : Width) (cs : Cs) (addr : Word), route s a width.bytes = some (cs, addr) ∧
      (t = returnValue width (flashLoad cs addr width s).1 (flashLoad cs addr width s).2 ∨
        t = returnNone (flashStore cs addr width data s)) := by
  cases hw : widthOfNat w with
  | none =>
    have refused : serveNext (.window dir a w data) s = .refused .badWidth := by
      rw [serveNext_eq, fetch, fetchWindow, hw, serve]
    rw [refused] at h
    cases h
  | some width =>
    obtain rfl := widthOfNat_some hw
    cases routed : route s a width.bytes with
    | none =>
      rw [serveNext_window_unrouted routed] at h
      cases h
    | some p =>
      refine ⟨width, p.1, p.2, routed, ?_⟩
      cases dir with
      | read =>
        rw [serveNext_windowRead routed] at h
        cases h
        exact .inl rfl
      | write =>
        rw [serveNext_windowWrite routed] at h
        cases h
        exact .inr rfl

/-- Settles O27: a routed offset is inside its segment. -/
theorem routedOffsetsAreNeverClamped : Obligations.RoutedOffsetsAreNeverClamped := by
  refine ⟨fun s cs addr => clampToSegment_eq cs addr s, fun s t dir a w data inv served => ?_⟩
  obtain ⟨width, cs, addr, routed, rfl | rfl⟩ := serveNext_window_cases served
  · exact (flashLoad_unsnooped cs addr width s).logsNoClamp (offsetLog_of_route inv routed)
  · exact flashStore_logsNoClamp (offsetLog_of_route inv routed) width data

end Sys2Proof.Machine

/-! Proofs of the family `43_snoop.md`: one byte of a user-mode store in each state of the cursor (O29), a whole
command (O32). -/

namespace Sys2Proof.Machine

open Sys2Proof.Claims

/-! The statements' names for the table and the address width. -/

theorem ndummies_eq_dummiesOf (b : Byte) : ndummies b = dummiesOf b := by
  revert b
  decide +kernel

theorem addrWidth_eq_addressWidth (cs : Cs) (s : State) : s.addrWidth cs = addressWidth cs s := rfl

/-! One byte through the emulator, in each state of the cursor. -/

section
variable {cs : Cs} {b : Byte} {s : State}

/-- OFF (R166). -/
theorem userByte_off (index : s.snoopIndex = .off) : userByte cs b s = transferred [b] s := by
  rw [userByte_eq, snoopSends, index]
  simp only [snoopReplaces, snoopNextIndex, snoopNextDummies, Bool.false_eq_true, if_false]
  rw [← index]
  rfl

/-- START, an opcode without dummies (R161). -/
theorem userByte_plainOpcode (index : s.snoopIndex = .start) (plain : dummiesOf b = 0) :
    userByte cs b s = withCursor .off s.snoopDummies (transferred [b] s) := by
  rw [userByte_eq, snoopSends, index]
  simp only [snoopReplaces, snoopNextIndex, snoopNextDummies, ndummies_eq_dummiesOf, if_pos plain]
  rfl

/-- START, an opcode with dummies (R161). -/
theorem userByte_opcode (index : s.snoopIndex = .start) (counts : 0 < dummiesOf b) :
    userByte cs b s = withCursor (.count 1) (dummiesOf b) (transferred [b] s) := by
  rw [userByte_eq, snoopSends, index]
  simp only [snoopReplaces, snoopNextIndex, snoopNextDummies, ndummies_eq_dummiesOf, if_neg counts.ne']
  rfl

variable {k : Nat} (index : s.snoopIndex = .count k)
include index

/-- COUNT, an address byte (R164). -/
theorem userByte_address (inside : k < addressWidth cs s + 1) :
    userByte cs b s = withCursor (.count (k + 1)) s.snoopDummies (transferred [b] s) := by
  rw [userByte_eq, snoopSends, index, addrWidth_eq_addressWidth]
  simp only [snoopReplaces, snoopNextIndex, snoopNextDummies, if_pos inside, decide_eq_false inside.not_ge]
  rfl

variable (past : addressWidth cs s + 1 ≤ k)
include past

/-- COUNT past the address, with the budget spent (R165). -/
theorem userByte_spent (budget : s.snoopDummies = 0) :
    userByte cs b s = withCursor .off s.snoopDummies (transferred [b] s) := by
  rw [userByte_eq, snoopSends, index, addrWidth_eq_addressWidth]
  simp [snoopReplaces, snoopNextIndex, snoopNextDummies, past.not_gt, budget, withCursor]

/-- COUNT past the address, within the budget: the byte is replaced (R165). -/
theorem userByte_replaced (budget : 0 < s.snoopDummies) :
    userByte cs b s =
      withCursor (if s.snoopDummies ≤ 1 then .off else .count (k + 1)) (s.snoopDummies - 1)
        (transferred [dummy s] s) := by
  rw [userByte_eq, snoopSends, index, addrWidth_eq_addressWidth]
  simp [snoopReplaces, snoopNextIndex, snoopNextDummies, past, past.not_gt, budget.ne', withCursor, dummyByte_eq]

end

theorem exec_fstUser_byte {cs : Cs} {s : State} (ready : UserReady cs s) (addr data : Word) :
    exec (.fstUser cs addr .w1 data) s = .next (returnNone (userByte cs (byteAt data 0) s)) :=
  exec_fstUser_ready ready addr .w1 data

/-- Settles O29: the store is its one byte through the emulator. -/
theorem userStoreOfOneByte : Obligations.UserStoreOfOneByte := by
  intro s cs addr data ready b aw store
  have byte : store = .next (returnNone (userByte cs b s)) := exec_fstUser_byte ready addr data
  simp only [byte, exchange_eq]
  refine ⟨fun off => ?_, fun start plain => ?_, fun start counts => ?_, fun k count inside => ?_,
    fun k count past spent => ?_, fun k count past last => ?_, fun k count past more => ?_⟩
  · rw [userByte_off off]
    rfl
  · rw [userByte_plainOpcode start plain]
    rfl
  · rw [userByte_opcode start counts]
    rfl
  · rw [userByte_address count inside]
    rfl
  · rw [userByte_spent count past spent]
    rfl
  · rw [userByte_replaced count past (by omega), if_pos last.le, last]
    rfl
  · rw [userByte_replaced count past (by omega), if_neg more.not_ge]
    rfl

/-! A whole command. -/

theorem userBytes_append (cs : Cs) (l k : List Byte) (s : State) :
    userBytes cs (l ++ k) s = userBytes cs k (userBytes cs l s) := by
  induction l generalizing s with
  | nil => rfl
  | cons b l ih => exact ih (userByte cs b s)

section
variable {cs : Cs} {op : Byte} {s : State} (start : s.snoopIndex = .start)
include start

/-- The whole run is one exchange: the opcode, the address, then what the count leaves of the rest (R164, R165). -/
theorem userBytes_command {address : List Byte} (counts : 0 < dummiesOf op)
    (width : address.length = addressWidth cs s) (rest : List Byte) :
    userBytes cs (op :: address ++ rest) s =
      withCursor (if dummiesOf op ≤ rest.length then .off else .count (addressWidth cs s + 1 + rest.length))
        (dummiesOf op - rest.length)
        (transferred
          (op :: address ++ List.replicate (min (dummiesOf op) rest.length) (dummy s) ++ rest.drop (dummiesOf op))
          s) := by
  have counted : 1 + address.length = addressWidth cs s + 1 := by omega
  have afterOpcode := userByte_opcode (cs := cs) start counts
  have afterAddress := userBytes_address cs address 1 (dummiesOf op) (transferred [op] s) counted.le
  have afterRest := userBytes_dummies cs rest _ _ (transferred (op :: address) s) counts le_rfl
  calc userBytes cs (op :: address ++ rest) s
      = userBytes cs rest (userBytes cs address (userByte cs op s)) := userBytes_append cs address rest _
    _ = userBytes cs rest (withCursor (.count (addressWidth cs s + 1)) (dummiesOf op)
          (transferred (op :: address) s)) := by rw [afterOpcode, afterAddress, counted, ← transferred_cons]
    _ = _ := by
        rw [List.append_assoc, transferred_append, ← dummyByte_eq]
        exact afterRest

/-- An opcode without dummies turns the cursor off, so it goes out with all that follows it (R161, R166). -/
theorem userBytes_plainCommand (plain : dummiesOf op = 0) (rest : List Byte) :
    userBytes cs (op :: rest) s = withCursor .off s.snoopDummies (transferred (op :: rest) s) := by
  rw [userBytes, userByte_plainOpcode start plain, userBytes_off, ← transferred_cons]

end

/-- Settles O32: the stores one by one are the run of their bytes. -/
theorem commandsGetTheirDummyBytes : Obligations.CommandsGetTheirDummyBytes := by
  intro s cs addr op address rest ready start n
  refine ⟨fun counts width => ?_, fun plain => ?_⟩
  · have run := userBytes_command start counts width rest
    rw [List.cons_append] at run ⊢
    rw [userStores_ready ready, run, exchange_eq]
    rfl
  · rw [userStores_ready ready, userBytes_plainCommand start plain, exchange_eq]
    rfl

end Sys2Proof.Machine

/-! Proofs of the family `44_dma.md`: the stop (O35), the gate and the completion of a start (O36, O37, O38), the
start of length zero (O40), calibration and failure injection (O43, O44), and the loops over an external flash
side, to their end (O41, O45, O46) and stopped early (O42, O47). -/

namespace Sys2Proof.Machine

open Sys2Proof.Claims

/-! The stop (R176). -/

theorem dmaStopValue_eq_ofNat (up : BitVec 31) : dmaStopValue up = BitVec.ofNat 32 (2 * up.toNat) := by
  apply BitVec.eq_of_toNat_eq
  have bound := up.isLt
  simp only [dmaStopValue, BitVec.toNat_append, BitVec.toNat_ofNat, Nat.shiftLeft_eq, Nat.zero_mod, Nat.or_zero]
  omega

/-- Settles O35: the stop, its value and its mask written as the statement writes them. -/
theorem dmaStop : Obligations.DmaStop := by
  intro s up present
  have row : exec (.dmaStop up) s = ifDma (dmaStopValue up) s (.next (returnNone (stopDma (dmaStopValue up) s))) :=
    rfl
  rw [row, ifDma, if_pos present, dmaStopValue_eq_ofNat]
  rfl

/-! A start: the gate (R177), the length (log 14), the completion (R190). -/

/-- Settles O36: the gate is tested before DMA_LEN. -/
theorem dmaStartWhileInProgress : Obligations.DmaStartWhileInProgress := by
  intro s i value row present enable status
  have busy : s.dmaInProgress = true := by rw [State.dmaInProgress, enable, status]; rfl
  rw [exec_startRow row, ifDma, if_pos present, startDma, if_pos busy]
  rfl

/-- Settles O38: past the gate DMA_LEN is tested, and the invariant has its low bits clear. -/
theorem dmaLengthFault : Obligations.DmaLengthFault := by
  refine ⟨fun s i value row gate odd => ?_, fun s inv => inv.dmaLen_words⟩
  rw [exec_startRow row, ifDma, if_pos gate.present, startDma, if_neg (by simp [not_dmaInProgress_of_open gate]),
    if_pos odd]

theorem startBody_checksum {value : Word} (cksum : value.getLsbD 2 = true) (s : State) :
    startBody value s = checksumRun (if value.getLsbD 3 then calibrate s else s) := by
  rw [startBody, if_pos cksum]
  split <;> rfl

theorem startBody_transfer {value : Word} (cksum : value.getLsbD 2 = false) : startBody value = transferRun := by
  rw [startBody, if_neg (ne_true_of_eq_false cksum)]

/-- What a start does besides calibration is what the engine can touch (R178, R179). -/
theorem startBody_touches (value : Word) (s : State) :
    DmaTouches (if value.getLsbD 2 && value.getLsbD 3 then calibrate s else s) (startBody value s) := by
  cases cksum : value.getLsbD 2 with
  | true =>
    rw [startBody_checksum cksum, Bool.true_and]
    exact checksumRun_touches _
  | false =>
    rw [startBody_transfer cksum]
    exact transferRun_touches s

theorem startBody_touches_uncalibrated {value : Word} (h : value.getLsbD 2 = false ∨ value.getLsbD 3 = false)
    (s : State) : DmaTouches s (startBody value s) := by
  have touches := startBody_touches value s
  rwa [if_neg (by rcases h with h | h <;> rw [h] <;> simp)] at touches

/-- The registers and parameters that neither calibration nor the engine writes. -/
structure KeepsSetup (s t : State) : Prop where
  conf : t.conf = s.conf
  ceCtrl : t.ceCtrl = s.ceCtrl
  segAddr : t.segAddr = s.segAddr
  region : t.region = s.region
  dummyData : t.dummyData = s.dummyData
  variant : t.variant = s.variant
  binding : t.binding = s.binding
  pending : t.pending = s.pending
  saved : t.saved = s.saved

theorem DmaTouches.keepsSetup {s t : State} (h : DmaTouches s t) : KeepsSetup s t :=
  ⟨h.conf, h.ceCtrl, h.segAddr, h.region, h.dummyData, h.variant, h.binding, h.pending, h.saved⟩

theorem KeepsSetup.trans {s t u : State} (h : KeepsSetup s t) (k : KeepsSetup t u) : KeepsSetup s u :=
  ⟨k.conf.trans h.conf, k.ceCtrl.trans h.ceCtrl, k.segAddr.trans h.segAddr, k.region.trans h.region,
    k.dummyData.trans h.dummyData, k.variant.trans h.variant, k.binding.trans h.binding, k.pending.trans h.pending,
    k.saved.trans h.saved⟩

theorem calibrate_keepsSetup (s : State) : KeepsSetup s (calibrate s) := by
  rw [calibrate_eq]
  exact ⟨rfl, rfl, rfl, rfl, rfl, rfl, rfl, rfl, rfl⟩

theorem startBody_keepsSetup (value : Word) (s : State) : KeepsSetup s (startBody value s) := by
  have engine := (startBody_touches value s).keepsSetup
  split at engine
  · exact (calibrate_keepsSetup s).trans engine
  · exact engine

/-- Settles O37: the start is its body between the store and the completion; the body leaves the interrupt
registers and the setup alone, and without calibration TIMINGS and CTRL too. -/
theorem dmaStartsComplete : Obligations.DmaStartsComplete := by
  intro s i value row gate words
  let stored : State := { s with dmaCtrl := value }
  have interrupt := startBody_keepsInterrupt value stored
  have setup := startBody_keepsSetup value stored
  refine ⟨completed (startBody value stored), ?_, interrupt.dmaCtrl, ?_, ?_, rfl, ?_, setup.conf, setup.ceCtrl,
    setup.segAddr, setup.region, setup.dummyData, setup.variant, setup.binding, setup.pending, setup.saved,
    fun uncalibrated => ?_⟩
  · rw [exec_startRow row, startDma_open gate words]
  · exact congrArg (· ||| 0x800#32) interrupt.intrCtrl
  · show ((startBody value stored).irq || (startBody value stored).intrCtrl.getLsbD 3) = _
    rw [interrupt.irq, interrupt.intrCtrl]
  · have status : (completed (startBody value stored)).intrCtrl.getLsbD 11 = true := setDmaStatus_status _
    simp [State.dmaInProgress, status]
  · have touches := startBody_touches_uncalibrated uncalibrated stored
    exact ⟨touches.timings, touches.ctrl⟩

/-! Each start that passes the gate, by what it runs between the store and the completion (R178, R179). -/

section
variable {s t : State} (gate : DmaOpen s) (words : s.dmaLen.toNat % 4 = 0)
include gate words

theorem exec_dmaCksum_of_run {wr : Bool} {up : BitVec 28}
    (run : checksumRun { s with dmaCtrl := dmaStartValue false true wr up } = t) :
    exec (.dmaCksum wr up) s = .next (completed t) := by
  subst run
  exact startDma_open gate words _ checksumRun

theorem exec_dmaCksumCal_of_run {wr : Bool} {up : BitVec 28}
    (run : checksumRun (calibrate { s with dmaCtrl := dmaStartValue true true wr up }) = t) :
    exec (.dmaCksumCal wr up) s = .next (completed t) := by
  subst run
  exact startDma_open gate words _ fun u => checksumRun (calibrate u)

theorem exec_dmaRd_of_run {calib : Bool} {up : BitVec 28}
    (run : transferRun { s with dmaCtrl := dmaStartValue calib false false up } = t) :
    exec (.dmaRd calib up) s = .next (completed t) := by
  subst run
  exact startDma_open gate words _ transferRun

theorem exec_dmaWr_of_run {calib : Bool} {up : BitVec 28}
    (run : transferRun { s with dmaCtrl := dmaStartValue calib false true up } = t) :
    exec (.dmaWr calib up) s = .next (completed t) := by
  subst run
  exact startDma_open gate words _ transferRun

end

/-! Calibration and failure injection in the arithmetic of the statements (R71, R72, R182, R183, R188). -/

theorem freqField_toNat (value : Word) : (freqField value).toNat = value.toNat / 16 % 16 := by
  simp [freqField, BitVec.extractLsb'_toNat, Nat.shiftRight_eq_div_pow]

theorem delayField_toNat (value : Word) : (delayField value).toNat = delayOf value := by
  simp [delayField, delayOf, BitVec.extractLsb'_toNat, Nat.shiftRight_eq_div_pow]

theorem ratio_freqField (value : Word) : ratio (freqField value) = ratioOf value := by
  rw [ratio_formula, freqField_toNat]
  rfl

theorem unreliable_eq_unreliableSetting (value : Word) :
    unreliable (ratio (freqField value)) (delayField value) = unreliableSetting value := by
  have bounds : 1 ≤ ratioOf value ∧ ratioOf value ≤ 16 := by
    unfold ratioOf
    dsimp only
    split <;> omega
  obtain ⟨-, -, byRatio⟩ := ratioTables
  rw [ratio_freqField, byRatio _ _ bounds.1 bounds.2, delayField_toNat]
  rfl

theorem injectFailure_eq (s : State) :
    injectFailure s = { s with dmaChecksum := injected s.variant s.dmaCtrl s.dmaChecksum } := by
  unfold injectFailure injected
  rw [unreliable_eq_unreliableSetting]
  split <;> rfl

theorem ofNat_shiftLeft (n i : Nat) : BitVec.ofNat 32 n <<< i = BitVec.ofNat 32 (n * 2 ^ i) := by
  apply BitVec.eq_of_toNat_eq
  simp only [BitVec.toNat_shiftLeft, BitVec.toNat_ofNat, Nat.shiftLeft_eq, Nat.mod_mul_mod]

theorem setClkFreq_eq_tunedCtrl0 (value ctrl0 : Word) : setClkFreq ctrl0 (ratioOf value) = tunedCtrl0 value ctrl0 := by
  rw [setClkFreq, ofNat_shiftLeft]
  rfl

theorem setDelay_eq (value timings : Word) (r : Nat) :
    setDelay timings r (delayField value) =
      (timings &&& ~~~BitVec.ofNat 32 (15 * 2 ^ (4 * (r - 1)))) |||
        BitVec.ofNat 32 (delayOf value * 2 ^ (4 * (r - 1))) := by
  have delay : (delayField value).setWidth 32 = BitVec.ofNat 32 (delayOf value) := by
    rw [← delayField_toNat, ← BitVec.ofNat_toNat]
  rw [setDelay, delay, ofNat_shiftLeft, ofNat_shiftLeft]

theorem calibrate_eq_tuned (s : State) : calibrate s = tuned s.dmaCtrl s := by
  rw [calibrate_eq, ratio_freqField, setClkFreq_eq_tunedCtrl0, setDelay_eq]
  rfl

/-! A start of length zero (R184). -/

theorem dmaSteps_of_words {s : State} {n : Nat} (h : s.dmaLen.toNat = 4 * n) : dmaSteps s = n := by
  rw [dmaSteps, h, Nat.mul_div_cancel_left n (by decide)]

theorem checksumRun_empty {s : State} (empty : s.dmaLen = 0#32) :
    checksumRun s = { s with dmaChecksum := injected s.variant s.dmaCtrl s.dmaChecksum } := by
  have steps : dmaSteps s = 0 := dmaSteps_of_words (by rw [empty]; rfl)
  rw [← injectFailure_eq]
  simp only [checksumRun, steps, dmaLoop, if_true]

theorem transferRun_empty {s : State} (empty : s.dmaLen = 0#32) : transferRun s = s := by
  have steps : dmaSteps s = 0 := dmaSteps_of_words (by rw [empty]; rfl)
  simp only [transferRun, steps, dmaLoop, ite_self]

/-- Settles O40: a loop of no steps leaves the store, calibration, injection and completion. -/
theorem dmaOfZeroLength : Obligations.DmaOfZeroLength := by
  intro s wr calib up gate empty plain cal
  have words : s.dmaLen.toNat % 4 = 0 := by rw [empty]; rfl
  refine ⟨exec_dmaCksum_of_run gate words (checksumRun_empty empty),
    exec_dmaCksumCal_of_run gate words ?_, exec_dmaRd_of_run gate words (transferRun_empty empty),
    exec_dmaWr_of_run gate words (transferRun_empty empty)⟩
  rw [calibrate_eq_tuned]
  exact checksumRun_empty (s := tuned cal { s with dmaCtrl := cal }) empty

/-! Calibration (R180 to R183). -/

theorem tunedCtrl0_sameView (value : Word) (s : State) :
    SameView (s.ctrl.set .cs0 (tunedCtrl0 value (s.ctrl.get .cs0))) s := by
  rw [← setClkFreq_eq_tunedCtrl0]
  exact setClkFreq_sameView s (ratioOf value)

/-- Settles O43: the checksum run does not read what calibration writes, and both values hold one setting. -/
theorem calibrationOnlyTunes : Obligations.CalibrationOnlyTunes := by
  intro s wr up gate words value
  let plain := dmaStartValue false true wr up
  let stored : State := { s with dmaCtrl := plain }
  let ctrl := s.ctrl.set .cs0 (tunedCtrl0 value (s.ctrl.get .cs0))
  let timings := tunedTimings value s.timings
  have touches : DmaTouches stored (checksumRun stored) := checksumRun_touches stored
  have setting := dmaStartValue_setting true true wr false true wr up
  have calibrated : calibrate { s with dmaCtrl := value } = withTuning ctrl timings value stored :=
    calibrate_eq_tuned _
  have run : checksumRun (withTuning ctrl timings value stored) =
      withTuning ctrl timings value (checksumRun stored) :=
    checksumRun_withTuning _ _ _ _ (tunedCtrl0_sameView value stored) setting.1 setting.2
  refine ⟨completed (checksumRun stored), exec_dmaCksum_of_run gate words rfl, touches.timings, touches.ctrl,
    (exec_dmaCksumCal_of_run gate words ((congrArg checksumRun calibrated).trans run)).trans ?_⟩
  rw [tuned]
  simp only [completed, withTuning, touches.timings, touches.ctrl]
  rfl

/-! Failure injection (R188). -/

/-- A loop that stopped early has steps left (R187). -/
theorem dmaLoop_stopped_moved {body : State → Bool × State} {c : Nat}
    (h : ∀ s, Moved c (if (body s).1 then 1 else 0) s (body s).2) (n : Nat) (s : State)
    (stopped : (dmaLoop body n s).1 = false) : ∃ k, k < n ∧ Moved c k s (dmaLoop body n s).2 := by
  induction n generalizing s with
  | zero => cases stopped
  | succ n ih =>
    have first := h s
    simp only [dmaLoop] at stopped ⊢
    cases done : (body s).1 with
    | false =>
      rw [done] at first
      exact ⟨0, n.succ_pos, first⟩
    | true =>
      rw [done] at first stopped
      obtain ⟨k, hk, rest⟩ := ih (body s).2 stopped
      exact ⟨1 + k, by omega, first.trans rest⟩

/-- A checksum loop that leaves DMA_LEN zero ran to its end, since one that stopped early has words left. -/
theorem checksumRun_to_end {s : State} (words : s.dmaLen.toNat % 4 = 0) (empty : (checksumRun s).dmaLen = 0#32) :
    checksumRun s = injectFailure (dmaLoop checksumStep (dmaSteps s) s).2 := by
  cases done : (dmaLoop checksumStep (dmaSteps s) s).1 with
  | true => simp only [checksumRun, done, if_true]
  | false =>
    obtain ⟨k, hk, moved⟩ := dmaLoop_stopped_moved checksumStep_moved (dmaSteps s) s done
    have run : checksumRun s = (dmaLoop checksumStep (dmaSteps s) s).2 := by
      simp only [checksumRun, done, Bool.false_eq_true, if_false]
    have left := moved.dmaLen_toNat hk.le
    rw [← run, empty] at left
    simp only [dmaSteps] at hk
    simp only [BitVec.toNat_ofNat, Nat.zero_mod] at left
    omega

theorem checksumRun_sentinel {s : State} (inject : s.variant.injectFailure = true)
    (setting : unreliableSetting s.dmaCtrl = true) (words : s.dmaLen.toNat % 4 = 0)
    (empty : (checksumRun s).dmaLen = 0#32) : (checksumRun s).dmaChecksum = 0x0BADC0DE#32 := by
  have loop := dmaLoop_touches checksumStep_touches (dmaSteps s) s
  rw [checksumRun_to_end words empty, injectFailure_eq]
  show injected _ _ _ = _
  rw [injected, loop.variant, loop.dmaCtrl, if_pos ⟨inject, setting⟩]

/-- A checksum DMA with or without calibration, on the value stored. -/
theorem checksumRow (wr calib : Bool) (up : BitVec 28) :
    StartRow (if calib then .dmaCksumCal wr up else .dmaCksum wr up) (dmaStartValue calib true wr up) := by
  cases calib with
  | false => exact .cksum wr up
  | true => exact .cksumCal wr up

theorem calibrate_dmaLen (s : State) : (calibrate s).dmaLen = s.dmaLen := by rw [calibrate_eq]

theorem startBody_sentinel {value : Word} {s : State} (cksum : value.getLsbD 2 = true)
    (inject : s.variant.injectFailure = true) (setting : unreliableSetting s.dmaCtrl = true)
    (words : s.dmaLen.toNat % 4 = 0) (empty : (startBody value s).dmaLen = 0#32) :
    (startBody value s).dmaChecksum = 0x0BADC0DE#32 := by
  rw [startBody_checksum cksum] at empty ⊢
  split_ifs at empty ⊢
  · refine checksumRun_sentinel ?_ ?_ ?_ empty
    · rwa [(calibrate_keepsSetup s).variant]
    · rwa [(calibrate_keepsInterrupt s).dmaCtrl]
    · rwa [calibrate_dmaLen]
  · exact checksumRun_sentinel inject setting words empty

/-- Settles O44: a checksum DMA that ends with DMA_LEN zero ran to its end, calibrated or not. -/
theorem unreliableSettingsReadTheSentinel : Obligations.UnreliableSettingsReadTheSentinel := by
  intro s t wr calib up gate inject value setting run empty
  have cksum : value.getLsbD 2 = true := by rw [getLsbD_dmaStartValue]; rfl
  rw [exec_startRow (checksumRow wr calib up)] at run
  obtain ⟨-, start⟩ | ⟨absent, -⟩ := ifDma_cases run
  · obtain ⟨busy, -⟩ | ⟨-, words, rfl⟩ := startDma_cases start
    · exact absurd busy (by simp [not_dmaInProgress_of_open gate])
    · exact startBody_sentinel (s := { s with dmaCtrl := value }) cksum inject setting words empty
  · simp [gate.present] at absent

/-! The loops, by their steps: a step that was done is taken off the count, one that fails is the last (R187). -/

theorem dmaLoop_succ_done {body : State → Bool × State} {s t : State} (h : body s = (true, t)) (n : Nat) :
    dmaLoop body (n + 1) s = dmaLoop body n t := by
  simp only [dmaLoop, h, if_true]

theorem dmaLoop_succ_fails {body : State → Bool × State} {s t : State} (h : body s = (false, t)) (n : Nat) :
    dmaLoop body (n + 1) s = (false, t) := by
  simp only [dmaLoop, h, Bool.false_eq_true, if_false]

theorem checksumStep_done {s t : State} {w : Word} (read : flashRead32 s.dmaFlashAddr s = (some w, t)) :
    checksumStep s = (true, checksumAdvance w t) := by
  simp only [checksumStep, read]

theorem checksumStep_fails {s t : State} (read : flashRead32 s.dmaFlashAddr s = (none, t)) :
    checksumStep s = (false, addLog [.dmaFlashReadFail s.dmaFlashAddr] t) := by
  simp only [checksumStep, read]

theorem readStep_done {s t u : State} {w : Word} (read : flashRead32 s.dmaFlashAddr s = (some w, t))
    (write : dramWrite32 s.dmaDramAddr w t = (true, u)) : readStep s = (true, transferAdvance w u) := by
  simp only [readStep, read, write, if_true]

theorem readStep_read_fails {s t : State} (read : flashRead32 s.dmaFlashAddr s = (none, t)) :
    readStep s = (false, addLog [.dmaFlashReadFail s.dmaFlashAddr] t) := by
  simp only [readStep, read]

theorem readStep_write_fails {s t u : State} {w : Word} (read : flashRead32 s.dmaFlashAddr s = (some w, t))
    (write : dramWrite32 s.dmaDramAddr w t = (false, u)) :
    readStep s = (false, addLog [.dmaDramWriteFail s.dmaDramAddr] u) := by
  simp only [readStep, read, write, Bool.false_eq_true, if_false]

theorem writeStep_done {s t u : State} {w : Word} (read : dramRead32 s.dmaDramAddr s = (some w, t))
    (write : flashWrite32 s.dmaFlashAddr w t = (true, u)) : writeStep s = (true, transferAdvance w u) := by
  simp only [writeStep, read, write, if_true]

theorem writeStep_read_fails {s t : State} (read : dramRead32 s.dmaDramAddr s = (none, t)) :
    writeStep s = (false, addLog [.dmaDramReadFail s.dmaDramAddr] t) := by
  simp only [writeStep, read]

theorem writeStep_write_fails {s t u : State} {w : Word} (read : dramRead32 s.dmaDramAddr s = (some w, t))
    (write : flashWrite32 s.dmaFlashAddr w t = (false, u)) :
    writeStep s = (false, addLog [.dmaFlashWriteFail s.dmaFlashAddr] u) := by
  simp only [writeStep, read, write, Bool.false_eq_true, if_false]

/-! The answers of the two sides (R47, R59). -/

/-- The state in which an external flash side has answered a read. -/
def flashAnswered (a : Word) (r : Option Word) (more : List (Option Word)) (s : State) : State :=
  { s with flashReplies := more, bus := s.bus ++ [.flashRead a r] }

theorem flashRead32_external_reply {s : State} {a : Word} {r : Option Word} {more : List (Option Word)}
    (external : s.binding = .external) (aligned : a.toNat % 4 = 0) (reply : s.flashReplies = r :: more) :
    flashRead32 a s = (r, flashAnswered a r more s) := by
  rw [flashRead32_external external, externalFlashRead32, if_neg (not_not.mpr aligned), nextFlashReply, reply]
  rfl

theorem flashRead32_external_misaligned {s : State} {a : Word} (external : s.binding = .external)
    (misaligned : a.toNat % 4 ≠ 0) : flashRead32 a s = (none, addBus [.flashRead a none] s) := by
  rw [flashRead32_external external, externalFlashRead32, if_pos misaligned]

theorem dramRead32_fail {a : Word} {s : State} {more : List DramReply} (aligned : a.toNat % 4 = 0)
    (reply : s.dramReplies = .fail :: more) :
    dramRead32 a s = (none, addBus [.dramRead a none] { s with dramReplies := more }) := by
  rw [dramRead32, if_neg (not_not.mpr aligned), nextDramReply, reply]

theorem dramWrite32_fail {a w : Word} {s : State} {more : List DramReply} (aligned : a.toNat % 4 = 0)
    (reply : s.dramReplies = .fail :: more) :
    dramWrite32 a w s = (false, addBus [.dramWrite a w false] { s with dramReplies := more }) := by
  rw [dramWrite32, if_neg (not_not.mpr aligned), nextDramReply, reply]

/-! The cursors as numbers: they stay aligned, and inside the buffer they do not wrap. -/

theorem inBytes_succ (n : Nat) : inBytes (n + 1) = 4#32 + inBytes n := by
  rw [inBytes, Nat.mul_succ, Nat.add_comm, BitVec.ofNat_add]
  rfl

theorem inBytes_eq {x : Word} {n : Nat} (h : x.toNat = 4 * n) : inBytes n = x := by
  rw [inBytes, ← h, BitVec.ofNat_toNat, BitVec.setWidth_eq]

theorem add_four_aligned {a : Word} (h : a.toNat % 4 = 0) : (a + 4#32).toNat % 4 = 0 := by
  simp only [BitVec.toNat_add, BitVec.toNat_ofNat]
  omega

theorem add_four_fits {a : Word} {n : Nat} (h : a.toNat + 4 * (n + 1) ≤ 2 ^ 32) :
    (a + 4#32).toNat + 4 * n ≤ 2 ^ 32 := by
  simp only [BitVec.toNat_add, BitVec.toNat_ofNat]
  omega

theorem add_four_toNat {a : Word} (h : a.toNat + 4 < 2 ^ 32) : (a + 4#32).toNat = a.toNat + 4 := by
  simp only [BitVec.toNat_add, BitVec.toNat_ofNat]
  omega

/-! The checksum loop over an external flash side (R178, R44). -/

/-- The state after the words were read and added. -/
def checksummed (ws : List Word) (more : List (Option Word)) (s : State) : State :=
  { s with
    dmaChecksum := s.dmaChecksum + sumWords ws
    dmaFlashAddr := s.dmaFlashAddr + inBytes ws.length
    dmaLen := s.dmaLen - inBytes ws.length
    flashReplies := more
    bus := s.bus ++ readEvents s.dmaFlashAddr ws }

theorem checksummed_nil (s : State) : checksummed [] s.flashReplies s = s := by
  simp [checksummed, sumWords, inBytes, readEvents]

theorem checksummed_cons (w : Word) (ws : List Word) (answers more : List (Option Word)) (s : State) :
    checksummed ws more (checksumAdvance w (flashAnswered s.dmaFlashAddr (some w) answers s)) =
      checksummed (w :: ws) more s := by
  simp [checksummed, flashAnswered, sumWords, inBytes_succ, readEvents, BitVec.add_assoc, sub_sub]

/-- As many steps as there are words answered, then the rest of the loop. -/
theorem dmaLoop_checksum {ws : List Word} {more : List (Option Word)} {s : State} (external : s.binding = .external)
    (aligned : s.dmaFlashAddr.toNat % 4 = 0) (replies : s.flashReplies = ws.map some ++ more) (n : Nat) :
    dmaLoop checksumStep (ws.length + n) s = dmaLoop checksumStep n (checksummed ws more s) := by
  induction ws generalizing s with
  | nil =>
    rw [List.map_nil, List.nil_append] at replies
    rw [← replies, checksummed_nil, List.length_nil, Nat.zero_add]
  | cons w ws ih =>
    have step := checksumStep_done (flashRead32_external_reply external aligned replies)
    have rest := ih (s := checksumAdvance w (flashAnswered s.dmaFlashAddr (some w) (ws.map some ++ more) s)) external
      (add_four_aligned aligned) rfl
    rw [checksummed_cons] at rest
    rw [List.length_cons, Nat.add_right_comm, dmaLoop_succ_done step, ← rest]
    rfl

theorem checksummed_aligned {s : State} (aligned : s.dmaFlashAddr.toNat % 4 = 0) (ws : List Word)
    (more : List (Option Word)) : (checksummed ws more s).dmaFlashAddr.toNat % 4 = 0 := by
  simp only [checksummed, inBytes, BitVec.toNat_add, BitVec.toNat_ofNat]
  omega

theorem checksumRun_words {ws : List Word} {more : List (Option Word)} {s : State} (external : s.binding = .external)
    (aligned : s.dmaFlashAddr.toNat % 4 = 0) (length : s.dmaLen.toNat = 4 * ws.length)
    (replies : s.flashReplies = ws.map some ++ more) :
    checksumRun s = injectFailure (checksummed ws more s) := by
  have loop := dmaLoop_checksum external aligned replies 0
  rw [Nat.add_zero] at loop
  simp only [checksumRun, dmaSteps_of_words length, loop, dmaLoop, if_true]

theorem checksumRun_stops {ws : List Word} {more : List (Option Word)} {s : State} (external : s.binding = .external)
    (aligned : s.dmaFlashAddr.toNat % 4 = 0) (left : ws.length < dmaSteps s)
    (replies : s.flashReplies = ws.map some ++ none :: more) :
    checksumRun s =
      addLog [.dmaFlashReadFail (s.dmaFlashAddr + inBytes ws.length)]
        (flashAnswered (s.dmaFlashAddr + inBytes ws.length) none more (checksummed ws (none :: more) s)) := by
  obtain ⟨n, steps⟩ : ∃ n, dmaSteps s = ws.length + (n + 1) := Nat.exists_eq_add_of_lt left
  have last := checksumStep_fails
    (flashRead32_external_reply (s := checksummed ws (none :: more) s) external
      (checksummed_aligned aligned ws _) rfl)
  simp only [checksumRun, steps, dmaLoop_checksum external aligned replies, dmaLoop_succ_fails last,
    Bool.false_eq_true, if_false]
  rfl

/-- Settles O41: the loop reads the words answered, all of DMA_LEN. -/
theorem checksumDmaSumsTheWords : Obligations.ChecksumDmaSumsTheWords := by
  intro s wr up ws more gate external aligned length replies value
  refine exec_dmaCksum_of_run gate (by omega) ?_
  rw [checksumRun_words (s := { s with dmaCtrl := value }) external aligned length replies, injectFailure_eq,
    checksummed]
  simp only [inBytes_eq length, BitVec.sub_self]

/-- Settles O42: the loop reads the words answered, and its next step fails. -/
theorem checksumDmaStopsEarly : Obligations.ChecksumDmaStopsEarly := by
  intro s wr up ws more gate external aligned words left replies at_
  refine exec_dmaCksum_of_run gate words ?_
  have steps : ws.length < dmaSteps s := by unfold dmaSteps; omega
  rw [checksumRun_stops (s := { s with dmaCtrl := dmaStartValue false true wr up }) external aligned steps replies]
  rfl

/-! The transfer loops, whose steps move both cursors (R179). -/

/-- The state after the words were moved: the registers of the step. -/
def transferAdvances (ws : List Word) (s : State) : State :=
  { s with
    dmaFlashAddr := s.dmaFlashAddr + inBytes ws.length
    dmaDramAddr := s.dmaDramAddr + inBytes ws.length
    dmaLen := s.dmaLen - inBytes ws.length
    dmaChecksum := s.dmaChecksum + sumWords ws }

theorem transferAdvances_nil (s : State) : transferAdvances [] s = s := by
  simp [transferAdvances, sumWords, inBytes]

theorem transferAdvances_cons (w : Word) (ws : List Word) (s : State) :
    transferAdvances ws (transferAdvance w s) = transferAdvances (w :: ws) s := by
  simp [transferAdvances, transferAdvance, sumWords, inBytes_succ, BitVec.add_assoc, sub_sub]

theorem transferRun_read {s : State} {n : Nat} (toDram : s.dmaCtrl.getLsbD 1 = false) (steps : dmaSteps s = n) :
    transferRun s = (dmaLoop readStep n s).2 := by
  rw [transferRun, if_neg (ne_true_of_eq_false toDram), steps]

theorem transferRun_write {s : State} {n : Nat} (toFlash : s.dmaCtrl.getLsbD 1 = true) (steps : dmaSteps s = n) :
    transferRun s = (dmaLoop writeStep n s).2 := by
  rw [transferRun, if_pos toFlash, steps]

theorem toDram_of_rd (calib : Bool) (up : BitVec 28) : (dmaStartValue calib false false up).getLsbD 1 = false := by
  rw [getLsbD_dmaStartValue]
  rfl

theorem toFlash_of_wr (calib : Bool) (up : BitVec 28) : (dmaStartValue calib false true up).getLsbD 1 = true := by
  rw [getLsbD_dmaStartValue]
  rfl

/-! From an external flash side to DRAM (R185). -/

/-- The state after the words were read from the flash side and stored. -/
def movedToDram (ws : List Word) (more : List (Option Word)) (moreDram : List DramReply) (s : State) : State :=
  { transferAdvances ws s with
    dram := Memory.writeWords s.dram s.dmaDramAddr.toNat ws
    flashReplies := more
    dramReplies := moreDram
    bus := s.bus ++ toDramEvents s.dmaFlashAddr s.dmaDramAddr ws }

/-- The words after the first are stored from the next cursor on, which wraps only when there are none. -/
theorem Memory.writeWords_next (m : Memory) {a : Word} {ws : List Word}
    (fits : a.toNat + 4 * (ws.length + 1) ≤ 2 ^ 32) :
    Memory.writeWords m (a + 4#32).toNat ws = Memory.writeWords m (a.toNat + 4) ws := by
  cases ws with
  | nil => rfl
  | cons w ws => rw [add_four_toNat (by simp only [List.length_cons] at fits; omega)]

/-- The state after the first word was read from the flash side and stored. -/
def wordToDram (w : Word) (more : List (Option Word)) (moreDram : List DramReply) (s : State) : State :=
  { flashAnswered s.dmaFlashAddr (some w) more s with
    dramReplies := moreDram
    dram := s.dram.writeWord s.dmaDramAddr.toNat w
    bus := s.bus ++ [.flashRead s.dmaFlashAddr (some w), .dramWrite s.dmaDramAddr w true] }

theorem readStep_word {s : State} {w : Word} {more : List (Option Word)} {moreDram : List DramReply}
    (external : s.binding = .external) (flashAligned : s.dmaFlashAddr.toNat % 4 = 0)
    (dramAligned : s.dmaDramAddr.toNat % 4 = 0) (reply : s.flashReplies = some w :: more)
    (dramReply : s.dramReplies = .plain :: moreDram) :
    readStep s = (true, transferAdvance w (wordToDram w more moreDram s)) := by
  rw [readStep_done (flashRead32_external_reply external flashAligned reply)
    (dramWrite32_plain dramAligned (s := flashAnswered s.dmaFlashAddr (some w) more s) dramReply)]
  simp [wordToDram, flashAnswered]

theorem movedToDram_cons (w : Word) (ws : List Word) (answers more : List (Option Word))
    (dramAnswers moreDram : List DramReply) {s : State} (fits : s.dmaDramAddr.toNat + 4 * (ws.length + 1) ≤ 2 ^ 32) :
    movedToDram ws more moreDram (transferAdvance w (wordToDram w answers dramAnswers s)) =
      movedToDram (w :: ws) more moreDram s := by
  rw [movedToDram, transferAdvances_cons, transferAdvance_dmaDramAddr]
  simp only [wordToDram, flashAnswered, Memory.writeWords_next _ fits]
  simp [movedToDram, transferAdvances, transferAdvance, Memory.writeWords, toDramEvents]

theorem dmaLoop_read {ws : List Word} {more : List (Option Word)} {moreDram : List DramReply} {s : State}
    (external : s.binding = .external) (flashAligned : s.dmaFlashAddr.toNat % 4 = 0)
    (dramAligned : s.dmaDramAddr.toNat % 4 = 0) (fits : s.dmaDramAddr.toNat + 4 * ws.length ≤ 2 ^ 32)
    (replies : s.flashReplies = ws.map some ++ more)
    (dramReplies : s.dramReplies = List.replicate ws.length .plain ++ moreDram) :
    dmaLoop readStep ws.length s = (true, movedToDram ws more moreDram s) := by
  induction ws generalizing s with
  | nil =>
    rw [movedToDram, transferAdvances_nil]
    rw [List.map_nil, List.nil_append] at replies
    rw [List.length_nil, List.replicate_zero, List.nil_append] at dramReplies
    simp [dmaLoop, Memory.writeWords, toDramEvents, ← replies, ← dramReplies]
  | cons w ws ih =>
    have step := readStep_word external flashAligned dramAligned replies dramReplies
    have rest := ih
      (s := transferAdvance w
        (wordToDram w (ws.map some ++ more) (List.replicate ws.length .plain ++ moreDram) s))
      external (add_four_aligned flashAligned) (add_four_aligned dramAligned) (add_four_fits fits) rfl rfl
    rw [movedToDram_cons _ _ _ _ _ _ fits] at rest
    rw [List.length_cons, dmaLoop_succ_done step, ← rest]
    rfl

theorem transferRun_toDram {ws : List Word} {more : List (Option Word)} {moreDram : List DramReply} {s : State}
    (toDram : s.dmaCtrl.getLsbD 1 = false) (external : s.binding = .external)
    (flashAligned : s.dmaFlashAddr.toNat % 4 = 0) (dramAligned : s.dmaDramAddr.toNat % 4 = 0)
    (length : s.dmaLen.toNat = 4 * ws.length) (fits : s.dmaDramAddr.toNat + s.dmaLen.toNat ≤ 2 ^ 32)
    (replies : s.flashReplies = ws.map some ++ more)
    (dramReplies : s.dramReplies = List.replicate ws.length .plain ++ moreDram) :
    transferRun s = movedToDram ws more moreDram s := by
  rw [transferRun_read toDram (dmaSteps_of_words length),
    dmaLoop_read external flashAligned dramAligned (length ▸ fits) replies dramReplies]

/-- Settles O45: the memory is the old one with the words stored one behind the other. -/
theorem dmaFromFlashToDram : Obligations.DmaFromFlashToDram := by
  intro s calib up ws more moreDram gate external canonical flashAligned dramAligned length fits replies dramReplies
  refine ⟨Memory.writeWords s.dram s.dmaDramAddr.toNat ws,
    fun k hk => Memory.readWord_writeWords _ _ ws canonical k hk,
    fun x outside => Memory.readByte_writeWords_outside _ _ ws canonical x outside,
    exec_dmaRd_of_run gate (by omega) ?_⟩
  rw [transferRun_toDram (s := { s with dmaCtrl := dmaStartValue calib false false up }) (toDram_of_rd calib up)
    external flashAligned dramAligned length fits replies dramReplies]
  simp only [movedToDram, transferAdvances, inBytes_eq length, BitVec.sub_self]

/-! From DRAM to an external flash side (R185). -/

/-- The `n` words of a memory from an address on. -/
def Memory.readWords (m : Memory) (a n : Nat) : List Word := (List.range n).map fun k => m.readWord (a + 4 * k)

/-- The words after the first are read from the next cursor on, which wraps only when there are none. -/
theorem Memory.readWords_succ (m : Memory) {a : Word} {n : Nat} (fits : a.toNat + 4 * (n + 1) ≤ 2 ^ 32) :
    m.readWords a.toNat (n + 1) = m.readWord a.toNat :: m.readWords (a + 4#32).toNat n := by
  simp only [Memory.readWords, List.range_succ_eq_map, List.map_cons, List.map_map, Nat.mul_zero, Nat.add_zero]
  refine congrArg _ (List.map_congr_left fun k hk => ?_)
  have inside := List.mem_range.mp hk
  rw [add_four_toNat (by omega), Function.comp_apply, Nat.mul_succ, Nat.add_right_comm, Nat.add_assoc]

theorem Memory.length_readWords (m : Memory) (a n : Nat) : (m.readWords a n).length = n := by
  rw [Memory.readWords, List.length_map, List.length_range]

/-- The state after the words were read from the memory and taken by the flash side. -/
def movedToFlash (ws : List Word) (more : List (Option Word)) (moreDram : List DramReply) (s : State) : State :=
  { transferAdvances ws s with
    flashReplies := more
    dramReplies := moreDram
    bus := s.bus ++ toFlashEvents s.dmaFlashAddr s.dmaDramAddr ws }

/-- The state after the first word was read from the memory and taken by the flash side. -/
def wordToFlash (w : Word) (more : List (Option Word)) (moreDram : List DramReply) (s : State) : State :=
  { s with
    flashReplies := more
    dramReplies := moreDram
    bus := s.bus ++ [.dramRead s.dmaDramAddr (some w), .flashWrite s.dmaFlashAddr w true] }

theorem writeStep_word {s : State} {ack : Option Word} {more : List (Option Word)} {moreDram : List DramReply}
    (external : s.binding = .external) (flashAligned : s.dmaFlashAddr.toNat % 4 = 0)
    (dramAligned : s.dmaDramAddr.toNat % 4 = 0) (taken : ack ≠ none) (reply : s.flashReplies = ack :: more)
    (dramReply : s.dramReplies = .plain :: moreDram) :
    writeStep s =
      (true, transferAdvance (s.dram.readWord s.dmaDramAddr.toNat)
        (wordToFlash (s.dram.readWord s.dmaDramAddr.toNat) more moreDram s)) := by
  have read := dramRead32_plain dramAligned dramReply
  have write := flashWrite32_external_reply (w := s.dram.readWord s.dmaDramAddr.toNat)
    (s := dramAnswered s.dmaDramAddr (s.dram.readWord s.dmaDramAddr.toNat) moreDram s) external flashAligned reply
  rw [Option.isSome_iff_ne_none.mpr taken] at write
  rw [writeStep_done read write]
  simp [wordToFlash, dramAnswered]

theorem movedToFlash_cons (w : Word) (ws : List Word) (answers more : List (Option Word))
    (dramAnswers moreDram : List DramReply) (s : State) :
    movedToFlash ws more moreDram (transferAdvance w (wordToFlash w answers dramAnswers s)) =
      movedToFlash (w :: ws) more moreDram s := by
  rw [movedToFlash, transferAdvances_cons]
  simp [movedToFlash, wordToFlash, transferAdvances, transferAdvance, toFlashEvents]

theorem dmaLoop_write {acks more : List (Option Word)} {moreDram : List DramReply} {s : State}
    (external : s.binding = .external) (flashAligned : s.dmaFlashAddr.toNat % 4 = 0)
    (dramAligned : s.dmaDramAddr.toNat % 4 = 0) (fits : s.dmaDramAddr.toNat + 4 * acks.length ≤ 2 ^ 32)
    (taken : ∀ a ∈ acks, a ≠ none) (replies : s.flashReplies = acks ++ more)
    (dramReplies : s.dramReplies = List.replicate acks.length .plain ++ moreDram) :
    dmaLoop writeStep acks.length s =
      (true, movedToFlash (s.dram.readWords s.dmaDramAddr.toNat acks.length) more moreDram s) := by
  induction acks generalizing s with
  | nil =>
    rw [List.nil_append] at replies
    rw [List.length_nil, List.replicate_zero, List.nil_append] at dramReplies
    rw [movedToFlash, List.length_nil, show s.dram.readWords s.dmaDramAddr.toNat 0 = [] from rfl, transferAdvances_nil]
    simp [dmaLoop, toFlashEvents, ← replies, ← dramReplies]
  | cons ack acks ih =>
    obtain ⟨first, rest⟩ := List.forall_mem_cons.mp taken
    have step := writeStep_word external flashAligned dramAligned first replies dramReplies
    have loop := ih
      (s := transferAdvance (s.dram.readWord s.dmaDramAddr.toNat)
        (wordToFlash (s.dram.readWord s.dmaDramAddr.toNat) (acks ++ more)
          (List.replicate acks.length .plain ++ moreDram) s))
      external (add_four_aligned flashAligned) (add_four_aligned dramAligned) (add_four_fits fits) rest rfl rfl
    rw [movedToFlash_cons] at loop
    rw [List.length_cons, dmaLoop_succ_done step, Memory.readWords_succ _ fits]
    exact loop

theorem transferRun_toFlash {acks more : List (Option Word)} {moreDram : List DramReply} {s : State}
    (toFlash : s.dmaCtrl.getLsbD 1 = true) (external : s.binding = .external)
    (flashAligned : s.dmaFlashAddr.toNat % 4 = 0) (dramAligned : s.dmaDramAddr.toNat % 4 = 0)
    (length : s.dmaLen.toNat = 4 * acks.length) (fits : s.dmaDramAddr.toNat + s.dmaLen.toNat ≤ 2 ^ 32)
    (taken : ∀ a ∈ acks, a ≠ none) (replies : s.flashReplies = acks ++ more)
    (dramReplies : s.dramReplies = List.replicate acks.length .plain ++ moreDram) :
    transferRun s = movedToFlash (s.dram.readWords s.dmaDramAddr.toNat acks.length) more moreDram s := by
  rw [transferRun_write toFlash (dmaSteps_of_words length),
    dmaLoop_write external flashAligned dramAligned (length ▸ fits) taken replies dramReplies]

/-- Settles O46: the words written are those of the memory, which no step changes. -/
theorem dmaFromDramToFlash : Obligations.DmaFromDramToFlash := by
  intro s calib up n acks more moreDram gate external flashAligned dramAligned length fits replies count taken
    dramReplies ws
  subst count
  refine exec_dmaWr_of_run gate (by omega) ?_
  rw [transferRun_toFlash (s := { s with dmaCtrl := dmaStartValue calib false true up }) (toFlash_of_wr calib up)
    external flashAligned dramAligned length fits taken replies dramReplies]
  simp only [movedToFlash, transferAdvances, Memory.length_readWords, inBytes_eq length, BitVec.sub_self]
  rfl

/-! Transfers that stop at their first word (R187, R47). -/

theorem dmaSteps_pos {s : State} (words : s.dmaLen.toNat % 4 = 0) (nonempty : s.dmaLen ≠ 0#32) :
    ∃ n, dmaSteps s = n + 1 := by
  have length : s.dmaLen.toNat ≠ 0 := fun zero => nonempty (BitVec.eq_of_toNat_eq zero)
  exact ⟨s.dmaLen.toNat / 4 - 1, by unfold dmaSteps; omega⟩

section
variable {s t : State} (words : s.dmaLen.toNat % 4 = 0) (nonempty : s.dmaLen ≠ 0#32)
include words nonempty

theorem transferRun_first_read_fails (toDram : s.dmaCtrl.getLsbD 1 = false) (first : readStep s = (false, t)) :
    transferRun s = t := by
  obtain ⟨n, steps⟩ := dmaSteps_pos words nonempty
  rw [transferRun_read toDram steps, dmaLoop_succ_fails first]

theorem transferRun_first_write_fails (toFlash : s.dmaCtrl.getLsbD 1 = true) (first : writeStep s = (false, t)) :
    transferRun s = t := by
  obtain ⟨n, steps⟩ := dmaSteps_pos words nonempty
  rw [transferRun_write toFlash steps, dmaLoop_succ_fails first]

end

/-- Settles O47: the first step of the loop fails in each of the five ways. -/
theorem dmaTransfersStopEarly : Obligations.DmaTransfersStopEarly := by
  intro s calib up w more moreDram gate external words nonempty a d rd wr
  let reads : State := { s with dmaCtrl := rd }
  let writes : State := { s with dmaCtrl := wr }
  have fromRead {t} (first : readStep reads = (false, t)) : exec (.dmaRd calib up) s = .next (completed t) :=
    exec_dmaRd_of_run gate words
      (transferRun_first_read_fails (s := reads) words nonempty (toDram_of_rd calib up) first)
  have fromWrite {t} (first : writeStep writes = (false, t)) : exec (.dmaWr calib up) s = .next (completed t) :=
    exec_dmaWr_of_run gate words
      (transferRun_first_write_fails (s := writes) words nonempty (toFlash_of_wr calib up) first)
  refine ⟨fun fa reply => ?_, fun misaligned => ?_, fun fa da reply dramReply => ?_, fun da dramReply => ?_,
    fun fa da dramReply reply => ?_⟩
  · exact fromRead (readStep_read_fails (flashRead32_external_reply (s := reads) external fa reply))
  · exact fromRead (readStep_read_fails (flashRead32_external_misaligned (s := reads) external misaligned))
  · rw [fromRead (readStep_write_fails (flashRead32_external_reply (s := reads) external fa reply)
        (dramWrite32_fail (s := flashAnswered a (some w) more reads) da dramReply))]
    simp [flashAnswered, addLog, addBus, reads, rd, a, d]
  · exact fromWrite (writeStep_read_fails (dramRead32_fail (s := writes) da dramReply))
  · rw [fromWrite (writeStep_write_fails (dramRead32_word (s := writes) da dramReply)
        (flashWrite32_external_reply (s := dramAnswered d w moreDram writes) external fa reply))]
    simp [dramAnswered, addLog, writes, wr, a, d]

end Sys2Proof.Machine

/-! Proofs of the family `60_exceptions.md`: what writes the system memory (O50). -/

namespace Sys2Proof.Machine

/-! The runs of the engine that store nothing in the system memory (R178, R179). -/

@[simp] theorem checksumStep_dram (s : State) : (checksumStep s).2.dram = s.dram := by
  obtain ⟨-, w, -, next⟩ | ⟨-, -, next⟩ := checksumStep_cases s <;> simp [next]

@[simp] theorem writeStep_dram (s : State) : (writeStep s).2.dram = s.dram := by
  obtain ⟨-, w, -, -, next⟩ | ⟨-, w, -, -, next⟩ | ⟨-, -, next⟩ := writeStep_cases s <;> simp [next]

theorem dmaLoop_dram {body : State → Bool × State} (h : ∀ s, (body s).2.dram = s.dram) (n : Nat) (s : State) :
    (dmaLoop body n s).2.dram = s.dram :=
  dmaLoop_keeps (·.dram = s.dram) (fun t kept => (h t).trans kept) n s rfl

@[simp] theorem injectFailure_dram (s : State) : (injectFailure s).dram = s.dram := by
  rw [injectFailure_eq]

@[simp] theorem calibrate_dram (s : State) : (calibrate s).dram = s.dram := by
  rw [calibrate_eq]

@[simp] theorem checksumRun_dram (s : State) : (checksumRun s).dram = s.dram := by
  have loop := dmaLoop_dram checksumStep_dram (dmaSteps s) s
  unfold checksumRun
  dsimp only
  split
  · rw [injectFailure_dram, loop]
  · exact loop

theorem transferRun_toFlash_dram {s : State} (toFlash : s.dmaCtrl.getLsbD 1 = true) :
    (transferRun s).dram = s.dram := by
  rw [transferRun_write toFlash rfl, dmaLoop_dram writeStep_dram]

/-! The operations that keep the system memory, one lemma for each shared operation of the rows. -/

/-- Every next state that the result can be has the system memory of `s`. -/
def KeepsMemory (s : State) (r : Result) : Prop := ∀ t, r = .next t → t.dram = s.dram

theorem keepsMemory_next {s t : State} (h : t.dram = s.dram) : KeepsMemory s (.next t) := by
  rintro u ⟨⟩
  exact h

theorem readIf_keepsMemory (r : Reg) (w : Width) (v : Word) (s : State) : KeepsMemory s (readIf r w v s) := by
  refine keepsMemory_next ?_
  split <;> rfl

theorem writeIf_keepsMemory (r : Reg) (value : Word) {s t : State} (h : t.dram = s.dram) :
    KeepsMemory s (writeIf r value s t) := by
  refine keepsMemory_next ?_
  split
  · exact h
  · rfl

theorem inMode_keepsMemory (cs : Cs) (m : Mode) {s t : State} (h : t.dram = s.dram) :
    KeepsMemory s (inMode cs m s t) := by
  intro u next
  obtain ⟨-, -, rfl⟩ := inMode_of_next next
  exact h

theorem ifDma_keepsMemory (value : Word) {s : State} {r : Result} (h : KeepsMemory s r) :
    KeepsMemory s (ifDma value s r) := by
  intro t next
  obtain ⟨-, next⟩ | ⟨-, rfl⟩ := ifDma_cases next
  · exact h t next
  · rfl

theorem startDma_keepsMemory {value : Word} {body : State → State} {s : State}
    (h : (body { s with dmaCtrl := value }).dram = s.dram) : KeepsMemory s (startDma value body s) := by
  intro t next
  obtain ⟨-, rfl⟩ | ⟨-, -, rfl⟩ := startDma_cases next
  · rfl
  · exact h

theorem writeCtrl_dram (cs : Cs) (value : Word) (s : State) : (writeCtrl cs value s).dram = s.dram := by
  unfold writeCtrl propagateAsserted
  split
  · rfl
  · split <;> rw [driveLine_dram]

theorem writeSeg_dram (cs : Cs) (value : Word) (s : State) : (writeSeg cs value s).dram = s.dram := by
  unfold writeSeg
  split
  · rfl
  · obtain ⟨es, next | ⟨g, x, next⟩⟩ := setSegment_frame cs value s <;> rw [next]
    · rfl
    · rfl

theorem userStore_dram (cs : Cs) (addr : Word) (bytes : List Byte) (s : State) :
    (userStore cs addr bytes s).dram = s.dram := by
  unfold userStore
  split
  · exact userBytes_dram cs bytes s
  · rfl

/-- Every operation keeps the system memory but DMA.RD and the write of DMA_CTRL that may be it (R205). -/
theorem exec_keepsMemory {i : Instr} (notWrite : ∀ w d, i ≠ .wrDmaCtrl w d) (notRead : ∀ c u, i ≠ .dmaRd c u)
    (s : State) : KeepsMemory s (exec i s) := by
  cases i with
  | rdConf | rdCeCtrl | rdIntrCtrl | rdDummyData | rdTimings
  | rdCtrl0 | rdCtrl1 | rdCtrl2 | rdCtrl3 | rdCtrl4
  | rdSegAddr0 | rdSegAddr1 | rdSegAddr2 | rdSegAddr3 | rdSegAddr4
  | rdDmaCtrl | rdDmaFlashAddr | rdDmaDramAddr | rdDmaLen | rdDmaChecksum =>
    exact readIf_keepsMemory _ _ _ s
  | wrConf | wrCeCtrl | wrIntrCtrl | wrDummyData | wrTimings
  | wrDmaFlashAddr | wrDmaDramAddr | wrDmaLen | wrDmaChecksum =>
    exact writeIf_keepsMemory _ _ rfl
  | wrCtrl0 | wrCtrl1 | wrCtrl2 | wrCtrl3 | wrCtrl4 =>
    exact writeIf_keepsMemory _ _ (writeCtrl_dram _ _ s)
  | wrSegAddr0 | wrSegAddr1 | wrSegAddr2 | wrSegAddr3 | wrSegAddr4 =>
    exact writeIf_keepsMemory _ _ (writeSeg_dram _ _ s)
  | rdUnrecognised | wrUnrecognised => exact keepsMemory_next rfl
  | fldRead | fldFread | fldWrite | fldUser =>
    exact inMode_keepsMemory _ _ (flashLoad_dram _ _ _ s)
  | fstRead | fstFread | fstWrite | fstUser =>
    exact inMode_keepsMemory _ _ (flashStore_dram _ _ _ _ s)
  | wrDmaCtrl w data => exact absurd rfl (notWrite w data)
  | dmaStop => exact ifDma_keepsMemory _ (keepsMemory_next rfl)
  | dmaCksum => exact ifDma_keepsMemory _ (startDma_keepsMemory (checksumRun_dram _))
  | dmaCksumCal =>
    exact ifDma_keepsMemory _ (startDma_keepsMemory ((checksumRun_dram _).trans (calibrate_dram _)))
  | dmaRd calib up => exact absurd rfl (notRead calib up)
  | dmaWr calib up =>
    exact ifDma_keepsMemory _ (startDma_keepsMemory (transferRun_toFlash_dram (toFlash_of_wr calib up)))
  | snoopPlainRead | snoopPlainRead4 | snoopPlainPp | snoopPlainPp4 | snoopPlainDpp | snoopPlainQpp
  | snoopPlainQpp4 | snoopPlainPp44 | snoopFastFastRead | snoopFastFastRead4 | snoopFastDor
  | snoopFastDor4 | snoopFastQor | snoopFastQor4 | snoopDualDior | snoopDualDior4 | snoopQuadQior
  | snoopQuadQior4 | snoopUnknown =>
    exact inMode_keepsMemory _ _ (userStore_dram _ _ _ s)

/-! The transfer from flash to DRAM: one word at the cursor for each step done (R179, R187). -/

/-- A step that is done stores one word at the cursor and moves it past the word; one that fails stores nothing. -/
theorem readStep_dram_cases (s : State) :
    (∃ w t, readStep s = (true, t) ∧ t.dram = s.dram.writeWord s.dmaDramAddr.toNat w ∧
      t.dmaDramAddr = s.dmaDramAddr + 4#32) ∨
    (∃ t, readStep s = (false, t) ∧ t.dram = s.dram) := by
  obtain ⟨done, w, -, stored, next⟩ | ⟨failed, w, -, refused, next⟩ | ⟨failed, -, next⟩ := readStep_cases s
  · refine .inl ⟨w, (readStep s).2, Prod.ext done rfl, ?_, ?_⟩
    · rw [next, transferAdvance_dram, dramWrite32_dram, if_pos stored, flashRead32_dram]
    · have cursor := (readStep_moved s).dram
      rwa [if_pos done] at cursor
  · refine .inr ⟨(readStep s).2, Prod.ext failed rfl, ?_⟩
    rw [next, addLog_dram, dramWrite32_dram, refused, if_neg Bool.false_ne_true, flashRead32_dram]
  · refine .inr ⟨(readStep s).2, Prod.ext failed rfl, ?_⟩
    rw [next, addLog_dram, flashRead32_dram]

/-- Steps that fit between the cursor and the end of the space leave every byte outside their words alone. The
cursor wraps only after a word that ends at the end of the space, and then no step is left. -/
theorem dmaLoop_readStep_outside {n x : Nat} {s : State} (canonical : s.dram.wf = true)
    (fits : s.dmaDramAddr.toNat + 4 * n ≤ 2 ^ 32)
    (outside : x < s.dmaDramAddr.toNat ∨ s.dmaDramAddr.toNat + 4 * n ≤ x) :
    (dmaLoop readStep n s).2.dram.readByte x = s.dram.readByte x := by
  induction n generalizing s with
  | zero => rfl
  | succ n ih =>
    obtain ⟨w, t, step, memory, cursor⟩ | ⟨t, step, memory⟩ := readStep_dram_cases s
    · have kept : t.dram.readByte x = s.dram.readByte x := by
        rw [memory, Memory.readByte_writeWord_outside canonical _ _ _ (by omega)]
      have outsideRest : x < t.dmaDramAddr.toNat ∨ t.dmaDramAddr.toNat + 4 * n ≤ x := by
        rw [cursor, BitVec.toNat_add, BitVec.toNat_ofNat]
        omega
      have canonicalRest : t.dram.wf = true := memory ▸ Memory.writeWord_wf _ w canonical
      rw [dmaLoop_succ_done step, ih canonicalRest (cursor ▸ add_four_fits fits) outsideRest, kept]
    · rw [dmaLoop_succ_fails step, memory]

/-- A transfer to DRAM leaves every byte outside its buffer alone (R179). -/
theorem transferRun_toDram_outside {s : State} {x : Nat} (toDram : s.dmaCtrl.getLsbD 1 = false)
    (canonical : s.dram.wf = true) (fits : s.dmaDramAddr.toNat + s.dmaLen.toNat ≤ 2 ^ 32)
    (outside : x < s.dmaDramAddr.toNat ∨ s.dmaDramAddr.toNat + s.dmaLen.toNat ≤ x) :
    (transferRun s).dram.readByte x = s.dram.readByte x := by
  have steps := dmaSteps_le s
  rw [transferRun_read toDram rfl]
  exact dmaLoop_readStep_outside canonical (by omega) (by omega)

/-- Settles O50: every row but DMA.RD and WR DMA_CTRL keeps the memory; DMA.RD is a logged write, a discarded
start, or a transfer whose words stay in the buffer. -/
theorem onlyTheBufferIsWritten : Obligations.OnlyTheBufferIsWritten := by
  refine ⟨fun s t i notWrite notRead next x => ?_, fun s t calib up canonical fits next x outside => ?_⟩
  · rw [exec_keepsMemory notWrite notRead s t next]
  · have start : ifDma _ s (startDma (dmaStartValue calib false false up) transferRun s) = .next t := next
    obtain ⟨-, ran⟩ | ⟨-, rfl⟩ := ifDma_cases start
    · obtain ⟨-, rfl⟩ | ⟨-, -, rfl⟩ := startDma_cases ran
      · rfl
      · exact transferRun_toDram_outside (s := { s with dmaCtrl := dmaStartValue calib false false up })
          (toDram_of_rd calib up) canonical fits outside
    · rfl

end Sys2Proof.Machine

/-! Proofs of the family `70_reset_and_hazards.md`: the stuck gate (O49), reset (O54), construction (O55), save
(O56) and restore (O57, O58). -/

namespace Sys2Proof.Machine

open Sys2Proof.Claims

/-! The gate that a write of INTR_CTRL closes (R231). -/

theorem exec_wrIntrCtrl_w4 (v : Word) (s : State) :
    exec (.wrIntrCtrl .w4 v) s = .next { s with intrCtrl := v, ret := none } := rfl

/-- A stop stores a value with ENABLE clear, so it opens the gate (R176, R177). -/
theorem exec_dmaStop_opens {s : State} (present : s.variant.hasDma = true) (up : BitVec 31) :
    ∃ u, exec (.dmaStop up) s = .next u ∧ DmaOpen u ∧ u.dmaLen = s.dmaLen := by
  refine ⟨_, dmaStop s up present, ⟨present, .inl ?_⟩, rfl⟩
  rw [← dmaStopValue_eq_ofNat, getLsbD_dmaStopValue]
  rfl

/-- Settles O49: the write leaves ENABLE set and DMA_STATUS clear, so a start is discarded; a stop opens the
gate, and the start behind it completes. -/
theorem stuckGateOpensByStop : Obligations.StuckGateOpensByStop := by
  intro s t v i value up row present enable status words written
  rw [exec_wrIntrCtrl_w4] at written
  injection written with written
  subst written
  let stuck : State := { s with intrCtrl := v, ret := none }
  obtain ⟨u, stopped, gate, len⟩ := exec_dmaStop_opens (s := stuck) present up
  obtain ⟨x, started, stored, intrCtrl, -⟩ := dmaStartsComplete u i value row gate (len ▸ words)
  refine ⟨dmaStartWhileInProgress stuck i value row present enable status, u, x, stopped, started, stored, ?_⟩
  rw [intrCtrl]
  exact setDmaStatus_status _

/-! The lines of a reset and of a restore: no byte is transferred. -/

theorem sentBytes_append (l m : List BusEvent) : sentBytes (l ++ m) = sentBytes l ++ sentBytes m :=
  List.filterMap_append

theorem sentBytes_of_lines {l : List BusEvent} (lines : ∀ e ∈ l, ∃ cs b, e = BusEvent.line cs b) :
    sentBytes l = [] := by
  refine List.filterMap_eq_nil_iff.mpr fun e he => ?_
  obtain ⟨cs, b, rfl⟩ := lines e he
  rfl

theorem sentBytes_driveLines (level : Cs → Bool) (s : State) :
    sentBytes (driveLines level s).bus = sentBytes s.bus := by
  obtain ⟨l, lines, bus⟩ := driveLines_bus level s
  rw [bus, sentBytes_append, sentBytes_of_lines lines, List.append_nil]

/-! Reset (R220). -/

/-- What R220 writes, the slots and the record aside. -/
theorem resetBlock_frame (s : State) :
    resetBlock s = { s with
      conf := 0#32, ceCtrl := 0#32, intrCtrl := 0#32, dummyData := 0#32, timings := 0#32
      dmaCtrl := 0#32, dmaFlashAddr := 0#32, dmaDramAddr := 0#32, dmaLen := 0#32, dmaChecksum := 0#32
      snoopIndex := .off, snoopDummies := 0, irq := false
      ctrl := (resetBlock s).ctrl, segAddr := (resetBlock s).segAddr, region := (resetBlock s).region
      csline := (resetBlock s).csline, bus := (resetBlock s).bus } := by
  unfold resetBlock
  rw [driveLines_frame]

/-- Settles O54: the block after a reset stands at the defaults (R220), and the lines are all that is driven. -/
theorem resetRestoresTheDefaults : Obligations.ResetRestoresTheDefaults := by
  intro s
  have defaults := resetBlock_atDefaults s
  have parameters := (resetBlock_continues s).variant
  refine ⟨resetBlock s, serveNext_eq .reset s, fun cs present => ?_, sentBytes_driveLines _ _, resetBlock_frame s⟩
  rw [← parameters] at present ⊢
  exact ⟨defaults.ctrl cs present, defaults.segAddr cs present, defaults.region cs present,
    defaults.csline cs present⟩

/-! Construction (R224). -/

theorem presentSlots_self {α : Type} {v : Variant} {f : Cs → α} {old : Slots α}
    (h : ∀ cs, v.has cs = true → old.get cs = f cs) : presentSlots v f old = old := by
  refine Slots.ext_get fun cs => ?_
  rw [get_presentSlots]
  split
  · next present => exact (h cs present).symm
  · rfl

theorem driveLines_csline_self {level : Cs → Bool} {s : State}
    (h : ∀ cs, s.variant.has cs = true → s.csline.get cs = level cs) : (driveLines level s).csline = s.csline := by
  refine Slots.ext_get fun cs => ?_
  rw [driveLines_csline]
  split
  · next present => exact (h cs present).symm
  · rfl

/-- A reset leaves the slots of a block that stands at the defaults alone. -/
theorem AtDefaults.resetBlock_slots {s : State} (d : AtDefaults s) :
    (resetBlock s).ctrl = s.ctrl ∧ (resetBlock s).segAddr = s.segAddr ∧ (resetBlock s).region = s.region ∧
      (resetBlock s).csline = s.csline := by
  refine ⟨?_, ?_, ?_, driveLines_csline_self d.csline⟩ <;> rw [resetBlock, driveLines_frame]
  · exact presentSlots_self d.ctrl
  · exact presentSlots_self d.segAddr
  · exact presentSlots_self d.region

/-- A reset of a newly constructed block changes nothing but the record. -/
theorem resetBlock_ofVariant (v : Variant) (b : FlashBinding) (m : Memory) :
    resetBlock (State.ofVariant v b m)
      = { State.ofVariant v b m with bus := (resetBlock (State.ofVariant v b m)).bus } := by
  obtain ⟨ctrl, segAddr, region, csline⟩ := (ofVariant_atDefaults v b m).resetBlock_slots
  refine (resetBlock_frame _).trans ?_
  rw [ctrl, segAddr, region, csline]
  rfl

theorem construct_some {v : Variant} (descriptor : v.wf = true) (b : FlashBinding) (m : Memory) :
    construct v b (some m) = .ok (State.ofVariant v b m) :=
  if_neg (ne_false_of_eq_true descriptor)

theorem construct_none {v : Variant} (descriptor : v.wf = true) (b : FlashBinding) :
    construct v b none = if v.hasDma then .error .noDramSpace else .ok (State.ofVariant v b []) :=
  if_neg (ne_false_of_eq_true descriptor)

/-- Settles O55: the descriptor is tested first, then the DRAM space where the variant has DMA. -/
theorem construction : Obligations.Construction := by
  intro v b dram
  refine ⟨fun illFormed => if_pos illFormed, fun descriptor dma absent => ?_, fun descriptor supplied => ⟨?_, ?_⟩⟩
  · rw [absent, construct_none descriptor, if_pos dma]
  · cases dram with
    | some m => exact construct_some descriptor b m
    | none => rw [construct_none descriptor, if_neg fun dma => supplied dma rfl, Option.getD_none]
  · exact ⟨_, (serveNext_eq .reset _).trans (congrArg Host.Outcome.next (resetBlock_ofVariant v b _))⟩

/-! Save (R225). -/

theorem serveNext_save (s : State) : serveNext .save s = .next { s with saved := some (takeSnapshot s) } :=
  serveNext_eq .save s

theorem cursorByte_eq (c : SnoopIndex) : cursorByte c = savedCursor c := by cases c <;> rfl

/-- Settles O56: the snapshot that is taken holds each register as it stands. -/
theorem saveChangesNothing : Obligations.SaveChangesNothing := fun s =>
  ⟨takeSnapshot s, serveNext_save s, rfl, rfl, rfl, rfl, rfl, rfl, rfl, rfl, rfl, rfl, rfl, rfl, rfl, rfl,
    cursorByte_eq s.snoopIndex, rfl⟩

/-! Restore (R226). -/

/-- What the second half of R226 writes, the lines and the record aside. -/
theorem rebuildOutputs_frame (s : State) :
    rebuildOutputs s = { s with
      region := presentSlots s.variant (fun cs => atLeastEmpty (decodeSegment s.variant (s.segAddr.get cs))) s.region
      irq := s.variant.hasDma && s.intrCtrl.getLsbD 11 && dmaEnField s.intrCtrl
      csline := (rebuildOutputs s).csline, bus := (rebuildOutputs s).bus } := by
  unfold rebuildOutputs
  rw [driveLines_frame]

theorem rebuildOutputs_csline {s : State} {cs : Cs} (present : s.variant.has cs = true) :
    (rebuildOutputs s).csline.get cs = assertedWord (s.ctrl.get cs) := by
  rw [← assertedField_eq]
  exact (driveLines_csline _ _ cs).trans (if_pos present)

theorem atLeastEmpty_eq (g : Segment) : atLeastEmpty g = ⟨g.start, max 0 g.size⟩ := by
  unfold atLeastEmpty
  split
  · next negative => rw [max_eq_left negative.le]
  · next nonneg => rw [max_eq_right (not_lt.mp nonneg)]

theorem rebuildOutputs_region {s : State} {cs : Cs} (present : s.variant.has cs = true) :
    (rebuildOutputs s).region.get cs =
      ⟨(decodeSegment s.variant (s.segAddr.get cs)).start, max 0 (decodeSegment s.variant (s.segAddr.get cs)).size⟩ := by
  rw [rebuildOutputs_frame, ← atLeastEmpty_eq]
  exact (get_presentSlots _ _ _ cs).trans (if_pos present)

/-- The slots of a chip-select after the whole of R226: the registers are those of the snapshot, the sub-region and
the line follow them. -/
theorem restored_slots (p : Snapshot) {s : State} {cs : Cs} (present : s.variant.has cs = true) :
    (restoreRegisters p s).ctrl.get cs = p.ctrl.get cs ∧ (restoreRegisters p s).segAddr.get cs = p.segAddr.get cs ∧
      (rebuildOutputs (restoreRegisters p s)).region.get cs = ⟨(decodeSegment s.variant (p.segAddr.get cs)).start,
        max 0 (decodeSegment s.variant (p.segAddr.get cs)).size⟩ ∧
      (rebuildOutputs (restoreRegisters p s)).csline.get cs = assertedWord (p.ctrl.get cs) := by
  have ctrl : (restoreRegisters p s).ctrl.get cs = p.ctrl.get cs := (get_presentSlots _ _ _ cs).trans (if_pos present)
  have segAddr : (restoreRegisters p s).segAddr.get cs = p.segAddr.get cs :=
    (get_presentSlots _ _ _ cs).trans (if_pos present)
  refine ⟨ctrl, segAddr, ?_, ?_⟩
  · rw [← segAddr]
    exact rebuildOutputs_region present
  · rw [← ctrl]
    exact rebuildOutputs_csline present

theorem restoredDma_present {s : State} (dma : s.variant.hasDma = true) (saved old : Word) :
    restoredDma s saved old = saved := if_pos dma

theorem toNat_and_lowByte (x : Word) : (x &&& 0xFF#32).toNat = x.toNat % 256 := by
  rw [BitVec.toNat_and]
  exact Nat.and_two_pow_sub_one_eq_mod x.toNat 8

theorem cursorOfByte_off {b : Byte} (h : b = 0xFF#8) : cursorOfByte b = .off := if_pos h

theorem cursorOfByte_start {b : Byte} (h : b = 0x00#8) : cursorOfByte b = .start := by
  subst h
  rfl

theorem cursorOfByte_count {b : Byte} (notOff : b ≠ 0xFF#8) (notStart : b ≠ 0x00#8) :
    cursorOfByte b = .count b.toNat := by
  rw [cursorOfByte, if_neg notOff, if_neg notStart]

theorem restoreBlock_matching {p : Snapshot} {s : State} (version : p.version = 1) (same : p.takenOf = s.variant) :
    restoreBlock p s = .next (rebuildOutputs (restoreRegisters p s)) := by
  rw [restoreBlock, if_neg (not_not.mpr version), if_neg (not_not.mpr same)]

/-- Settles O57: the two refusals, then the registers loaded and the outputs rebuilt from them. -/
theorem restoreRebuildsTheOutputs : Obligations.RestoreRebuildsTheOutputs := by
  intro s p
  have served : serveNext (.restore p) s = restoreBlock p s := serveNext_eq (.restore p) s
  rw [served]
  refine ⟨fun foreign => if_pos foreign, fun version foreign => ?_, fun version same =>
    ⟨_, restoreBlock_matching version same, ?_⟩⟩
  · rw [restoreBlock, if_neg (not_not.mpr version), if_pos foreign]
  · have slots (cs : Cs) (present : s.variant.has cs = true) := restored_slots p present
    have bytes : sentBytes (rebuildOutputs (restoreRegisters p s)).bus = sentBytes s.bus := sentBytes_driveLines _ _
    rw [rebuildOutputs_frame] at slots bytes ⊢
    exact ⟨rfl, rfl, rfl, rfl, toNat_and_lowByte _,
      fun dma => ⟨restoredDma_present dma _ _, restoredDma_present dma _ _, restoredDma_present dma _ _,
        restoredDma_present dma _ _, restoredDma_present dma _ _⟩,
      rfl, cursorOfByte_off, cursorOfByte_start, cursorOfByte_count, slots, rfl, rfl, rfl, bytes⟩

/-! A save undone by a restore, in a state that meets the invariant. -/

/-- The sub-region of a register that decodes to a segment that is not empty is that segment (R132(a)). -/
theorem Invariant.region_of_nonempty {s : State} (h : Invariant s) {cs : Cs} (present : s.variant.has cs = true)
    (nonempty : (decodeSegment s.variant (s.segAddr.get cs)).size ≠ 0) :
    s.region.get cs = decodeSegment s.variant (s.segAddr.get cs) := by
  rcases h.decodes cs present with (same | ⟨-, empty⟩) | ⟨layout, -, zero, -⟩
  · exact same
  · exact absurd empty nonempty
  · exact absurd (by rw [zero, decodeSegment_new_zero _ layout]) nonempty

/-- A register decodes to no negative size (R132(d)). -/
theorem Invariant.decoded_nonneg {s : State} (h : Invariant s) {cs : Cs} (present : s.variant.has cs = true) :
    0 ≤ (decodeSegment s.variant (s.segAddr.get cs)).size := by
  by_cases empty : (decodeSegment s.variant (s.segAddr.get cs)).size = 0
  · exact empty.ge
  · rw [← h.region_of_nonempty present empty]
    exact (h.inside cs present).1

/-- The sub-region is the decoded register or both are empty, but for the first MiB (log 19). -/
theorem Invariant.decoded_region {s : State} (h : Invariant s) {cs : Cs} (present : s.variant.has cs = true) :
    firstMiBClamped s cs ∨ decodeSegment s.variant (s.segAddr.get cs) = s.region.get cs ∨
      ((decodeSegment s.variant (s.segAddr.get cs)).size = 0 ∧ (s.region.get cs).size = 0) := by
  rcases h.decodes cs present with (same | ⟨region, decoded⟩) | first
  · exact .inr (.inl same.symm)
  · exact .inr (.inr ⟨decoded, region⟩)
  · exact .inl first

/-- A decoded register with a fixed end ends there or is empty (R132(c)). -/
theorem Invariant.decoded_fixedEnd {s : State} (h : Invariant s) {cs : Cs} (present : s.variant.has cs = true)
    {e : Nat} (fixed : s.variant.fixedEnd.get cs = some e) :
    (decodeSegment s.variant (s.segAddr.get cs)).stop = (e : Int) ∨
      (decodeSegment s.variant (s.segAddr.get cs)).size = 0 := by
  by_cases empty : (decodeSegment s.variant (s.segAddr.get cs)).size = 0
  · exact .inr empty
  · rw [← h.region_of_nonempty present empty]
    exact .inl (h.fixedEnd cs present e fixed)

/-- A cursor within its bounds is the cursor of its saved byte (R168). -/
theorem cursor_roundTrip {s : State} (bounded : SnoopBounded s) :
    cursorOfByte (cursorByte s.snoopIndex) = s.snoopIndex := by
  obtain ⟨-, counting⟩ := bounded
  cases cursor : s.snoopIndex with
  | off => rfl
  | start => rfl
  | count k =>
    rw [cursor] at counting
    obtain ⟨positive, budget, top⟩ := counting
    have byte : (BitVec.ofNat 8 k).toNat = k := by
      rw [BitVec.toNat_ofNat]
      omega
    rw [cursorByte, cursorOfByte_count, byte]
    · intro off
      rw [off] at byte
      change 255 = k at byte
      omega
    · intro start
      rw [start] at byte
      change 0 = k at byte
      omega

theorem budget_roundTrip {s : State} (bounded : SnoopBounded s) :
    (BitVec.ofNat 8 s.snoopDummies).toNat = s.snoopDummies := by
  obtain ⟨top, -⟩ := bounded
  rw [BitVec.toNat_ofNat]
  omega

/-- Where a restore of a snapshot of `s` leaves a block of the same descriptor (R226): the registers, cursor, budget
and lines of `s`, the sub-regions decoded from its registers. -/
structure RestoredFrom (s t : State) : Prop where
  variant : t.variant = s.variant
  conf : t.conf = s.conf
  ceCtrl : t.ceCtrl = s.ceCtrl
  intrCtrl : t.intrCtrl = s.intrCtrl
  dummyData : t.dummyData = s.dummyData
  timings : t.timings = s.timings
  dmaCtrl : t.dmaCtrl = s.dmaCtrl
  dmaFlashAddr : t.dmaFlashAddr = s.dmaFlashAddr
  dmaDramAddr : t.dmaDramAddr = s.dmaDramAddr
  dmaLen : t.dmaLen = s.dmaLen
  dmaChecksum : t.dmaChecksum = s.dmaChecksum
  ctrl : ∀ cs, s.variant.has cs = true → t.ctrl.get cs = s.ctrl.get cs
  segAddr : ∀ cs, s.variant.has cs = true → t.segAddr.get cs = s.segAddr.get cs
  csline : ∀ cs, s.variant.has cs = true → t.csline.get cs = s.csline.get cs
  region : ∀ cs, s.variant.has cs = true → t.region.get cs = decodeSegment s.variant (s.segAddr.get cs)
  cursor : t.snoopIndex = s.snoopIndex
  budget : t.snoopDummies = s.snoopDummies

/-- The restored state meets the invariant where its sub-regions keep the fixed ends, which is the one clause that an
empty segment can break (log 19). -/
theorem RestoredFrom.invariant {s t : State} (r : RestoredFrom s t) (h : Invariant s) (memory : t.dram.wf = true)
    (fixed : ∀ cs e, s.variant.has cs = true → s.variant.fixedEnd.get cs = some e →
      (decodeSegment s.variant (s.segAddr.get cs)).stop = (e : Int)) : Invariant t := by
  have cs0 := Variant.wf_has_cs0 h.descriptor
  constructor
  case descriptor => exact r.variant ▸ h.descriptor
  case base => rw [r.region .cs0 cs0, r.variant, h.baseWord]
  case baseWord => rw [r.segAddr .cs0 cs0, r.variant, h.baseWord]
  case lenMasked => exact r.dmaLen ▸ h.lenMasked
  case dummyMasked => exact r.dummyData ▸ h.dummyMasked
  case memory => exact memory
  case snoop =>
    unfold SnoopBounded
    rw [r.cursor, r.budget]
    exact h.snoop
  all_goals
    intro cs present
    rw [r.variant] at present
  case decodes => exact .inl (.inl (by rw [r.region cs present, r.variant, r.segAddr cs present]))
  case fixedEnd =>
    intro e he
    rw [r.variant] at he
    rw [r.region cs present, fixed cs e present he]
  case inside =>
    rw [RegionInside, r.region cs present, r.variant]
    refine ⟨h.decoded_nonneg present, fun nonempty => ?_⟩
    have region := h.region_of_nonempty present nonempty.ne'
    rw [← region] at nonempty ⊢
    exact (h.inside cs present).2 nonempty
  case lines => rw [r.csline cs present, h.lines cs present, State.asserted, State.asserted, r.ctrl cs present]

/-- A register word with a fixed end and a positive size decodes to a segment with that end (R132(a), R132(c)). -/
theorem Invariant.decoded_stop {s : State} (h : Invariant s) {cs : Cs} (present : s.variant.has cs = true) {e : Nat}
    (fixed : s.variant.fixedEnd.get cs = some e)
    (word : 0 < (decodeSegment s.variant (s.segAddr.get cs)).size ∨
      (decodeSegment s.variant (s.segAddr.get cs)).stop = (e : Int)) :
    (decodeSegment s.variant (s.segAddr.get cs)).stop = (e : Int) := by
  rcases word with positive | ends
  · exact (h.decoded_fixedEnd present fixed).resolve_right positive.ne'
  · exact ends

theorem takeSnapshot_of_save {s : State} {p : Snapshot}
    (saved : serveNext .save s = .next { s with saved := some p }) : p = takeSnapshot s := by
  rw [serveNext_save] at saved
  injection saved with saved
  exact (Option.some.inj (congrArg State.saved saved)).symm

/-- A restore of the snapshot of `s` in a state of the same descriptor leaves that state where `s` stood. -/
theorem restored_from_snapshot {s u : State} (h : Invariant s) (same : u.variant = s.variant)
    (dma : s.variant.hasDma = true) : RestoredFrom s (rebuildOutputs (restoreRegisters (takeSnapshot s) u)) := by
  have slots {cs : Cs} (present : s.variant.has cs = true) :=
    restored_slots (takeSnapshot s) (s := u) (same.symm ▸ present)
  rw [same] at slots
  rw [← same] at dma
  constructor
  case csline =>
    intro cs present
    obtain ⟨-, -, -, csline⟩ := slots present
    rw [csline, h.lines cs present, ← assertedField_eq]
    rfl
  case region =>
    intro cs present
    obtain ⟨-, -, region, -⟩ := slots present
    rw [region]
    exact congrArg (Segment.mk _) (max_eq_right (h.decoded_nonneg present))
  all_goals rw [rebuildOutputs_frame]
  case variant => exact same
  case ctrl =>
    intro cs present
    obtain ⟨ctrl, -⟩ := slots present
    exact ctrl
  case segAddr =>
    intro cs present
    obtain ⟨-, segAddr, -⟩ := slots present
    exact segAddr
  case conf | ceCtrl | intrCtrl | timings => rfl
  case dmaCtrl | dmaFlashAddr | dmaDramAddr | dmaChecksum => exact restoredDma_present dma _ _
  case dmaLen => exact (restoredDma_present dma _ _).trans (and_mask_of_masked h.lenMasked)
  case dummyData => exact and_mask_of_masked h.dummyMasked
  case cursor => exact cursor_roundTrip h.snoop
  case budget => exact budget_roundTrip h.snoop

/-- Settles O58: each part of the snapshot comes back as it was, and the sub-regions are those of the registers. -/
theorem restoreUndoesSave : Obligations.RestoreUndoesSave := by
  intro s u p hs hu same dma saved
  obtain rfl := takeSnapshot_of_save saved
  have r := restored_from_snapshot hs same dma
  have memory : (rebuildOutputs (restoreRegisters (takeSnapshot s) u)).dram.wf = true := by
    rw [rebuildOutputs_frame]
    exact hu.memory
  refine ⟨_, (serveNext_eq _ u).trans (restoreBlock_matching rfl same.symm), r.conf, r.ceCtrl, r.intrCtrl, r.dummyData,
    r.timings, r.dmaCtrl, r.dmaFlashAddr, r.dmaDramAddr, r.dmaLen, r.dmaChecksum, r.cursor, r.budget,
    fun cs present => ⟨r.ctrl cs present, r.segAddr cs present, r.csline cs present⟩,
    fun cs present => ?_, fun cs e present fixed => ?_, fun words => ?_⟩
  · rw [r.region cs present]
    exact hs.decoded_region present
  · rw [r.region cs present]
    exact hs.decoded_fixedEnd present fixed
  · exact r.invariant hs memory fun cs e present fixed => hs.decoded_stop present fixed (words cs e present fixed)

end Sys2Proof.Machine
